-- ==== Sys2Proof/Word.lean ====
section
/-!
DEFINITION. The word types of ROHC-ENC (00_scope.md R13: an octet is 8 bits, every multi-octet field
is an unsigned word).
-/
namespace Sys2Proof

/-- One octet. -/
abbrev Byte := BitVec 8
/-- A 16-bit field: SN, IP-ID, ports, lengths of IP and UDP headers. -/
abbrev U16 := BitVec 16
/-- A 32-bit operand or response register. -/
abbrev U32 := BitVec 32
/-- An arrival time. -/
abbrev U64 := BitVec 64

end Sys2Proof
end

