-- ==== Sys2Proof/Config.lean ====
section
/-!
DEFINITION. The parameters of ROHC-ENC (00_scope.md R11 and R12), with the values the spec takes, and
the values the spec leaves open, as constants with no body.
-/
namespace Sys2Proof

/-- CID type, one bit: 0 SMALL, 1 LARGE (10_state.md R26). -/
inductive CidType where
  | small
  | large
deriving DecidableEq, Repr, Inhabited

/-- In what order the CRC generators take the bytes (R12 CRC_OCTET_ORDER, 20_memory.md R65). NATURAL is the
one value the spec names. -/
inductive OctetOrder where
  | natural
deriving DecidableEq, Repr

/-- The fields of an IP-header record that hold no value before a context's first commit
(10_state.md R30). -/
structure FreeHdr where
  tos : Byte
  ttl : Byte
  proto : Byte
  df : Bool
  id : U16
deriving DecidableEq, Repr, Inhabited

namespace Config

/-! ## Parameters the document fixes (R11) -/

def maxIrCount : Nat := 3
def maxFoCount : Nat := 3
def changeToIrCount : Nat := 1700
def changeToFoCount : Nat := 700
/-- Largest CID of each type. -/
def cidBound : CidType → Nat
  | .small => 15
  | .large => 16383
/-- W-LSB offset of the SN (R11, R123). -/
def pSn : Int := -1
/-- W-LSB offset of the IP-ID (R11, R123). -/
def pIpid : Int := 0
/-- W-LSB offset of RTP TS, used by no admitted profile (R11, R123). -/
def pTs (wlsbWidth : Nat) : Int := (wlsbWidth / 2 : Nat) - 1
def fcs32Init : U32 := 0xFFFFFFFF

/-! ## Parameters with the value the spec takes (R12, 92_eei_decisions.md D6) -/

/-- The strap CID_TYPE of `State.reset`. DESIGN CHOICE (log 1): the strap is an input of reset. -/
def strapCidType : CidType := .small
/-- The strap MAX_CID of `State.reset`. DESIGN CHOICE (log 1). -/
def strapMaxCid : Nat := 15
def feedbackRingSize : Nat := 64
/-- R12 says 3. The preamble of 95_test_vectors.md says 4, its vectors agree with 3. DEDUCED (log 13). -/
def oaRepetitions : Nat := 3
def rohcMaxMrru : Nat := 65535
def wlsbWidthMax : Nat := 64
def ipidMaxDelta : Nat := 20
def fbMaxLen : Nat := 255
def cntMax : Nat := 2 ^ 32 - 1
def maxRtpPorts : Nat := 15
def modeCodeU : BitVec 2 := 1
def fcs32Xorout : U32 := 0x00000000
def fcs32LsoFirst : Bool := false
def crcOctetOrder : OctetOrder := .natural
def rcOk : Byte := 0x01
def rcNeedSegment : Byte := 0x02
/-- `sext_8(-5)` (R82). -/
def rcError : Byte := 0xFB
/-- Reset value of CFG.WLSB_WIDTH (R26). -/
def wlsbWidthReset : Nat := 4

/-! ## Open values: constants with no body -/

/-- CRC2_POLY, open (R12, R130). Read by no rule. Log 16, safe. -/
opaque crc2Poly : Byte
/-- CRC6_POLY, open (R12, R130). Read by no rule. Log 16, safe. -/
opaque crc6Poly : Byte
/-- What byte a of IN holds where HOST has written none (20_memory.md R66, R67). Log 10, safe. -/
opaque freeIn : Nat → Byte
/-- What byte a of RRU.buf holds where no SEGMENT_ENTER has written one (70_reset_and_hazards.md R373, U2).
Log 10, safe. -/
opaque freeRru : Nat → Byte
/-- The n-th `rand16` draw that HOST has no queued answer for (R9, U11). Log 8, safe. -/
opaque freeRand : Nat → U16
/-- What the fields tos, ttl, proto, df, id of IP header h hold between the creation of a context
(the n-th draw) and its first commit (R30, R158, U2). Log 12, safe. -/
opaque freeHdr : Nat → Nat → FreeHdr

end Config

/-! ## The parameters as an argument (R12) -/

/-- The parameters the document leaves to the implementation: "each is an argument of the model" (R12,
92_eei_decisions.md D6). Every operation that one of them bears on takes them as its last argument.
CID_TYPE and MAX_CID are arguments of reset. -/
structure Params where
  feedbackRingSize : Nat
  oaRepetitions : Nat
  rohcMaxMrru : Nat
  wlsbWidthMax : Nat
  ipidMaxDelta : Nat
  fbMaxLen : Nat
  cntMax : Nat
  maxRtpPorts : Nat
  modeCodeU : BitVec 2
  fcs32Xorout : U32
  fcs32LsoFirst : Bool
  crcOctetOrder : OctetOrder
  rcNeedSegment : Byte
  crc2Poly : Byte
  crc6Poly : Byte
deriving DecidableEq, Repr

/-- The values this spec takes (R12); `exec` and `step` are the machine with them (log 18). -/
@[reducible]
def Params.spec : Params :=
  { feedbackRingSize := Config.feedbackRingSize, oaRepetitions := Config.oaRepetitions,
    rohcMaxMrru := Config.rohcMaxMrru, wlsbWidthMax := Config.wlsbWidthMax,
    ipidMaxDelta := Config.ipidMaxDelta, fbMaxLen := Config.fbMaxLen, cntMax := Config.cntMax,
    maxRtpPorts := Config.maxRtpPorts, modeCodeU := Config.modeCodeU, fcs32Xorout := Config.fcs32Xorout,
    fcs32LsoFirst := Config.fcs32LsoFirst, crcOctetOrder := Config.crcOctetOrder,
    rcNeedSegment := Config.rcNeedSegment, crc2Poly := Config.crc2Poly, crc6Poly := Config.crc6Poly }

end Sys2Proof
end

