-- ==== Sys2Proof/Syntax.lean ====
section
/-!
DEFINITION. The instructions of ROHC-ENC: one constructor per row of spec/opcode_table.json.
00_scope.md R7 reads "instruction" as a host command and each internal operation a command is built
from. The first 18 rows are the commands (30_encoding.md R81), the other 18 the wire formats, each the
internal operation that emits it (log 5). A constructor's arguments are the fields of the row, with
the widths of 30_encoding.md R80 and R109.
-/
namespace Sys2Proof

inductive Instr where
  /-- COMPRESS, op 0x01 (R301): `CMD.t`, `CMD.in_len`, `CMD.a` = out_max. -/
  | compress (t : U64) (inLen : U32) (outMax : U32)
  /-- GET_SEGMENT, op 0x02 (R283): `CMD.a` = out_max. -/
  | getSegment (outMax : U32)
  /-- PROF_ENABLE, op 0x10 (R304): all of `CMD.a`, whose upper half must be 0. -/
  | profEnable (a : U32)
  /-- PROF_DISABLE, op 0x11 (R305). -/
  | profDisable (a : U32)
  /-- SET_WLSB, op 0x12 (R306). -/
  | setWlsb (width : U32)
  /-- SET_REFRESH, op 0x13 (R307): `CMD.a` = ir, `CMD.b` = fo. -/
  | setRefresh (ir : U32) (fo : U32)
  /-- SET_MRRU, op 0x14 (R308). -/
  | setMrru (bytes : U32)
  /-- RTP_PORT_ADD, op 0x18 (R309). -/
  | rtpPortAdd (port : U32)
  /-- RTP_PORT_REMOVE, op 0x19 (R310). -/
  | rtpPortRemove (port : U32)
  /-- RTP_PORT_RESET, op 0x1A (R311). -/
  | rtpPortReset
  /-- FB_PIGGYBACK, op 0x20 (R261): `CMD.in_len`. -/
  | fbPiggyback (inLen : U32)
  /-- FB_DELIVER, op 0x21 (R269): `CMD.in_len`. -/
  | fbDeliver (inLen : U32)
  /-- FB_FLUSH, op 0x22 (R267): `CMD.a` = out_max. -/
  | fbFlush (outMax : U32)
  /-- FB_AVAIL, op 0x23 (R268). -/
  | fbAvail
  /-- FB_REMOVE_LOCKED, op 0x24 (R265). -/
  | fbRemoveLocked
  /-- FB_UNLOCK, op 0x25 (R266). -/
  | fbUnlock
  /-- REINIT, op 0x30 (R312). -/
  | reinit
  /-- RD_CFG, op 0x40 (R313): `CMD.a` = selector. -/
  | rdCfg (sel : U32)
  /-- UO_0, `0SSSSCCC` (R93, R232). -/
  | uo0 (sn : BitVec 4) (crc : BitVec 3)
  /-- UO_1, `10IIIIII SSSSSCCC` (R94, R233). -/
  | uo1 (ipid : BitVec 6) (sn : BitVec 5) (crc : BitVec 3)
  /-- UOR_2, `110SSSSS XCCCCCCC` (R95, R234). -/
  | uor2 (sn : BitVec 5) (x : BitVec 1) (crc : BitVec 7)
  /-- ADD_CID, `1110xxxx` (R86). -/
  | addCid (cid : BitVec 4)
  /-- FEEDBACK_SHORT, `11110LLL` (R89, R263). -/
  | feedbackShort (len : BitVec 3)
  /-- FEEDBACK_LONG, `11110000 LLLLLLLL` (R89, R263). -/
  | feedbackLong (len : BitVec 8)
  /-- IR_DYN, `11111000` (R92, R231). -/
  | irDyn
  /-- NORMAL, `11111100` (R100, R240). -/
  | normal
  /-- IR, `1111110D` with D = 1 (R91, R230). -/
  | ir
  /-- SEGMENT, `1111111F` (R90, R283). -/
  | segment (final : BitVec 1)
  /-- EXT_0, `00SSSIII` (R96, R235). -/
  | ext0 (sn : BitVec 3) (ipid : BitVec 3)
  /-- EXT_1, `01SSSIII IIIIIIII` (R97, R236). -/
  | ext1 (sn : BitVec 3) (ipid : BitVec 11)
  /-- EXT_2, `10SSSJJJ JJJJJJJJ IIIIIIII` (R98, R237). -/
  | ext2 (sn : BitVec 3) (ipid2 : BitVec 11) (ipid : BitVec 8)
  /-- EXT_3, `11SMMIpq` (R99, R238). -/
  | ext3 (s : BitVec 1) (mode : BitVec 2) (i : BitVec 1) (ip : BitVec 1) (ip2 : BitVec 1)
  /-- SDVL_1, `0vvvvvvv` (R88, R120). -/
  | sdvl1 (v : BitVec 7)
  /-- SDVL_2, `10vvvvvv vvvvvvvv` (R88, R120). -/
  | sdvl2 (v : BitVec 14)
  /-- SDVL_3, `110vvvvv vvvvvvvv vvvvvvvv` (R88, R120). -/
  | sdvl3 (v : BitVec 21)
  /-- SDVL_4, `111vvvvv vvvvvvvv vvvvvvvv vvvvvvvv` (R88, R120). -/
  | sdvl4 (v : BitVec 29)
deriving DecidableEq, Repr

/-- One record on the command port (30_encoding.md R80). The order of the fields on the port is not
architectural, so the record is kept as named fields. -/
structure Command where
  op : Byte
  a : U32
  b : U32
  t : U64
  inLen : U32
deriving DecidableEq, Repr, Inhabited

/-- Where a wire word stands, which is what tells apart the rows that share words (30_encoding.md:
the first-octet map R85, the extension after a UOR-2 whose X is 1 (R111 (d)), and a value in SDVL
(R111 (a))). -/
inductive Slot where
  | unit
  | extension
  | value
deriving DecidableEq, Repr, Inhabited

/-- An encoded instruction: a command record, or the octets of a wire word with the place they
stand in. -/
inductive FetchWord where
  | command (c : Command)
  | wire (slot : Slot) (octets : List Byte)
deriving DecidableEq, Repr

end Sys2Proof
end

