-- ==== Sys2Proof/WellFormed.lean ====
section
/-!
DEFINITION. Which instructions the spec's encodings admit. Every command record is admitted: an
operand outside its legal set is the command's own error (30_encoding.md R83). Of the wire formats
the values that R110 says are never emitted are not admitted.
-/
namespace Sys2Proof

def Instr.wellFormed : Instr → Bool
  -- R86: CID in [1,15]
  | .addCid cid => cid != 0
  -- R89: L in [1,7]
  | .feedbackShort len => len != 0
  -- R89: L in [8, FB_MAX_LEN]
  | .feedbackLong len => decide (8 ≤ len.toNat) && decide (len.toNat ≤ Config.fbMaxLen)
  -- R99, R110: Mode is MODE_CODE_U
  | .ext3 _ mode _ _ _ => mode == Config.modeCodeU
  -- R88: the encoder always takes the shortest form
  | .sdvl2 v => decide (2 ^ 7 ≤ v.toNat)
  | .sdvl3 v => decide (2 ^ 14 ≤ v.toNat)
  | .sdvl4 v => decide (2 ^ 21 ≤ v.toNat)
  | .sdvl1 _ => true
  | .compress _ _ _ => true
  | .getSegment _ => true
  | .profEnable _ => true
  | .profDisable _ => true
  | .setWlsb _ => true
  | .setRefresh _ _ => true
  | .setMrru _ => true
  | .rtpPortAdd _ => true
  | .rtpPortRemove _ => true
  | .rtpPortReset => true
  | .fbPiggyback _ => true
  | .fbDeliver _ => true
  | .fbFlush _ => true
  | .fbAvail => true
  | .fbRemoveLocked => true
  | .fbUnlock => true
  | .reinit => true
  | .rdCfg _ => true
  | .uo0 _ _ => true
  | .uo1 _ _ _ => true
  | .uor2 _ _ _ => true
  | .irDyn => true
  | .normal => true
  | .ir => true
  | .segment _ => true
  | .ext0 _ _ => true
  | .ext1 _ _ => true
  | .ext2 _ _ _ => true

end Sys2Proof
end

