-- ==== Sys2Proof/Decode.lean ====
section
/-!
DEFINITION. Decoding (total, rejecting by name) and encoding, both from the tables of
30_encoding.md: R81 for commands, R85 to R99 for the wire formats.
-/
namespace Sys2Proof

/-- Why a word is no instruction. -/
inductive DecodeError where
  /-- An op outside the table of R81 (R83). -/
  | unassignedOp (op : Byte)
  /-- 0xF9 to 0xFB: no format (R85, R110). -/
  | reservedOctet (o : Byte)
  /-- The octets end before the word does. -/
  | tooShort
deriving DecidableEq, Repr

/-! ## The octets of each wire format, most significant bit first (R13) -/

namespace Wire

/-- `0SSSSCCC` (R93). -/
def uo0 (sn : BitVec 4) (crc : BitVec 3) : Byte := 0#1 ++ sn ++ crc
/-- `10IIIIII` (R94). -/
def uo1First (ipid : BitVec 6) : Byte := 2#2 ++ ipid
/-- `SSSSSCCC` (R94). -/
def uo1Second (sn : BitVec 5) (crc : BitVec 3) : Byte := sn ++ crc
/-- `110SSSSS` (R95). -/
def uor2First (sn : BitVec 5) : Byte := 6#3 ++ sn
/-- `XCCCCCCC` (R95). -/
def uor2Second (x : BitVec 1) (crc : BitVec 7) : Byte := x ++ crc
/-- `1110xxxx` (R86). -/
def addCid (cid : BitVec 4) : Byte := 14#4 ++ cid
/-- `11110LLL` (R89). -/
def feedbackShort (len : BitVec 3) : Byte := 30#5 ++ len
/-- `11110000`, the first octet of the long feedback form (R89). -/
def feedbackLong : Byte := 0xF0
/-- `11111000` (R92). -/
def irDyn : Byte := 0xF8
/-- `11111100` (R100). -/
def normal : Byte := 0xFC
/-- `11111101` (R91, D = 1). -/
def ir : Byte := 0xFD
/-- `1111111F` (R90). -/
def segment (final : BitVec 1) : Byte := 127#7 ++ final
/-- `00SSSIII` (R96). -/
def ext0 (sn ipid : BitVec 3) : Byte := 0#2 ++ sn ++ ipid
/-- `01SSSIII IIIIIIII` (R97). -/
def ext1 (sn : BitVec 3) (ipid : BitVec 11) : List Byte :=
  [1#2 ++ sn ++ ipid.extractLsb' 8 3, ipid.extractLsb' 0 8]
/-- `10SSSJJJ JJJJJJJJ IIIIIIII` (R98). -/
def ext2 (sn : BitVec 3) (ipid2 : BitVec 11) (ipid : BitVec 8) : List Byte :=
  [2#2 ++ sn ++ ipid2.extractLsb' 8 3, ipid2.extractLsb' 0 8, ipid]
/-- `11SMMIpq` (R99). -/
def ext3 (s : BitVec 1) (mode : BitVec 2) (i ip ip2 : BitVec 1) : Byte :=
  3#2 ++ s ++ mode ++ i ++ ip ++ ip2
/-- `0vvvvvvv` (R88). -/
def sdvl1 (v : BitVec 7) : List Byte := [0#1 ++ v]
/-- `10vvvvvv vvvvvvvv` (R88). -/
def sdvl2 (v : BitVec 14) : List Byte := [2#2 ++ v.extractLsb' 8 6, v.extractLsb' 0 8]
/-- `110vvvvv vvvvvvvv vvvvvvvv` (R88). -/
def sdvl3 (v : BitVec 21) : List Byte :=
  [6#3 ++ v.extractLsb' 16 5, v.extractLsb' 8 8, v.extractLsb' 0 8]
/-- `111vvvvv vvvvvvvv vvvvvvvv vvvvvvvv` (R88). -/
def sdvl4 (v : BitVec 29) : List Byte :=
  [7#3 ++ v.extractLsb' 24 5, v.extractLsb' 16 8, v.extractLsb' 8 8, v.extractLsb' 0 8]

end Wire

/-! ## Decoding -/

/-- The command port (R81). A field a command does not name is ignored (R80). -/
def decodeCommand (c : Command) : Except DecodeError Instr :=
  match c.op.toNat with
  | 0x01 => .ok (.compress c.t c.inLen c.a)
  | 0x02 => .ok (.getSegment c.a)
  | 0x10 => .ok (.profEnable c.a)
  | 0x11 => .ok (.profDisable c.a)
  | 0x12 => .ok (.setWlsb c.a)
  | 0x13 => .ok (.setRefresh c.a c.b)
  | 0x14 => .ok (.setMrru c.a)
  | 0x18 => .ok (.rtpPortAdd c.a)
  | 0x19 => .ok (.rtpPortRemove c.a)
  | 0x1A => .ok .rtpPortReset
  | 0x20 => .ok (.fbPiggyback c.inLen)
  | 0x21 => .ok (.fbDeliver c.inLen)
  | 0x22 => .ok (.fbFlush c.a)
  | 0x23 => .ok .fbAvail
  | 0x24 => .ok .fbRemoveLocked
  | 0x25 => .ok .fbUnlock
  | 0x30 => .ok .reinit
  | 0x40 => .ok (.rdCfg c.a)
  | _ => .error (.unassignedOp c.op)

/-- The first octet of a unit (R85), and the octets that follow it in the same word. A lone `11110000`
is the short feedback row with L = 0, which the encoder never forms (R89). -/
def decodeUnit (o : Byte) (r : List Byte) : Except DecodeError (Instr × List Byte) :=
  if o.toNat < 0x80 then .ok (.uo0 (o.extractLsb' 3 4) (o.extractLsb' 0 3), r)
  else if o.toNat < 0xC0 then
    match r with
    | o1 :: r => .ok (.uo1 (o.extractLsb' 0 6) (o1.extractLsb' 3 5) (o1.extractLsb' 0 3), r)
    | [] => .error .tooShort
  else if o.toNat < 0xE0 then
    match r with
    | o1 :: r => .ok (.uor2 (o.extractLsb' 0 5) (o1.extractLsb' 7 1) (o1.extractLsb' 0 7), r)
    | [] => .error .tooShort
  else if o.toNat < 0xF0 then .ok (.addCid (o.extractLsb' 0 4), r)
  else if o.toNat = 0xF0 then
    match r with
    | o1 :: r => .ok (.feedbackLong o1, r)
    | [] => .ok (.feedbackShort 0, [])
  else if o.toNat < 0xF8 then .ok (.feedbackShort (o.extractLsb' 0 3), r)
  else if o.toNat = 0xF8 then .ok (.irDyn, r)
  else if o.toNat < 0xFC then .error (.reservedOctet o)
  else if o.toNat = 0xFC then .ok (.normal, r)
  else if o.toNat = 0xFD then .ok (.ir, r)
  else .ok (.segment (o.extractLsb' 0 1), r)

/-- An extension of UOR-2: bits 7:6 of its first octet give its kind (R111 (d)). -/
def decodeExtension (o : Byte) (r : List Byte) : Except DecodeError (Instr × List Byte) :=
  if o.toNat < 0x40 then .ok (.ext0 (o.extractLsb' 3 3) (o.extractLsb' 0 3), r)
  else if o.toNat < 0x80 then
    match r with
    | o1 :: r => .ok (.ext1 (o.extractLsb' 3 3) (o.extractLsb' 0 3 ++ o1), r)
    | [] => .error .tooShort
  else if o.toNat < 0xC0 then
    match r with
    | o1 :: o2 :: r => .ok (.ext2 (o.extractLsb' 3 3) (o.extractLsb' 0 3 ++ o1) o2, r)
    | _ => .error .tooShort
  else
    .ok (.ext3 (o.extractLsb' 5 1) (o.extractLsb' 3 2) (o.extractLsb' 2 1) (o.extractLsb' 1 1)
      (o.extractLsb' 0 1), r)

/-- A value in SDVL: the top bits of the first octet give the length (R111 (a), R88). -/
def decodeValue (o : Byte) (r : List Byte) : Except DecodeError (Instr × List Byte) :=
  if o.toNat < 0x80 then .ok (.sdvl1 (o.extractLsb' 0 7), r)
  else if o.toNat < 0xC0 then
    match r with
    | o1 :: r => .ok (.sdvl2 (o.extractLsb' 0 6 ++ o1), r)
    | _ => .error .tooShort
  else if o.toNat < 0xE0 then
    match r with
    | o1 :: o2 :: r => .ok (.sdvl3 (o.extractLsb' 0 5 ++ o1 ++ o2), r)
    | _ => .error .tooShort
  else
    match r with
    | o1 :: o2 :: o3 :: r => .ok (.sdvl4 (o.extractLsb' 0 5 ++ o1 ++ o2 ++ o3), r)
    | _ => .error .tooShort

/-- The octets of a wire word, by the place they stand in; the octets left over are answered too. -/
def decodeWire (slot : Slot) (octets : List Byte) : Except DecodeError (Instr × List Byte) :=
  match octets with
  | [] => .error .tooShort
  | o :: r =>
    match slot with
    | .unit => decodeUnit o r
    | .extension => decodeExtension o r
    | .value => decodeValue o r

/-- The decoder, total on every fetch word. -/
def decode (w : FetchWord) : Except DecodeError (Instr × List Byte) :=
  match w with
  | .command c =>
    match decodeCommand c with
    | .ok i => .ok (i, [])
    | .error e => .error e
  | .wire slot octets => decodeWire slot octets

/-! ## Encoding -/

/-- A command record with every field the command does not name 0. -/
def commandOf (op : Byte) (a b : U32) (t : U64) (inLen : U32) : FetchWord :=
  .command { op := op, a := a, b := b, t := t, inLen := inLen }

/-- The words of an instruction, written from R81 (commands) and R86 to R99 (wire formats). -/
def encode (i : Instr) : FetchWord :=
  match i with
  | .compress t inLen outMax => commandOf 0x01 outMax 0 t inLen
  | .getSegment outMax => commandOf 0x02 outMax 0 0 0
  | .profEnable a => commandOf 0x10 a 0 0 0
  | .profDisable a => commandOf 0x11 a 0 0 0
  | .setWlsb width => commandOf 0x12 width 0 0 0
  | .setRefresh ir fo => commandOf 0x13 ir fo 0 0
  | .setMrru bytes => commandOf 0x14 bytes 0 0 0
  | .rtpPortAdd port => commandOf 0x18 port 0 0 0
  | .rtpPortRemove port => commandOf 0x19 port 0 0 0
  | .rtpPortReset => commandOf 0x1A 0 0 0 0
  | .fbPiggyback inLen => commandOf 0x20 0 0 0 inLen
  | .fbDeliver inLen => commandOf 0x21 0 0 0 inLen
  | .fbFlush outMax => commandOf 0x22 outMax 0 0 0
  | .fbAvail => commandOf 0x23 0 0 0 0
  | .fbRemoveLocked => commandOf 0x24 0 0 0 0
  | .fbUnlock => commandOf 0x25 0 0 0 0
  | .reinit => commandOf 0x30 0 0 0 0
  | .rdCfg sel => commandOf 0x40 sel 0 0 0
  | .uo0 sn crc => .wire .unit [Wire.uo0 sn crc]
  | .uo1 ipid sn crc => .wire .unit [Wire.uo1First ipid, Wire.uo1Second sn crc]
  | .uor2 sn x crc => .wire .unit [Wire.uor2First sn, Wire.uor2Second x crc]
  | .addCid cid => .wire .unit [Wire.addCid cid]
  | .feedbackShort len => .wire .unit [Wire.feedbackShort len]
  | .feedbackLong len => .wire .unit [Wire.feedbackLong, len]
  | .irDyn => .wire .unit [Wire.irDyn]
  | .normal => .wire .unit [Wire.normal]
  | .ir => .wire .unit [Wire.ir]
  | .segment final => .wire .unit [Wire.segment final]
  | .ext0 sn ipid => .wire .extension [Wire.ext0 sn ipid]
  | .ext1 sn ipid => .wire .extension (Wire.ext1 sn ipid)
  | .ext2 sn ipid2 ipid => .wire .extension (Wire.ext2 sn ipid2 ipid)
  | .ext3 s mode i ip ip2 => .wire .extension [Wire.ext3 s mode i ip ip2]
  | .sdvl1 v => .wire .value (Wire.sdvl1 v)
  | .sdvl2 v => .wire .value (Wire.sdvl2 v)
  | .sdvl3 v => .wire .value (Wire.sdvl3 v)
  | .sdvl4 v => .wire .value (Wire.sdvl4 v)

/-! ## The opcode table's numbering -/

/-- The octets of a table word. The table gives a row of several octets as ONE number whose most
significant octet is the first on the wire (its match 0x8000 of UO_1 is the octet 0x80, then 0x00):
log 7. -/
def tableOctets (nbits w : Nat) : List Byte :=
  (List.range (nbits / 8)).map fun i => BitVec.ofNat 8 (w >>> (8 * (nbits / 8 - 1 - i)))

/-- The fetch words a table word may be: a command record whose operands are 0, when it is one octet;
else a wire word in each of the three places. -/
def tableCandidates (nbits w : Nat) : List FetchWord :=
  let os := tableOctets nbits w
  (match os with
    | [op] => [commandOf op 0 0 0 0]
    | _ => []) ++ [.wire .unit os, .wire .extension os, .wire .value os]

/-- The decoder's answer when a word is used up whole. -/
def decodeWhole (w : FetchWord) : Option Instr :=
  match decode w with
  | .ok (i, []) => some i
  | _ => none

/-- The fetch word of a table word: the first candidate that decodes whole. Rows that share a word
(log 6) are told apart by the order command, unit, extension, value. -/
def tableFetchWord (nbits w : Nat) : Option FetchWord :=
  (tableCandidates nbits w).find? fun fw => (decodeWhole fw).isSome

/-- What the decoder reads from a table word. -/
def decodeTableWord (nbits w : Nat) : Option Instr :=
  (tableFetchWord nbits w).bind decodeWhole

end Sys2Proof
end

