-- ==== Sys2Proof/Machine/State.lean ====
section
/-!
DEFINITION. The state of ROHC-ENC (10_state.md R20 to R36), the reasons a step can stop, and the state
after reset (R42). Plain data throughout.
-/
namespace Sys2Proof.Machine
open Sys2Proof

/-! ## Named sets -/

/-- IP version (R30). -/
inductive IpVersion where
  | v4
  | v6
deriving DecidableEq, Repr, Inhabited

/-- The profile registry (41_frontend.md R160), in its order. -/
inductive Profile where
  | rtp
  | udp
  | udpLite
  | esp
  | tcp
  | ipOnly
  | uncompressed
deriving DecidableEq, Repr, Inhabited

/-- States of a context (R24). -/
inductive CtxState where
  | ir
  | fo
  | so
deriving DecidableEq, Repr, Inhabited

/-- Modes of a context; always U (R28, 42_state_machine.md R192). -/
inductive Mode where
  | u
  | o
  | r
deriving DecidableEq, Repr, Inhabited

/-- `SCR.ptype` (R23). -/
inductive PacketType where
  | ir
  | irDyn
  | uo0
  | uo1
  | uor2
  | normal
deriving DecidableEq, Repr, Inhabited

/-- `SCR.ext` (R23). -/
inductive ExtKind where
  | none
  | ext0
  | ext1
  | ext2
  | ext3
deriving DecidableEq, Repr, Inhabited

/-- Error classes (60_exceptions.md R341). -/
inductive ErrClass where
  | input
  | capacity
  | noProfile
  | outputTooSmall
  | configLocked
  | badValue
  | noRru
  | dead
  | badOp
  | encode
deriving DecidableEq, Repr, Inhabited

/-! ## Byte spaces -/

/-- A byte space (20_memory.md R60): the bytes that have a value, by rising address. An address that is
not listed has not been written: what a read of it gives is the reader's affair (log 10). -/
abbrev Memory := List Host.Cell

/-- Addresses strictly rising: the one form of a memory. Nothing an unlisted address reads as can be
listed, since it reads as no value. -/
def Memory.wf (m : Memory) : Bool :=
  match m with
  | [] => true
  | [_] => true
  | c :: d :: r => decide (c.1 < d.1) && Memory.wf (d :: r)

/-! ## Command port -/

/-- The response registers (R22, 30_encoding.md R82). -/
structure Rsp where
  status : BitVec 2
  rc : Byte
  errc : BitVec 4
  outLen : U32
  val : U32
deriving DecidableEq, Repr, Inhabited

/-! ## Configuration registers (R26) -/

structure Cfg where
  cidType : CidType
  maxCid : BitVec 14
  mrru : U16
  profilesEn : BitVec 7
  wlsbWidth : BitVec 7
  irTimeout : U32
  foTimeout : U32
deriving DecidableEq, Repr, Inhabited

/-! ## Parser record (41_frontend.md R150) -/

/-- One normalized IP header. -/
structure IpHdr where
  version : IpVersion
  src : List Byte
  dst : List Byte
  tos : Byte
  ttl : Byte
  id : U16
  fl : BitVec 20
  df : Bool
  proto : Byte
  hlen : Nat
  off : Nat
  plain : Bool
deriving DecidableEq, Repr, Inhabited

/-- The parser's result: one or two headers, outer first; `nhdr` is their number. -/
structure Parsed where
  hdrs : List IpHdr
deriving DecidableEq, Repr, Inhabited

/-! ## Contexts (R28 to R32) -/

/-- What `KEY_IP` takes from one header (41_frontend.md R166). -/
structure KeyHdr where
  version : IpVersion
  src : List Byte
  dst : List Byte
  fl : BitVec 20
deriving DecidableEq, Repr, Inhabited

/-- Context keys, compared only for equality (R156, R165 to R167). The number of headers is the
length of the list; the four port bytes of `KEY_UDP` are kept as the two ports. -/
inductive Key where
  | uncompressed
  | ip (hdrs : List KeyHdr)
  | udp (hdrs : List KeyHdr) (srcPort dstPort : U16)
  /-- A key of a profile supplied under ProfileExt (93_implementation_defined.md U7). -/
  | ext (bytes : List Byte)
deriving DecidableEq, Repr, Inhabited

/-- A W-LSB window: its references, oldest first; `count` is their number (R31). -/
structure Window where
  refs : List U16
deriving DecidableEq, Repr, Inhabited

/-- What a header record holds for IPv4 only (R30). -/
structure Ip4Rec where
  df : Bool
  id : U16
  rnd : Bool
  nbo : Bool
  sid : Bool
  rndCount : Nat
  nboCount : Nat
  sidCount : Nat
  winId : Window
deriving DecidableEq, Repr, Inhabited

/-- One IP-header record `H[h]` (R30). Its version is 4 exactly when it has the IPv4 part. -/
structure CtxHdr where
  tos : Byte
  ttl : Byte
  proto : Byte
  ip4 : Option Ip4Rec
deriving DecidableEq, Repr, Inhabited

/-- The generic block (R29), with the UDP profile's `udp_ck` (R32); `nhdr` is the number of header
records. -/
structure Generic where
  sn : U16
  hdrs : List CtxHdr
  winSn : Window
  irCount : Nat
  foCount : Nat
  goBackFo : Nat
  goBackIr : Nat
  udpCk : Bool
deriving DecidableEq, Repr, Inhabited

/-- The profile-owned block (R28): generic for IP-only and UDP, empty for Uncompressed (R32), bytes of
its own for a profile supplied under ProfileExt. -/
inductive Block where
  | empty
  | generic (g : Generic)
  | ext (bytes : List Byte)
deriving DecidableEq, Repr, Inhabited

/-- What a used context slot holds (R28). -/
structure Ctx where
  cid : Nat
  profile : Profile
  key : Key
  state : CtxState
  mode : Mode
  firstUsed : U64
  latestUsed : U64
  numSent : Nat
  forceIr : Bool
  block : Block
deriving DecidableEq, Repr, Inhabited

/-! ## Feedback ring (R33) and segmenter (R34) -/

/-- One ring slot. `len` is the number of its bytes; 0 means free (log 19). -/
structure FbSlot where
  data : List Byte
  locked : Bool
deriving DecidableEq, Repr, Inhabited

structure Ring where
  slots : List FbSlot
  first : Nat
  firstUnlocked : Nat
  next : Nat
deriving DecidableEq, Repr, Inhabited

structure Rru where
  buf : Memory
  off : Nat
  len : Nat
deriving DecidableEq, Repr, Inhabited

/-! ## Scratch registers (R23) -/

/-- `SCR.ch[h]`: which fields of header h changed in this packet. -/
structure HdrChange where
  tos : Bool
  ttl : Bool
  df : Bool
  pr : Bool
  nbo : Bool
  rnd : Bool
deriving DecidableEq, Repr, Inhabited

/-- The scratch of header h: `SCR.ch[h]`, `SCR.off[h]`, `SCR.k_id[h]`. -/
structure HdrScratch where
  ch : HdrChange
  off : U16
  kId : Nat
deriving DecidableEq, Repr, Inhabited

/-- The byte strings under assembly (00_scope.md R15 `emit`): drained feedback blocks, Add-CID octet,
first octet, large CID, extension, and the rest of the header or the chunk of a segment. -/
structure Assembly where
  fb : List Byte
  addCid : List Byte
  first : List Byte
  largeCid : List Byte
  ext : List Byte
  rest : List Byte
deriving DecidableEq, Repr, Inhabited

/-- SCR, the parser record and the context under work (log 3, log 17). -/
structure Scratch where
  /-- `IN[0 .. in_len)` as the command read it (20_memory.md R66). -/
  pkt : List Byte
  par : Parsed
  ctx : Ctx
  snNew : U16
  sendStatic : Nat
  sendDynamic : Nat
  sidFlip : Bool
  ckFlip : Bool
  hs : List HdrScratch
  kSn : Nat
  ptype : PacketType
  ext : ExtKind
  /-- The chunk size n of the segment under way (46_segmenter.md R283). -/
  segN : Nat
  asm : Assembly
deriving DecidableEq, Repr, Inhabited

/-! ## What HOST does next -/

/-- One act of HOST (log 4): a command, with the bytes HOST writes to IN from byte 0 before it; a
reset with its straps (70_reset_and_hazards.md R371); or one internal operation by its wire word
(log 5), which no HOST of the real block issues. -/
inductive Issue where
  | command (c : Command) (input : List Byte)
  | reset (cidType : CidType) (maxCid : Nat)
  | wire (slot : Slot) (octets : List Byte)
deriving DecidableEq, Repr

/-! ## The state -/

structure State where
  alive : Bool
  numPackets : Nat
  numContextsUsed : Nat
  cfg : Cfg
  /-- The context array; `none` is `used = 0` (log 11). -/
  ctx : List (Option Ctx)
  fb : Ring
  rru : Rru
  rtpPorts : List U16
  cmd : Command
  rsp : Rsp
  inBuf : Memory
  /-- The bytes of OUT that have a value: `0 .. RSP.out_len - 1` (20_memory.md R62). -/
  outBuf : Memory
  scr : Scratch
  /-- What HOST will issue, in order (log 4). -/
  queue : List Issue
  /-- HOST's answers to the next `rand16` draws (log 8). -/
  randIn : List U16
  /-- The model's own counter of free values drawn (logs 8, 9, 12). -/
  draws : Nat
deriving DecidableEq, Repr, Inhabited

/-- Why the machine stops. -/
inductive Fault where
  /-- step: an internal operation whose octets no row of the table matches (30_encoding.md R110; log 6).
  Safe. -/
  | reservedPattern (e : DecodeError)
deriving DecidableEq, Repr

/-- What the spec gives no meaning. -/
inductive Refusal where
  /-- An instruction without a meaning in this model: raised by exec's arm only. Safe. -/
  | notModelled (mnemonic : String)
  /-- COMPRESS selected RTP, UDP-Lite or ESP with ProfileExt absent (00_scope.md R10, 60_exceptions.md
  R348; log 15). Safe. -/
  | profileNotAdmitted (p : Profile)
deriving DecidableEq, Repr

/-! ## Reset values -/

def FbSlot.free : FbSlot := { data := [], locked := false }

/-- FB after reset: every slot free, indices 0 (R42). -/
def Ring.reset (P : Params := Params.spec) : Ring :=
  { slots := List.replicate P.feedbackRingSize FbSlot.free, first := 0, firstUnlocked := 0,
    next := 0 }

/-- RRU after reset: nothing in flight, `buf` unspecified (R42, R373). -/
def Rru.reset : Rru := { buf := [], off := 0, len := 0 }

/-- CFG after reset with the straps (R26). -/
def Cfg.reset (cidType : CidType) (maxCid : Nat) : Cfg :=
  { cidType := cidType, maxCid := BitVec.ofNat 14 maxCid, mrru := 0, profilesEn := 0,
    wlsbWidth := BitVec.ofNat 7 Config.wlsbWidthReset,
    irTimeout := BitVec.ofNat 32 Config.changeToIrCount,
    foTimeout := BitVec.ofNat 32 Config.changeToFoCount }

/-- CMD before the first command. DESIGN CHOICE (log 2): the spec gives no value. -/
def Command.zero : Command := { op := 0, a := 0, b := 0, t := 0, inLen := 0 }

/-- RSP before the first command. DESIGN CHOICE (log 2): the spec gives no value. -/
def Rsp.zero : Rsp := { status := 0, rc := 0, errc := 0, outLen := 0, val := 0 }

def Assembly.empty : Assembly :=
  { fb := [], addCid := [], first := [], largeCid := [], ext := [], rest := [] }

/-- A context record of the scratch area before the first COMPRESS. DESIGN CHOICE (log 3). -/
def Ctx.zero : Ctx :=
  { cid := 0, profile := .uncompressed, key := .uncompressed, state := .ir, mode := .u,
    firstUsed := 0, latestUsed := 0, numSent := 0, forceIr := false, block := .empty }

/-- SCR before the first COMPRESS. DESIGN CHOICE (log 3): "they hold no value between commands". -/
def Scratch.zero : Scratch :=
  { pkt := [], par := { hdrs := [] }, ctx := Ctx.zero, snNew := 0, sendStatic := 0,
    sendDynamic := 0, sidFlip := false, ckFlip := false, hs := [], kSn := 0, ptype := .ir,
    ext := .none, segN := 0, asm := Assembly.empty }

/-- The state after a reset with legal straps (R42, 70_reset_and_hazards.md R371), with nothing
queued by HOST. -/
def State.afterReset (cidType : CidType) (maxCid : Nat) (P : Params := Params.spec) : State :=
  { alive := true, numPackets := 0, numContextsUsed := 0, cfg := Cfg.reset cidType maxCid,
    ctx := List.replicate (maxCid + 1) none, fb := Ring.reset P, rru := Rru.reset, rtpPorts := [],
    cmd := Command.zero, rsp := Rsp.zero, inBuf := [], outBuf := [], scr := Scratch.zero,
    queue := [], randIn := [], draws := 0 }

/-- The machine right after reset, with the straps of Config (log 1). -/
def State.reset : State := State.afterReset Config.strapCidType Config.strapMaxCid Params.spec

end Sys2Proof.Machine

/-- Every field but `alive` after the n-th reset with illegal straps: unspecified (10_state.md R44,
70_reset_and_hazards.md R372, 93 U3). Log 9, safe. -/
opaque Sys2Proof.Config.freeState : Nat → Sys2Proof.Machine.State
end

