-- ==== Sys2Proof/Machine/Operands.lean ====
section
/-!
DEFINITION. Operand forms: octets, multi-octet fields in network byte order (00_scope.md R13,
20_memory.md R63), saturating and modular arithmetic (R14), SDVL (40_primitives.md R120, R121), and the
attributes of profiles, packet headers and contexts that the operations read.
-/
namespace Sys2Proof.Machine
open Sys2Proof

/-! ## Octets -/

/-- Octet i of a byte string; every rule that reads one has tested the length first (R67). -/
def octet (s : List Byte) (i : Nat) : Byte := s.getD i 0

/-- Bytes `i .. i+n-1` of a byte string. -/
def slice (s : List Byte) (i n : Nat) : List Byte := (s.drop i).take n

/-- The unsigned 16-bit field at i, first octet more significant (R13, R63). -/
def be16At (s : List Byte) (i : Nat) : U16 := octet s i ++ octet s (i + 1)

/-- `be16(v)` (R13). -/
def be16 (v : U16) : List Byte := [v.extractLsb' 8 8, v.extractLsb' 0 8]

/-- `be32(v)` (R13). -/
def be32 (v : U32) : List Byte :=
  [v.extractLsb' 24 8, v.extractLsb' 16 8, v.extractLsb' 8 8, v.extractLsb' 0 8]

/-- `swab16(v) = v[7:0] ‖ v[15:8]` (R13). -/
def swab16 (v : U16) : U16 := v.extractLsb' 0 8 ++ v.extractLsb' 8 8

/-- `sat_inc(c) = min(c + 1, CNT_MAX)` (R14). -/
def satInc (c : Nat) (P : Params := Params.spec) : Nat := min (c + 1) P.cntMax

/-- `LSB(v, k) = v[k-1:0]` (40_primitives.md R126). -/
def lsb (v : U16) (k : Nat) : BitVec k := v.extractLsb' 0 k

/-- A flag as a bit. -/
def bit (b : Bool) : BitVec 1 := BitVec.ofBool b

/-! ## SDVL -/

/-- `SDVL_ENC(v)`: the shortest form that holds v, or failure (R120). -/
def sdvlEnc (v : Nat) : Option (List Byte) :=
  if v < 2 ^ 7 then some (Wire.sdvl1 (BitVec.ofNat 7 v))
  else if v < 2 ^ 14 then some (Wire.sdvl2 (BitVec.ofNat 14 v))
  else if v < 2 ^ 21 then some (Wire.sdvl3 (BitVec.ofNat 21 v))
  else if v < 2 ^ 29 then some (Wire.sdvl4 (BitVec.ofNat 29 v))
  else none

/-- `SDVL_DEC(s)`: the value and the number of octets consumed, or failure (R121). -/
def sdvlDec (s : List Byte) : Option (Nat × Nat) :=
  match decodeWire .value s with
  | .ok (.sdvl1 v, _) => some (v.toNat, 1)
  | .ok (.sdvl2 v, _) => some (v.toNat, 2)
  | .ok (.sdvl3 v, _) => some (v.toNat, 3)
  | .ok (.sdvl4 v, _) => some (v.toNat, 4)
  | _ => none

/-! ## Profiles (41_frontend.md R160, 30_encoding.md R108) -/

/-- The registry in its priority order. -/
def registry : List Profile := [.rtp, .udp, .udpLite, .esp, .tcp, .ipOnly, .uncompressed]

/-- Index of a profile in the registry and of its bit in CFG.PROFILES_EN. -/
def Profile.bit : Profile → Nat
  | .rtp => 0
  | .udp => 1
  | .udpLite => 2
  | .esp => 3
  | .tcp => 4
  | .ipOnly => 5
  | .uncompressed => 6

/-- The 16-bit profile id. -/
def Profile.id : Profile → U16
  | .rtp => 0x0001
  | .udp => 0x0002
  | .udpLite => 0x0008
  | .esp => 0x0003
  | .tcp => 0x0006
  | .ipOnly => 0x0004
  | .uncompressed => 0x0000

/-- The registry entry with an id. -/
def profileOfId (id : U16) : Option Profile := registry.find? fun p => p.id == id

/-- The profiles of the admitted subset (00_scope.md R10). -/
def Profile.admitted : Profile → Bool
  | .udp => true
  | .ipOnly => true
  | .uncompressed => true
  | .rtp => false
  | .udpLite => false
  | .esp => false
  | .tcp => false

/-! ## Attributes of headers and contexts -/

/-- `P.nhdr` (R150). -/
def Parsed.nhdr (p : Parsed) : Nat := p.hdrs.length

/-- `P.tp_off`: the address of the first byte after the last IP header (R150). -/
def Parsed.tpOff (p : Parsed) : Nat :=
  match p.hdrs.getLast? with
  | some h => h.off + h.hlen
  | none => 0

/-- Version of a header record (R30). -/
def CtxHdr.version (h : CtxHdr) : IpVersion := if h.ip4.isSome then .v4 else .v6

/-- `rnd = 1` of an IPv4 header record. -/
def CtxHdr.isRnd (h : CtxHdr) : Bool :=
  match h.ip4 with
  | some x => x.rnd
  | none => false

/-- An IPv4 header whose IP-ID is sent by offset: `version = 4, rnd = 0, sid = 0` (43_packet_type.md
R201, 44_packet_build.md R235). -/
def CtxHdr.seqIpId (h : CtxHdr) : Bool :=
  match h.ip4 with
  | some x => !x.rnd && !x.sid
  | none => false

/-- The generic block of a context that has one. -/
def Ctx.generic? (c : Ctx) : Option Generic :=
  match c.block with
  | .generic g => some g
  | _ => none

/-- The header records of a context; none without a generic block. -/
def Ctx.hdrs (c : Ctx) : List CtxHdr :=
  match c.block with
  | .generic g => g.hdrs
  | _ => []

/-- `udp_ck` of a context with a generic block. -/
def Ctx.udpCk (c : Ctx) : Bool :=
  match c.block with
  | .generic g => g.udpCk
  | _ => false

/-- Length of a W-LSB window (R31). -/
def Window.count (w : Window) : Nat := w.refs.length

/-- `FB[i].len` (R33). -/
def FbSlot.len (f : FbSlot) : Nat := f.data.length

end Sys2Proof.Machine
end

