-- ==== Sys2Proof/Machine/Ops.lean ====
section
/-!
DEFINITION. The named operations over the byte spaces and the registers: reading and writing bytes,
context slots, ring slots, the response registers, ending a command with an error
(60_exceptions.md R340) and the recovery before it (R345), the random draw, and reset.
-/
namespace Sys2Proof.Machine
open Sys2Proof

/-! ## Byte spaces (20_memory.md R60, R66) -/

/-- One byte, or no value. -/
def Memory.read (m : Memory) (a : Nat) : Option Byte :=
  match m with
  | [] => none
  | c :: r => if c.1 = a then some c.2 else Memory.read r a

/-- Bytes `a .. a+n-1`, if every one has a value. -/
def Memory.readBytes (m : Memory) (a n : Nat) : Option (List Byte) :=
  match n with
  | 0 => some []
  | n + 1 =>
    match m.read a with
    | none => none
    | some b =>
      match m.readBytes (a + 1) n with
      | none => none
      | some bs => some (b :: bs)

/-- Bytes `a .. a+n-1` of a space where byte x holds `free x` as long as nothing has been written there. -/
def Memory.bytes (free : Nat → Byte) (m : Memory) (a n : Nat) : List Byte :=
  (List.range n).map fun i => (m.read (a + i)).getD (free (a + i))

/-- The cells that hold a byte string from address a on. -/
def Memory.cells (a : Nat) (bs : List Byte) : Memory :=
  match bs with
  | [] => []
  | b :: r => (a, b) :: Memory.cells (a + 1) r

/-- A write of a byte string at address a; every other byte stays. -/
def Memory.writeBytes (m : Memory) (a : Nat) (bs : List Byte) : Memory :=
  m.filter (fun c => decide (c.1 < a)) ++ Memory.cells a bs ++
    m.filter (fun c => decide (a + bs.length ≤ c.1))

/-- A space that holds exactly a byte string from address 0. -/
def Memory.ofBytes (bs : List Byte) : Memory := Memory.cells 0 bs

/-! ## Context slots (10_state.md R28) -/

/-- `CTX[c]`: its record when `used = 1`. -/
def State.slot (s : State) (c : Nat) : Option Ctx := (s.ctx[c]?).join

def State.setSlot (s : State) (c : Nat) (v : Option Ctx) : State := { s with ctx := s.ctx.set c v }

/-- `DESTROY(c)` (41_frontend.md R159). -/
def State.destroy (s : State) (c : Nat) : State :=
  { s with ctx := s.ctx.set c none, numContextsUsed := s.numContextsUsed - 1 }

/-! ## Ring slots (10_state.md R33) -/

/-- `i +R 1` (45_feedback.md). -/
def ringNext (i : Nat) (P : Params := Params.spec) : Nat := (i + 1) % P.feedbackRingSize

/-- `FB[i]`. -/
def Ring.slot (r : Ring) (i : Nat) : FbSlot := r.slots.getD i FbSlot.free

def Ring.setSlot (r : Ring) (i : Nat) (v : FbSlot) : Ring := { r with slots := r.slots.set i v }

/-- The internal FB_UNLOCK (R266). -/
def Ring.unlock (r : Ring) : Ring :=
  { r with
    slots := r.slots.map (fun f => { f with locked := false })
    firstUnlocked := r.first }

/-! ## Response (30_encoding.md R82) -/

/-- Codes of the error classes (60_exceptions.md R341). -/
def ErrClass.code : ErrClass → BitVec 4
  | .input => 1
  | .capacity => 2
  | .noProfile => 3
  | .outputTooSmall => 4
  | .configLocked => 5
  | .badValue => 6
  | .noRru => 7
  | .dead => 8
  | .badOp => 9
  | .encode => 10

def statusError : BitVec 2 := 0
def statusOk : BitVec 2 := 1
def statusNeedSegment : BitVec 2 := 2

/-- A command writes the response registers once, at its end (47_commands.md R300). Exactly the bytes
`0 .. RSP.out_len - 1` of OUT have a value after it (20_memory.md R62). -/
def State.respond (s : State) (status : BitVec 2) (rc : Byte) (errc : BitVec 4) (out : List Byte)
    (val : U32) : State :=
  { s with
    rsp := { status := status, rc := rc, errc := errc, outLen := BitVec.ofNat 32 out.length,
             val := val }
    outBuf := Memory.ofBytes out }

/-- The end of a command with status OK. -/
def State.respondOk (s : State) (out : List Byte) (val : U32) : State :=
  s.respond statusOk Config.rcOk 0 out val

/-- The end of a command with status NEED_SEGMENT. -/
def State.respondNeedSegment (s : State) (out : List Byte) (P : Params := Params.spec) : State :=
  s.respond statusNeedSegment P.rcNeedSegment 0 out 0

/-- `raise Error(class)`, the one way a command ends with an error (R340): the response says so,
nothing else is saved, there is no handler and no return. The recovery of R345 comes before it. -/
def State.raiseError (s : State) (e : ErrClass) : State :=
  s.respond statusError Config.rcError e.code [] 0

/-- `RECOVER_COMPRESS(c, fresh, saved)` (R345): the ring is unlocked; a fresh context is destroyed, an
existing one put back to its value when the command began. -/
def State.recoverCompress (s : State) (c : Nat) (fresh : Bool) (saved : Option Ctx) : State :=
  let s := { s with fb := s.fb.unlock }
  if fresh then s.destroy c else s.setSlot c saved

/-! ## The start of every command (R300) -/

/-- The test every command begins with: with `ENC.alive = 0` it ends with class DEAD (R372). -/
def whenAlive (s : State) (k : Host.Outcome State Fault Refusal) :
    Host.Outcome State Fault Refusal :=
  if s.alive then k else .next (s.raiseError .dead)

/-- The tests a configuration command (0x10 to 0x14) begins with: DEAD, then CONFIG_LOCKED while
`ENC.num_packets > 0` (R300, R350). -/
def whenConfigurable (s : State) (k : Host.Outcome State Fault Refusal) :
    Host.Outcome State Fault Refusal :=
  whenAlive s (if s.numPackets > 0 then .next (s.raiseError .configLocked) else k)

/-- A command whose op is unassigned: class BAD_OP, no state changed (30_encoding.md R83). -/
def State.badOp (s : State) : Host.Outcome State Fault Refusal :=
  whenAlive s (.next (s.raiseError .badOp))

/-! ## Inputs -/

/-- `IN[0 .. in_len)`; a byte that HOST has not written is a free value, since no access faults (R66;
log 10). -/
def State.input (s : State) (inLen : U32) : List Byte := s.inBuf.bytes Config.freeIn 0 inLen.toNat

/-- The `rand16` draw (00_scope.md R9): HOST's next answer, or a free value (log 8). -/
def State.rand16 (s : State) : U16 :=
  match s.randIn with
  | v :: _ => v
  | [] => Config.freeRand s.draws

/-- The state after a draw. -/
def State.drawn (s : State) : State := { s with randIn := s.randIn.tail, draws := s.draws + 1 }

/-! ## Reset (70_reset_and_hazards.md R371, R372) -/

/-- Legal straps: MAX_CID within the bound of its CID type (R371). -/
def legalStraps (cidType : CidType) (maxCid : Nat) : Bool :=
  decide (maxCid ≤ Config.cidBound cidType)

/-- Reset between two commands. What HOST owns stays (IN, CMD and what it will do next, log 24); with
illegal straps `alive` is 0 and every other field of the block is a free value (log 9). -/
def State.applyReset (s : State) (cidType : CidType) (maxCid : Nat) (P : Params := Params.spec) : State :=
  let t :=
    if legalStraps cidType maxCid then State.afterReset cidType maxCid P
    else { Config.freeState s.draws with alive := false }
  { t with cmd := s.cmd, inBuf := s.inBuf, queue := s.queue, randIn := s.randIn,
           draws := s.draws + 1 }

end Sys2Proof.Machine
end

