-- ==== Sys2Proof/Machine/Parser.lean ====
section
/-!
DEFINITION. The IP parser (41_frontend.md R150 to R155). `pkt` is `IN[0 .. in_len)`.
-/
namespace Sys2Proof.Machine
open Sys2Proof

/-- Folds the carries of a ones-complement sum back into 16 bits; a sum of ten words needs two folds
(R152). -/
def foldCarry (n : Nat) : Nat := n % 2 ^ 16 + n / 2 ^ 16

/-- The ones-complement sum of the ten 16-bit words at off (R152). -/
def headerSum (pkt : List Byte) (off : Nat) : Nat :=
  foldCarry (foldCarry
    ((be16At pkt off).toNat + (be16At pkt (off + 2)).toNat + (be16At pkt (off + 4)).toNat
      + (be16At pkt (off + 6)).toNat + (be16At pkt (off + 8)).toNat + (be16At pkt (off + 10)).toNat
      + (be16At pkt (off + 12)).toNat + (be16At pkt (off + 14)).toNat
      + (be16At pkt (off + 16)).toNat + (be16At pkt (off + 18)).toNat))

/-- `PARSE_ONE`, version 4, at off with n bytes available (R152). -/
def parseIpv4 (pkt : List Byte) (off n : Nat) : Option IpHdr :=
  let ihl := ((octet pkt off).extractLsb' 0 4).toNat
  if n < 20 then none
  else if ihl < 5 ∨ n < 4 * ihl then none
  else if (be16At pkt (off + 2)).toNat ≠ n then none
  else
    let flags := octet pkt (off + 6)
    some
      { version := .v4
        src := slice pkt (off + 12) 4
        dst := slice pkt (off + 16) 4
        tos := octet pkt (off + 1)
        ttl := octet pkt (off + 8)
        id := be16At pkt (off + 4)
        fl := 0
        df := flags.getLsbD 6
        proto := octet pkt (off + 9)
        hlen := 4 * ihl
        off := off
        plain := decide (ihl = 5) && !flags.getLsbD 7 && !flags.getLsbD 5
          && decide (flags.extractLsb' 0 5 ++ octet pkt (off + 7) = (0 : BitVec 13))
          && decide (headerSum pkt off = 0xFFFF) }

/-- `PARSE_ONE`, version 6 (R153). Extension headers are not parsed. -/
def parseIpv6 (pkt : List Byte) (off n : Nat) : Option IpHdr :=
  if n < 40 then none
  else if 40 + (be16At pkt (off + 4)).toNat ≠ n then none
  else
    some
      { version := .v6
        src := slice pkt (off + 8) 16
        dst := slice pkt (off + 24) 16
        tos := (octet pkt off).extractLsb' 0 4 ++ (octet pkt (off + 1)).extractLsb' 4 4
        ttl := octet pkt (off + 7)
        id := 0
        fl := (octet pkt (off + 1)).extractLsb' 0 4 ++ octet pkt (off + 2) ++ octet pkt (off + 3)
        df := false
        proto := octet pkt (off + 6)
        hlen := 40
        off := off
        plain := true }

/-- `PARSE_ONE(off, n)`: the version nibble decides (R151). -/
def parseOne (pkt : List Byte) (off n : Nat) : Option IpHdr :=
  if n < 1 then none
  else
    match ((octet pkt off).extractLsb' 4 4).toNat with
    | 4 => parseIpv4 pkt off n
    | 6 => parseIpv6 pkt off n
    | _ => none

/-- Protocols that announce an inner IP header: 4 and 41 (R151). -/
def announcesIp (proto : Byte) : Bool := proto == 4 || proto == 41

/-- `PARSE(IN, in_len)` (R151): one or two headers; a third is rejected. -/
def parse (pkt : List Byte) : Option Parsed :=
  match parseOne pkt 0 pkt.length with
  | none => none
  | some h0 =>
    if announcesIp h0.proto then
      match parseOne pkt h0.hlen (pkt.length - h0.hlen) with
      | none => none
      | some h1 => if announcesIp h1.proto then none else some { hdrs := [h0, h1] }
    else some { hdrs := [h0] }

end Sys2Proof.Machine
end

