-- ==== Sys2Proof/Machine/Profiles.lean ====
section
/-!
DEFINITION. The profile registry's checks and keys and the selector (41_frontend.md R160 to R168), and
the parameter ProfileExt (93_implementation_defined.md U7).
-/
namespace Sys2Proof.Machine
open Sys2Proof

/-- Every header of P is `plain`. -/
def Parsed.plain (p : Parsed) : Bool := p.hdrs.all fun h => h.plain

/-- `proto` of the last header. -/
def Parsed.lastProto (p : Parsed) : Option Byte := p.hdrs.getLast?.map fun h => h.proto

/-- Bytes after the last IP header. -/
def transportLen (pkt : List Byte) (p : Parsed) : Nat := pkt.length - p.tpOff

/-- `CHECK_UDP(P)` (R165): plain headers, protocol 17, 8 bytes, and the UDP length field equal to what
is there. -/
def checkUdp (pkt : List Byte) (p : Parsed) : Bool :=
  p.plain && p.lastProto == some 17 && decide (8 ≤ transportLen pkt p)
    && decide ((be16At pkt (p.tpOff + 4)).toNat = transportLen pkt p)

/-- `CHECK_RTP(P)` (R163): as for UDP, and the destination port is in RTP_PORTS. -/
def checkRtp (ports : List U16) (pkt : List Byte) (p : Parsed) : Bool :=
  checkUdp pkt p && ports.contains (be16At pkt (p.tpOff + 2))

/-- `CHECK_UDPLITE(P)` and `CHECK_ESP(P)` with their protocol numbers (R164). -/
def checkProto (proto : Byte) (pkt : List Byte) (p : Parsed) : Bool :=
  p.plain && p.lastProto == some proto && decide (8 ≤ transportLen pkt p)

/-- `check_profile` of each registry entry (R162). -/
def Profile.check (ports : List U16) (pkt : List Byte) (p : Parsed) : Profile → Bool
  | .rtp => checkRtp ports pkt p
  | .udp => checkUdp pkt p
  | .udpLite => checkProto 136 pkt p
  | .esp => checkProto 50 pkt p
  | .tcp => false
  | .ipOnly => p.plain
  | .uncompressed => true

/-- `KEY_IP(P)` (R166). -/
def Parsed.keyHdrs (p : Parsed) : List KeyHdr :=
  p.hdrs.map fun h => { version := h.version, src := h.src, dst := h.dst, fl := h.fl }

/-- What a profile supplied under ProfileExt encodes for one packet. -/
structure ExtEncoded where
  block : List Byte
  state : CtxState
  first : Byte
  rest : List Byte
  hdrEnd : Nat

/-- The parameter ProfileExt (R10, U7): key, create, encode (which may fail, R303) and use_udp_port
(R162) of the profiles RTP, UDP-Lite and ESP. Log 15. -/
structure ProfileExt where
  key : Profile → Parsed → List Byte → List Byte
  create : Profile → Parsed → List Byte → U16 → List Byte
  encode : Ctx → Parsed → List Byte → Option ExtEncoded
  usesUdpPort : Ctx → U16 → Bool

/-- ProfileExt is absent in the machine (R10). Log 15, safe. -/
def profileExt : Option ProfileExt := none

/-- `KEY_i(P)` (R165 to R167). -/
def Profile.key (x : Option ProfileExt) (pkt : List Byte) (p : Parsed) : Profile → Key
  | .uncompressed => .uncompressed
  | .ipOnly => .ip p.keyHdrs
  | .udp => .udp p.keyHdrs (be16At pkt p.tpOff) (be16At pkt (p.tpOff + 2))
  | prof =>
    match x with
    | some x => .ext (x.key prof p pkt)
    | none => .ext []

/-- `SELECT(P)`: the first enabled profile, in registry order, whose check accepts (R161). -/
def select (enabled : BitVec 7) (ports : List U16) (pkt : List Byte) (p : Parsed) :
    Option Profile :=
  registry.find? fun prof => enabled.getLsbD prof.bit && prof.check ports pkt p

/-- `USE_UDP_PORT(c, port)` (R168). -/
def Ctx.usesUdpPort (x : Option ProfileExt) (c : Ctx) (port : U16) : Bool :=
  match c.profile with
  | .udp =>
    match c.key with
    | .udp _ srcPort dstPort => srcPort == port || dstPort == port
    | _ => false
  | .rtp =>
    match x with
    | some x => x.usesUdpPort c port
    | none => false
  | .udpLite =>
    match x with
    | some x => x.usesUdpPort c port
    | none => false
  | _ => false

end Sys2Proof.Machine
end

