-- ==== Sys2Proof/Machine/Commands.lean ====
section
/-!
DEFINITION. The configuration commands, the RTP port list, REINIT and RD_CFG (47_commands.md R304 to
R313).
-/
namespace Sys2Proof.Machine
open Sys2Proof

/-- CFG written. -/
def State.setCfg (s : State) (cfg : Cfg) : State := { s with cfg := cfg }

/-! ## PROF_ENABLE and PROF_DISABLE (R304, R305) -/

/-- The registry entry an operand names; none when its upper half is not 0 or no entry has the id
(30_encoding.md R83). -/
def operandProfile (a : U32) : Option Profile :=
  if a.extractLsb' 16 16 = (0 : U16) then profileOfId (a.extractLsb' 0 16) else none

/-- The bit of a profile in CFG.PROFILES_EN. -/
def Profile.mask (p : Profile) : BitVec 7 := 1#7 <<< p.bit

/-- PROF_ENABLE. -/
def execProfEnable (a : U32) (s : State) : Host.Outcome State Fault Refusal :=
  whenConfigurable s
    (match operandProfile a with
     | none => .next (s.raiseError .badValue)
     | some p =>
       .next ((s.setCfg { s.cfg with profilesEn := s.cfg.profilesEn ||| p.mask }).respondOk [] 0))

/-- PROF_DISABLE. -/
def execProfDisable (a : U32) (s : State) : Host.Outcome State Fault Refusal :=
  whenConfigurable s
    (match operandProfile a with
     | none => .next (s.raiseError .badValue)
     | some p =>
       .next ((s.setCfg { s.cfg with profilesEn := s.cfg.profilesEn &&& ~~~p.mask }).respondOk [] 0))

/-! ## SET_WLSB, SET_REFRESH, SET_MRRU (R306 to R308) -/

/-- `w ≠ 0` and `w and (w - 1) = 0` (R306). -/
def isPowerOfTwo (w : U32) : Bool := w != 0 && w &&& (w - 1) == 0

/-- SET_WLSB. -/
def execSetWlsb (width : U32) (s : State) (P : Params := Params.spec) : Host.Outcome State Fault Refusal :=
  whenConfigurable s
    (if isPowerOfTwo width = false ∨ width.toNat > P.wlsbWidthMax then
       .next (s.raiseError .badValue)
     else .next ((s.setCfg { s.cfg with wlsbWidth := width.setWidth 7 }).respondOk [] 0))

/-- SET_REFRESH. -/
def execSetRefresh (ir fo : U32) (s : State) : Host.Outcome State Fault Refusal :=
  whenConfigurable s
    (if ir.toNat > fo.toNat ∧ fo.toNat > 0 then
       .next ((s.setCfg { s.cfg with irTimeout := ir, foTimeout := fo }).respondOk [] 0)
     else .next (s.raiseError .badValue))

/-- SET_MRRU. -/
def execSetMrru (bytes : U32) (s : State) (P : Params := Params.spec) : Host.Outcome State Fault Refusal :=
  whenConfigurable s
    (if bytes.toNat > P.rohcMaxMrru then .next (s.raiseError .badValue)
     else .next ((s.setCfg { s.cfg with mrru := bytes.setWidth 16 }).respondOk [] 0))

/-! ## RTP port list (R309 to R311) -/

/-- A port operand in [1, 65535]. -/
def portOperand (port : U32) : Option U16 :=
  if port.toNat < 1 ∨ port.toNat > 65535 then none else some (port.extractLsb' 0 16)

/-- RTP_PORT_ADD: range, duplicate, capacity (60_exceptions.md R343). Legal in both phases, as R300 (its
third test reads the codes 0x10 to 0x14), R309 and R314 say; 70_reset_and_hazards.md R374 reads otherwise (log 30). -/
def execRtpPortAdd (port : U32) (s : State) (P : Params := Params.spec) : Host.Outcome State Fault Refusal :=
  whenAlive s
    (match portOperand port with
     | none => .next (s.raiseError .badValue)
     | some p =>
       if s.rtpPorts.contains p then .next (s.raiseError .badValue)
       else if P.maxRtpPorts ≤ s.rtpPorts.length then .next (s.raiseError .capacity)
       else .next (({ s with rtpPorts := s.rtpPorts ++ [p] }).respondOk [] 0))

/-- A used slot whose context uses the port (41_frontend.md R168). -/
def slotUsesPort (port : U16) (v : Option Ctx) : Bool :=
  match v with
  | some c => c.usesUdpPort profileExt port
  | none => false

/-- `DESTROY(c)` for every slot that uses the port (R310). -/
def State.destroyPort (s : State) (port : U16) : State :=
  { s with
    ctx := s.ctx.map fun v => if slotUsesPort port v then none else v
    numContextsUsed := s.numContextsUsed - s.ctx.countP (slotUsesPort port) }

/-- RTP_PORT_REMOVE. -/
def execRtpPortRemove (port : U32) (s : State) : Host.Outcome State Fault Refusal :=
  whenAlive s
    (match portOperand port with
     | none => .next (s.raiseError .badValue)
     | some p =>
       if s.rtpPorts.contains p then
         .next ((({ s with rtpPorts := s.rtpPorts.erase p }).destroyPort p).respondOk [] 0)
       else .next (s.raiseError .badValue))

/-- RTP_PORT_RESET: no context is destroyed. -/
def execRtpPortReset (s : State) : Host.Outcome State Fault Refusal :=
  whenAlive s (.next (({ s with rtpPorts := [] }).respondOk [] 0))

/-! ## REINIT (R312) -/

/-- `force_ir <- 1` in a used slot of a profile other than Uncompressed. -/
def reinitSlot (v : Option Ctx) : Option Ctx :=
  match v with
  | some c => if c.profile = .uncompressed then some c else some { c with forceIr := true }
  | none => none

/-- REINIT. -/
def execReinit (s : State) : Host.Outcome State Fault Refusal :=
  whenAlive s (.next (({ s with ctx := s.ctx.map reinitSlot }).respondOk [] 0))

/-! ## RD_CFG (R313) -/

/-- The register a selector names. -/
def cfgRead (cfg : Cfg) (sel : U32) : Option U32 :=
  match sel.toNat with
  | 0 => some (cfg.mrru.setWidth 32)
  | 1 => some (cfg.maxCid.setWidth 32)
  | 2 =>
    match cfg.cidType with
    | .small => some 0
    | .large => some 1
  | _ => none

/-- RD_CFG. -/
def execRdCfg (sel : U32) (s : State) : Host.Outcome State Fault Refusal :=
  whenAlive s
    (match cfgRead s.cfg sel with
     | none => .next (s.raiseError .badValue)
     | some v => .next (s.respondOk [] v))

end Sys2Proof.Machine
end

