-- ==== Sys2Proof/Machine/Wlsb.lean ====
section
/-!
DEFINITION. W-LSB windows and the offset IP-ID (40_primitives.md R122 to R127).
-/
namespace Sys2Proof.Machine
open Sys2Proof

/-- v lies in `f(v_ref, k, p)`: `(v - (v_ref - p)) mod 2^16 < 2^k` (R122). -/
def inInterval (r : U16) (k : Nat) (p : Int) (v : U16) : Bool :=
  decide ((v - (r - BitVec.ofInt 16 p)).toNat < 2 ^ k)

/-- The bit counts tried, in order (R125). -/
def wlsbCandidates : List Nat := [0, 1, 2, 3, 4, 5, 6, 7, 8, 9, 10, 11, 12, 13, 14, 15, 16]

/-- `WLSB_K(w, v, p)`: 16 for an empty window, else the least k for which v lies in the interval of
every reference (R125). -/
def Window.kNeeded (w : Window) (v : U16) (p : Int) : Nat :=
  if w.count = 0 then 16
  else (wlsbCandidates.find? fun k => w.refs.all fun r => inInterval r k p v).getD 16

/-- `WLSB_ADD(w, v)` at capacity `CFG.WLSB_WIDTH`: a full window drops its oldest reference (R124). -/
def Window.add (width : Nat) (w : Window) (v : U16) : Window :=
  { refs := (if w.count = width then w.refs.drop 1 else w.refs) ++ [v] }

def Window.empty : Window := { refs := [] }

/-- `OFFSET_IPID(id, nbo, sn)` (R127). -/
def offsetIpId (id : U16) (nbo : Bool) (sn : U16) : U16 := (if nbo then id else swab16 id) - sn

end Sys2Proof.Machine
end

