-- ==== Sys2Proof/Machine/Contexts.lean ====
section
/-!
DEFINITION. The context store (41_frontend.md R156 to R159).
-/
namespace Sys2Proof.Machine
open Sys2Proof

/-- A used slot of the profile and key (R157). -/
def slotMatches (prof : Profile) (key : Key) (v : Option Ctx) : Bool :=
  match v with
  | some c => c.profile == prof && c.key == key
  | none => false

/-- `FIND(profile, key)` (R157). -/
def State.find (s : State) (prof : Profile) (key : Key) : Option Nat :=
  s.ctx.findIdx? (slotMatches prof key)

/-- The used slot with the smallest `latest_used`, the lowest index among equals (R159). -/
def oldest (slots : List (Option Ctx)) : Option (Nat × U64) :=
  match slots with
  | [] => none
  | none :: r => (oldest r).map fun v => (v.1 + 1, v.2)
  | some c :: r =>
    match oldest r with
    | some (i, t) => if t.toNat < c.latestUsed.toNat then some (i + 1, t) else some (0, c.latestUsed)
    | none => some (0, c.latestUsed)

/-- The slot a new context takes, and whether it evicts: the lowest unused slot, else the victim
(R159). -/
def State.allocate (s : State) : Nat × Bool :=
  match s.ctx.findIdx? (fun v => v.isNone) with
  | some i => (i, false)
  | none => ((oldest s.ctx).elim 0 (fun v => v.1), true)

/-- A new header record (R158): flags 0, 1, 0, counts 0, an empty window; the other fields hold no
value (log 12). -/
def CtxHdr.create (n h : Nat) (p : IpHdr) : CtxHdr :=
  let free := Config.freeHdr n h
  { tos := free.tos, ttl := free.ttl, proto := free.proto
    ip4 :=
      match p.version with
      | .v4 =>
        some
          { df := free.df, id := free.id, rnd := false, nbo := true, sid := false, rndCount := 0,
            nboCount := 0, sidCount := 0, winId := Window.empty }
      | .v6 => none }

/-- The new header records, outer first. -/
def createHdrs (n : Nat) (h : Nat) (ps : List IpHdr) : List CtxHdr :=
  match ps with
  | [] => []
  | p :: r => CtxHdr.create n h p :: createHdrs n (h + 1) r

/-- The profile-owned block of a new context (R158); `sn = rand16 -16 1`, so that the first packet
carries SN = rand16. -/
def Block.create (x : Option ProfileExt) (prof : Profile) (p : Parsed) (pkt : List Byte) (rand : U16)
    (n : Nat) : Block :=
  match prof with
  | .uncompressed => .empty
  | .udp =>
    .generic
      { sn := rand - 1, hdrs := createHdrs n 0 p.hdrs, winSn := Window.empty, irCount := 0,
        foCount := 0, goBackFo := 0, goBackIr := 0, udpCk := false }
  | .ipOnly =>
    .generic
      { sn := rand - 1, hdrs := createHdrs n 0 p.hdrs, winSn := Window.empty, irCount := 0,
        foCount := 0, goBackFo := 0, goBackIr := 0, udpCk := false }
  | prof =>
    match x with
    | some x => .ext (x.create prof p pkt rand)
    | none => .ext []

/-- `CREATE(cid, profile, key, P, t)` (R158). It draws `rand16` once, also for a profile that discards
it. -/
def State.create (s : State) (x : Option ProfileExt) (c : Nat) (prof : Profile) (key : Key)
    (p : Parsed) (pkt : List Byte) (t : U64) : State :=
  let v : Ctx :=
    { cid := c, profile := prof, key := key, state := .ir, mode := .u, firstUsed := t,
      latestUsed := t, numSent := 0, forceIr := false,
      block := Block.create x prof p pkt s.rand16 s.draws }
  { s.drawn with ctx := s.ctx.set c (some v), numContextsUsed := s.numContextsUsed + 1 }

/-- The slot `FIND_OR_CREATE` answers, and whether it is fresh (R159). -/
def State.pick (s : State) (prof : Profile) (key : Key) : Nat × Bool :=
  match s.find prof key with
  | some c => (c, false)
  | none => (s.allocate.1, true)

/-- The state after `FIND_OR_CREATE(profile, key, P, t)` (R159): a victim is destroyed first. -/
def State.findOrCreate (s : State) (x : Option ProfileExt) (prof : Profile) (key : Key) (p : Parsed)
    (pkt : List Byte) (t : U64) : State :=
  match s.find prof key with
  | some _ => s
  | none =>
    let s1 := if s.allocate.2 then s.destroy s.allocate.1 else s
    s1.create x s.allocate.1 prof key p pkt t

end Sys2Proof.Machine
end

