-- ==== Sys2Proof/Machine/Crc.lean ====
section
/-!
DEFINITION. The CRC generators and FCS-32 (40_primitives.md R128 to R131). The ROMs are constants
(10_state.md R35): functions of the polynomials.
-/
namespace Sys2Proof.Machine
open Sys2Proof

/-- One reflected step: shift right, and xor with POLY when the bit shifted out is 1 (R128). -/
def crcStep {w : Nat} (poly c : BitVec w) : BitVec w :=
  if c.getLsbD 0 then (c >>> 1) ^^^ poly else c >>> 1

/-- `TABLE(POLY)[i]`: eight steps from i (R128). -/
def crcTable {w : Nat} (poly : BitVec w) (i : Byte) : BitVec w :=
  crcStep poly (crcStep poly (crcStep poly (crcStep poly
    (crcStep poly (crcStep poly (crcStep poly (crcStep poly (i.setWidth w))))))))

/-! ## The ROMs (R35, R128) -/

def rom3 : Byte → Byte := crcTable 0x06
def rom7 : Byte → Byte := crcTable 0x79
def rom8 : Byte → Byte := crcTable 0xE0
/-- Read by no rule; its polynomial is open (R130, log 16). -/
def rom2 (P : Params := Params.spec) : Byte → Byte := crcTable P.crc2Poly
/-- Read by no rule; its polynomial is open (R130, log 16). -/
def rom6 (P : Params := Params.spec) : Byte → Byte := crcTable P.crc6Poly
def rom32 : Byte → U32 := crcTable 0xEDB88320

/-! ## The generators -/

/-- `crc = ROMk[b xor (crc and MASKk)]` (R128). -/
def crcUpdate (rom : Byte → Byte) (mask : Byte) (crc b : Byte) : Byte := rom (b ^^^ (crc &&& mask))

/-- The bytes in the order the generators take them (20_memory.md R65). -/
def crcOctets (P : Params) (data : List Byte) : List Byte :=
  match P.crcOctetOrder with
  | .natural => data

/-- `CRC3(data)` (R129): initial value 7, mask 7, bytes in order (20_memory.md R65). -/
def crc3 (data : List Byte) (P : Params := Params.spec) : BitVec 3 :=
  ((crcOctets P data).foldl (crcUpdate rom3 0x07) 0x07).setWidth 3

/-- `CRC7(data)` (R129). -/
def crc7 (data : List Byte) (P : Params := Params.spec) : BitVec 7 :=
  ((crcOctets P data).foldl (crcUpdate rom7 0x7F) 0x7F).setWidth 7

/-- `CRC8(data)` (R129). -/
def crc8 (data : List Byte) (P : Params := Params.spec) : Byte :=
  (crcOctets P data).foldl (crcUpdate rom8 0xFF) 0xFF

/-- `fcs = (fcs >> 8) xor ROM32[(fcs xor b) and 0xFF]` (R131). -/
def fcsUpdate (fcs : U32) (b : Byte) : U32 := (fcs >>> 8) ^^^ rom32 (fcs.setWidth 8 ^^^ b)

/-- `FCS32(data)` (R131). -/
def fcs32 (data : List Byte) (P : Params := Params.spec) : U32 :=
  (data.foldl fcsUpdate Config.fcs32Init) ^^^ P.fcs32Xorout

/-- The four trailer octets (20_memory.md R64). -/
def fcsOctets (fcs : U32) (P : Params := Params.spec) : List Byte :=
  if P.fcs32LsoFirst then (be32 fcs).reverse else be32 fcs

end Sys2Proof.Machine
end

