-- ==== Sys2Proof/Machine/Flags.lean ====
section
/-!
DEFINITION. Every flag computation: the RND, NBO and SID flags and their counts, the changed-field
flags of one packet, and the predicates the state decision reads (42_state_machine.md R181, R182, R184).
-/
namespace Sys2Proof.Machine
open Sys2Proof

/-- The observed triple (rnd, nbo, sid). -/
structure IpIdObs where
  rnd : Bool
  nbo : Bool
  sid : Bool
deriving DecidableEq, Repr

/-- `OBSERVE_IPID(x, id_new, first)` (R181). -/
def observeIpId (x : Ip4Rec) (idNew : U16) (first : Bool) (P : Params := Params.spec) : IpIdObs :=
  if first then { rnd := x.rnd, nbo := x.nbo, sid := x.sid }
  else if idNew = x.id then { rnd := false, nbo := x.nbo, sid := true }
  else if (idNew - x.id).toNat < P.ipidMaxDelta then { rnd := false, nbo := true, sid := false }
  else if (swab16 idNew - swab16 x.id).toNat < P.ipidMaxDelta then
    { rnd := false, nbo := false, sid := false }
  else { rnd := true, nbo := x.nbo, sid := false }

/-- A flag's count: one more while the observed value stays, 0 when it flips (R182). -/
def flagCount (old new : Bool) (count : Nat) (P : Params := Params.spec) : Nat :=
  if new = old then satInc count P else 0

/-- The IPv4 flags and counts of a record after one observation (R182). -/
def Ip4Rec.observe (x : Ip4Rec) (o : IpIdObs) (P : Params := Params.spec) : Ip4Rec :=
  { x with
    rnd := o.rnd
    nbo := o.nbo
    sid := o.sid
    rndCount := flagCount x.rnd o.rnd x.rndCount P
    nboCount := flagCount x.nbo o.nbo x.nboCount P
    sidCount := flagCount x.sid o.sid x.sidCount P }

/-- What change detection finds for one header. -/
structure HdrDetected where
  hdr : CtxHdr
  ch : HdrChange
  sidFlip : Bool

/-- Change detection for one header record and the packet's header (R182). -/
def detectHdr (first : Bool) (n : IpHdr) (x : CtxHdr) (P : Params := Params.spec) : HdrDetected :=
  match x.ip4 with
  | some v =>
    let o := observeIpId v n.id first P
    { hdr := { x with ip4 := some (v.observe o P) }
      ch :=
        { tos := !first && n.tos != x.tos
          ttl := !first && n.ttl != x.ttl
          df := !first && n.df != v.df
          pr := !first && n.proto != x.proto
          nbo := o.nbo != v.nbo
          rnd := o.rnd != v.rnd }
      sidFlip := o.sid != v.sid }
  | none =>
    { hdr := x
      ch :=
        { tos := !first && n.tos != x.tos
          ttl := !first && n.ttl != x.ttl
          df := false
          pr := !first && n.proto != x.proto
          nbo := false
          rnd := false }
      sidFlip := false }

/-- Change detection for the headers in order, outer first. -/
def detectHdrs (first : Bool) (ns : List IpHdr) (xs : List CtxHdr) (P : Params := Params.spec) :
    List HdrDetected :=
  match ns, xs with
  | n :: ns, x :: xs => detectHdr first n x P :: detectHdrs first ns xs P
  | _, _ => []

/-- Changed static fields of a header: the protocol (R182). -/
def HdrChange.statics (c : HdrChange) : Nat := c.pr.toNat

/-- Changed dynamic fields of a header: TOS, TTL, DF and the flips of RND and NBO (R182). -/
def HdrChange.dynamics (c : HdrChange) : Nat :=
  c.tos.toNat + c.ttl.toNat + c.df.toNat + c.rnd.toNat + c.nbo.toNat

/-- Any counted change of a header (43_packet_type.md R209). -/
def HdrChange.any (c : HdrChange) : Bool := c.tos || c.ttl || c.df || c.pr || c.nbo || c.rnd

/-- `send_static` (R182). -/
def sumStatic (ds : List HdrDetected) : Nat := (ds.map fun d => d.ch.statics).sum

/-- `send_dynamic` (R182). -/
def sumDynamic (ds : List HdrDetected) : Nat := (ds.map fun d => d.ch.dynamics).sum

/-- The UDP checksum of the packet: `be16` at `tp_off + 6` (R182). -/
def udpChecksum (pkt : List Byte) (p : Parsed) : U16 := be16At pkt (p.tpOff + 6)

/-- A flag pair of the three counts reaches OA_REPETITIONS (R184). -/
def Ip4Rec.converged (x : Ip4Rec) (P : Params := Params.spec) : Bool :=
  decide (P.oaRepetitions ≤ x.rndCount) && decide (P.oaRepetitions ≤ x.nboCount)
    && decide (P.oaRepetitions ≤ x.sidCount)

/-- `flags_converged(c)`: true when there is no IPv4 header (R184). -/
def flagsConverged (g : Generic) (P : Params := Params.spec) : Bool :=
  g.hdrs.all fun h =>
    match h.ip4 with
    | some x => x.converged P
    | none => true

/-- `windows_ready(c)` (R184). -/
def windowsReady (g : Generic) : Bool :=
  decide (0 < g.winSn.count) && g.hdrs.all fun h =>
    match h.ip4 with
    | some x => decide (0 < x.winId.count)
    | none => true

/-- Some IPv4 header has an unconverged SID (43_packet_type.md R204). -/
def sidUnconverged (g : Generic) (P : Params := Params.spec) : Bool :=
  g.hdrs.any fun h =>
    match h.ip4 with
    | some x => decide (x.sidCount < P.oaRepetitions)
    | none => false

end Sys2Proof.Machine
end

