-- ==== Sys2Proof/Machine/Engine.lean ====
section
/-!
DEFINITION. The RFC 3095 engine up to the packet-type decision: change detection, the state decision,
the bit counts, the packet type and the extension (42_state_machine.md R180 to R188, 43_packet_type.md
R200 to R209). Everything here acts on the scratch registers and the context under work (log 17).
-/
namespace Sys2Proof.Machine
open Sys2Proof

/-! ## Change detection (R182) -/

/-- `first = (CTX[c].num_sent = 0)` (R180). -/
def Ctx.isFirst (c : Ctx) : Bool := c.numSent == 0

/-- `DETECT_CHANGES(c, P, first)` for a generic block. -/
def Scratch.detect (sc : Scratch) (g : Generic) (P : Params := Params.spec) : Scratch :=
  let first := sc.ctx.isFirst
  let ds := detectHdrs first sc.par.hdrs g.hdrs P
  let ckSet := udpChecksum sc.pkt sc.par != 0
  let isUdp := sc.ctx.profile == .udp
  { sc with
    ctx := { sc.ctx with
      block := .generic { g with
        hdrs := ds.map fun d => d.hdr
        udpCk := if isUdp then ckSet else g.udpCk } }
    hs := ds.map fun d => { ch := d.ch, off := 0, kId := 0 }
    sendStatic := sumStatic ds
    sendDynamic := sumDynamic ds
    sidFlip := ds.any fun d => d.sidFlip
    ckFlip := isUdp && !first && ckSet != g.udpCk }

/-! ## State decision (R185) -/

/-- The state chosen and whether the counters restart; the first true arm wins (R185). -/
def decideArm (cfg : Cfg) (c : Ctx) (g : Generic) (sc : Scratch) (P : Params := Params.spec) :
    CtxState × Bool :=
  if c.forceIr then (.ir, true)
  else if sc.sendStatic > 0 ∨ sc.sidFlip = true ∨ sc.ckFlip = true then (.ir, true)
  else if c.state ≠ .ir ∧ g.goBackIr ≥ cfg.irTimeout.toNat then (.ir, true)
  else if c.state = .so ∧ g.goBackFo ≥ cfg.foTimeout.toNat then (.fo, false)
  else if c.state = .so ∧ sc.sendDynamic > 0 then (.fo, false)
  else if c.state = .ir ∧ g.irCount ≥ Config.maxIrCount ∧ flagsConverged g P = true then (.fo, false)
  else if c.state = .fo ∧ g.foCount ≥ Config.maxFoCount ∧ flagsConverged g P = true
      ∧ sc.sendStatic = 0 ∧ sc.sendDynamic = 0 ∧ windowsReady g = true then (.so, false)
  else (c.state, false)

/-- The counters after a decision: they restart on every transition and on every arm to IR (R185). -/
def restartCounters (st next : CtxState) (reset : Bool) (g : Generic) : Generic :=
  if next ≠ st ∨ reset = true then
    { g with
      irCount := 0
      foCount := 0
      goBackFo := 0
      goBackIr := if next = .ir then 0 else g.goBackIr }
  else g

/-- `DECIDE_STATE(c)`; the first arm clears `force_ir`. -/
def Scratch.decideState (cfg : Cfg) (sc : Scratch) (g : Generic) (P : Params := Params.spec) : Scratch :=
  let d := decideArm cfg sc.ctx g sc P
  { sc with
    ctx := { sc.ctx with
      state := d.1
      forceIr := false
      block := .generic (restartCounters sc.ctx.state d.1 d.2 g) } }

/-! ## Bits required (R200) -/

/-- `SCR.off[h]` and `SCR.k_id[h]` of one header. -/
def idBits (sn : U16) (n : IpHdr) (x : CtxHdr) (h : HdrScratch) : HdrScratch :=
  match x.ip4 with
  | some v =>
    let off := offsetIpId n.id v.nbo sn
    { h with off := off, kId := if v.rnd || v.sid then 0 else v.winId.kNeeded off Config.pIpid }
  | none => { h with off := 0, kId := 0 }

/-- `idBits` for the headers in order. -/
def idBitsAll (sn : U16) (ns : List IpHdr) (xs : List CtxHdr) (hs : List HdrScratch) :
    List HdrScratch :=
  match ns, xs, hs with
  | n :: ns, x :: xs, h :: hs => idBits sn n x h :: idBitsAll sn ns xs hs
  | _, _, _ => []

/-- `COMPUTE_BITS(c, P)`. -/
def Scratch.computeBits (sc : Scratch) (g : Generic) : Scratch :=
  { sc with
    kSn := g.winSn.kNeeded sc.snNew Config.pSn
    hs := idBitsAll sc.snNew sc.par.hdrs g.hdrs sc.hs }

/-! ## Packet type (R203 to R205) -/

/-- `SCR.k_id[h]`; 0 for a header there is not. -/
def Scratch.kId (sc : Scratch) (h : Nat) : Nat := (sc.hs[h]?).elim 0 fun v => v.kId

/-- `inner_ok = no_inner_ip_id_bits_required` (R201). -/
def Scratch.innerOk (sc : Scratch) : Bool := decide (sc.par.nhdr = 1) || decide (sc.kId 1 = 0)

/-- `outer_v4_seq` (R201). -/
def outerSeq (g : Generic) : Bool := (g.hdrs.head?).elim false fun h => h.seqIpId

/-- `DECIDE_FO` (R204). -/
def Scratch.decideFo (sc : Scratch) (g : Generic) (P : Params := Params.spec) : PacketType :=
  if sidUnconverged g P then .irDyn
  else if sc.sendStatic > 0 ∧ sc.kSn ≤ 13 then .uor2
  else if (sc.par.nhdr = 1 ∧ sc.sendDynamic > 2) ∨ (sc.par.nhdr = 2 ∧ sc.sendDynamic > 4) then .irDyn
  else if sc.kSn ≤ 13 then .uor2
  else .irDyn

/-- `DECIDE_SO` (R205). -/
def Scratch.decideSo (sc : Scratch) (g : Generic) : PacketType :=
  if sc.kSn ≤ 4 ∧ sc.kId 0 = 0 ∧ sc.innerOk = true then .uo0
  else if sc.kSn ≤ 5 ∧ outerSeq g = true ∧ sc.kId 0 ≤ 6 ∧ sc.innerOk = true then .uo1
  else if sc.kSn ≤ 13 then .uor2
  else .irDyn

/-- The packet type by the state after the decision (R186, R203). -/
def Scratch.decideType (sc : Scratch) (g : Generic) (P : Params := Params.spec) : PacketType :=
  match sc.ctx.state with
  | .ir => .ir
  | .fo => sc.decideFo g P
  | .so => sc.decideSo g

/-! ## Extension of UOR-2 (R208, R209) -/

/-- Index of the primary header: the last (00_scope.md R17). -/
def Scratch.prim (sc : Scratch) : Nat := sc.par.nhdr - 1

/-- There is a secondary header: the outer of two (R17). -/
def Scratch.hasSec (sc : Scratch) : Bool := decide (sc.par.nhdr = 2)

/-- `id1` (R208). -/
def Scratch.id1 (sc : Scratch) : Nat := sc.kId sc.prim

/-- `id2` (R208). -/
def Scratch.id2 (sc : Scratch) : Nat := if sc.hasSec then sc.kId 0 else 0

/-- `DECIDE_EXT` (R208). -/
def Scratch.decideExt (sc : Scratch) : ExtKind :=
  let need3 := sc.sendStatic > 0 ∨ sc.sendDynamic > 0
  if ¬need3 ∧ sc.kSn ≤ 5 ∧ sc.id1 = 0 ∧ sc.id2 = 0 then .none
  else if ¬need3 ∧ sc.kSn ≤ 8 ∧ sc.id1 ≤ 3 ∧ sc.id2 = 0 then .ext0
  else if ¬need3 ∧ sc.kSn ≤ 8 ∧ sc.id1 ≤ 11 ∧ sc.id2 = 0 then .ext1
  else if ¬need3 ∧ sc.par.nhdr = 2 ∧ sc.kSn ≤ 8 ∧ sc.id1 ≤ 8 ∧ sc.id2 ≤ 11 then .ext2
  else .ext3

/-- `SCR.ch[h]`, all false for a header there is not. -/
def Scratch.changes (sc : Scratch) (h : Nat) : HdrChange :=
  (sc.hs[h]?).elim default fun v => v.ch

/-- Flag S of extension 3 (R209). -/
def Scratch.ext3S (sc : Scratch) : Bool := decide (sc.kSn > 5)
/-- Flag I of extension 3 (R209). -/
def Scratch.ext3I (sc : Scratch) : Bool := decide (sc.id1 > 0)
/-- Flag ip of extension 3 (R209). -/
def Scratch.ext3Ip (sc : Scratch) : Bool := (sc.changes sc.prim).any
/-- Flag I2 of extension 3 (R209). -/
def Scratch.ext3I2 (sc : Scratch) : Bool := sc.hasSec && decide (sc.id2 > 0)
/-- Flag ip2 of extension 3 (R209). -/
def Scratch.ext3Ip2 (sc : Scratch) : Bool := sc.hasSec && ((sc.changes 0).any || sc.ext3I2)

/-! ## Steps 2 to 6 in order (R180) -/

/-- The steps of `ENCODE_GENERIC` before the builder, for the generic block of the context under
work. -/
def Scratch.prepareGeneric (cfg : Cfg) (sc : Scratch) (g : Generic) (P : Params := Params.spec) : Scratch :=
  let sc := sc.detect g P
  let sc := { sc with snNew := g.sn + 1 }
  let sc :=
    match sc.ctx.generic? with
    | some g => sc.decideState cfg g P
    | none => sc
  match sc.ctx.generic? with
  | some g =>
    let sc := sc.computeBits g
    let sc := { sc with ptype := sc.decideType g P }
    { sc with ext := if sc.ptype = .uor2 then sc.decideExt else .none }
  | none => sc

/-- As `prepareGeneric`, for a context without a generic block: a Normal packet (R193, R240). -/
def Scratch.prepare (cfg : Cfg) (sc : Scratch) (P : Params := Params.spec) : Scratch :=
  match sc.ctx.generic? with
  | some g => sc.prepareGeneric cfg g P
  | none => { sc with ptype := .normal, ext := .none }

/-! ## Context update (R188) -/

/-- One header record after the packet: the last-packet fields, and the offset IP-ID in the window of
an IPv4 header. -/
def CtxHdr.update (width : Nat) (n : IpHdr) (off : U16) (x : CtxHdr) : CtxHdr :=
  { tos := n.tos, ttl := n.ttl, proto := n.proto
    ip4 := x.ip4.map fun v => { v with df := n.df, id := n.id, winId := v.winId.add width off } }

/-- The header records after the packet. -/
def updateHdrs (width : Nat) (ns : List IpHdr) (hs : List HdrScratch) (xs : List CtxHdr) :
    List CtxHdr :=
  match ns, hs, xs with
  | n :: ns, h :: hs, x :: xs => x.update width n h.off :: updateHdrs width ns hs xs
  | _, _, _ => []

/-- The counters by the state the packet was built in. -/
def countPacket (st : CtxState) (g : Generic) (P : Params := Params.spec) : Generic :=
  match st with
  | .ir => { g with irCount := satInc g.irCount P }
  | .fo => { g with foCount := satInc g.foCount P, goBackIr := satInc g.goBackIr P }
  | .so => { g with goBackFo := satInc g.goBackFo P, goBackIr := satInc g.goBackIr P }

/-- `UPDATE_CONTEXT(c, P)` for a generic block. -/
def Scratch.updateContext (cfg : Cfg) (sc : Scratch) (P : Params := Params.spec) : Scratch :=
  match sc.ctx.block with
  | .generic g =>
    let width := cfg.wlsbWidth.toNat
    { sc with
      ctx := { sc.ctx with
        block := .generic (countPacket sc.ctx.state { g with
          sn := sc.snNew
          winSn := g.winSn.add width sc.snNew
          hdrs := updateHdrs width sc.par.hdrs sc.hs g.hdrs } P) } }
  | _ => sc

end Sys2Proof.Machine
end

