-- ==== Sys2Proof/Machine/Builders.lean ====
section
/-!
DEFINITION. Packet construction (44_packet_build.md): the pieces of a header, and for every header row
of the opcode table the operation that emits it, with its meaning as an instruction. An operation takes
the fields of its word as arguments and everything that follows them from the scratch registers; the
builders at the end pick the fields (30_encoding.md R109) and call the operations.
-/
namespace Sys2Proof.Machine
open Sys2Proof

/-! ## Common pieces -/

/-- `hdr_end(c, P)` (R221). -/
def Scratch.hdrEnd (sc : Scratch) : Nat :=
  match sc.ctx.profile with
  | .ipOnly => sc.par.tpOff
  | .udp => sc.par.tpOff + 8
  | _ => 0

/-- `UH(c, P)`: the uncompressed header, which every CRC covers (R221, R222). -/
def Scratch.uh (sc : Scratch) : List Byte := sc.pkt.take sc.hdrEnd

/-- The context's profile is UDP. -/
def Scratch.isUdp (sc : Scratch) : Bool := sc.ctx.profile == .udp

/-- The static part of one header (R101, R224). -/
def staticPart (h : IpHdr) : List Byte :=
  match h.version with
  | .v4 => [0x40, h.proto] ++ h.src ++ h.dst
  | .v6 =>
    [6#4 ++ h.fl.extractLsb' 16 4, h.fl.extractLsb' 8 8, h.fl.extractLsb' 0 8, h.proto] ++ h.src
      ++ h.dst

/-- `STATIC_CHAIN(c, P)` (R224). -/
def Scratch.staticChain (sc : Scratch) : List Byte :=
  sc.par.hdrs.flatMap staticPart ++ (if sc.isUdp then slice sc.pkt sc.par.tpOff 4 else [])

/-- The dynamic part of one header, with the flags of the context (R102, R225). -/
def dynamicPart (n : IpHdr) (x : CtxHdr) : List Byte :=
  match x.ip4 with
  | some v =>
    [n.tos, n.ttl] ++ be16 n.id ++ [bit n.df ++ bit v.rnd ++ bit v.nbo ++ bit v.sid ++ 0#4, 0x00]
  | none => [n.tos, n.ttl, 0x00]

/-- The dynamic parts of the headers, outer first. -/
def dynamicParts (ns : List IpHdr) (xs : List CtxHdr) : List Byte :=
  match ns, xs with
  | n :: ns, x :: xs => dynamicPart n x ++ dynamicParts ns xs
  | _, _ => []

/-- `DYNAMIC_CHAIN(c, P)` (R225). -/
def Scratch.dynamicChain (sc : Scratch) : List Byte :=
  dynamicParts sc.par.hdrs sc.ctx.hdrs
    ++ (if sc.isUdp then slice sc.pkt (sc.par.tpOff + 6) 2 else [])

/-- The random identifications, outer first (R226). -/
def randomIds (ns : List IpHdr) (xs : List CtxHdr) : List Byte :=
  match ns, xs with
  | n :: ns, x :: xs => (if x.isRnd then be16 n.id else []) ++ randomIds ns xs
  | _, _ => []

/-- `TAIL(c, P)` (R107, R226). -/
def Scratch.tail (sc : Scratch) : List Byte :=
  randomIds sc.par.hdrs sc.ctx.hdrs
    ++ (if sc.isUdp && sc.ctx.udpCk then slice sc.pkt (sc.par.tpOff + 6) 2 else [])

/-- The low 8 bits of the profile id (R108). -/
def Scratch.profileOctet (sc : Scratch) : Byte := sc.ctx.profile.id.extractLsb' 0 8

/-- The offset IP-ID of header h where its IP-ID is sent by offset, else 0 (`o1`, `o2` of R235). -/
def Scratch.offsetOf (sc : Scratch) (h : Nat) : U16 :=
  match sc.ctx.hdrs[h]?, sc.hs[h]? with
  | some x, some v => if x.seqIpId then v.off else 0
  | _, _ => 0

/-- `o1` (R235). -/
def Scratch.o1 (sc : Scratch) : U16 := sc.offsetOf sc.prim

/-- `o2` (R235). -/
def Scratch.o2 (sc : Scratch) : U16 := if sc.hasSec then sc.offsetOf 0 else 0

/-- `SCR.off[h]`; 0 for a header there is not. -/
def Scratch.off (sc : Scratch) (h : Nat) : U16 := (sc.hs[h]?).elim 0 fun v => v.off

/-! ## The emitting operations -/

/-- UO_0 (R93, R232): one octet, then the tail. -/
def Scratch.emitUo0 (sn : BitVec 4) (crc : BitVec 3) (sc : Scratch) : Scratch :=
  { sc with asm := { sc.asm with first := [Wire.uo0 sn crc], rest := sc.tail } }

/-- UO_1 (R94, R233): two octets, then the tail. -/
def Scratch.emitUo1 (ipid : BitVec 6) (sn : BitVec 5) (crc : BitVec 3) (sc : Scratch) : Scratch :=
  { sc with
    asm := { sc.asm with first := [Wire.uo1First ipid], rest := Wire.uo1Second sn crc :: sc.tail } }

/-- UOR_2 (R95, R234): two octets, the extension when X = 1, then the tail. -/
def Scratch.emitUor2 (sn : BitVec 5) (x : BitVec 1) (crc : BitVec 7) (sc : Scratch) : Scratch :=
  { sc with
    asm := { sc.asm with
      first := [Wire.uor2First sn]
      rest := Wire.uor2Second x crc :: ((if x = 1 then sc.asm.ext else []) ++ sc.tail) } }

/-- ADD_CID (R86, R223): "CID 0 has no Add-CID octet". -/
def Scratch.emitAddCid (cid : BitVec 4) (sc : Scratch) : Scratch :=
  { sc with asm := { sc.asm with addCid := if cid = 0 then [] else [Wire.addCid cid] } }

/-- SDVL_1 to SDVL_4 (R88, R120): the value as a large CID (R87), in its shortest form. -/
def Scratch.emitSdvl (v : Nat) (sc : Scratch) : Scratch :=
  { sc with asm := { sc.asm with largeCid := (sdvlEnc v).getD [] } }

/-- IR (R91, R230): 0xFD, profile, CRC-8, static chain, dynamic chain, SN. -/
def Scratch.emitIr (sc : Scratch) (P : Params := Params.spec) : Scratch :=
  { sc with
    asm := { sc.asm with
      first := [Wire.ir]
      rest := [sc.profileOctet, crc8 sc.uh P] ++ sc.staticChain ++ sc.dynamicChain ++ be16 sc.snNew } }

/-- IR_DYN (R92, R231): 0xF8, profile, CRC-8, dynamic chain, SN. -/
def Scratch.emitIrDyn (sc : Scratch) (P : Params := Params.spec) : Scratch :=
  { sc with
    asm := { sc.asm with
      first := [Wire.irDyn]
      rest := [sc.profileOctet, crc8 sc.uh P] ++ sc.dynamicChain ++ be16 sc.snNew } }

/-- NORMAL (R100, R240): 0xFC and nothing else; the payload is all of IN. -/
def Scratch.emitNormal (sc : Scratch) : Scratch :=
  { sc with asm := { sc.asm with first := [Wire.normal], rest := [] } }

/-- EXT_0 (R96, R235). -/
def Scratch.emitExt0 (sn ipid : BitVec 3) (sc : Scratch) : Scratch :=
  { sc with asm := { sc.asm with ext := [Wire.ext0 sn ipid] } }

/-- EXT_1 (R97, R236). -/
def Scratch.emitExt1 (sn : BitVec 3) (ipid : BitVec 11) (sc : Scratch) : Scratch :=
  { sc with asm := { sc.asm with ext := Wire.ext1 sn ipid } }

/-- EXT_2 (R98, R237). -/
def Scratch.emitExt2 (sn : BitVec 3) (ipid2 : BitVec 11) (ipid : BitVec 8) (sc : Scratch) : Scratch :=
  { sc with asm := { sc.asm with ext := Wire.ext2 sn ipid2 ipid } }

/-- The header-flags octet of extension 3: TOS TTL DF PR IPX NBO RND and a last bit; DF, NBO and RND
carry current values, 0 for IPv6 (R99, R238). -/
def ext3HdrFlags (n : IpHdr) (x : CtxHdr) (d : HdrChange) (last : BitVec 1) : Byte :=
  let v4 := x.ip4.isSome
  bit d.tos ++ bit d.ttl ++ bit (v4 && n.df) ++ bit d.pr ++ 0#1
    ++ bit ((x.ip4.elim false fun v => v.nbo)) ++ bit ((x.ip4.elim false fun v => v.rnd)) ++ last

/-- The changed fields of one header in extension 3: TOS, TTL, protocol (R99, R238). -/
def ext3HdrFields (n : IpHdr) (d : HdrChange) : List Byte :=
  (if d.tos then [n.tos] else []) ++ (if d.ttl then [n.ttl] else [])
    ++ (if d.pr then [n.proto] else [])

/-- The header-flags octet of header h; none for a header there is not. -/
def Scratch.ext3Flags (sc : Scratch) (h : Nat) (last : BitVec 1) : List Byte :=
  match sc.par.hdrs[h]?, sc.ctx.hdrs[h]? with
  | some n, some x => [ext3HdrFlags n x (sc.changes h) last]
  | _, _ => []

/-- The changed fields of header h; none for a header there is not. -/
def Scratch.ext3Fields (sc : Scratch) (h : Nat) : List Byte :=
  match sc.par.hdrs[h]? with
  | some n => ext3HdrFields n (sc.changes h)
  | none => []

/-- What follows the flags octet of extension 3, in the order of R99 (R238). The secondary header
is header 0 of two. -/
def Scratch.ext3Body (sc : Scratch) (s i ip ip2 : BitVec 1) : List Byte :=
  (if ip = 1 then sc.ext3Flags sc.prim 0 else [])
    ++ (if ip2 = 1 ∧ sc.hasSec = true then sc.ext3Flags 0 (bit sc.ext3I2) else [])
    ++ (if s = 1 then [sc.snNew.extractLsb' 0 8] else [])
    ++ (if ip = 1 then sc.ext3Fields sc.prim else [])
    ++ (if i = 1 then be16 sc.o1 else [])
    ++ (if ip2 = 1 ∧ sc.hasSec = true then
          sc.ext3Fields 0 ++ (if sc.ext3I2 then be16 sc.o2 else [])
        else [])

/-- EXT_3 (R99, R238). The block emits no Mode but MODE_CODE_U (R110, D22). -/
def Scratch.emitExt3 (s i ip ip2 : BitVec 1) (sc : Scratch) (P : Params := Params.spec) : Scratch :=
  { sc with
    asm := { sc.asm with
      ext := Wire.ext3 s P.modeCodeU i ip ip2 :: sc.ext3Body s i ip ip2 } }

/-- An operation on the scratch registers alone. -/
def State.onScratch (s : State) (f : Scratch → Scratch) : State := { s with scr := f s.scr }

/-! ## The header rows as instructions -/

/-- UO_0. -/
def execUo0 (sn : BitVec 4) (crc : BitVec 3) (s : State) : Host.Outcome State Fault Refusal :=
  .next (s.onScratch (Scratch.emitUo0 sn crc))

/-- UO_1. -/
def execUo1 (ipid : BitVec 6) (sn : BitVec 5) (crc : BitVec 3) (s : State) :
    Host.Outcome State Fault Refusal :=
  .next (s.onScratch (Scratch.emitUo1 ipid sn crc))

/-- UOR_2. -/
def execUor2 (sn : BitVec 5) (x : BitVec 1) (crc : BitVec 7) (s : State) :
    Host.Outcome State Fault Refusal :=
  .next (s.onScratch (Scratch.emitUor2 sn x crc))

/-- ADD_CID. -/
def execAddCid (cid : BitVec 4) (s : State) : Host.Outcome State Fault Refusal :=
  .next (s.onScratch (Scratch.emitAddCid cid))

/-- IR_DYN. -/
def execIrDyn (s : State) (P : Params := Params.spec) : Host.Outcome State Fault Refusal :=
  .next (s.onScratch fun sc => sc.emitIrDyn P)

/-- NORMAL. -/
def execNormal (s : State) : Host.Outcome State Fault Refusal :=
  .next (s.onScratch Scratch.emitNormal)

/-- IR. -/
def execIr (s : State) (P : Params := Params.spec) : Host.Outcome State Fault Refusal :=
  .next (s.onScratch fun sc => sc.emitIr P)

/-- EXT_0. -/
def execExt0 (sn ipid : BitVec 3) (s : State) : Host.Outcome State Fault Refusal :=
  .next (s.onScratch (Scratch.emitExt0 sn ipid))

/-- EXT_1. -/
def execExt1 (sn : BitVec 3) (ipid : BitVec 11) (s : State) : Host.Outcome State Fault Refusal :=
  .next (s.onScratch (Scratch.emitExt1 sn ipid))

/-- EXT_2. -/
def execExt2 (sn : BitVec 3) (ipid2 : BitVec 11) (ipid : BitVec 8) (s : State) :
    Host.Outcome State Fault Refusal :=
  .next (s.onScratch (Scratch.emitExt2 sn ipid2 ipid))

/-- EXT_3. A word whose Mode is not MODE_CODE_U is never formed by the block (log 23). -/
def execExt3 (sf : BitVec 1) (_mode : BitVec 2) (i ip ip2 : BitVec 1) (s : State)
    (P : Params := Params.spec) : Host.Outcome State Fault Refusal :=
  .next (s.onScratch fun sc => sc.emitExt3 sf i ip ip2 P)

/-- SDVL_1. -/
def execSdvl1 (v : BitVec 7) (s : State) : Host.Outcome State Fault Refusal :=
  .next (s.onScratch (Scratch.emitSdvl v.toNat))

/-- SDVL_2. -/
def execSdvl2 (v : BitVec 14) (s : State) : Host.Outcome State Fault Refusal :=
  .next (s.onScratch (Scratch.emitSdvl v.toNat))

/-- SDVL_3. -/
def execSdvl3 (v : BitVec 21) (s : State) : Host.Outcome State Fault Refusal :=
  .next (s.onScratch (Scratch.emitSdvl v.toNat))

/-- SDVL_4. -/
def execSdvl4 (v : BitVec 29) (s : State) : Host.Outcome State Fault Refusal :=
  .next (s.onScratch (Scratch.emitSdvl v.toNat))

/-! ## The builders: which words a packet is made of (R230 to R240, R109) -/

/-- `BUILD_UO0` (R232). -/
def Scratch.buildUo0 (sc : Scratch) (P : Params := Params.spec) : Scratch :=
  sc.emitUo0 (lsb sc.snNew 4) (crc3 sc.uh P)

/-- `BUILD_UO1` (R233): the IP-ID bits are the outer header's. -/
def Scratch.buildUo1 (sc : Scratch) (P : Params := Params.spec) : Scratch :=
  sc.emitUo1 (lsb (sc.off 0) 6) (lsb sc.snNew 5) (crc3 sc.uh P)

/-- `BUILD_UOR2` (R234), with `BUILD_EXT0` to `BUILD_EXT3` (R235 to R238) and the flags of R209. -/
def Scratch.buildUor2 (sc : Scratch) (P : Params := Params.spec) : Scratch :=
  let sn := sc.snNew
  match sc.ext with
  | .none => sc.emitUor2 (lsb sn 5) 0 (crc7 sc.uh P)
  | .ext0 =>
    (sc.emitExt0 (lsb sn 3) (lsb sc.o1 3)).emitUor2 (sn.extractLsb' 3 5) 1 (crc7 sc.uh P)
  | .ext1 =>
    (sc.emitExt1 (lsb sn 3) (lsb sc.o1 11)).emitUor2 (sn.extractLsb' 3 5) 1 (crc7 sc.uh P)
  | .ext2 =>
    (sc.emitExt2 (lsb sn 3) (lsb sc.o2 11) (lsb sc.o1 8)).emitUor2 (sn.extractLsb' 3 5) 1
      (crc7 sc.uh P)
  | .ext3 =>
    (sc.emitExt3 (bit sc.ext3S) (bit sc.ext3I) (bit sc.ext3Ip) (bit sc.ext3Ip2) P).emitUor2
      (if sc.ext3S then sn.extractLsb' 8 5 else lsb sn 5) 1 (crc7 sc.uh P)

/-- The builder of `SCR.ptype` (R220). -/
def Scratch.build (sc : Scratch) (P : Params := Params.spec) : Scratch :=
  match sc.ptype with
  | .ir => sc.emitIr P
  | .irDyn => sc.emitIrDyn P
  | .uo0 => sc.buildUo0 P
  | .uo1 => sc.buildUo1 P
  | .uor2 => sc.buildUor2 P
  | .normal => sc.emitNormal

/-- `CIDWRAP` (R223): small CIDs take an Add-CID octet, large CIDs an SDVL after the first octet. -/
def Scratch.wrapCid (cidType : CidType) (sc : Scratch) : Scratch :=
  match cidType with
  | .small => sc.emitAddCid (BitVec.ofNat 4 sc.ctx.cid)
  | .large => sc.emitSdvl sc.ctx.cid

/-- The header as it goes out: `[Add-CID] ‖ first ‖ [SDVL(cid)] ‖ rest` (R86, R87). -/
def Assembly.header (a : Assembly) : List Byte := a.addCid ++ a.first ++ a.largeCid ++ a.rest

/-- Everything assembled, in the order of OUT (20_memory.md R61). -/
def Assembly.bytes (a : Assembly) : List Byte := a.fb ++ a.header

/-- `BUILD_HEADER(c, P)` (R220) on the scratch registers: the steps of `ENCODE_GENERIC`, the builder, the
CID, the context update. -/
def Scratch.buildHeader (cfg : Cfg) (sc : Scratch) (P : Params := Params.spec) : Scratch :=
  (((sc.prepare cfg P).build P).wrapCid cfg.cidType).updateContext cfg P

end Sys2Proof.Machine
end

