-- ==== Sys2Proof/Machine/Feedback.lean ====
section
/-!
DEFINITION. The feedback ring (45_feedback.md): FB_GET and FB_DRAIN, the two feedback rows of the opcode
table, and the feedback commands.
-/
namespace Sys2Proof.Machine
open Sys2Proof

/-! ## Predicates (R260) -/

/-- `FB_EMPTY`. -/
def Ring.isEmpty (r : Ring) : Bool :=
  decide (r.first = r.next) && decide ((r.slot r.first).len = 0)

/-- `FB_FULL`. -/
def Ring.isFull (r : Ring) : Bool :=
  decide (r.first = r.next) && decide (0 < (r.slot r.first).len)

/-- The entry FB_GET looks at: `FB[FB.first_unlocked]`. -/
def Ring.head (r : Ring) : FbSlot := r.slot r.firstUnlocked

/-- An unlocked entry waits at the head (R263). -/
def Ring.waiting (r : Ring) : Bool := decide (0 < r.head.len) && !r.head.locked

/-! ## Blocks (R89, R263) -/

/-- `|block|` of an entry of length L. -/
def blockLen (len : Nat) : Nat := if len < 8 then 1 + len else 2 + len

/-- The head entry locked, the boundary advanced (R263). -/
def Ring.lockHead (r : Ring) (P : Params := Params.spec) : Ring :=
  { r with
    slots := r.slots.set r.firstUnlocked { r.head with locked := true }
    firstUnlocked := ringNext r.firstUnlocked P }

/-- A feedback block appended to what is assembled, its entry locked (R263). -/
def State.takeBlock (s : State) (lead : List Byte) (P : Params := Params.spec) : State :=
  { s with
    fb := s.fb.lockHead P
    scr := { s.scr with asm := { s.scr.asm with fb := s.scr.asm.fb ++ (lead ++ s.fb.head.data) } } }

/-- FEEDBACK_SHORT (R89, R263): the block of a waiting head entry of 1 to 7 bytes, its length L; with no
such entry FB_GET returns nothing. -/
def State.emitFeedbackShort (len : BitVec 3) (s : State) (P : Params := Params.spec) : State :=
  if s.fb.waiting = true ∧ s.fb.head.len = len.toNat then
    s.takeBlock [Wire.feedbackShort len] P
  else s

/-- FEEDBACK_LONG (R89, R263): the block of a waiting head entry of 8 to FB_MAX_LEN bytes. -/
def State.emitFeedbackLong (len : BitVec 8) (s : State) (P : Params := Params.spec) : State :=
  if s.fb.waiting = true ∧ s.fb.head.len = len.toNat ∧ 8 ≤ len.toNat then
    s.takeBlock [Wire.feedbackLong, len] P
  else s

/-- FEEDBACK_SHORT. -/
def execFeedbackShort (len : BitVec 3) (s : State) (P : Params := Params.spec) :
    Host.Outcome State Fault Refusal :=
  .next (s.emitFeedbackShort len P)

/-- FEEDBACK_LONG. -/
def execFeedbackLong (len : BitVec 8) (s : State) (P : Params := Params.spec) :
    Host.Outcome State Fault Refusal :=
  .next (s.emitFeedbackLong len P)

/-- `FB_GET(max)`: none when it returns no block (R263). -/
def State.fbGet (s : State) (max : Nat) (P : Params := Params.spec) : Option State :=
  let len := s.fb.head.len
  if s.fb.waiting = false then none
  else if max < blockLen len then none
  else if len < 8 then some (s.emitFeedbackShort (BitVec.ofNat 3 len) P)
  else some (s.emitFeedbackLong (BitVec.ofNat 8 len) P)

/-- The loop of `FB_DRAIN(max)`, at most n entries. -/
def State.fbDrainLoop (n max : Nat) (s : State) (P : Params := Params.spec) : State :=
  match n with
  | 0 => s
  | n + 1 =>
    match s.fbGet (max - s.scr.asm.fb.length) P with
    | none => s
    | some t => State.fbDrainLoop n max t P

/-- `FB_DRAIN(max)` (R264): it ends after at most FEEDBACK_RING_SIZE entries. -/
def State.fbDrain (s : State) (max : Nat) (P : Params := Params.spec) : State :=
  State.fbDrainLoop P.feedbackRingSize max
    { s with scr := { s.scr with asm := { s.scr.asm with fb := [] } } } P

/-! ## FB_REMOVE_LOCKED and FB_UNLOCK (R265, R266) -/

/-- The slots after freeing the locked ones from i on, at most n of them. -/
def freeLocked (n i : Nat) (slots : List FbSlot) (P : Params := Params.spec) : List FbSlot :=
  match n with
  | 0 => slots
  | n + 1 =>
    if (slots.getD i FbSlot.free).locked then freeLocked n (ringNext i P) (slots.set i FbSlot.free) P
    else slots

/-- The internal FB_REMOVE_LOCKED (R265). -/
def Ring.removeLocked (r : Ring) (P : Params := Params.spec) : Ring :=
  { r with
    slots := freeLocked P.feedbackRingSize r.first r.slots P
    first := r.firstUnlocked }

/-- FB_REMOVE_LOCKED (R265). -/
def execFbRemoveLocked (s : State) (P : Params := Params.spec) : Host.Outcome State Fault Refusal :=
  whenAlive s (.next (({ s with fb := s.fb.removeLocked P }).respondOk [] 0))

/-- FB_UNLOCK (R266). -/
def execFbUnlock (s : State) : Host.Outcome State Fault Refusal :=
  whenAlive s (.next (({ s with fb := s.fb.unlock }).respondOk [] 0))

/-! ## FB_PIGGYBACK (R261) -/

/-- An entry stored at the tail. -/
def Ring.push (r : Ring) (data : List Byte) (P : Params := Params.spec) : Ring :=
  { r with
    slots := r.slots.set r.next { data := data, locked := false }
    next := ringNext r.next P }

/-- FB_PIGGYBACK: length, then capacity, then the copy. -/
def execFbPiggyback (inLen : U32) (s : State) (P : Params := Params.spec) :
    Host.Outcome State Fault Refusal :=
  whenAlive s
    (if inLen.toNat = 0 ∨ inLen.toNat > P.fbMaxLen then .next (s.raiseError .input)
     else if s.fb.isFull then .next (s.raiseError .capacity)
     else .next (({ s with fb := s.fb.push (s.input inLen) P }).respondOk [] 0))

/-! ## FB_FLUSH and FB_AVAIL (R267, R268) -/

/-- FB_FLUSH: the drained blocks go to OUT and stay locked. -/
def execFbFlush (outMax : U32) (s : State) (P : Params := Params.spec) : Host.Outcome State Fault Refusal :=
  whenAlive s
    (let t := s.fbDrain outMax.toNat P
     .next (t.respondOk t.scr.asm.fb 0))

/-- The block bytes of one slot that FB_AVAIL counts: unlocked and stored. -/
def FbSlot.availBytes (f : FbSlot) : Nat := if f.locked = false ∧ 0 < f.len then blockLen f.len else 0

/-- The block bytes of the unlocked stored entries (R268, log 22). -/
def Ring.availBytes (r : Ring) : Nat := (r.slots.map FbSlot.availBytes).sum

/-- FB_AVAIL. -/
def execFbAvail (s : State) : Host.Outcome State Fault Refusal :=
  whenAlive s (.next (s.respondOk [] (BitVec.ofNat 32 s.fb.availBytes)))

/-! ## FB_DELIVER (R269) -/

/-- The CID and the body of a feedback element; none for a malformed large CID. -/
def splitElement (cidType : CidType) (el : List Byte) : Option (Nat × List Byte) :=
  match cidType with
  | .small =>
    if (octet el 0).extractLsb' 4 4 = 14#4 then
      some (((octet el 0).extractLsb' 0 4).toNat, el.drop 1)
    else some (0, el)
  | .large =>
    match sdvlDec el with
    | none => none
    | some (v, n) => if n > 2 then none else some (v, el.drop n)

/-- A body that is a NACK or a STATIC-NACK of FEEDBACK-2 (R269). -/
def isNack (body : List Byte) : Bool :=
  decide (2 ≤ body.length)
    && (decide ((octet body 0).extractLsb' 6 2 = 1#2) || decide ((octet body 0).extractLsb' 6 2 = 2#2))

/-- `CTX[cid].force_ir <- 1`. -/
def State.forceIr (s : State) (cid : Nat) (c : Ctx) : State :=
  s.setSlot cid (some { c with forceIr := true })

/-- What a delivered element does to the contexts: a NACK for a used context of a profile other than
Uncompressed sets its `force_ir`; everything else is ignored (R269). -/
def State.deliver (s : State) (el : List Byte) : State :=
  match splitElement s.cfg.cidType el with
  | none => s
  | some (cid, body) =>
    if body.length = 0 then s
    else if cid > s.cfg.maxCid.toNat then s
    else
      match s.slot cid with
      | none => s
      | some c =>
        if c.profile = .uncompressed then s
        else if isNack body then s.forceIr cid c
        else s

/-- FB_DELIVER: every non-empty element ends with OK. -/
def execFbDeliver (inLen : U32) (s : State) : Host.Outcome State Fault Refusal :=
  whenAlive s
    (if inLen.toNat = 0 then .next (s.raiseError .input)
     else .next ((s.deliver (s.input inLen)).respondOk [] 0))

end Sys2Proof.Machine
end

