-- ==== Sys2Proof/Machine/Segment.lean ====
section
/-!
DEFINITION. The segmenter (46_segmenter.md): entering segmentation, the SEGMENT row of the opcode table,
and GET_SEGMENT.
-/
namespace Sys2Proof.Machine
open Sys2Proof

/-- `hdr ‖ pay ‖ FCS-32` (R281). -/
def rruUnit (hdr pay : List Byte) (P : Params := Params.spec) : List Byte :=
  let u := hdr ++ pay
  u ++ fcsOctets (fcs32 u P) P

/-- `SEGMENT_ENTER(hdr, pay)` (R281): an RRU in flight is overwritten. That a byte of RRU.buf behind the new
unit keeps its old value is the model's choice (log 29): U2 says any value. -/
def State.segmentEnter (s : State) (hdr pay : List Byte) (P : Params := Params.spec) : State :=
  { s with
    rru := { buf := s.rru.buf.writeBytes 0 (rruUnit hdr pay P), off := 0,
             len := (rruUnit hdr pay P).length } }

/-- The RRU after n of its bytes have gone out (R283). That the bytes sent stay in RRU.buf is the model's
choice (log 29): U2 says any value. -/
def Rru.advance (r : Rru) (n : Nat) : Rru :=
  { r with
    off := if n = r.len then 0 else r.off + n
    len := r.len - n }

/-- SEGMENT (R90, R283): the type octet, then the chunk of `SCR` size n (at most RRU.len) from RRU.buf,
which is then sent. A byte that nothing has written is a free value (log 10). -/
def State.emitSegment (final : BitVec 1) (s : State) : State :=
  let n := min s.scr.segN s.rru.len
  { s with
    rru := s.rru.advance n
    scr := { s.scr with asm := { s.scr.asm with
      first := [Wire.segment final]
      rest := s.rru.buf.bytes Config.freeRru s.rru.off n } } }

/-- SEGMENT. -/
def execSegment (final : BitVec 1) (s : State) : Host.Outcome State Fault Refusal :=
  .next (s.emitSegment final)

/-- A fresh assembly, for a command that writes OUT. -/
def State.startAssembly (s : State) : State :=
  { s with scr := { s.scr with asm := Assembly.empty } }

/-- `raise Error(class)` in GET_SEGMENT: its recovery is FB_UNLOCK alone (60_exceptions.md R340, R345), for every
class (45_feedback.md R270), and it takes in what FB_FLUSH locked (log 21). -/
def State.raiseUnlocked (s : State) (e : ErrClass) : State :=
  ({ s with fb := s.fb.unlock }).raiseError e

/-- GET_SEGMENT after its first tests: feedback first, then one segment that fills the buffer (R283). -/
def State.sendSegment (s : State) (max : Nat) (P : Params := Params.spec) :
    Host.Outcome State Fault Refusal :=
  let s := s.startAssembly.fbDrain max P
  let room := max - s.scr.asm.fb.length
  if room < 2 then .next (s.raiseUnlocked .outputTooSmall)
  else
    let n := min s.rru.len (room - 1)
    let final := decide (n = s.rru.len)
    let t := ({ s with scr := { s.scr with segN := n } }).emitSegment (bit final)
    let out := t.scr.asm.bytes
    let t := { t with fb := t.fb.removeLocked P }
    .next (if final then t.respondOk out 0 else t.respondNeedSegment out P)

/-- GET_SEGMENT (R283). INPUT and NO_RRU run the recovery too, which changes the ring only where FB_FLUSH has
locked entries; R283's last paragraph and 60_exceptions.md R342 read otherwise there (log 21). -/
def execGetSegment (outMax : U32) (s : State) (P : Params := Params.spec) :
    Host.Outcome State Fault Refusal :=
  whenAlive s
    (if outMax.toNat = 0 then .next (s.raiseUnlocked .input)
     else if s.rru.len = 0 then .next (s.raiseUnlocked .noRru)
     else s.sendSegment outMax.toNat P)

end Sys2Proof.Machine
end

