-- ==== Sys2Proof/Machine/Compress.lean ====
section
/-!
DEFINITION. COMPRESS (47_commands.md R301 to R303), over the front end, the engine, the builders, the ring
and the segmenter. `x` is the parameter ProfileExt (log 15).
-/
namespace Sys2Proof.Machine
open Sys2Proof

/-- The scratch registers at the start of an encode: the packet, its headers, and a working copy of slot
c (log 17). What FB_DRAIN has assembled stays. -/
def State.loadScratch (s : State) (c : Nat) (pkt : List Byte) (par : Parsed) : State :=
  { s with
    scr := { Scratch.zero with
      pkt := pkt
      par := par
      ctx := (s.slot c).getD Ctx.zero
      asm := { Assembly.empty with fb := s.scr.asm.fb } } }

/-- `COMMIT(c)` (R302), with the context under work written to its slot. -/
def State.commit (s : State) (c : Nat) (t : U64) (P : Params := Params.spec) : State :=
  { s with
    ctx := s.ctx.set c
      (some { s.scr.ctx with numSent := satInc s.scr.ctx.numSent P, latestUsed := t })
    numPackets := satInc s.numPackets P }

/-- The end of COMPRESS, once the header is assembled: the packet fits OUT, or it is segmented, or the
command fails (R301, 46_segmenter.md R280 to R282, 45_feedback.md R270). A discarded RRU keeps its bytes in
RRU.buf, the model's choice (log 29). -/
def State.finishCompress (s : State) (c : Nat) (fresh : Bool) (saved : Option Ctx) (max hdrEnd : Nat)
    (t : U64) (P : Params := Params.spec) : Host.Outcome State Fault Refusal :=
  let fb := s.scr.asm.fb
  let hdr := s.scr.asm.header
  let pay := s.scr.pkt.drop hdrEnd
  if fb.length + hdr.length + pay.length ≤ max then
    let s := s.commit c t P
    let s := { s with fb := s.fb.removeLocked P, rru := { s.rru with off := 0, len := 0 } }
    .next (s.respondOk (fb ++ hdr ++ pay) 0)
  else if 0 < s.cfg.mrru.toNat ∧ hdr.length + pay.length + 4 ≤ s.cfg.mrru.toNat then
    let s := (s.segmentEnter hdr pay P).commit c t P
    let s := { s with fb := s.fb.unlock }
    .next (s.respondNeedSegment [] P)
  else .next ((s.recoverCompress c fresh saved).raiseError .outputTooSmall)

/-- The profile's `encode` for the scratch registers (R162, R220): the state with the header assembled,
and `hdr_end`. Only a profile supplied under ProfileExt can fail (R303). -/
def State.encode (s : State) (x : Option ProfileExt) (P : Params := Params.spec) : Option (State × Nat) :=
  match s.scr.ctx.block, x with
  | .ext _, some x =>
    match x.encode s.scr.ctx s.scr.par s.scr.pkt with
    | none => none
    | some e =>
      let sc := { s.scr with
        ctx := { s.scr.ctx with block := .ext e.block, state := e.state }
        asm := { s.scr.asm with first := [e.first], rest := e.rest } }
      some ({ s with scr := sc.wrapCid s.cfg.cidType }, e.hdrEnd)
  | _, _ => some (s.onScratch (fun sc => sc.buildHeader s.cfg P), s.scr.hdrEnd)

/-- The encoding fallback (R303): the context of the failed encode is put back or destroyed; with the
Uncompressed profile enabled the command goes on with it, keeping the drained feedback; else class
ENCODE. -/
def State.fallback (s : State) (x : Option ProfileExt) (c : Nat) (fresh : Bool) (saved : Option Ctx)
    (max : Nat) (t : U64) (P : Params := Params.spec) : Host.Outcome State Fault Refusal :=
  let pkt := s.scr.pkt
  let par := s.scr.par
  let s := if fresh then s.destroy c else s.setSlot c saved
  if s.cfg.profilesEn.getLsbD Profile.uncompressed.bit then
    let p := s.pick .uncompressed .uncompressed
    let saved := s.slot p.1
    let s := (s.findOrCreate x .uncompressed .uncompressed par pkt t).loadScratch p.1 pkt par
    let s := s.onScratch fun sc => sc.buildHeader s.cfg P
    s.finishCompress p.1 p.2 saved max 0 t P
  else .next (({ s with fb := s.fb.unlock }).raiseError .encode)

/-- COMPRESS from FIND_OR_CREATE on, for the selected profile (R301). -/
def State.compressAs (s : State) (x : Option ProfileExt) (prof : Profile) (par : Parsed)
    (pkt : List Byte) (max : Nat) (t : U64) (P : Params := Params.spec) : Host.Outcome State Fault Refusal :=
  let key := prof.key x pkt par
  let p := s.pick prof key
  let saved := s.slot p.1
  let s := ((s.findOrCreate x prof key par pkt t).loadScratch p.1 pkt par).fbDrain max P
  match s.encode x P with
  | some (s, hdrEnd) => s.finishCompress p.1 p.2 saved max hdrEnd t P
  | none => s.fallback x p.1 p.2 saved max t P

/-- COMPRESS with the parameter ProfileExt (R301). -/
def compressWith (x : Option ProfileExt) (t : U64) (inLen outMax : U32) (s : State)
    (P : Params := Params.spec) : Host.Outcome State Fault Refusal :=
  whenAlive s
    (if inLen.toNat = 0 ∨ outMax.toNat = 0 then .next (s.raiseError .input)
     else
       let pkt := s.input inLen
       match parse pkt with
       | none => .next (s.raiseError .input)
       | some par =>
         match select s.cfg.profilesEn s.rtpPorts pkt par with
         | none => .next (s.raiseError .noProfile)
         | some prof =>
           if prof.admitted = false ∧ x.isNone = true then .refused (.profileNotAdmitted prof)
           else s.compressAs x prof par pkt outMax.toNat t P)

/-- COMPRESS, ProfileExt absent (R10). -/
def execCompress (t : U64) (inLen outMax : U32) (s : State) (P : Params := Params.spec) :
    Host.Outcome State Fault Refusal :=
  compressWith profileExt t inLen outMax s P

end Sys2Proof.Machine
end

