-- ==== Sys2Proof/Machine/Dispatch.lean ====
section
/-!
DEFINITION. The dispatcher: one arm per constructor of `Instr`.
-/
namespace Sys2Proof.Machine
open Sys2Proof

def exec (i : Instr) (s : State) : Host.Outcome State Fault Refusal :=
  match i with
  -- commands (30_encoding.md R81)
  | .compress t inLen outMax => Sys2Proof.Machine.execCompress t inLen outMax s
  | .getSegment outMax => Sys2Proof.Machine.execGetSegment outMax s
  | .profEnable a => Sys2Proof.Machine.execProfEnable a s
  | .profDisable a => Sys2Proof.Machine.execProfDisable a s
  | .setWlsb width => Sys2Proof.Machine.execSetWlsb width s
  | .setRefresh ir fo => Sys2Proof.Machine.execSetRefresh ir fo s
  | .setMrru bytes => Sys2Proof.Machine.execSetMrru bytes s
  | .rtpPortAdd port => Sys2Proof.Machine.execRtpPortAdd port s
  | .rtpPortRemove port => Sys2Proof.Machine.execRtpPortRemove port s
  | .rtpPortReset => Sys2Proof.Machine.execRtpPortReset s
  | .fbPiggyback inLen => Sys2Proof.Machine.execFbPiggyback inLen s
  | .fbDeliver inLen => Sys2Proof.Machine.execFbDeliver inLen s
  | .fbFlush outMax => Sys2Proof.Machine.execFbFlush outMax s
  | .fbAvail => Sys2Proof.Machine.execFbAvail s
  | .fbRemoveLocked => Sys2Proof.Machine.execFbRemoveLocked s
  | .fbUnlock => Sys2Proof.Machine.execFbUnlock s
  | .reinit => Sys2Proof.Machine.execReinit s
  | .rdCfg sel => Sys2Proof.Machine.execRdCfg sel s
  -- wire formats (30_encoding.md R85 to R99)
  | .uo0 sn crc => Sys2Proof.Machine.execUo0 sn crc s
  | .uo1 ipid sn crc => Sys2Proof.Machine.execUo1 ipid sn crc s
  | .uor2 sn x crc => Sys2Proof.Machine.execUor2 sn x crc s
  | .addCid cid => Sys2Proof.Machine.execAddCid cid s
  | .feedbackShort len => Sys2Proof.Machine.execFeedbackShort len s
  | .feedbackLong len => Sys2Proof.Machine.execFeedbackLong len s
  | .irDyn => Sys2Proof.Machine.execIrDyn s
  | .normal => Sys2Proof.Machine.execNormal s
  | .ir => Sys2Proof.Machine.execIr s
  | .segment final => Sys2Proof.Machine.execSegment final s
  | .ext0 sn ipid => Sys2Proof.Machine.execExt0 sn ipid s
  | .ext1 sn ipid => Sys2Proof.Machine.execExt1 sn ipid s
  | .ext2 sn ipid2 ipid => Sys2Proof.Machine.execExt2 sn ipid2 ipid s
  | .ext3 sf mode iF ip ip2 => Sys2Proof.Machine.execExt3 sf mode iF ip ip2 s
  | .sdvl1 v => Sys2Proof.Machine.execSdvl1 v s
  | .sdvl2 v => Sys2Proof.Machine.execSdvl2 v s
  | .sdvl3 v => Sys2Proof.Machine.execSdvl3 v s
  | .sdvl4 v => Sys2Proof.Machine.execSdvl4 v s

end Sys2Proof.Machine
end

