-- ==== Sys2Proof/Machine/Fetch.lean ====
section
/-!
DEFINITION. How the next act of HOST reaches the block: the command latched into CMD and IN, an internal
operation taken by its wire word, a reset. There is no program counter and no fetch (10_state.md R24);
what stands for them is the head of `queue` (log 4).
-/
namespace Sys2Proof.Machine
open Sys2Proof

/-- The head of the queue taken off. -/
def State.setQueue (s : State) (q : List Issue) : State := { s with queue := q }

/-- HOST writes IN from byte 0 and the operand registers (R22). -/
def State.latch (s : State) (c : Command) (input : List Byte) : State :=
  { s with cmd := c, inBuf := s.inBuf.writeBytes 0 input }

/-- One step over a dispatcher: the act at the head of the queue, whole (20_memory.md R66); with nothing
queued the block waits unchanged. A command whose op is unassigned ends with BAD_OP (R83). -/
def stepWith (run : Instr → State → Host.Outcome State Fault Refusal) (s : State)
    (P : Params := Params.spec) : Host.Outcome State Fault Refusal :=
  match s.queue with
  | [] => .next s
  | .command c input :: q =>
    let s := (s.setQueue q).latch c input
    match decode (.command s.cmd) with
    | .ok (i, _) => run i s
    | .error _ => s.badOp
  | .wire slot octets :: q =>
    match decode (.wire slot octets) with
    | .ok (i, _) => run i (s.setQueue q)
    | .error e => .fault (.reservedPattern e)
  | .reset cidType maxCid :: q => .next ((s.setQueue q).applyReset cidType maxCid P)

/-- The act that issues a fetch word; a command comes with no new bytes of IN. -/
def issueOf (w : FetchWord) : Issue :=
  match w with
  | .command c => .command c []
  | .wire slot octets => .wire slot octets

/-- s with a word of the opcode table placed as HOST's next act. -/
def State.placeWord (s : State) (nbits w : Nat) : State :=
  s.setQueue
    (issueOf ((tableFetchWord nbits w).getD (.wire .unit (tableOctets nbits w))) :: s.queue)

end Sys2Proof.Machine
end

