-- ==== Sys2Proof/Machine/Step.lean ====
section
/-!
DEFINITION. One step of the machine, and how a word of the opcode table is placed before it.
-/
namespace Sys2Proof.Machine
open Sys2Proof

/-- One step: HOST's next act, executed whole. -/
def step (s : State) : Host.Outcome State Fault Refusal := stepWith exec s

/-- s with a word of the opcode table as HOST's next act, so that the next step runs it (log 4). -/
def State.withFetchWord (s : State) (nbits w : Nat) : State := s.placeWord nbits w

end Sys2Proof.Machine
end

