-- ==== Sys2Proof/Safety.lean ====
section
/-!
DEFINITION. What a good state of a living block is, in the terms the statements use: the invariants of
10_state.md R37 and R26 to R36, 46_segmenter.md R285, 43_packet_type.md R202 and 42_state_machine.md R189.
After a reset with illegal straps nothing but `alive = 0` is known (R44), so all of them but the form of
IN, which HOST owns, are asked of a living block only.
-/
namespace Sys2Proof.Machine
open Sys2Proof

/-! ## Byte spaces -/

/-- The three byte spaces held as memories have the canonical form. -/
def State.MemoryOk (s : State) : Prop :=
  s.inBuf.wf = true ∧ (s.alive = true → s.outBuf.wf = true ∧ s.rru.buf.wf = true)

/-! ## Configuration (R26, R36) -/

/-- Every CFG register holds a legal value (R26). -/
structure Cfg.Ok (c : Cfg) : Prop where
  maxCid : c.maxCid.toNat ≤ Config.cidBound c.cidType
  width : c.wlsbWidth.toNat ∈ [1, 2, 4, 8, 16, 32, 64]
  refresh : c.foTimeout.toNat < c.irTimeout.toNat
  refreshPos : 0 < c.foTimeout.toNat

/-- RTP_PORTS is a set of at most MAX_RTP_PORTS ports, none of them 0 (R36). -/
structure PortsOk (ports : List U16) : Prop where
  size : ports.length ≤ Config.maxRtpPorts
  distinct : ports.Nodup
  range : 0 ∉ ports

/-! ## Context array (R27, R28) -/

/-- The array has MAX_CID + 1 slots, and `num_contexts_used` counts the used ones (R27, R28, I2). -/
structure State.CountOk (s : State) : Prop where
  size : s.ctx.length = s.cfg.maxCid.toNat + 1
  count : s.numContextsUsed = s.ctx.countP Option.isSome

/-- In the configuration phase no context is used and no RRU is in flight (47_commands.md R305, R314). -/
structure State.PhaseOk (s : State) : Prop where
  contexts : s.numPackets = 0 → ∀ v ∈ s.ctx, v = none
  rru : s.numPackets = 0 → s.rru.len = 0

/-- At most one used slot has a given profile and key (41_frontend.md R157). -/
def State.KeysOk (s : State) : Prop :=
  ∀ i j c d, s.slot i = some c → s.slot j = some d → c.profile = d.profile → c.key = d.key → i = j

/-- n consecutive SNs that end with sn, oldest first. -/
def snRun (sn : U16) (n : Nat) : List U16 :=
  (List.range n).map fun i => sn - BitVec.ofNat 16 (n - 1 - i)

/-- Counts and window of one header record. -/
def CtxHdr.Ok (width numSent : Nat) (h : CtxHdr) : Prop :=
  match h.ip4 with
  | some x =>
    x.winId.count = min numSent width ∧ x.rndCount ≤ Config.cntMax ∧ x.nboCount ≤ Config.cntMax
      ∧ x.sidCount ≤ Config.cntMax
  | none => True

/-- A generic block of a context in state st with numSent committed packets. -/
structure Generic.Ok (cfg : Cfg) (numSent : Nat) (st : CtxState) (g : Generic) : Prop where
  /-- One or two headers (R29). -/
  nhdr : g.hdrs.length = 1 ∨ g.hdrs.length = 2
  /-- The window of the SN holds the last `min(num_sent, WLSB_WIDTH)` SNs (R202). -/
  window : g.winSn.refs = snRun g.sn (min numSent cfg.wlsbWidth.toNat)
  hdrs : ∀ h ∈ g.hdrs, h.Ok cfg.wlsbWidth.toNat numSent
  irCount : g.irCount ≤ Config.cntMax
  foCount : g.foCount ≤ Config.cntMax
  /-- `go_back_fo_count` counts packets in SO, and a refresh comes in time (R29, R189). -/
  goBackFo : g.goBackFo ≤ cfg.foTimeout.toNat
  goBackFoSo : st ≠ .so → g.goBackFo = 0
  /-- `go_back_ir_count` counts packets in FO and SO: at most IR_TIMEOUT of them come between two IRs
  (R29, R189). -/
  goBackIr : g.goBackIr ≤ cfg.irTimeout.toNat
  goBackIrIr : st = .ir → g.goBackIr = 0

/-- Profile, key and block of a context agree (I1, R28 to R32, R156, R158). -/
def Ctx.ShapeOk (c : Ctx) : Prop :=
  match c.profile, c.key, c.block with
  | .uncompressed, .uncompressed, .empty => c.state = .ir
  | .ipOnly, .ip ks, .generic g => g.hdrs.map CtxHdr.version = ks.map KeyHdr.version
  | .udp, .udp ks _ _, .generic g => g.hdrs.map CtxHdr.version = ks.map KeyHdr.version
  | _, _, _ => False

/-- A used slot between two commands. -/
structure Ctx.Ok (cfg : Cfg) (cid : Nat) (c : Ctx) : Prop where
  cid : c.cid = cid
  /-- R192: "CTX[c].mode is U from creation on and no rule writes it". -/
  mode : c.mode = .u
  shape : c.ShapeOk
  /-- A context with no committed packet does not outlive its command (R345). -/
  sent : 0 < c.numSent
  sentMax : c.numSent ≤ Config.cntMax
  generic : ∀ g, c.block = .generic g → g.Ok cfg c.numSent c.state

/-! ## Feedback ring (R37, I3) -/

/-- Slot i of the ring, counted from `first`. -/
def Ring.at (r : Ring) (i : Nat) : FbSlot := r.slot ((r.first + i) % Config.feedbackRingSize)

/-- Walking forward from `first` there are l locked entries, then u unlocked ones, and every other slot
is free: I3 as 10_state.md R37 words it in ring terms. -/
structure Ring.Split (r : Ring) (l u : Nat) : Prop where
  size : r.slots.length = Config.feedbackRingSize
  first : r.first < Config.feedbackRingSize
  fits : l + u ≤ Config.feedbackRingSize
  firstUnlocked : r.firstUnlocked = (r.first + l) % Config.feedbackRingSize
  next : r.next = (r.first + l + u) % Config.feedbackRingSize
  locked : ∀ i, i < l → (r.at i).locked = true ∧ 0 < (r.at i).len
  unlocked : ∀ i, i < u → (r.at (l + i)).locked = false ∧ 0 < (r.at (l + i)).len
  free : ∀ i, l + u ≤ i → i < Config.feedbackRingSize → r.at i = FbSlot.free
  bounded : ∀ i, (r.at i).len ≤ Config.fbMaxLen

def Ring.Ok (r : Ring) : Prop := ∃ l u, r.Split l u

/-- The block of an entry as it goes out (30_encoding.md R89). -/
def feedbackBlock (data : List Byte) : List Byte :=
  (if data.length < 8 then [0xF0#8 ||| BitVec.ofNat 8 data.length]
   else [0xF0#8, BitVec.ofNat 8 data.length]) ++ data

/-- The blocks of the n entries from distance i on, in ring order. -/
def Ring.blocks (r : Ring) (i n : Nat) : List Byte :=
  (List.range n).flatMap fun k => feedbackBlock (r.at (i + k)).data

/-- The blocks of every entry that is stored and unlocked, in ring order (45_feedback.md R267, R268). -/
def Ring.pending (r : Ring) : List Byte :=
  (List.range Config.feedbackRingSize).flatMap fun i =>
    if (r.at i).locked = false ∧ 0 < (r.at i).len then feedbackBlock (r.at i).data else []

/-! ## Segmenter (R34, R285, I4) -/

/-- The RRU lies below CFG.MRRU, is present exactly when `len > 0`, and every byte still to send has a
value. -/
structure Rru.Ok (mrru : Nat) (r : Rru) : Prop where
  bound : r.off + r.len ≤ mrru
  absent : r.len = 0 → r.off = 0
  written : ∀ i, i < r.len → (r.buf.read (r.off + i)).isSome = true

/-! ## All of them -/

/-- A living block between two steps. -/
structure State.Live (s : State) : Prop where
  outBuf : s.outBuf.wf = true
  rruBuf : s.rru.buf.wf = true
  cfg : s.cfg.Ok
  ports : PortsOk s.rtpPorts
  packets : s.numPackets ≤ Config.cntMax
  count : s.CountOk
  phase : s.PhaseOk
  keys : s.KeysOk
  slots : ∀ i c, s.slot i = some c → c.Ok s.cfg i
  ring : s.fb.Ok
  rru : s.rru.Ok s.cfg.mrru.toNat

/-- The invariant of the machine. -/
def State.Inv (s : State) : Prop := s.inBuf.wf = true ∧ (s.alive = true → s.Live)

/-! ## Answers (30_encoding.md R82) -/

/-- The response of an error of a class code (60_exceptions.md R340). -/
def errorRsp (code : BitVec 4) : Rsp := { status := 0, rc := 0xFB, errc := code, outLen := 0, val := 0 }

/-- s after a command that ended with an error and changed nothing (R342); no byte of OUT is valid
(20_memory.md R62). -/
def State.failed (s : State) (code : BitVec 4) : State := { s with rsp := errorRsp code, outBuf := [] }

/-- s after a command that ended with OK, with the bytes of OUT and RSP.val. -/
def State.done (s : State) (out : List Byte) (val : U32) : State :=
  { s with
    rsp := { status := 1, rc := 1, errc := 0, outLen := BitVec.ofNat 32 out.length, val := val }
    outBuf := Memory.ofBytes out }

/-- s after a command that ended with NEED_SEGMENT, with the bytes of OUT. -/
def State.needSegment (s : State) (out : List Byte) : State :=
  { s with
    rsp := { status := 2, rc := 2, errc := 0, outLen := BitVec.ofNat 32 out.length, val := 0 }
    outBuf := Memory.ofBytes out }

/-- The bytes of the RRU still to send (R34). -/
def Rru.rest (r : Rru) : Option (List Byte) := r.buf.readBytes r.off r.len

/-- One segment fetched by GET_SEGMENT: its type octet and its chunk, after the feedback blocks that
precede them in OUT (20_memory.md R61). -/
def segmentOf (s t : State) (outMax : U32) : List Byte :=
  ((t.outBuf.readBytes 0 t.rsp.outLen.toNat).getD []).drop
    (s.startAssembly.fbDrain outMax.toNat).scr.asm.fb.length

/-- GET_SEGMENT once per entry of the list: the segments fetched and the state after them, unless one of
the commands ends with an error or a stop. -/
def fetchSegments (outMaxes : List U32) (s : State) : Option (List (List Byte) × State) :=
  match outMaxes with
  | [] => some ([], s)
  | m :: ms =>
    match exec (.getSegment m) s with
    | .next t =>
      if t.rsp.status = 0 then none
      else (fetchSegments ms t).map fun r => (segmentOf s t m :: r.1, r.2)
    | _ => none

/-! ## The packet under way (47_commands.md R301) -/

/-- s with the packet's context found or created, the packet loaded, the feedback drained and the header
assembled in SCR: what COMPRESS works with before it knows whether the packet fits. -/
def State.assembled (s : State) (prof : Profile) (par : Parsed) (pkt : List Byte) (max : Nat) (t : U64) :
    State :=
  let key := prof.key profileExt pkt par
  let w := (s.findOrCreate profileExt prof key par pkt t).loadScratch (s.pick prof key).1 pkt par
  (w.fbDrain max).onScratch fun sc => sc.buildHeader s.cfg

/-- A packet that COMPRESS accepts: the block lives, both lengths are positive, the bytes
parse, and a profile of the admitted subset is selected. -/
structure Accepts (s : State) (inLen outMax : U32) (pkt : List Byte) (par : Parsed) (prof : Profile) :
    Prop where
  alive : s.alive = true
  inPos : inLen.toNat ≠ 0
  outPos : outMax.toNat ≠ 0
  input : s.input inLen = pkt
  parsed : parse pkt = some par
  selected : select s.cfg.profilesEn s.rtpPorts pkt par = some prof
  admitted : prof.admitted = true

/-! ## What the front end reads (41_frontend.md R151 to R153, R165), octet by octet -/

/-- The sum of the ten 16-bit words at off, as integers (R152). -/
def wordSum (pkt : List Byte) (off : Nat) : Nat :=
  ((List.range 10).map fun i => 256 * (octet pkt (off + 2 * i)).toNat + (octet pkt (off + 2 * i + 1)).toNat).sum

/-- h is what R152 reads at off, with n bytes there. A ones-complement sum of 0xFFFF is a positive multiple of
65535. -/
structure IsIpv4 (pkt : List Byte) (off n : Nat) (h : IpHdr) : Prop where
  long : 20 ≤ n
  nibble : (octet pkt off).toNat / 16 = 4
  ihl : 5 ≤ (octet pkt off).toNat % 16
  fits : 4 * ((octet pkt off).toNat % 16) ≤ n
  declared : 256 * (octet pkt (off + 2)).toNat + (octet pkt (off + 3)).toNat = n
  version : h.version = .v4
  hlen : h.hlen = 4 * ((octet pkt off).toNat % 16)
  at_ : h.off = off
  tos : h.tos = octet pkt (off + 1)
  id : h.id.toNat = 256 * (octet pkt (off + 4)).toNat + (octet pkt (off + 5)).toNat
  df : h.df = true ↔ (octet pkt (off + 6)).toNat / 64 % 2 = 1
  ttl : h.ttl = octet pkt (off + 8)
  proto : h.proto = octet pkt (off + 9)
  src : h.src = (pkt.drop (off + 12)).take 4
  dst : h.dst = (pkt.drop (off + 16)).take 4
  fl : h.fl = 0
  plain : h.plain = true ↔ (octet pkt off).toNat % 16 = 5 ∧ (octet pkt (off + 6)).toNat / 128 = 0
    ∧ (octet pkt (off + 6)).toNat / 32 % 2 = 0
    ∧ (octet pkt (off + 6)).toNat % 32 = 0 ∧ (octet pkt (off + 7)).toNat = 0
    ∧ 0 < wordSum pkt off ∧ wordSum pkt off % 65535 = 0

/-- h is what R153 reads at off, with n bytes there. -/
structure IsIpv6 (pkt : List Byte) (off n : Nat) (h : IpHdr) : Prop where
  long : 40 ≤ n
  nibble : (octet pkt off).toNat / 16 = 6
  declared : 40 + (256 * (octet pkt (off + 4)).toNat + (octet pkt (off + 5)).toNat) = n
  version : h.version = .v6
  hlen : h.hlen = 40
  at_ : h.off = off
  tos : h.tos.toNat = 16 * ((octet pkt off).toNat % 16) + (octet pkt (off + 1)).toNat / 16
  fl : h.fl.toNat = 65536 * ((octet pkt (off + 1)).toNat % 16) + 256 * (octet pkt (off + 2)).toNat
    + (octet pkt (off + 3)).toNat
  proto : h.proto = octet pkt (off + 6)
  ttl : h.ttl = octet pkt (off + 7)
  src : h.src = (pkt.drop (off + 8)).take 16
  dst : h.dst = (pkt.drop (off + 24)).take 16
  id : h.id = 0
  df : h.df = false
  plain : h.plain = true

/-- h is the header that stands at off, with n bytes there (R151). -/
def IsHeader (pkt : List Byte) (off n : Nat) (h : IpHdr) : Prop := IsIpv4 pkt off n h ∨ IsIpv6 pkt off n h

/-- Every header is plain, the last announces the protocol, and eight bytes follow it (R163 to R165). -/
def CarriesTransport (proto : Byte) (pkt : List Byte) (par : Parsed) : Prop :=
  (∀ h ∈ par.hdrs, h.plain = true) ∧ (∃ h, par.hdrs.getLast? = some h ∧ h.proto = proto)
    ∧ 8 ≤ pkt.length - par.tpOff

/-- The UDP length field says what is there (R165). -/
def UdpLengthRight (pkt : List Byte) (par : Parsed) : Prop :=
  256 * (octet pkt (par.tpOff + 4)).toNat + (octet pkt (par.tpOff + 5)).toNat = pkt.length - par.tpOff

/-! ## Extension 3, octet by octet (30_encoding.md R99, 44_packet_build.md R238) -/

/-- What extension 3 reads of one header: the packet's, the context's, its changes, its offset IP-ID. -/
structure HdrView where
  n : IpHdr
  x : CtxHdr
  d : HdrChange
  off : U16

/-- The header-flags octet TOS TTL DF PR IPX NBO RND and a last bit; DF, NBO and RND are the current values, 0
for IPv6, and IPX is 0. -/
def HdrView.flagsOctet (v : HdrView) (last : Bool) : Byte :=
  BitVec.ofNat 8 (128 * v.d.tos.toNat + 64 * v.d.ttl.toNat
    + 32 * (match v.x.ip4 with | some _ => v.n.df.toNat | none => 0) + 16 * v.d.pr.toNat
    + 4 * (match v.x.ip4 with | some x => x.nbo.toNat | none => 0)
    + 2 * (match v.x.ip4 with | some x => x.rnd.toNat | none => 0) + last.toNat)

/-- The fields that changed: TOS, TTL, protocol. -/
def HdrView.fields (v : HdrView) : List Byte :=
  (if v.d.tos then [v.n.tos] else []) ++ (if v.d.ttl then [v.n.ttl] else [])
    ++ (if v.d.pr then [v.n.proto] else [])

/-- `o1`, `o2` of R235: the offset IP-ID of an IPv4 header with rnd = 0 and sid = 0, else 0. -/
def HdrView.offset (v : HdrView) : U16 :=
  match v.x.ip4 with
  | some x => if x.rnd = false ∧ x.sid = false then v.off else 0
  | none => 0

/-- What follows the flags octet of extension 3, in the order of R238; the secondary header is there with two
headers. -/
def extension3 (sn : U16) (prim : HdrView) (sec : Option HdrView) (s i ip ip2 i2 : Bool) : List Byte :=
  (if ip then [prim.flagsOctet false] else [])
    ++ (match sec with | some v => if ip2 then [v.flagsOctet i2] else [] | none => [])
    ++ (if s then [sn.extractLsb' 0 8] else [])
    ++ (if ip then prim.fields else [])
    ++ (if i then [prim.offset.extractLsb' 8 8, prim.offset.extractLsb' 0 8] else [])
    ++ (match sec with
      | some v =>
        if ip2 then
          v.fields ++ (if i2 then [v.offset.extractLsb' 8 8, v.offset.extractLsb' 0 8] else [])
        else []
      | none => [])

/-- The headers of the packet under work: the primary one (the last) and the secondary one, if there are two
(00_scope.md R17). -/
def Scratch.Views (sc : Scratch) (prim : HdrView) (sec : Option HdrView) : Prop :=
  match sec with
  | none => sc.par.hdrs = [prim.n] ∧ sc.ctx.hdrs = [prim.x] ∧ ∃ k, sc.hs = [⟨prim.d, prim.off, k⟩]
  | some v => sc.par.hdrs = [v.n, prim.n] ∧ sc.ctx.hdrs = [v.x, prim.x]
      ∧ ∃ k k', sc.hs = [⟨v.d, v.off, k⟩, ⟨prim.d, prim.off, k'⟩]

/-! ## The two kinds of instruction (00_scope.md R7) -/

/-- A host command (R81); the other rows are internal operations. -/
def isCommand (i : Instr) : Bool :=
  match i with
  | .compress _ _ _ => true
  | .getSegment _ => true
  | .profEnable _ => true
  | .profDisable _ => true
  | .setWlsb _ => true
  | .setRefresh _ _ => true
  | .setMrru _ => true
  | .rtpPortAdd _ => true
  | .rtpPortRemove _ => true
  | .rtpPortReset => true
  | .fbPiggyback _ => true
  | .fbDeliver _ => true
  | .fbFlush _ => true
  | .fbAvail => true
  | .fbRemoveLocked => true
  | .fbUnlock => true
  | .reinit => true
  | .rdCfg _ => true
  | .uo0 _ _ => false
  | .uo1 _ _ _ => false
  | .uor2 _ _ _ => false
  | .addCid _ => false
  | .feedbackShort _ => false
  | .feedbackLong _ => false
  | .irDyn => false
  | .normal => false
  | .ir => false
  | .segment _ => false
  | .ext0 _ _ => false
  | .ext1 _ _ => false
  | .ext2 _ _ _ => false
  | .ext3 _ _ _ _ _ => false
  | .sdvl1 _ => false
  | .sdvl2 _ => false
  | .sdvl3 _ => false
  | .sdvl4 _ => false

/-- A configuration command, 0x10 to 0x14 (47_commands.md R300). -/
def isConfig (i : Instr) : Bool :=
  match i with
  | .compress _ _ _ => false
  | .getSegment _ => false
  | .profEnable _ => true
  | .profDisable _ => true
  | .setWlsb _ => true
  | .setRefresh _ _ => true
  | .setMrru _ => true
  | .rtpPortAdd _ => false
  | .rtpPortRemove _ => false
  | .rtpPortReset => false
  | .fbPiggyback _ => false
  | .fbDeliver _ => false
  | .fbFlush _ => false
  | .fbAvail => false
  | .fbRemoveLocked => false
  | .fbUnlock => false
  | .reinit => false
  | .rdCfg _ => false
  | .uo0 _ _ => false
  | .uo1 _ _ _ => false
  | .uor2 _ _ _ => false
  | .addCid _ => false
  | .feedbackShort _ => false
  | .feedbackLong _ => false
  | .irDyn => false
  | .normal => false
  | .ir => false
  | .segment _ => false
  | .ext0 _ _ => false
  | .ext1 _ _ => false
  | .ext2 _ _ _ => false
  | .ext3 _ _ _ _ _ => false
  | .sdvl1 _ => false
  | .sdvl2 _ => false
  | .sdvl3 _ => false
  | .sdvl4 _ => false

/-- The code of a command (R81); 0, which is no command's, for an internal operation. -/
def opOf (i : Instr) : Byte :=
  match encode i with
  | .command c => c.op
  | .wire _ _ => 0

/-- Two outcomes that differ in the scratch registers at most. -/
def SameButScratch (o p : Host.Outcome State Fault Refusal) : Prop :=
  match o, p with
  | .next t, .next u => ∃ sc, u = { t with scr := sc }
  | .fault e, .fault f => e = f
  | .refused e, .refused f => e = f
  | _, _ => False

end Sys2Proof.Machine
end

