-- ==== Sys2Proof/Certificates/Slice0/Obligations.lean ====
section
/-!
DEFINITION. The statements, one per obligation of OBLIGATIONS.json. Each docstring names the rules it says.
-/
open Sys2Proof Sys2Proof.Machine

/-! ## Encoding and steps -/

/-- Words written out from the spec's encodings decode to the instruction they stand for. -/
def Obligations.DecodedWords : Prop :=
  -- R81: 0x13 SET_REFRESH, a = ir, b = fo; 0x01 COMPRESS
  decode (.command { op := 0x13, a := 100, b := 20, t := 7, inLen := 9 })
      = .ok (.setRefresh 100 20, [])
  ∧ decode (.command { op := 0x01, a := 2048, b := 0, t := 5, inLen := 84 })
      = .ok (.compress 5 84 2048, [])
  -- R93: 0 1010 110; R94: 10 101001, 01010 010; R95: 110 10111, 0 0110001
  ∧ decode (.wire .unit [0b01010110]) = .ok (.uo0 0b1010 0b110, [])
  ∧ decode (.wire .unit [0b10101001, 0b01010010]) = .ok (.uo1 0b101001 0b01010 0b010, [])
  ∧ decode (.wire .unit [0b11010111, 0b00110001]) = .ok (.uor2 0b10111 0 0b0110001, [])
  -- R86: 1110 0011; R89: 11110 011 and 11110000, 9; R92, R100, R91, R90
  ∧ decode (.wire .unit [0b11100011]) = .ok (.addCid 3, [])
  ∧ decode (.wire .unit [0b11110011]) = .ok (.feedbackShort 3, [])
  ∧ decode (.wire .unit [0b11110000, 9]) = .ok (.feedbackLong 9, [])
  ∧ decode (.wire .unit [0b11111000]) = .ok (.irDyn, [])
  ∧ decode (.wire .unit [0b11111100]) = .ok (.normal, [])
  ∧ decode (.wire .unit [0b11111101]) = .ok (.ir, [])
  ∧ decode (.wire .unit [0b11111111]) = .ok (.segment 1, [])
  -- R96: 00 000 101; R97: 01 011 000, 11110111; R98: 10 001 111, E3, 45; R99: 11 0 01 0 1 0
  ∧ decode (.wire .extension [0b00000101]) = .ok (.ext0 0 5, [])
  ∧ decode (.wire .extension [0b01011000, 0b11110111]) = .ok (.ext1 3 0x0F7, [])
  ∧ decode (.wire .extension [0b10001111, 0xE3, 0x45]) = .ok (.ext2 1 0x7E3 0x45, [])
  ∧ decode (.wire .extension [0b11001010]) = .ok (.ext3 0 1 0 1 0, [])
  -- R88: 0 1111111; 10 000001, 00101100; 110 00000, 40, 00; 111 00000, 20, 00, 00
  ∧ decode (.wire .value [0b01111111]) = .ok (.sdvl1 127, [])
  ∧ decode (.wire .value [0b10000001, 0b00101100]) = .ok (.sdvl2 300, [])
  ∧ decode (.wire .value [0xC0, 0x40, 0x00]) = .ok (.sdvl3 16384, [])
  ∧ decode (.wire .value [0xE0, 0x20, 0x00, 0x00]) = .ok (.sdvl4 2097152, [])
  -- R83, R110: no instruction
  ∧ decode (.command { op := 0x7F, a := 0, b := 0, t := 0, inLen := 0 }) = .error (.unassignedOp 0x7F)
  ∧ decode (.wire .unit [0b11111001]) = .error (.reservedOctet 0xF9)

/-- Decode and encode agree for every well-formed instruction, at every value of every operand. -/
def Obligations.RoundTrip : Prop :=
  ∀ i : Instr, i.wellFormed = true → decode (encode i) = .ok (i, [])

/-- R80: a field that a command does not name has no effect on what is decoded. -/
def Obligations.UnnamedOperandsIgnored : Prop :=
  ∀ c d : Command, c.op = d.op →
    (c.op ∈ [0x01, 0x02, 0x10, 0x11, 0x12, 0x13, 0x14, 0x18, 0x19, 0x22, 0x40] → c.a = d.a) →
    (c.op = 0x13 → c.b = d.b) →
    (c.op = 0x01 → c.t = d.t) →
    (c.op ∈ [0x01, 0x20, 0x21] → c.inLen = d.inLen) →
    decode (.command c) = decode (.command d)

/-- A step runs the decoded instruction: HOST's next act is latched or taken off, and the rest is exec. The
queue of HOST's acts is the model's own form (log 4). -/
def Obligations.StepRunsTheDecodedInstruction : Prop :=
  (∀ (s : State) (c : Command) (input : List Byte) (q : List Issue) (i : Instr) (r : List Byte),
    s.queue = .command c input :: q → decode (.command c) = .ok (i, r) →
    step s = exec i { s with queue := q, cmd := c, inBuf := s.inBuf.writeBytes 0 input })
  ∧ (∀ (s : State) (slot : Slot) (octets : List Byte) (q : List Issue) (i : Instr) (r : List Byte),
    s.queue = .wire slot octets :: q → decode (.wire slot octets) = .ok (i, r) →
    step s = exec i { s with queue := q })
  ∧ (∀ s : State, s.queue = [] → step s = .next s)

/-- R83: an unassigned code, and a profile id with a nonzero upper half. -/
def Obligations.ReservedCodes : Prop :=
  (∀ (s : State) (c : Command) (input : List Byte) (q : List Issue),
    s.queue = .command c input :: q → s.alive = true →
    c.op ∉ [0x01, 0x02, 0x10, 0x11, 0x12, 0x13, 0x14, 0x18, 0x19, 0x1A, 0x20, 0x21, 0x22, 0x23, 0x24,
      0x25, 0x30, 0x40] →
    step s = .next
      (({ s with queue := q, cmd := c, inBuf := s.inBuf.writeBytes 0 input } : State).failed 9))
  ∧ (∀ (s : State) (a : U32), s.alive = true → s.numPackets = 0 → a.extractLsb' 16 16 ≠ (0 : U16) →
    exec (.profEnable a) s = .next (s.failed 6) ∧ exec (.profDisable a) s = .next (s.failed 6))

/-- R85, R110: which octets begin a unit, and that the two types with one octet each have it alone. -/
def Obligations.FirstOctets : Prop :=
  (∀ o : Byte, (∃ i r, i.wellFormed = true ∧ encode i = .wire .unit (o :: r))
    ↔ o ∉ [0xE0, 0xF9, 0xFA, 0xFB])
  ∧ (∀ (i : Instr) (o : Byte) (r : List Byte), i.wellFormed = true → encode i = .wire .unit (o :: r) →
    (o = 0xFC ↔ i = .normal) ∧ (o = 0xFD ↔ i = .ir) ∧ (o = 0xF8 ↔ i = .irDyn)
    ∧ (o = 0xFE ↔ i = .segment 0) ∧ (o = 0xFF ↔ i = .segment 1))

/-! ## Reset and the dead block -/

/-- R42, R26, R28: the state after a reset with legal straps. That HOST's queue stays is the model's choice
(log 24, log 4). -/
def Obligations.LegalReset : Prop :=
  ∀ (s : State) (cidType : CidType) (maxCid : Nat) (q : List Issue),
    s.queue = .reset cidType maxCid :: q → maxCid ≤ Config.cidBound cidType →
    ∃ t, step s = .next t ∧ t.alive = true ∧ t.numPackets = 0 ∧ t.numContextsUsed = 0
      ∧ t.cfg = { cidType := cidType, maxCid := BitVec.ofNat 14 maxCid, mrru := 0, profilesEn := 0,
                  wlsbWidth := 4, irTimeout := 1700, foTimeout := 700 }
      ∧ t.cfg.maxCid.toNat = maxCid
      ∧ t.ctx.length = maxCid + 1 ∧ (∀ c, t.slot c = none)
      ∧ (∀ i, i < 64 → (t.fb.slot i).len = 0 ∧ (t.fb.slot i).locked = false)
      ∧ t.fb.first = 0 ∧ t.fb.firstUnlocked = 0 ∧ t.fb.next = 0
      ∧ t.rru.len = 0 ∧ t.rru.off = 0 ∧ t.rtpPorts = []
      ∧ t.queue = q

/-- R372: illegal straps leave a dead block, every command then ends with DEAD and changes nothing, and
only a reset with legal straps revives it. -/
def Obligations.DeadBlock : Prop :=
  (∀ (s : State) (cidType : CidType) (maxCid : Nat) (q : List Issue),
    s.queue = .reset cidType maxCid :: q → Config.cidBound cidType < maxCid →
    ∃ t, step s = .next t ∧ t.alive = false)
  ∧ (∀ (s : State) (i : Instr), s.alive = false → isCommand i = true →
    exec i s = .next (s.failed 8))
  ∧ (∀ (s : State) (c : Command) (input : List Byte) (q : List Issue),
    s.alive = false → s.queue = .command c input :: q →
    step s = .next
      (({ s with queue := q, cmd := c, inBuf := s.inBuf.writeBytes 0 input } : State).failed 8))
  ∧ (∀ s t : State, s.alive = false → step s = .next t → t.alive = true →
    ∃ cidType maxCid q, s.queue = .reset cidType maxCid :: q ∧ maxCid ≤ Config.cidBound cidType)

/-! ## Primitives -/

/-- R120: the shortest of the four forms, and failure from 2^29 on. -/
def Obligations.SdvlForms : Prop :=
  ∀ v : Nat,
    (v < 2 ^ 7 → sdvlEnc v = some [BitVec.ofNat 8 v])
    ∧ (2 ^ 7 ≤ v → v < 2 ^ 14 →
        sdvlEnc v = some [BitVec.ofNat 8 (0x80 + v / 2 ^ 8), BitVec.ofNat 8 v])
    ∧ (2 ^ 14 ≤ v → v < 2 ^ 21 →
        sdvlEnc v = some [BitVec.ofNat 8 (0xC0 + v / 2 ^ 16), BitVec.ofNat 8 (v / 2 ^ 8),
          BitVec.ofNat 8 v])
    ∧ (2 ^ 21 ≤ v → v < 2 ^ 29 →
        sdvlEnc v = some [BitVec.ofNat 8 (0xE0 + v / 2 ^ 24), BitVec.ofNat 8 (v / 2 ^ 16),
          BitVec.ofNat 8 (v / 2 ^ 8), BitVec.ofNat 8 v])
    ∧ (2 ^ 29 ≤ v → sdvlEnc v = none)

/-- R121: what SDVL_ENC writes SDVL_DEC reads, whatever follows; it consumes octets that are there, and
nothing is decoded from too short an input. -/
def Obligations.SdvlDecodes : Prop :=
  (∀ (v : Nat) (bs rest : List Byte), sdvlEnc v = some bs → sdvlDec (bs ++ rest) = some (v, bs.length))
  ∧ (∀ (s : List Byte) (v n : Nat), sdvlDec s = some (v, n) → 1 ≤ n ∧ n ≤ 4 ∧ n ≤ s.length ∧ v < 2 ^ 29)
  ∧ (∀ (s : List Byte) (bs : List Byte) (v : Nat), sdvlEnc v = some bs → s.length < bs.length →
    s = bs.take s.length → sdvlDec s = none)

/-- R124, R125: the least k such that the value lies in the interval of every reference, 16 for an empty
window; and a window that takes a value at its end, drops its oldest only when it is full, and never grows
above the width. -/
def Obligations.WlsbWindow : Prop :=
  (∀ (w : Window) (v : U16) (p : Int),
    (w.refs = [] → w.kNeeded v p = 16)
    ∧ (w.refs ≠ [] →
        w.kNeeded v p ≤ 16
        ∧ (∀ r ∈ w.refs, (v - (r - BitVec.ofInt 16 p)).toNat < 2 ^ w.kNeeded v p)
        ∧ ∀ k, k < w.kNeeded v p → ∃ r ∈ w.refs, 2 ^ k ≤ (v - (r - BitVec.ofInt 16 p)).toNat))
  ∧ (∀ (width : Nat) (w : Window) (v : U16), 0 < width → w.count ≤ width →
    (w.count < width → (w.add width v).refs = w.refs ++ [v])
    ∧ (w.count = width → ∃ oldest rest, w.refs = oldest :: rest ∧ (w.add width v).refs = rest ++ [v])
    ∧ (w.add width v).count = min (w.count + 1) width)

/-- R202: over n consecutive SNs the next one needs `ceil(log2 n)` bits. -/
def Obligations.SteadyFlowSnBits : Prop :=
  ∀ (sn : U16) (n : Nat), 0 < n → n ≤ 64 →
    ({ refs := snRun sn n } : Window).kNeeded (sn + 1) Config.pSn = Nat.clog 2 n

/-- R128, R129, R131: the table-driven update of each CRC is the bit-serial one; the check values over the
nine ASCII bytes "123456789", and over the empty string. -/
def Obligations.CrcGenerators : Prop :=
  let serial (poly : Byte) (crc b : Byte) : Byte :=
    (List.range 8).foldl
      (fun c i => if c.getLsbD 0 != b.getLsbD i then (c >>> 1) ^^^ poly else c >>> 1) crc
  let digits : List Byte := [0x31, 0x32, 0x33, 0x34, 0x35, 0x36, 0x37, 0x38, 0x39]
  (∀ crc b : Byte, crc.toNat < 8 → crcUpdate rom3 0x07 crc b = serial 0x06 crc b)
  ∧ (∀ crc b : Byte, crc.toNat < 128 → crcUpdate rom7 0x7F crc b = serial 0x79 crc b)
  ∧ (∀ crc b : Byte, crcUpdate rom8 0xFF crc b = serial 0xE0 crc b)
  ∧ crc3 digits = 0x6 ∧ crc7 digits = 0x53 ∧ crc8 digits = 0xD0 ∧ fcs32 digits = 0x340BC6D9
  ∧ crc3 [] = 7 ∧ crc7 [] = 0x7F ∧ crc8 [] = 0xFF ∧ fcs32 [] = 0xFFFFFFFF

/-! ## Front end -/

/-- R151 to R154: the parser accepts exactly the packets that one header fills, or two, one behind the other,
the last announcing no third; what it reads of each header is what IsIpv4 and IsIpv6 list; and what it accepts
lies inside the packet. -/
def Obligations.ParserBounds : Prop :=
  (∀ (pkt : List Byte) (p : Parsed), parse pkt = some p ↔
    (∃ h, p.hdrs = [h] ∧ IsHeader pkt 0 pkt.length h ∧ h.proto ≠ 4 ∧ h.proto ≠ 41)
    ∨ (∃ h0 h1, p.hdrs = [h0, h1] ∧ IsHeader pkt 0 pkt.length h0 ∧ (h0.proto = 4 ∨ h0.proto = 41)
        ∧ IsHeader pkt h0.hlen (pkt.length - h0.hlen) h1 ∧ h1.proto ≠ 4 ∧ h1.proto ≠ 41))
  ∧ ∀ (pkt : List Byte) (p : Parsed), parse pkt = some p →
    (∃ h, p.hdrs = [h] ∧ h.off = 0 ∧ h.hlen ≤ pkt.length ∧ h.proto ≠ 4 ∧ h.proto ≠ 41)
    ∨ (∃ h0 h1, p.hdrs = [h0, h1] ∧ h0.off = 0 ∧ (h0.proto = 4 ∨ h0.proto = 41) ∧ h1.off = h0.hlen
        ∧ h0.hlen + h1.hlen ≤ pkt.length ∧ h1.proto ≠ 4 ∧ h1.proto ≠ 41)

/-- R161: the first enabled profile in registry order whose check accepts. R163 to R167: what each check asks
of the packet, and the keys of the three admitted profiles. -/
def Obligations.SelectPriority : Prop :=
  ∀ (enabled : BitVec 7) (ports : List U16) (pkt : List Byte) (par : Parsed),
    (∀ p : Profile, select enabled ports pkt par = some p ↔
      (enabled.getLsbD p.bit = true ∧ p.check ports pkt par = true)
      ∧ ∀ q : Profile, q.bit < p.bit → ¬(enabled.getLsbD q.bit = true ∧ q.check ports pkt par = true))
    ∧ (select enabled ports pkt par = none ↔
      ∀ q : Profile, ¬(enabled.getLsbD q.bit = true ∧ q.check ports pkt par = true))
    ∧ (Profile.rtp.check ports pkt par = true ↔
        CarriesTransport 17 pkt par ∧ UdpLengthRight pkt par
        ∧ octet pkt (par.tpOff + 2) ++ octet pkt (par.tpOff + 3) ∈ ports)
    ∧ (Profile.udp.check ports pkt par = true ↔ CarriesTransport 17 pkt par ∧ UdpLengthRight pkt par)
    ∧ (Profile.udpLite.check ports pkt par = true ↔ CarriesTransport 136 pkt par)
    ∧ (Profile.esp.check ports pkt par = true ↔ CarriesTransport 50 pkt par)
    ∧ Profile.tcp.check ports pkt par = false
    ∧ (Profile.ipOnly.check ports pkt par = true ↔ ∀ h ∈ par.hdrs, h.plain = true)
    ∧ Profile.uncompressed.check ports pkt par = true
    ∧ Profile.uncompressed.key profileExt pkt par = .uncompressed
    ∧ Profile.ipOnly.key profileExt pkt par = .ip (par.hdrs.map fun h => ⟨h.version, h.src, h.dst, h.fl⟩)
    ∧ Profile.udp.key profileExt pkt par = .udp (par.hdrs.map fun h => ⟨h.version, h.src, h.dst, h.fl⟩)
        (octet pkt par.tpOff ++ octet pkt (par.tpOff + 1))
        (octet pkt (par.tpOff + 2) ++ octet pkt (par.tpOff + 3))

/-- R159: the slot a new context takes is the lowest unused one; when all are used, the one with the
smallest `latest_used`, the lowest among equals. -/
def Obligations.VictimChoice : Prop :=
  ∀ s : State, 0 < s.ctx.length →
    s.allocate.1 < s.ctx.length
    ∧ ((∃ d, d < s.ctx.length ∧ s.slot d = none) →
        s.allocate.2 = false ∧ s.slot s.allocate.1 = none
        ∧ ∀ d, d < s.allocate.1 → s.slot d ≠ none)
    ∧ ((∀ d, d < s.ctx.length → s.slot d ≠ none) →
        s.allocate.2 = true ∧ ∃ v, s.slot s.allocate.1 = some v
        ∧ ∀ d w, s.slot d = some w → v.latestUsed.toNat ≤ w.latestUsed.toNat
          ∧ (v.latestUsed = w.latestUsed → s.allocate.1 ≤ d))

/-- R158: the values a new context takes, with one draw of `rand16`. -/
def Obligations.CreateValues : Prop :=
  ∀ (s : State) (prof : Profile) (key : Key) (par : Parsed) (pkt : List Byte) (t : U64),
    0 < s.ctx.length → prof.admitted = true → s.find prof key = none →
    let u := s.findOrCreate profileExt prof key par pkt t
    ∃ v, u.slot s.allocate.1 = some v
      ∧ v.cid = s.allocate.1 ∧ v.profile = prof ∧ v.key = key ∧ v.state = .ir ∧ v.mode = .u
      ∧ v.firstUsed = t ∧ v.latestUsed = t ∧ v.numSent = 0 ∧ v.forceIr = false
      ∧ (prof = .uncompressed → v.block = .empty)
      ∧ (prof ≠ .uncompressed → ∃ g, v.block = .generic g ∧ g.sn = s.rand16 - 1
          ∧ g.hdrs.map CtxHdr.version = par.hdrs.map IpHdr.version ∧ g.winSn.refs = []
          ∧ g.irCount = 0 ∧ g.foCount = 0 ∧ g.goBackFo = 0 ∧ g.goBackIr = 0 ∧ g.udpCk = false
          ∧ ∀ h ∈ g.hdrs, ∀ x, h.ip4 = some x → x.rnd = false ∧ x.nbo = true ∧ x.sid = false
            ∧ x.rndCount = 0 ∧ x.nboCount = 0 ∧ x.sidCount = 0 ∧ x.winId.refs = [])
      ∧ u.numContextsUsed
          = (if s.allocate.2 = true then s.numContextsUsed - 1 else s.numContextsUsed) + 1
      ∧ u.randIn = s.randIn.tail
      ∧ (∀ d, d ≠ s.allocate.1 → u.slot d = s.slot d)
      ∧ u.cfg = s.cfg ∧ u.fb = s.fb ∧ u.rru = s.rru ∧ u.numPackets = s.numPackets
      ∧ u.rtpPorts = s.rtpPorts

/-! ## Engine -/

/-- R181, R127: what is observed of an IP-ID, and that the offset of a rising IP-ID stays. -/
def Obligations.IpIdObservation : Prop :=
  (∀ (x : Ip4Rec) (idNew : U16),
    observeIpId x idNew true = { rnd := x.rnd, nbo := x.nbo, sid := x.sid }
    ∧ (idNew = x.id → observeIpId x idNew false = { rnd := false, nbo := x.nbo, sid := true })
    ∧ (idNew ≠ x.id → (idNew - x.id).toNat < 20 →
        observeIpId x idNew false = { rnd := false, nbo := true, sid := false })
    ∧ (20 ≤ (idNew - x.id).toNat → (swab16 idNew - swab16 x.id).toNat < 20 →
        observeIpId x idNew false = { rnd := false, nbo := false, sid := false })
    ∧ (20 ≤ (idNew - x.id).toNat → 20 ≤ (swab16 idNew - swab16 x.id).toNat →
        observeIpId x idNew false = { rnd := true, nbo := x.nbo, sid := false }))
  ∧ (∀ id sn : U16, offsetIpId (id + 1) true (sn + 1) = offsetIpId id true sn
    ∧ offsetIpId (swab16 id) false sn = offsetIpId id true sn)

/-- R182: the flags of an IPv4 record after change detection are the observed ones, and each count goes on
while its flag stays and restarts when it flips; nothing has changed on the first packet of a context; one
header counts at most one static and five dynamic changes. On a later packet a change is a TOS, TTL, protocol
or DF that differs from the last packet's, and a flip of RND or NBO; the protocol counts as static, the others
as dynamic, and a flip of SID as neither. For UDP, udp_ck is whether the checksum is not 0, and ck_flip that
it flipped. -/
def Obligations.ChangeDetection : Prop :=
  (∀ (first : Bool) (n : IpHdr) (x : CtxHdr) (v : Ip4Rec), x.ip4 = some v →
    ∃ w, (detectHdr first n x).hdr = { x with ip4 := some w }
      ∧ { rnd := w.rnd, nbo := w.nbo, sid := w.sid } = observeIpId v n.id first
      ∧ (w.rnd = v.rnd → w.rndCount = min (v.rndCount + 1) (2 ^ 32 - 1))
      ∧ (w.rnd ≠ v.rnd → w.rndCount = 0)
      ∧ (w.nbo = v.nbo → w.nboCount = min (v.nboCount + 1) (2 ^ 32 - 1))
      ∧ (w.nbo ≠ v.nbo → w.nboCount = 0)
      ∧ (w.sid = v.sid → w.sidCount = min (v.sidCount + 1) (2 ^ 32 - 1))
      ∧ (w.sid ≠ v.sid → w.sidCount = 0)
      ∧ w.df = v.df ∧ w.id = v.id ∧ w.winId = v.winId)
  ∧ (∀ (sc : Scratch) (g : Generic), sc.ctx.numSent = 0 →
    (sc.detect g).sendStatic = 0 ∧ (sc.detect g).sendDynamic = 0
    ∧ (sc.detect g).sidFlip = false ∧ (sc.detect g).ckFlip = false)
  ∧ (∀ (sc : Scratch) (g : Generic),
    (sc.detect g).sendStatic ≤ sc.par.hdrs.length
    ∧ (sc.detect g).sendDynamic ≤ 5 * sc.par.hdrs.length)
  ∧ (∀ (n : IpHdr) (x : CtxHdr),
    let e := detectHdr false n x
    (e.ch.tos = true ↔ n.tos ≠ x.tos) ∧ (e.ch.ttl = true ↔ n.ttl ≠ x.ttl)
    ∧ (e.ch.pr = true ↔ n.proto ≠ x.proto)
    ∧ (∀ v, x.ip4 = some v →
        (e.ch.df = true ↔ n.df ≠ v.df)
        ∧ (e.ch.rnd = true ↔ (observeIpId v n.id false).rnd ≠ v.rnd)
        ∧ (e.ch.nbo = true ↔ (observeIpId v n.id false).nbo ≠ v.nbo)
        ∧ (e.sidFlip = true ↔ (observeIpId v n.id false).sid ≠ v.sid))
    ∧ (x.ip4 = none → e.hdr = x ∧ e.ch.df = false ∧ e.ch.rnd = false ∧ e.ch.nbo = false ∧ e.sidFlip = false))
  ∧ (∀ (sc : Scratch) (g : Generic),
    let first := decide (sc.ctx.numSent = 0)
    let es := List.zipWith (fun n x => detectHdr first n x) sc.par.hdrs g.hdrs
    let ck := decide (octet sc.pkt (sc.par.tpOff + 6) ++ octet sc.pkt (sc.par.tpOff + 7) ≠ (0 : U16))
    let p := sc.detect g
    p.sendStatic = (es.map fun e => e.ch.pr.toNat).sum
    ∧ p.sendDynamic = (es.map fun e => e.ch.tos.toNat + e.ch.ttl.toNat + e.ch.df.toNat + e.ch.rnd.toNat
        + e.ch.nbo.toNat).sum
    ∧ (p.sidFlip = true ↔ ∃ e ∈ es, e.sidFlip = true)
    ∧ p.hs.map (fun v => v.ch) = es.map (fun e => e.ch)
    ∧ p.ctx.hdrs = es.map (fun e => e.hdr)
    ∧ (sc.ctx.profile = .udp →
        p.ctx.udpCk = ck ∧ (p.ckFlip = true ↔ first = false ∧ ck ≠ g.udpCk))
    ∧ (sc.ctx.profile ≠ .udp → p.ctx.udpCk = g.udpCk ∧ p.ckFlip = false))

/-- R184, R185, R187: when the state decision goes where, and which counters restart; `force_ir` is cleared.
OA_REPETITIONS is 3 by R12, where the preamble of 95_test_vectors.md says 4 (log 13). -/
def Obligations.StateDecision : Prop :=
  (∀ g : Generic,
    (flagsConverged g = true ↔ ∀ h ∈ g.hdrs, ∀ x, h.ip4 = some x →
      Config.oaRepetitions ≤ x.rndCount ∧ Config.oaRepetitions ≤ x.nboCount
        ∧ Config.oaRepetitions ≤ x.sidCount)
    ∧ (windowsReady g = true ↔ g.winSn.refs ≠ [] ∧ ∀ h ∈ g.hdrs, ∀ x, h.ip4 = some x → x.winId.refs ≠ []))
  ∧ (∀ (cfg : Cfg) (c : Ctx) (g : Generic) (sc : Scratch),
    let changed := 0 < sc.sendStatic ∨ sc.sidFlip = true ∨ sc.ckFlip = true
    let next := (decideArm cfg c g sc).1
    let reset := (decideArm cfg c g sc).2
    -- any state goes to IR for exactly these causes, and its counters restart
    (next = .ir ↔ c.forceIr = true ∨ changed ∨ (c.state ≠ .ir ∧ cfg.irTimeout.toNat ≤ g.goBackIr)
      ∨ (c.state = .ir ∧ ¬(3 ≤ g.irCount ∧ flagsConverged g = true)))
    ∧ (reset = true ↔ c.forceIr = true ∨ changed ∨ (c.state ≠ .ir ∧ cfg.irTimeout.toNat ≤ g.goBackIr))
    -- SO is entered from FO alone, and left on a refresh or a dynamic change
    ∧ (next = .so ↔ c.forceIr = false ∧ ¬changed ∧ g.goBackIr < cfg.irTimeout.toNat
      ∧ ((c.state = .so ∧ g.goBackFo < cfg.foTimeout.toNat ∧ sc.sendDynamic = 0)
        ∨ (c.state = .fo ∧ 3 ≤ g.foCount ∧ flagsConverged g = true ∧ sc.sendDynamic = 0
          ∧ windowsReady g = true)))
    -- no packet built in FO or SO has a static change
    ∧ (next ≠ .ir → sc.sendStatic = 0))
  ∧ ∀ (cfg : Cfg) (sc : Scratch) (g : Generic),
    let next := (decideArm cfg sc.ctx g sc).1
    let restarts := next ≠ sc.ctx.state ∨ (decideArm cfg sc.ctx g sc).2 = true
    ∃ irCount foCount goBackFo goBackIr,
      sc.decideState cfg g = { sc with ctx := { sc.ctx with
          state := next
          forceIr := false
          block := .generic { g with
            irCount := irCount, foCount := foCount, goBackFo := goBackFo, goBackIr := goBackIr } } }
      ∧ (restarts → irCount = 0 ∧ foCount = 0 ∧ goBackFo = 0)
      ∧ (¬restarts → irCount = g.irCount ∧ foCount = g.foCount ∧ goBackFo = g.goBackFo)
      ∧ (restarts ∧ next = .ir → goBackIr = 0)
      ∧ (¬(restarts ∧ next = .ir) → goBackIr = g.goBackIr)

/-- R203 to R205, R208: which packet type and which extension is chosen, the first true arm of each list.
R209: the flags of extension 3. R210: every packet type and extension carries the bits it needs. R180, R200: the
bit counts, the type and the extension of a prepared packet. The 3 of an unconverged SID is OA_REPETITIONS: R12
says 3, the preamble of 95_test_vectors.md 4 (log 13). -/
def Obligations.EnoughBits : Prop :=
  (∀ (sc : Scratch) (g : Generic),
    let unconverged := ∃ h ∈ g.hdrs, ∃ x, h.ip4 = some x ∧ x.sidCount < 3
    let many := (sc.par.hdrs.length = 1 ∧ 2 < sc.sendDynamic) ∨ (sc.par.hdrs.length = 2 ∧ 4 < sc.sendDynamic)
    let foUor2 := ¬unconverged ∧ sc.kSn ≤ 13 ∧ (0 < sc.sendStatic ∨ ¬many)
    let innerOk := sc.par.hdrs.length = 1 ∨ sc.kId 1 = 0
    let outerSeq := ∃ h x, g.hdrs.head? = some h ∧ h.ip4 = some x ∧ x.rnd = false ∧ x.sid = false
    let soUo0 := sc.kSn ≤ 4 ∧ sc.kId 0 = 0 ∧ innerOk
    let soUo1 := sc.kSn ≤ 5 ∧ outerSeq ∧ sc.kId 0 ≤ 6 ∧ innerOk
    let type := sc.decideType g
    (sc.ctx.state = .ir → type = .ir)
    ∧ (sc.ctx.state = .fo → (foUor2 → type = .uor2) ∧ (¬foUor2 → type = .irDyn))
    ∧ (sc.ctx.state = .so →
        (soUo0 → type = .uo0) ∧ (¬soUo0 ∧ soUo1 → type = .uo1)
        ∧ (¬soUo0 ∧ ¬soUo1 ∧ sc.kSn ≤ 13 → type = .uor2)
        ∧ (¬soUo0 ∧ ¬soUo1 ∧ ¬sc.kSn ≤ 13 → type = .irDyn)))
  ∧ (∀ sc : Scratch, sc.par.hdrs.length = 1 ∨ sc.par.hdrs.length = 2 →
    let two := sc.par.hdrs.length = 2
    let id1 := if two then sc.kId 1 else sc.kId 0
    let id2 := if two then sc.kId 0 else 0
    let need3 := 0 < sc.sendStatic ∨ 0 < sc.sendDynamic
    let e := ¬need3 ∧ sc.kSn ≤ 5 ∧ id1 = 0 ∧ id2 = 0
    let e0 := ¬need3 ∧ sc.kSn ≤ 8 ∧ id1 ≤ 3 ∧ id2 = 0
    let e1 := ¬need3 ∧ sc.kSn ≤ 8 ∧ id1 ≤ 11 ∧ id2 = 0
    let e2 := ¬need3 ∧ two ∧ sc.kSn ≤ 8 ∧ id1 ≤ 8 ∧ id2 ≤ 11
    let changed (h : Nat) := (sc.changes h).tos = true ∨ (sc.changes h).ttl = true ∨ (sc.changes h).df = true
      ∨ (sc.changes h).pr = true ∨ (sc.changes h).nbo = true ∨ (sc.changes h).rnd = true
    (e → sc.decideExt = .none) ∧ (¬e ∧ e0 → sc.decideExt = .ext0)
    ∧ (¬e ∧ ¬e0 ∧ e1 → sc.decideExt = .ext1)
    ∧ (¬e ∧ ¬e0 ∧ ¬e1 ∧ e2 → sc.decideExt = .ext2) ∧ (¬e ∧ ¬e0 ∧ ¬e1 ∧ ¬e2 → sc.decideExt = .ext3)
    ∧ (sc.ext3S = true ↔ 5 < sc.kSn) ∧ (sc.ext3I = true ↔ 0 < id1)
    ∧ (sc.ext3Ip = true ↔ if two then changed 1 else changed 0)
    ∧ (sc.ext3I2 = true ↔ two ∧ 0 < id2)
    ∧ (sc.ext3Ip2 = true ↔ two ∧ (changed 0 ∨ 0 < id2)))
  ∧ (∀ (sc : Scratch) (g : Generic),
    (sc.decideType g = .uo0 → sc.kSn ≤ 4 ∧ sc.kId 0 = 0 ∧ (sc.par.nhdr ≠ 1 → sc.kId 1 = 0))
    ∧ (sc.decideType g = .uo1 →
        sc.kSn ≤ 5 ∧ sc.kId 0 ≤ 6 ∧ (sc.par.nhdr ≠ 1 → sc.kId 1 = 0))
    ∧ (sc.decideType g = .uor2 → sc.kSn ≤ 13)
    ∧ (sc.decideExt = .none → sc.kSn ≤ 5 ∧ sc.id1 = 0 ∧ sc.id2 = 0)
    ∧ (sc.decideExt = .ext0 → sc.kSn ≤ 8 ∧ sc.id1 ≤ 3 ∧ sc.id2 = 0)
    ∧ (sc.decideExt = .ext1 → sc.kSn ≤ 8 ∧ sc.id1 ≤ 11 ∧ sc.id2 = 0)
    ∧ (sc.decideExt = .ext2 → sc.par.nhdr = 2 ∧ sc.kSn ≤ 8 ∧ sc.id1 ≤ 8 ∧ sc.id2 ≤ 11)
    ∧ (sc.ext3S = false → sc.kSn ≤ 5) ∧ (sc.ext3I = false → sc.id1 = 0)
    ∧ (sc.ext3I2 = false → sc.id2 = 0)
    -- a counted change is carried by extension 3 alone
    ∧ (0 < sc.sendStatic ∨ 0 < sc.sendDynamic → sc.decideExt = .ext3))
  ∧ ∀ (cfg : Cfg) (sc : Scratch) (g : Generic),
    let q := sc.detect g
    let p := sc.prepareGeneric cfg g
    ∃ seen after, q.ctx.block = .generic seen ∧ p.ctx = (q.decideState cfg seen).ctx
      ∧ p.ctx.block = .generic after
      ∧ p.snNew = g.sn + 1 ∧ p.sendStatic = q.sendStatic ∧ p.sendDynamic = q.sendDynamic
      ∧ p.pkt = sc.pkt ∧ p.par = sc.par ∧ p.asm = sc.asm
      ∧ p.hs.map (fun v => v.ch) = q.hs.map (fun v => v.ch)
      ∧ p.kSn = g.winSn.kNeeded (g.sn + 1) (-1)
      ∧ (∀ (h : Nat) (n : IpHdr) (x : CtxHdr), sc.par.hdrs[h]? = some n → after.hdrs[h]? = some x →
          (x.ip4 = none → p.off h = 0 ∧ p.kId h = 0)
          ∧ ∀ v, x.ip4 = some v → p.off h = offsetIpId n.id v.nbo (g.sn + 1)
            ∧ (v.rnd = true ∨ v.sid = true → p.kId h = 0)
            ∧ (v.rnd = false → v.sid = false → p.kId h = v.winId.kNeeded (p.off h) 0))
      ∧ p.ptype = p.decideType after
      ∧ (p.ptype = .uor2 → p.ext = p.decideExt) ∧ (p.ptype ≠ .uor2 → p.ext = .none)

/-- R209: extension 3 is never its flags octet alone. -/
def Obligations.Extension3SaysSomething : Prop :=
  ∀ (cfg : Cfg) (sc : Scratch) (g : Generic),
    sc.par.nhdr = 1 ∨ sc.par.nhdr = 2 → g.hdrs.length = sc.par.nhdr →
    let p := sc.prepareGeneric cfg g
    p.ext = .ext3 → p.ext3S = true ∨ p.ext3I = true ∨ p.ext3Ip = true ∨ p.ext3Ip2 = true

/-! ## Builders and the header rows -/

/-- R93, R94, R232, R233: UO-0 and UO-1, as the builders fill them and as instructions. That a row has a step
of its own is the model's choice (log 5). -/
def Obligations.UoPackets : Prop :=
  (∀ (sn : BitVec 4) (crc : BitVec 3) (s : State), exec (.uo0 sn crc) s = .next
    { s with scr := { s.scr with asm := { s.scr.asm with
        first := [(0#1 ++ sn ++ crc : Byte)], rest := s.scr.tail } } })
  ∧ (∀ (ipid : BitVec 6) (sn : BitVec 5) (crc : BitVec 3) (s : State), exec (.uo1 ipid sn crc) s = .next
    { s with scr := { s.scr with asm := { s.scr.asm with
        first := [(2#2 ++ ipid : Byte)], rest := (sn ++ crc : Byte) :: s.scr.tail } } })
  ∧ (∀ sc : Scratch,
    sc.buildUo0.asm.first = [(0#1 ++ sc.snNew.extractLsb' 0 4 ++ crc3 (sc.pkt.take sc.hdrEnd) : Byte)]
    ∧ sc.buildUo0.asm.rest = sc.tail
    ∧ sc.buildUo1.asm.first = [(2#2 ++ (sc.off 0).extractLsb' 0 6 : Byte)]
    ∧ sc.buildUo1.asm.rest
        = (sc.snNew.extractLsb' 0 5 ++ crc3 (sc.pkt.take sc.hdrEnd) : Byte) :: sc.tail)

/-- R95: UOR_2 as an instruction; that the row has a step of its own is the model's choice (log 5). R234 to
R238: which bits of the SN and of the offset IP-IDs each form carries, and extension 3 octet by octet. -/
def Obligations.Uor2Packets : Prop :=
  (∀ (sn : BitVec 5) (x : BitVec 1) (crc : BitVec 7) (s : State), exec (.uor2 sn x crc) s = .next
    { s with scr := { s.scr with asm := { s.scr.asm with
        first := [(6#3 ++ sn : Byte)]
        rest := (x ++ crc : Byte) :: ((if x = 1 then s.scr.asm.ext else []) ++ s.scr.tail) } } })
  ∧ (∀ sc : Scratch,
    let sn := sc.snNew
    let crc := crc7 (sc.pkt.take sc.hdrEnd)
    let a := sc.buildUor2.asm
    (sc.ext = .none →
      a.first = [(6#3 ++ sn.extractLsb' 0 5 : Byte)] ∧ a.rest = (0#1 ++ crc : Byte) :: sc.tail)
    ∧ (sc.ext = .ext0 →
      a.first = [(6#3 ++ sn.extractLsb' 3 5 : Byte)]
      ∧ a.rest = [(1#1 ++ crc : Byte), (0#2 ++ sn.extractLsb' 0 3 ++ sc.o1.extractLsb' 0 3 : Byte)]
          ++ sc.tail)
    ∧ (sc.ext = .ext1 →
      a.first = [(6#3 ++ sn.extractLsb' 3 5 : Byte)]
      ∧ a.rest = [(1#1 ++ crc : Byte), (1#2 ++ sn.extractLsb' 0 3 ++ sc.o1.extractLsb' 8 3 : Byte),
          sc.o1.extractLsb' 0 8] ++ sc.tail)
    ∧ (sc.ext = .ext2 →
      a.first = [(6#3 ++ sn.extractLsb' 3 5 : Byte)]
      ∧ a.rest = [(1#1 ++ crc : Byte), (2#2 ++ sn.extractLsb' 0 3 ++ sc.o2.extractLsb' 8 3 : Byte),
          sc.o2.extractLsb' 0 8, sc.o1.extractLsb' 0 8] ++ sc.tail)
    ∧ (sc.ext = .ext3 →
      a.first = [(6#3 ++ (if sc.ext3S then sn.extractLsb' 8 5 else sn.extractLsb' 0 5) : Byte)]
      ∧ ∃ body, a.rest = [(1#1 ++ crc : Byte),
            (3#2 ++ bit sc.ext3S ++ 1#2 ++ bit sc.ext3I ++ bit sc.ext3Ip ++ bit sc.ext3Ip2 : Byte)]
          ++ body ++ sc.tail
        ∧ (sc.ext3S = true → sc.ext3Ip = false → sc.ext3Ip2 = false →
            body.head? = some (sn.extractLsb' 0 8))))
  ∧ (∀ (sc : Scratch) (prim : HdrView) (sec : Option HdrView), sc.Views prim sec →
    sc.o1 = prim.offset ∧ sc.o2 = (match sec with | some v => v.offset | none => 0)
    ∧ (sc.ext = .ext3 → sc.buildUor2.asm.rest
        = [(1#1 ++ crc7 (sc.pkt.take sc.hdrEnd) : Byte),
            (3#2 ++ bit sc.ext3S ++ 1#2 ++ bit sc.ext3I ++ bit sc.ext3Ip ++ bit sc.ext3Ip2 : Byte)]
          ++ extension3 sc.snNew prim sec sc.ext3S sc.ext3I sc.ext3Ip sc.ext3Ip2 sc.ext3I2 ++ sc.tail))

/-- R91, R92, R230, R231, R240: IR, IR-DYN and the Normal packet. That a row has a step of its own is the
model's choice (log 5). -/
def Obligations.IrAndNormalPackets : Prop :=
  ∀ s : State,
    exec .ir s = .next { s with scr := { s.scr with asm := { s.scr.asm with
        first := [0xFD]
        rest := [s.scr.ctx.profile.id.extractLsb' 0 8, crc8 (s.scr.pkt.take s.scr.hdrEnd)]
          ++ s.scr.staticChain ++ s.scr.dynamicChain
          ++ [s.scr.snNew.extractLsb' 8 8, s.scr.snNew.extractLsb' 0 8] } } }
    ∧ exec .irDyn s = .next { s with scr := { s.scr with asm := { s.scr.asm with
        first := [0xF8]
        rest := [s.scr.ctx.profile.id.extractLsb' 0 8, crc8 (s.scr.pkt.take s.scr.hdrEnd)]
          ++ s.scr.dynamicChain ++ [s.scr.snNew.extractLsb' 8 8, s.scr.snNew.extractLsb' 0 8] } } }
    ∧ exec .normal s = .next { s with scr := { s.scr with asm := { s.scr.asm with
        first := [0xFC], rest := [] } } }

/-- R101, R102, R224 to R226: the chain parts of one header, and the whole static chain, dynamic chain and
tail, outer header first, the UDP part last. -/
def Obligations.ChainParts : Prop :=
  (∀ (n : IpHdr) (x : CtxHdr),
    (n.version = .v4 → staticPart n = [0x40, n.proto] ++ n.src ++ n.dst)
    ∧ (n.version = .v6 → staticPart n
        = [BitVec.ofNat 8 (0x60 + n.fl.toNat / 2 ^ 16), BitVec.ofNat 8 (n.fl.toNat / 2 ^ 8),
            BitVec.ofNat 8 n.fl.toNat, n.proto] ++ n.src ++ n.dst)
    ∧ (∀ v, x.ip4 = some v → dynamicPart n x
        = [n.tos, n.ttl, n.id.extractLsb' 8 8, n.id.extractLsb' 0 8,
            BitVec.ofNat 8 (128 * n.df.toNat + 64 * v.rnd.toNat + 32 * v.nbo.toNat + 16 * v.sid.toNat),
            0x00])
    ∧ (x.ip4 = none → dynamicPart n x = [n.tos, n.ttl, 0x00]))
  ∧ ∀ sc : Scratch,
    let udp := sc.ctx.profile = .udp
    let bytes (i n : Nat) := (sc.pkt.drop (sc.par.tpOff + i)).take n
    let randomId (n : IpHdr) (x : CtxHdr) : List Byte :=
      match x.ip4 with
      | some v => if v.rnd then [n.id.extractLsb' 8 8, n.id.extractLsb' 0 8] else []
      | none => []
    sc.staticChain = (sc.par.hdrs.map staticPart).flatten ++ (if udp then bytes 0 4 else [])
    ∧ sc.dynamicChain = (List.zipWith dynamicPart sc.par.hdrs sc.ctx.hdrs).flatten
        ++ (if udp then bytes 6 2 else [])
    ∧ sc.tail = (List.zipWith randomId sc.par.hdrs sc.ctx.hdrs).flatten
        ++ (if udp ∧ sc.ctx.udpCk = true then bytes 6 2 else [])

/-- R96 to R99, R238: the extension rows, EXT_3 octet by octet. That a row has a step of its own is the model's
choice (log 5); that EXT_3 with a Mode other than MODE_CODE_U goes out with MODE_CODE_U is too (log 23). -/
def Obligations.ExtensionRows : Prop :=
  ∀ s : State,
    (∀ sn ipid, exec (.ext0 sn ipid) s = .next { s with scr := { s.scr with asm := { s.scr.asm with
        ext := [(0#2 ++ sn ++ ipid : Byte)] } } })
    ∧ (∀ sn ipid, exec (.ext1 sn ipid) s = .next { s with scr := { s.scr with asm := { s.scr.asm with
        ext := [(1#2 ++ sn ++ ipid.extractLsb' 8 3 : Byte), ipid.extractLsb' 0 8] } } })
    ∧ (∀ sn ipid2 ipid, exec (.ext2 sn ipid2 ipid) s = .next
      { s with scr := { s.scr with asm := { s.scr.asm with
        ext := [(2#2 ++ sn ++ ipid2.extractLsb' 8 3 : Byte), ipid2.extractLsb' 0 8, ipid] } } })
    ∧ (∀ sf mode i ip ip2, exec (.ext3 sf mode i ip ip2) s = .next
      { s with scr := { s.scr with asm := { s.scr.asm with
        ext := (3#2 ++ sf ++ 1#2 ++ i ++ ip ++ ip2 : Byte) :: s.scr.ext3Body sf i ip ip2 } } })
    ∧ (∀ prim sec sf i ip ip2, s.scr.Views prim sec →
        s.scr.ext3Body sf i ip ip2
          = extension3 s.scr.snNew prim sec (sf == 1) (i == 1) (ip == 1) (ip2 == 1) s.scr.ext3I2)

/-- R86, R88: the Add-CID octet and the SDVL forms. That a row has a step of its own is the model's choice
(log 5), and so is what ADD_CID does for CID 0, which the block never forms (log 23). -/
def Obligations.CidRows : Prop :=
  ∀ s : State,
    (∀ cid, exec (.addCid cid) s = .next { s with scr := { s.scr with asm := { s.scr.asm with
        addCid := if cid = 0 then [] else [0xE0#8 ||| cid.setWidth 8] } } })
    ∧ (∀ v, exec (.sdvl1 v) s = .next { s with scr := { s.scr with asm := { s.scr.asm with
        largeCid := [(0#1 ++ v : Byte)] } } })
    ∧ (∀ v, 2 ^ 7 ≤ v.toNat → exec (.sdvl2 v) s = .next
      { s with scr := { s.scr with asm := { s.scr.asm with
        largeCid := [(2#2 ++ v.extractLsb' 8 6 : Byte), v.extractLsb' 0 8] } } })
    ∧ (∀ v, 2 ^ 14 ≤ v.toNat → exec (.sdvl3 v) s = .next
      { s with scr := { s.scr with asm := { s.scr.asm with
        largeCid := [(6#3 ++ v.extractLsb' 16 5 : Byte), v.extractLsb' 8 8, v.extractLsb' 0 8] } } })
    ∧ (∀ v, 2 ^ 21 ≤ v.toNat → exec (.sdvl4 v) s = .next
      { s with scr := { s.scr with asm := { s.scr.asm with
        largeCid := [(7#3 ++ v.extractLsb' 24 5 : Byte), v.extractLsb' 16 8, v.extractLsb' 8 8,
          v.extractLsb' 0 8] } } })
    -- the model's choice (log 23): a longer row with a value that a shorter form holds emits that form
    ∧ (∀ v : BitVec 14, v.toNat < 2 ^ 7 → exec (.sdvl2 v) s = exec (.sdvl1 (v.setWidth 7)) s)
    ∧ (∀ v : BitVec 21, v.toNat < 2 ^ 14 → exec (.sdvl3 v) s = exec (.sdvl2 (v.setWidth 14)) s)
    ∧ (∀ v : BitVec 29, v.toNat < 2 ^ 21 → exec (.sdvl4 v) s = exec (.sdvl3 (v.setWidth 21)) s)

/-- R89, R263: the feedback rows take the head entry whole, lock it and move the boundary; with no such
entry waiting they emit nothing, which is the model's choice (log 5). -/
def Obligations.FeedbackRows : Prop :=
  ∀ s : State,
    let taken (lead : List Byte) : State := { s with
      fb := { s.fb with
        slots := s.fb.slots.set s.fb.firstUnlocked
          { data := (s.fb.slot s.fb.firstUnlocked).data, locked := true }
        firstUnlocked := (s.fb.firstUnlocked + 1) % 64 }
      scr := { s.scr with asm := { s.scr.asm with
        fb := s.scr.asm.fb ++ lead ++ (s.fb.slot s.fb.firstUnlocked).data } } }
    let waits (n : Nat) : Prop :=
      (s.fb.slot s.fb.firstUnlocked).locked = false ∧ (s.fb.slot s.fb.firstUnlocked).len = n ∧ 0 < n
    (∀ len : BitVec 3, waits len.toNat →
      exec (.feedbackShort len) s = .next (taken [0xF0#8 ||| len.setWidth 8]))
    ∧ (∀ len : BitVec 8, 8 ≤ len.toNat → waits len.toNat →
      exec (.feedbackLong len) s = .next (taken [0xF0#8, len]))
    ∧ (∀ len : BitVec 3, ¬waits len.toNat → exec (.feedbackShort len) s = .next s)
    ∧ (∀ len : BitVec 8, ¬(8 ≤ len.toNat ∧ waits len.toNat) → exec (.feedbackLong len) s = .next s)

/-- R90: a segment is its type octet and the chunk, and the chunk leaves the RRU. That the row has a step of its
own is the model's choice (log 5), and so is that no byte of RRU.buf changes (log 29). -/
def Obligations.SegmentRow : Prop :=
  ∀ (s : State) (final : BitVec 1) (mrru : Nat), s.rru.Ok mrru →
    let n := min s.scr.segN s.rru.len
    ∃ chunk, s.rru.buf.readBytes s.rru.off n = some chunk ∧ chunk.length = n
      ∧ exec (.segment final) s = .next { s with
          rru := { buf := s.rru.buf, off := if n = s.rru.len then 0 else s.rru.off + n,
                   len := s.rru.len - n }
          scr := { s.scr with asm := { s.scr.asm with
            first := [(127#7 ++ final : Byte)], rest := chunk } } }

/-- R223: where the CID stands in a header. -/
def Obligations.CidPlacement : Prop :=
  ∀ sc : Scratch, sc.asm.addCid = [] → sc.asm.largeCid = [] →
    let first := sc.asm.first
    let rest := sc.asm.rest
    (sc.ctx.cid = 0 → (sc.wrapCid .small).asm.header = first ++ rest)
    ∧ (0 < sc.ctx.cid → sc.ctx.cid ≤ 15 →
        (sc.wrapCid .small).asm.header = [BitVec.ofNat 8 (0xE0 + sc.ctx.cid)] ++ first ++ rest)
    ∧ (sc.ctx.cid < 128 →
        (sc.wrapCid .large).asm.header = first ++ [BitVec.ofNat 8 sc.ctx.cid] ++ rest)
    ∧ (128 ≤ sc.ctx.cid → sc.ctx.cid ≤ 16383 →
        (sc.wrapCid .large).asm.header
          = first ++ [BitVec.ofNat 8 (0x80 + sc.ctx.cid / 2 ^ 8), BitVec.ofNat 8 sc.ctx.cid] ++ rest)

/-- R250: the length of a header by its type. -/
def Obligations.HeaderLengths : Prop :=
  ∀ (cfg : Cfg) (sc : Scratch) (g : Generic),
    parse sc.pkt = some sc.par → sc.asm.addCid = [] → sc.asm.largeCid = [] →
    sc.ctx.block = .generic g → g.hdrs.map CtxHdr.version = sc.par.hdrs.map IpHdr.version →
    (sc.ctx.profile = .ipOnly ∨ (sc.ctx.profile = .udp ∧ checkUdp sc.pkt sc.par = true)) →
    sc.ctx.cid ≤ Config.cidBound cfg.cidType →
    let p := sc.prepare cfg
    let length := (p.build.wrapCid cfg.cidType).asm.header.length
    let cidlen := match cfg.cidType with
      | .small => if sc.ctx.cid = 0 then 0 else 1
      | .large => if sc.ctx.cid < 128 then 1 else 2
    let n4 := (sc.par.hdrs.filter fun h => h.version == .v4).length
    let n6 := (sc.par.hdrs.filter fun h => h.version == .v6).length
    let udp := if sc.ctx.profile = .udp then 1 else 0
    let tail := 2 * (p.ctx.hdrs.filter fun h => h.isRnd).length + 2 * udp * p.ctx.udpCk.toNat
    let fields (h : Nat) :=
      (p.changes h).tos.toNat + (p.changes h).ttl.toNat + (p.changes h).pr.toNat
    let ext3 := 1 + p.ext3Ip.toNat + p.ext3Ip2.toNat + p.ext3S.toNat
      + (if p.ext3Ip then fields p.prim else 0) + 2 * p.ext3I.toNat
      + (if p.ext3Ip2 then fields 0 + 2 * p.ext3I2.toNat else 0)
    length = cidlen + (match p.ptype with
      | .ir => 3 + 10 * n4 + 36 * n6 + 4 * udp + 6 * n4 + 3 * n6 + 2 * udp + 2
      | .irDyn => 3 + 6 * n4 + 3 * n6 + 2 * udp + 2
      | .uo0 => 1 + tail
      | .uo1 => 2 + tail
      | .uor2 => 2 + (match p.ext with
          | .none => 0
          | .ext0 => 1
          | .ext1 => 2
          | .ext2 => 3
          | .ext3 => ext3) + tail
      | .normal => 1)

/-! ## COMPRESS -/

/-- R301, R343: when COMPRESS ends with INPUT or NO_PROFILE, or is refused, in this order; that it is refused by
name where RTP, UDP-Lite or ESP is selected is the model's choice (log 15).
R280, R281, R302: how COMPRESS ends for a packet it accepts: it fits OUT, or goes to the RRU, or the
command fails with OUTPUT_TOO_SMALL, the ring unlocked (log 21). R220, R221: the header is the one that the
builder of SCR.ptype gives, with the CID, and where it ends. The bytes of RRU.buf outside the unit and what SCR
holds afterwards are the model's choice (logs 29 and 3). -/
def Obligations.CompressResult : Prop :=
  (∀ (s : State) (t : U64) (inLen outMax : U32), s.alive = true →
    (inLen.toNat = 0 ∨ outMax.toNat = 0 → exec (.compress t inLen outMax) s = .next (s.failed 1))
    ∧ (inLen.toNat ≠ 0 → outMax.toNat ≠ 0 →
        (parse (s.input inLen) = none → exec (.compress t inLen outMax) s = .next (s.failed 1))
        ∧ ∀ par, parse (s.input inLen) = some par →
          (select s.cfg.profilesEn s.rtpPorts (s.input inLen) par = none →
            exec (.compress t inLen outMax) s = .next (s.failed 3))
          ∧ ∀ prof, select s.cfg.profilesEn s.rtpPorts (s.input inLen) par = some prof →
            (prof = .rtp ∨ prof = .udpLite ∨ prof = .esp →
              exec (.compress t inLen outMax) s = .refused (.profileNotAdmitted prof))
            ∧ (prof = .udp ∨ prof = .ipOnly ∨ prof = .uncompressed →
              Accepts s inLen outMax (s.input inLen) par prof)))
  ∧ ∀ (s : State) (t : U64) (inLen outMax : U32) (pkt : List Byte) (par : Parsed) (prof : Profile),
    Accepts s inLen outMax pkt par prof →
    let w := s.assembled prof par pkt outMax.toNat t
    let c := (s.pick prof (prof.key profileExt pkt par)).1
    let fresh := (s.pick prof (prof.key profileExt pkt par)).2
    let fb := w.scr.asm.fb
    let hdr := w.scr.asm.header
    let pay := pkt.drop w.scr.hdrEnd
    let sent : Ctx := { w.scr.ctx with
      numSent := min (w.scr.ctx.numSent + 1) (2 ^ 32 - 1), latestUsed := t }
    let packets := min (s.numPackets + 1) (2 ^ 32 - 1)
    let fits := fb.length + hdr.length + pay.length ≤ outMax.toNat
    let segments := 0 < s.cfg.mrru.toNat ∧ hdr.length + pay.length + 4 ≤ s.cfg.mrru.toNat
    (fits → exec (.compress t inLen outMax) s = .next
      (({ w with ctx := w.ctx.set c (some sent), numPackets := packets, fb := w.fb.removeLocked,
                 rru := { s.rru with off := 0, len := 0 } } : State).done (fb ++ hdr ++ pay) 0))
    ∧ (¬fits → segments → exec (.compress t inLen outMax) s = .next
      (({ w with ctx := w.ctx.set c (some sent), numPackets := packets, fb := w.fb.unlock,
                 rru := { buf := s.rru.buf.writeBytes 0
                            (hdr ++ pay ++ be32 (fcs32 (hdr ++ pay))),
                          off := 0, len := hdr.length + pay.length + 4 } } : State).needSegment []))
    ∧ (¬fits → ¬segments → exec (.compress t inLen outMax) s = .next
      (({ w with ctx := w.ctx.set c (if fresh then none else s.slot c), fb := w.fb.unlock,
                 numContextsUsed := if fresh then w.numContextsUsed - 1 else w.numContextsUsed }
          : State).failed 4))
    ∧ (0 < s.ctx.length → ∃ sc : Scratch,
        let p := sc.prepare s.cfg
        let wrapped (b : Scratch) : List Byte := (b.wrapCid s.cfg.cidType).asm.header
        let tpOff := (par.hdrs.map fun h => h.hlen).sum
        sc.pkt = pkt ∧ sc.par = par ∧ sc.asm = { Assembly.empty with fb := fb }
        ∧ (s.findOrCreate profileExt prof (prof.key profileExt pkt par) par pkt t).slot c = some sc.ctx
        ∧ (∀ g, sc.ctx.block = .generic g → p = sc.prepareGeneric s.cfg g)
        ∧ (sc.ctx.block = .empty → p.ptype = .normal)
        ∧ (p.ptype = .ir → hdr = wrapped p.emitIr) ∧ (p.ptype = .irDyn → hdr = wrapped p.emitIrDyn)
        ∧ (p.ptype = .uo0 → hdr = wrapped p.buildUo0) ∧ (p.ptype = .uo1 → hdr = wrapped p.buildUo1)
        ∧ (p.ptype = .uor2 → hdr = wrapped p.buildUor2) ∧ (p.ptype = .normal → hdr = wrapped p.emitNormal)
        ∧ (prof = .ipOnly → w.scr.hdrEnd = tpOff) ∧ (prof = .udp → w.scr.hdrEnd = tpOff + 8)
        ∧ (prof = .uncompressed → w.scr.hdrEnd = 0))

/-- R345: what a COMPRESS that ends with OUTPUT_TOO_SMALL leaves: everything but two things, the victim it
evicted and the draw it took. That the whole ring is unlocked follows R345, not R346 (log 21). -/
def Obligations.CompressRecovery : Prop :=
  ∀ (s u : State) (t : U64) (inLen outMax : U32),
    exec (.compress t inLen outMax) s = .next u → u.rsp.status = 0 → u.rsp.errc = 4 →
    u.rsp = errorRsp 4 ∧ u.outBuf = []
    ∧ u.fb = s.fb.unlock ∧ u.rru = s.rru ∧ u.cfg = s.cfg ∧ u.numPackets = s.numPackets
    ∧ u.rtpPorts = s.rtpPorts ∧ u.inBuf = s.inBuf
    ∧ ((u.ctx = s.ctx ∧ u.numContextsUsed = s.numContextsUsed)
      ∨ ((∀ d, d < s.ctx.length → s.slot d ≠ none) ∧ u.ctx = s.ctx.set s.allocate.1 none
        ∧ u.numContextsUsed = s.numContextsUsed - 1 ∧ u.randIn = s.randIn.tail))
    ∧ (u.randIn = s.randIn ∨ u.randIn = s.randIn.tail)

/-- R183, R158, R188, R302: a committed COMPRESS counts the SN of its context up by one, a new context starts
with SN rand16 in state IR, the last-packet fields are the packet's, the windows take the SN and the offset
IP-IDs, the counters of the state the packet was built in count up, and no other context is touched. -/
def Obligations.SnCountsUp : Prop :=
  ∀ (s u : State) (t : U64) (inLen outMax : U32) (pkt : List Byte) (par : Parsed) (prof : Profile),
    s.Live → Accepts s inLen outMax pkt par prof → prof ≠ .uncompressed →
    exec (.compress t inLen outMax) s = .next u → u.rsp.status ≠ 0 →
    let key := prof.key profileExt pkt par
    let c := (s.pick prof key).1
    ∃ v g, u.slot c = some v ∧ v.block = .generic g ∧ v.profile = prof ∧ v.key = key
      ∧ v.latestUsed = t ∧ v.forceIr = false
      ∧ (∀ w h, s.slot c = some w → w.block = .generic h → s.find prof key = some c →
          g.sn = h.sn + 1 ∧ v.numSent = min (w.numSent + 1) (2 ^ 32 - 1)
          ∧ v.firstUsed = w.firstUsed
          ∧ g.winSn = h.winSn.add s.cfg.wlsbWidth.toNat g.sn
          ∧ (∀ (i : Nat) (y x : CtxHdr) (n : IpHdr) (a b : Ip4Rec),
              g.hdrs[i]? = some y → h.hdrs[i]? = some x → par.hdrs[i]? = some n →
              y.ip4 = some a → x.ip4 = some b →
                a.winId = b.winId.add s.cfg.wlsbWidth.toNat (offsetIpId n.id a.nbo g.sn))
          ∧ (v.state = .ir →
              (g.irCount = 1 ∧ g.foCount = 0 ∧ g.goBackFo = 0 ∧ g.goBackIr = 0)
              ∨ (w.state = .ir ∧ w.forceIr = false ∧ g.irCount = min (h.irCount + 1) (2 ^ 32 - 1)
                ∧ g.foCount = h.foCount ∧ g.goBackFo = h.goBackFo ∧ g.goBackIr = h.goBackIr))
          ∧ (v.state = .fo → g.goBackIr = min (h.goBackIr + 1) (2 ^ 32 - 1)
              ∧ (w.state = .fo → g.foCount = min (h.foCount + 1) (2 ^ 32 - 1) ∧ g.irCount = h.irCount
                ∧ g.goBackFo = h.goBackFo)
              ∧ (w.state ≠ .fo → g.foCount = 1 ∧ g.irCount = 0 ∧ g.goBackFo = 0))
          ∧ (v.state = .so → g.goBackIr = min (h.goBackIr + 1) (2 ^ 32 - 1)
              ∧ (w.state = .so → g.goBackFo = min (h.goBackFo + 1) (2 ^ 32 - 1) ∧ g.irCount = h.irCount
                ∧ g.foCount = h.foCount)
              ∧ (w.state ≠ .so → g.goBackFo = 1 ∧ g.irCount = 0 ∧ g.foCount = 0)))
      ∧ (s.find prof key = none → g.sn = s.rand16 ∧ v.numSent = 1 ∧ v.state = .ir ∧ v.firstUsed = t
          ∧ g.irCount = 1 ∧ g.foCount = 0 ∧ g.goBackFo = 0 ∧ g.goBackIr = 0 ∧ g.winSn.refs = [g.sn]
          ∧ ∀ (i : Nat) (y : CtxHdr) (n : IpHdr) (a : Ip4Rec),
              g.hdrs[i]? = some y → par.hdrs[i]? = some n → y.ip4 = some a →
                a.winId.refs = [offsetIpId n.id a.nbo g.sn])
      ∧ g.hdrs.length = par.hdrs.length
      ∧ (∀ (i : Nat) (y : CtxHdr) (n : IpHdr), g.hdrs[i]? = some y → par.hdrs[i]? = some n →
          y.version = n.version ∧ y.tos = n.tos ∧ y.ttl = n.ttl ∧ y.proto = n.proto
          ∧ ∀ a, y.ip4 = some a → a.df = n.df ∧ a.id = n.id)
      ∧ ∀ d, d ≠ c → u.slot d = s.slot d

/-- R100, R240: a packet that the Uncompressed profile takes goes out as 0xFC, with its CID, and all of
IN, when no feedback waits. R193, R240, R302: a committed COMPRESS of that profile counts its context up, sets
`latest_used`, and changes nothing else of it and no other context. -/
def Obligations.NormalPacket : Prop :=
  (∀ (s : State) (t : U64) (inLen outMax : U32) (pkt : List Byte) (par : Parsed),
    s.Live → Accepts s inLen outMax pkt par .uncompressed → s.fb.waiting = false →
    let c := (s.pick .uncompressed .uncompressed).1
    let out := match s.cfg.cidType with
      | .small => (if c = 0 then [] else [BitVec.ofNat 8 (0xE0 + c)]) ++ [0xFC] ++ pkt
      | .large => [0xFC] ++ (sdvlEnc c).getD [] ++ pkt
    out.length ≤ outMax.toNat →
    ∃ u, exec (.compress t inLen outMax) s = .next u ∧ u.rsp.status = 1
      ∧ u.outBuf = Memory.ofBytes out ∧ u.rsp.outLen.toNat = out.length)
  ∧ ∀ (s u : State) (t : U64) (inLen outMax : U32) (pkt : List Byte) (par : Parsed),
    s.Live → Accepts s inLen outMax pkt par .uncompressed →
    exec (.compress t inLen outMax) s = .next u → u.rsp.status ≠ 0 →
    let c := (s.pick .uncompressed .uncompressed).1
    (∀ w, s.find .uncompressed .uncompressed = some c → s.slot c = some w →
        u.slot c = some { w with numSent := min (w.numSent + 1) (2 ^ 32 - 1), latestUsed := t })
    ∧ (s.find .uncompressed .uncompressed = none →
        u.slot c = some { cid := c, profile := .uncompressed, key := .uncompressed, state := .ir, mode := .u,
                          firstUsed := t, latestUsed := t, numSent := 1, forceIr := false, block := .empty })
    ∧ ∀ d, d ≠ c → u.slot d = s.slot d

/-! ## Segmenter -/

/-- R283, R345, R270: GET_SEGMENT. That every error of it unlocks the whole ring, what FB_FLUSH locked included,
is read from R340, R345 and R270 against R342 (log 21); that the bytes sent stay in RRU.buf is the model's
choice (log 29). -/
def Obligations.GetSegment : Prop :=
  ∀ (s : State) (outMax : U32) (mrru : Nat), s.alive = true → s.rru.Ok mrru →
    let w := s.startAssembly.fbDrain outMax.toNat
    let fb := w.scr.asm.fb
    let room := outMax.toNat - fb.length
    let n := min s.rru.len (room - 1)
    (outMax.toNat = 0 → exec (.getSegment outMax) s = .next (({ s with fb := s.fb.unlock } : State).failed 1))
    ∧ (outMax.toNat ≠ 0 → s.rru.len = 0 →
        exec (.getSegment outMax) s = .next (({ s with fb := s.fb.unlock } : State).failed 7))
    ∧ (outMax.toNat ≠ 0 → s.rru.len ≠ 0 → room < 2 →
        exec (.getSegment outMax) s = .next (({ w with fb := w.fb.unlock } : State).failed 4))
    ∧ (outMax.toNat ≠ 0 → s.rru.len ≠ 0 → 2 ≤ room →
        ∃ u chunk, exec (.getSegment outMax) s = .next u
          ∧ s.rru.buf.readBytes s.rru.off n = some chunk ∧ chunk.length = n ∧ 0 < n
          ∧ u.outBuf = Memory.ofBytes (fb ++ [if n = s.rru.len then 0xFF else 0xFE] ++ chunk)
          ∧ u.rsp = { status := if n = s.rru.len then 1 else 2, rc := if n = s.rru.len then 1 else 2,
                      errc := 0, outLen := BitVec.ofNat 32 (fb.length + 1 + n), val := 0 }
          ∧ u.rru = { buf := s.rru.buf, off := if n = s.rru.len then 0 else s.rru.off + n,
                      len := s.rru.len - n }
          ∧ u.fb = w.fb.removeLocked
          ∧ u = { s with rru := u.rru, fb := u.fb, scr := u.scr, rsp := u.rsp, outBuf := u.outBuf })

/-- R284: the chunks of the segments fetched, in order, followed by what is still in the RRU, are what was
in the RRU; exactly the segment that empties it begins with 0xFF, every other with 0xFE. -/
def Obligations.SegmentsReassemble : Prop :=
  ∀ (outMaxes : List U32) (s t : State) (segs : List (List Byte)) (mrru : Nat) (unit : List Byte),
    s.rru.Ok mrru → s.rru.rest = some unit → fetchSegments outMaxes s = some (segs, t) →
    ∃ left, t.rru.rest = some left
      ∧ (segs.map fun g => g.drop 1).flatten ++ left = unit
      ∧ (∀ g ∈ segs, 2 ≤ g.length)
      ∧ ∀ i g, segs[i]? = some g → g.head? = some (if i + 1 = segs.length ∧ left = [] then 0xFF else 0xFE)

/-! ## Configuration, ports, REINIT, RD_CFG -/

/-- R304, R305: the seven profile ids and their bits. -/
def Obligations.ProfileBits : Prop :=
  ∀ (s : State) (a : U32), s.alive = true → s.numPackets = 0 →
    let table : List (U32 × Nat) :=
      [(0x0001, 0), (0x0002, 1), (0x0008, 2), (0x0003, 3), (0x0006, 4), (0x0004, 5), (0x0000, 6)]
    (∀ e ∈ table, a = e.1 →
      exec (.profEnable a) s = .next (({ s with cfg := { s.cfg with
          profilesEn := s.cfg.profilesEn ||| 1#7 <<< e.2 } } : State).done [] 0)
      ∧ exec (.profDisable a) s = .next (({ s with cfg := { s.cfg with
          profilesEn := s.cfg.profilesEn &&& ~~~(1#7 <<< e.2) } } : State).done [] 0))
    ∧ ((∀ e ∈ table, a ≠ e.1) →
      exec (.profEnable a) s = .next (s.failed 6) ∧ exec (.profDisable a) s = .next (s.failed 6))

/-- R306: SET_WLSB takes the powers of two up to 64 and nothing else. -/
def Obligations.SetWlsb : Prop :=
  ∀ (s : State) (w : U32), s.alive = true → s.numPackets = 0 →
    ((∃ k, k ≤ 6 ∧ w.toNat = 2 ^ k) → exec (.setWlsb w) s = .next
      (({ s with cfg := { s.cfg with wlsbWidth := BitVec.ofNat 7 w.toNat } } : State).done [] 0))
    ∧ ((∀ k, k ≤ 6 → w.toNat ≠ 2 ^ k) → exec (.setWlsb w) s = .next (s.failed 6))

/-- R307, R308: SET_REFRESH and SET_MRRU. -/
def Obligations.SetRefreshAndMrru : Prop :=
  (∀ (s : State) (ir fo : U32), s.alive = true → s.numPackets = 0 →
    (fo.toNat < ir.toNat ∧ 0 < fo.toNat → exec (.setRefresh ir fo) s = .next
      (({ s with cfg := { s.cfg with irTimeout := ir, foTimeout := fo } } : State).done [] 0))
    ∧ (¬(fo.toNat < ir.toNat ∧ 0 < fo.toNat) → exec (.setRefresh ir fo) s = .next (s.failed 6)))
  ∧ (∀ (s : State) (n : U32), s.alive = true → s.numPackets = 0 →
    (n.toNat ≤ 65535 → exec (.setMrru n) s = .next
      (({ s with cfg := { s.cfg with mrru := BitVec.ofNat 16 n.toNat } } : State).done [] 0))
    ∧ (65535 < n.toNat → exec (.setMrru n) s = .next (s.failed 6)))

/-- R314: a configuration command after the first committed packet. -/
def Obligations.ConfigLocked : Prop :=
  ∀ (i : Instr) (s : State), isConfig i = true → s.alive = true → 0 < s.numPackets →
    exec i s = .next (s.failed 5)

/-- R309, R311: RTP_PORT_ADD with its tests in their order, and RTP_PORT_RESET, in both phases (R374 reads
otherwise, log 30). -/
def Obligations.RtpPortAddReset : Prop :=
  (∀ (s : State) (port : U32), s.alive = true →
    let p : U16 := BitVec.ofNat 16 port.toNat
    (port.toNat < 1 ∨ 65535 < port.toNat → exec (.rtpPortAdd port) s = .next (s.failed 6))
    ∧ (1 ≤ port.toNat → port.toNat ≤ 65535 →
        (p ∈ s.rtpPorts → exec (.rtpPortAdd port) s = .next (s.failed 6))
        ∧ (p ∉ s.rtpPorts → 15 ≤ s.rtpPorts.length →
            exec (.rtpPortAdd port) s = .next (s.failed 2))
        ∧ (p ∉ s.rtpPorts → s.rtpPorts.length < 15 → exec (.rtpPortAdd port) s = .next
            (({ s with rtpPorts := s.rtpPorts ++ [p] } : State).done [] 0))))
  ∧ (∀ s : State, s.alive = true →
    exec .rtpPortReset s = .next (({ s with rtpPorts := [] } : State).done [] 0))

/-- R310: RTP_PORT_REMOVE destroys every UDP context with that source or destination port and no other,
and the count follows. -/
def Obligations.RtpPortRemove : Prop :=
  ∀ (s : State) (port : U32), s.alive = true →
    let p : U16 := BitVec.ofNat 16 port.toNat
    (port.toNat < 1 ∨ 65535 < port.toNat → exec (.rtpPortRemove port) s = .next (s.failed 6))
    ∧ (1 ≤ port.toNat → port.toNat ≤ 65535 → p ∉ s.rtpPorts →
        exec (.rtpPortRemove port) s = .next (s.failed 6))
    ∧ (1 ≤ port.toNat → port.toNat ≤ 65535 → p ∈ s.rtpPorts → s.rtpPorts.Nodup → s.CountOk →
        ∃ u, exec (.rtpPortRemove port) s = .next u
          ∧ u = ({ s with rtpPorts := u.rtpPorts, ctx := u.ctx, numContextsUsed := u.numContextsUsed }
              : State).done [] 0
          ∧ (∀ q, q ∈ u.rtpPorts ↔ q ∈ s.rtpPorts ∧ q ≠ p)
          ∧ u.CountOk
          ∧ (∀ c, s.slot c = none → u.slot c = none)
          ∧ ∀ c v, s.slot c = some v →
            (∀ ks src dst, v.profile = .udp → v.key = .udp ks src dst →
              u.slot c = if src = p ∨ dst = p then none else some v)
            ∧ (v.profile = .ipOnly ∨ v.profile = .uncompressed → u.slot c = some v))

/-- R312, R313: REINIT and RD_CFG. -/
def Obligations.ReinitAndRdCfg : Prop :=
  (∀ s : State, s.alive = true →
    ∃ u, exec .reinit s = .next u ∧ u = ({ s with ctx := u.ctx } : State).done [] 0
      ∧ u.ctx.length = s.ctx.length
      ∧ ∀ c, u.slot c = match s.slot c with
        | none => none
        | some v => if v.profile = .uncompressed then some v else some { v with forceIr := true })
  ∧ (∀ (s : State) (sel : U32), s.alive = true →
    (sel = 0 → exec (.rdCfg sel) s = .next (s.done [] (BitVec.ofNat 32 s.cfg.mrru.toNat)))
    ∧ (sel = 1 → exec (.rdCfg sel) s = .next (s.done [] (BitVec.ofNat 32 s.cfg.maxCid.toNat)))
    ∧ (sel = 2 → exec (.rdCfg sel) s = .next
        (s.done [] (match s.cfg.cidType with | .small => 0 | .large => 1)))
    ∧ (sel ≠ 0 → sel ≠ 1 → sel ≠ 2 → exec (.rdCfg sel) s = .next (s.failed 6)))

/-! ## Feedback -/

/-- R261: FB_PIGGYBACK with its tests in their order. -/
def Obligations.Piggyback : Prop :=
  ∀ (s : State) (inLen : U32) (data : List Byte), s.alive = true → s.input inLen = data →
    let full := s.fb.first = s.fb.next ∧ 0 < (s.fb.slot s.fb.first).len
    (inLen.toNat = 0 ∨ 255 < inLen.toNat → exec (.fbPiggyback inLen) s = .next (s.failed 1))
    ∧ (1 ≤ inLen.toNat → inLen.toNat ≤ 255 → full →
        exec (.fbPiggyback inLen) s = .next (s.failed 2))
    ∧ (1 ≤ inLen.toNat → inLen.toNat ≤ 255 → ¬full → exec (.fbPiggyback inLen) s = .next
        (({ s with fb := { s.fb with
            slots := s.fb.slots.set s.fb.next { data := data, locked := false }
            next := (s.fb.next + 1) % 64 } } : State).done [] 0))

/-- R267, R268: FB_AVAIL counts the bytes that FB_FLUSH writes with room for them all: the blocks of the
unlocked entries in ring order; after the flush none is left unlocked. -/
def Obligations.FlushAndAvail : Prop :=
  ∀ s : State, s.alive = true → s.fb.Ok →
    exec .fbAvail s = .next (s.done [] (BitVec.ofNat 32 s.fb.pending.length))
    ∧ ∀ outMax : U32, s.fb.pending.length ≤ outMax.toNat →
      ∃ u, exec (.fbFlush outMax) s = .next u
        ∧ u = ({ s with fb := u.fb, scr := u.scr } : State).done s.fb.pending 0
        ∧ u.fb.pending = [] ∧ u.fb.unlock = s.fb.unlock ∧ u.fb.first = s.fb.first
        ∧ u.fb.next = s.fb.next

/-- R263, R264: with less room FB_FLUSH writes whole blocks from the front and stops at the first that does
not fit. -/
def Obligations.FlushTakesWholeBlocks : Prop :=
  ∀ (s : State) (outMax : U32) (l u : Nat), s.alive = true → s.fb.Split l u →
    ∃ (t : State) (k : Nat), exec (.fbFlush outMax) s = .next t ∧ k ≤ u
      ∧ t.outBuf = Memory.ofBytes (s.fb.blocks l k)
      ∧ t.rsp.status = 1 ∧ t.rsp.outLen.toNat = (s.fb.blocks l k).length
      ∧ (s.fb.blocks l k).length ≤ outMax.toNat
      ∧ (k < u → outMax.toNat < (s.fb.blocks l (k + 1)).length)
      ∧ t.fb.Split (l + k) (u - k)

/-- R266, R270: feedback that was flushed and then unlocked is again where it was. -/
def Obligations.FlushIsUndone : Prop :=
  ∀ (s : State) (outMax : U32) (u : Nat), s.alive = true → s.fb.Split 0 u →
    ∃ t w, exec (.fbFlush outMax) s = .next t ∧ exec .fbUnlock t = .next w ∧ w.fb = s.fb

/-- R265, R266: FB_REMOVE_LOCKED frees the locked entries and keeps the others in order; FB_UNLOCK keeps
them all. -/
def Obligations.RemoveAndUnlock : Prop :=
  ∀ (s : State) (l u : Nat), s.alive = true → s.fb.Split l u →
    (∃ t, exec .fbRemoveLocked s = .next t ∧ t = ({ s with fb := t.fb } : State).done [] 0
      ∧ t.fb.Split 0 u ∧ t.fb.first = s.fb.firstUnlocked ∧ t.fb.next = s.fb.next
      ∧ ∀ i, i < u → t.fb.at i = s.fb.at (l + i))
    ∧ (∃ t, exec .fbUnlock s = .next t ∧ t = ({ s with fb := t.fb } : State).done [] 0
      ∧ t.fb.Split 0 (l + u) ∧ t.fb.first = s.fb.first ∧ t.fb.next = s.fb.next
      ∧ ∀ i, i < l + u → t.fb.at i = { data := (s.fb.at i).data, locked := false })

/-- R269: FB_DELIVER. -/
def Obligations.Deliver : Prop :=
  ∀ (s : State) (inLen : U32) (el : List Byte), s.alive = true → s.input inLen = el →
    let small := ((octet el 0).toNat / 16 = 14)
    let sets (cid : Nat) (body : List Byte) (c : Ctx) : Prop :=
      cid ≤ s.cfg.maxCid.toNat ∧ s.slot cid = some c ∧ c.profile ≠ .uncompressed ∧ 2 ≤ body.length
      ∧ ((octet body 0).toNat / 64 = 1 ∨ (octet body 0).toNat / 64 = 2)
    let answers (cid : Nat) (body : List Byte) : Prop :=
      (∀ c, sets cid body c → exec (.fbDeliver inLen) s = .next
        (({ s with ctx := s.ctx.set cid (some { c with forceIr := true }) } : State).done [] 0))
      ∧ ((∀ c, ¬sets cid body c) → exec (.fbDeliver inLen) s = .next (s.done [] 0))
    (inLen.toNat = 0 → exec (.fbDeliver inLen) s = .next (s.failed 1))
    ∧ (inLen.toNat ≠ 0 → s.cfg.cidType = .small → small →
        answers ((octet el 0).toNat % 16) (el.drop 1))
    ∧ (inLen.toNat ≠ 0 → s.cfg.cidType = .small → ¬small → answers 0 el)
    ∧ (inLen.toNat ≠ 0 → s.cfg.cidType = .large →
        (∀ v n, sdvlDec el = some (v, n) → n ≤ 2 → answers v (el.drop n))
        ∧ ((∀ v n, sdvlDec el = some (v, n) → 2 < n) →
            exec (.fbDeliver inLen) s = .next (s.done [] 0)))

/-! ## The whole machine -/

/-- R342: every error but OUTPUT_TOO_SMALL and ENCODE leaves the state as it was; one of GET_SEGMENT does so
where FB_FLUSH has left no entry locked, and else unlocks the ring and changes nothing more, as R345 and R270
say against R342 (log 21). -/
def Obligations.ErrorsChangeNothing : Prop :=
  ∀ (i : Instr) (s t : State), isCommand i = true → exec i s = .next t → t.rsp.status = 0 →
    t.rsp.errc ≠ 4 → t.rsp.errc ≠ 10 →
    ((∀ outMax, i ≠ .getSegment outMax) ∨ s.alive = false ∨ (∃ u, s.fb.Split 0 u) → t = s.failed t.rsp.errc)
    ∧ (∀ outMax, i = .getSegment outMax → s.alive = true →
        t = ({ s with fb := s.fb.unlock } : State).failed t.rsp.errc)

/-- What a command leaves alone, by its code: the frame of every command. That bytes of RRU.buf which no rule
gives a value stay is the model's choice (log 29). -/
def Obligations.CommandFrame : Prop :=
  ∀ (i : Instr) (s t : State), isCommand i = true → exec i s = .next t →
    t.alive = s.alive ∧ t.cmd = s.cmd ∧ t.queue = s.queue
    -- R74: IN is never modified
    ∧ (∀ a, t.inBuf.read a = s.inBuf.read a)
    -- R62: exactly the bytes below RSP.out_len of OUT have a value
    ∧ (∀ a, (t.outBuf.read a).isSome = true ↔ a < t.rsp.outLen.toNat)
    -- R26, R350: CFG is written by its own commands only, and its straps by none
    ∧ t.cfg.cidType = s.cfg.cidType ∧ t.cfg.maxCid = s.cfg.maxCid
    ∧ (isConfig i = false → t.cfg = s.cfg)
    -- R36: RTP_PORTS
    ∧ (opOf i ∉ [0x18, 0x19, 0x1A] → t.rtpPorts = s.rtpPorts)
    -- R28: the context array
    ∧ (opOf i ∉ [0x01, 0x19, 0x21, 0x30] → t.ctx = s.ctx)
    ∧ (opOf i ∉ [0x01, 0x19] → t.numContextsUsed = s.numContextsUsed)
    ∧ t.ctx.length = s.ctx.length
    -- R27: the packet count, and the draws
    ∧ (opOf i ≠ 0x01 → t.numPackets = s.numPackets ∧ t.randIn = s.randIn)
    -- R33: the ring
    ∧ (opOf i ∉ [0x01, 0x02, 0x20, 0x22, 0x24, 0x25] → t.fb = s.fb)
    -- R34: the RRU and its bytes
    ∧ (opOf i ∉ [0x01, 0x02] → t.rru = s.rru)
    ∧ (opOf i = 0x02 → ∀ a, t.rru.buf.read a = s.rru.buf.read a)
    ∧ (opOf i = 0x01 → ∀ a, t.rru.len ≤ a → t.rru.buf.read a = s.rru.buf.read a)

/-- R23: the scratch registers hold no value between commands: what a command does depends on none of
them. -/
def Obligations.ScratchIsNotRead : Prop :=
  ∀ (i : Instr) (s : State) (sc : Scratch), isCommand i = true →
    SameButScratch (exec i s) (exec i { s with scr := sc })

/-- R350: in the locked phase only a reset writes CFG or leads back to the configuration phase. -/
def Obligations.LockedPhase : Prop :=
  ∀ s t : State, 0 < s.numPackets → step s = .next t →
    (∃ cidType maxCid q, s.queue = .reset cidType maxCid :: q)
    ∨ (t.cfg = s.cfg ∧ 0 < t.numPackets)

/-- Every step keeps the one form of each byte space, which is the model's own (log 10). -/
def Obligations.MemoryFormKept : Prop :=
  ∀ s t : State, s.MemoryOk → step s = .next t → t.MemoryOk

/-- R37 (I3): every step of a living block keeps the order of the ring. -/
def Obligations.RingOrderKept : Prop :=
  ∀ s t : State, (s.alive = true → s.fb.Ok) → step s = .next t → t.alive = true → t.fb.Ok

/-- R27 (I2): every step keeps the size of the context array and the count of its used slots. -/
def Obligations.ContextCountKept : Prop :=
  ∀ s t : State, (s.alive = true → s.CountOk) → step s = .next t → t.alive = true → t.CountOk

/-- R37, R157, R189, R192, R202, R285: every step keeps the invariant. -/
def Obligations.InvariantKept : Prop :=
  ∀ s t : State, s.Inv → step s = .next t → t.Inv

/-- The invariant holds after reset, with the straps that log 1 names. -/
def Obligations.InvariantAtReset : Prop := State.reset.Inv
end

