-- ==== Sys2Proof/Laws/Bits.lean ====
section
/-!
SUPPORT. Fields of octets as numbers: concatenation and extraction, the two operations every encoding is
made of; and the octets of a 16-bit field.
-/
namespace Sys2Proof.Machine
open Sys2Proof

theorem toNat_concat {w v : Nat} (a : BitVec w) (b : BitVec v) :
    (a ++ b).toNat = a.toNat * 2 ^ v + b.toNat := by
  rw [BitVec.toNat_append, ← Nat.shiftLeft_add_eq_or_of_lt b.isLt, Nat.shiftLeft_eq]

theorem toNat_extract {w : Nat} (a : BitVec w) (lo len : Nat) :
    (a.extractLsb' lo len).toNat = a.toNat / 2 ^ lo % 2 ^ len := by
  rw [BitVec.extractLsb'_toNat, Nat.shiftRight_eq_div_pow]

theorem be16_length (v : U16) : (be16 v).length = 2 := rfl

theorem be32_length (v : U32) : (be32 v).length = 4 := rfl

theorem slice_length {s : List Byte} {i n : Nat} (h : i + n ≤ s.length) : (slice s i n).length = n := by
  simp only [slice, List.length_take, List.length_drop]
  omega

theorem swab16_toNat (v : U16) : (swab16 v).toNat = v.toNat % 2 ^ 8 * 2 ^ 8 + v.toNat / 2 ^ 8 := by
  rw [swab16, toNat_concat, toNat_extract, toNat_extract]
  have := v.isLt
  omega

theorem swab16_swab16 (v : U16) : swab16 (swab16 v) = v := by
  apply BitVec.eq_of_toNat_eq
  rw [swab16_toNat, swab16_toNat]
  have := v.isLt
  omega

end Sys2Proof.Machine
end

