-- ==== Sys2Proof/Laws/State.lean ====
section
/-!
SUPPORT. One lemma per field and update of State, each true by unfolding, so that no later proof unfolds
a record update.
-/
namespace Sys2Proof.Machine
open Sys2Proof

/-! ## respond -/

@[simp] theorem State.respond_alive (s : State) (st : BitVec 2) (rc : Byte) (e : BitVec 4) (out : List Byte) (v : U32) :
    (s.respond st rc e out v).alive = s.alive := rfl
@[simp] theorem State.respond_numPackets (s : State) (st : BitVec 2) (rc : Byte) (e : BitVec 4) (out : List Byte) (v : U32) :
    (s.respond st rc e out v).numPackets = s.numPackets := rfl
@[simp] theorem State.respond_numContextsUsed (s : State) (st : BitVec 2) (rc : Byte) (e : BitVec 4) (out : List Byte) (v : U32) :
    (s.respond st rc e out v).numContextsUsed = s.numContextsUsed := rfl
@[simp] theorem State.respond_cfg (s : State) (st : BitVec 2) (rc : Byte) (e : BitVec 4) (out : List Byte) (v : U32) :
    (s.respond st rc e out v).cfg = s.cfg := rfl
@[simp] theorem State.respond_ctx (s : State) (st : BitVec 2) (rc : Byte) (e : BitVec 4) (out : List Byte) (v : U32) :
    (s.respond st rc e out v).ctx = s.ctx := rfl
@[simp] theorem State.respond_fb (s : State) (st : BitVec 2) (rc : Byte) (e : BitVec 4) (out : List Byte) (v : U32) :
    (s.respond st rc e out v).fb = s.fb := rfl
@[simp] theorem State.respond_rru (s : State) (st : BitVec 2) (rc : Byte) (e : BitVec 4) (out : List Byte) (v : U32) :
    (s.respond st rc e out v).rru = s.rru := rfl
@[simp] theorem State.respond_rtpPorts (s : State) (st : BitVec 2) (rc : Byte) (e : BitVec 4) (out : List Byte) (v : U32) :
    (s.respond st rc e out v).rtpPorts = s.rtpPorts := rfl
@[simp] theorem State.respond_cmd (s : State) (st : BitVec 2) (rc : Byte) (e : BitVec 4) (out : List Byte) (v : U32) :
    (s.respond st rc e out v).cmd = s.cmd := rfl
@[simp] theorem State.respond_rsp (s : State) (st : BitVec 2) (rc : Byte) (e : BitVec 4) (out : List Byte) (v : U32) :
    (s.respond st rc e out v).rsp =
      { status := st, rc := rc, errc := e, outLen := BitVec.ofNat 32 out.length, val := v } := rfl
@[simp] theorem State.respond_inBuf (s : State) (st : BitVec 2) (rc : Byte) (e : BitVec 4) (out : List Byte) (v : U32) :
    (s.respond st rc e out v).inBuf = s.inBuf := rfl
@[simp] theorem State.respond_outBuf (s : State) (st : BitVec 2) (rc : Byte) (e : BitVec 4) (out : List Byte) (v : U32) :
    (s.respond st rc e out v).outBuf = Memory.ofBytes out := rfl
@[simp] theorem State.respond_scr (s : State) (st : BitVec 2) (rc : Byte) (e : BitVec 4) (out : List Byte) (v : U32) :
    (s.respond st rc e out v).scr = s.scr := rfl
@[simp] theorem State.respond_queue (s : State) (st : BitVec 2) (rc : Byte) (e : BitVec 4) (out : List Byte) (v : U32) :
    (s.respond st rc e out v).queue = s.queue := rfl
@[simp] theorem State.respond_randIn (s : State) (st : BitVec 2) (rc : Byte) (e : BitVec 4) (out : List Byte) (v : U32) :
    (s.respond st rc e out v).randIn = s.randIn := rfl
@[simp] theorem State.respond_draws (s : State) (st : BitVec 2) (rc : Byte) (e : BitVec 4) (out : List Byte) (v : U32) :
    (s.respond st rc e out v).draws = s.draws := rfl

/-! ## respondOk -/

@[simp] theorem State.respondOk_alive (s : State) (out : List Byte) (v : U32) :
    (s.respondOk out v).alive = s.alive := rfl
@[simp] theorem State.respondOk_numPackets (s : State) (out : List Byte) (v : U32) :
    (s.respondOk out v).numPackets = s.numPackets := rfl
@[simp] theorem State.respondOk_numContextsUsed (s : State) (out : List Byte) (v : U32) :
    (s.respondOk out v).numContextsUsed = s.numContextsUsed := rfl
@[simp] theorem State.respondOk_cfg (s : State) (out : List Byte) (v : U32) :
    (s.respondOk out v).cfg = s.cfg := rfl
@[simp] theorem State.respondOk_ctx (s : State) (out : List Byte) (v : U32) :
    (s.respondOk out v).ctx = s.ctx := rfl
@[simp] theorem State.respondOk_fb (s : State) (out : List Byte) (v : U32) :
    (s.respondOk out v).fb = s.fb := rfl
@[simp] theorem State.respondOk_rru (s : State) (out : List Byte) (v : U32) :
    (s.respondOk out v).rru = s.rru := rfl
@[simp] theorem State.respondOk_rtpPorts (s : State) (out : List Byte) (v : U32) :
    (s.respondOk out v).rtpPorts = s.rtpPorts := rfl
@[simp] theorem State.respondOk_cmd (s : State) (out : List Byte) (v : U32) :
    (s.respondOk out v).cmd = s.cmd := rfl
@[simp] theorem State.respondOk_rsp (s : State) (out : List Byte) (v : U32) :
    (s.respondOk out v).rsp =
      { status := statusOk, rc := Config.rcOk, errc := 0, outLen := BitVec.ofNat 32 out.length, val := v } := rfl
@[simp] theorem State.respondOk_inBuf (s : State) (out : List Byte) (v : U32) :
    (s.respondOk out v).inBuf = s.inBuf := rfl
@[simp] theorem State.respondOk_outBuf (s : State) (out : List Byte) (v : U32) :
    (s.respondOk out v).outBuf = Memory.ofBytes out := rfl
@[simp] theorem State.respondOk_scr (s : State) (out : List Byte) (v : U32) :
    (s.respondOk out v).scr = s.scr := rfl
@[simp] theorem State.respondOk_queue (s : State) (out : List Byte) (v : U32) :
    (s.respondOk out v).queue = s.queue := rfl
@[simp] theorem State.respondOk_randIn (s : State) (out : List Byte) (v : U32) :
    (s.respondOk out v).randIn = s.randIn := rfl
@[simp] theorem State.respondOk_draws (s : State) (out : List Byte) (v : U32) :
    (s.respondOk out v).draws = s.draws := rfl

/-! ## respondNeedSegment -/

@[simp] theorem State.respondNeedSegment_alive (s : State) (out : List Byte) :
    (s.respondNeedSegment out).alive = s.alive := rfl
@[simp] theorem State.respondNeedSegment_numPackets (s : State) (out : List Byte) :
    (s.respondNeedSegment out).numPackets = s.numPackets := rfl
@[simp] theorem State.respondNeedSegment_numContextsUsed (s : State) (out : List Byte) :
    (s.respondNeedSegment out).numContextsUsed = s.numContextsUsed := rfl
@[simp] theorem State.respondNeedSegment_cfg (s : State) (out : List Byte) :
    (s.respondNeedSegment out).cfg = s.cfg := rfl
@[simp] theorem State.respondNeedSegment_ctx (s : State) (out : List Byte) :
    (s.respondNeedSegment out).ctx = s.ctx := rfl
@[simp] theorem State.respondNeedSegment_fb (s : State) (out : List Byte) :
    (s.respondNeedSegment out).fb = s.fb := rfl
@[simp] theorem State.respondNeedSegment_rru (s : State) (out : List Byte) :
    (s.respondNeedSegment out).rru = s.rru := rfl
@[simp] theorem State.respondNeedSegment_rtpPorts (s : State) (out : List Byte) :
    (s.respondNeedSegment out).rtpPorts = s.rtpPorts := rfl
@[simp] theorem State.respondNeedSegment_cmd (s : State) (out : List Byte) :
    (s.respondNeedSegment out).cmd = s.cmd := rfl
@[simp] theorem State.respondNeedSegment_rsp (s : State) (out : List Byte) :
    (s.respondNeedSegment out).rsp =
      { status := statusNeedSegment, rc := Config.rcNeedSegment, errc := 0, outLen := BitVec.ofNat 32 out.length, val := 0 } := rfl
@[simp] theorem State.respondNeedSegment_inBuf (s : State) (out : List Byte) :
    (s.respondNeedSegment out).inBuf = s.inBuf := rfl
@[simp] theorem State.respondNeedSegment_outBuf (s : State) (out : List Byte) :
    (s.respondNeedSegment out).outBuf = Memory.ofBytes out := rfl
@[simp] theorem State.respondNeedSegment_scr (s : State) (out : List Byte) :
    (s.respondNeedSegment out).scr = s.scr := rfl
@[simp] theorem State.respondNeedSegment_queue (s : State) (out : List Byte) :
    (s.respondNeedSegment out).queue = s.queue := rfl
@[simp] theorem State.respondNeedSegment_randIn (s : State) (out : List Byte) :
    (s.respondNeedSegment out).randIn = s.randIn := rfl
@[simp] theorem State.respondNeedSegment_draws (s : State) (out : List Byte) :
    (s.respondNeedSegment out).draws = s.draws := rfl

/-! ## raiseError -/

@[simp] theorem State.raiseError_alive (s : State) (e : ErrClass) :
    (s.raiseError e).alive = s.alive := rfl
@[simp] theorem State.raiseError_numPackets (s : State) (e : ErrClass) :
    (s.raiseError e).numPackets = s.numPackets := rfl
@[simp] theorem State.raiseError_numContextsUsed (s : State) (e : ErrClass) :
    (s.raiseError e).numContextsUsed = s.numContextsUsed := rfl
@[simp] theorem State.raiseError_cfg (s : State) (e : ErrClass) :
    (s.raiseError e).cfg = s.cfg := rfl
@[simp] theorem State.raiseError_ctx (s : State) (e : ErrClass) :
    (s.raiseError e).ctx = s.ctx := rfl
@[simp] theorem State.raiseError_fb (s : State) (e : ErrClass) : (s.raiseError e).fb = s.fb := rfl
@[simp] theorem State.raiseError_rru (s : State) (e : ErrClass) :
    (s.raiseError e).rru = s.rru := rfl
@[simp] theorem State.raiseError_rtpPorts (s : State) (e : ErrClass) :
    (s.raiseError e).rtpPorts = s.rtpPorts := rfl
@[simp] theorem State.raiseError_cmd (s : State) (e : ErrClass) :
    (s.raiseError e).cmd = s.cmd := rfl
@[simp] theorem State.raiseError_rsp (s : State) (e : ErrClass) :
    (s.raiseError e).rsp =
      { status := statusError, rc := Config.rcError, errc := e.code, outLen := 0, val := 0 } := rfl
@[simp] theorem State.raiseError_inBuf (s : State) (e : ErrClass) :
    (s.raiseError e).inBuf = s.inBuf := rfl
@[simp] theorem State.raiseError_outBuf (s : State) (e : ErrClass) :
    (s.raiseError e).outBuf = [] := rfl
@[simp] theorem State.raiseError_scr (s : State) (e : ErrClass) :
    (s.raiseError e).scr = s.scr := rfl
@[simp] theorem State.raiseError_queue (s : State) (e : ErrClass) :
    (s.raiseError e).queue = s.queue := rfl
@[simp] theorem State.raiseError_randIn (s : State) (e : ErrClass) :
    (s.raiseError e).randIn = s.randIn := rfl
@[simp] theorem State.raiseError_draws (s : State) (e : ErrClass) :
    (s.raiseError e).draws = s.draws := rfl

/-! ## setSlot -/

@[simp] theorem State.setSlot_alive (s : State) (c : Nat) (v : Option Ctx) :
    (s.setSlot c v).alive = s.alive := rfl
@[simp] theorem State.setSlot_numPackets (s : State) (c : Nat) (v : Option Ctx) :
    (s.setSlot c v).numPackets = s.numPackets := rfl
@[simp] theorem State.setSlot_numContextsUsed (s : State) (c : Nat) (v : Option Ctx) :
    (s.setSlot c v).numContextsUsed = s.numContextsUsed := rfl
@[simp] theorem State.setSlot_cfg (s : State) (c : Nat) (v : Option Ctx) :
    (s.setSlot c v).cfg = s.cfg := rfl
@[simp] theorem State.setSlot_ctx (s : State) (c : Nat) (v : Option Ctx) :
    (s.setSlot c v).ctx = s.ctx.set c v := rfl
@[simp] theorem State.setSlot_fb (s : State) (c : Nat) (v : Option Ctx) :
    (s.setSlot c v).fb = s.fb := rfl
@[simp] theorem State.setSlot_rru (s : State) (c : Nat) (v : Option Ctx) :
    (s.setSlot c v).rru = s.rru := rfl
@[simp] theorem State.setSlot_rtpPorts (s : State) (c : Nat) (v : Option Ctx) :
    (s.setSlot c v).rtpPorts = s.rtpPorts := rfl
@[simp] theorem State.setSlot_cmd (s : State) (c : Nat) (v : Option Ctx) :
    (s.setSlot c v).cmd = s.cmd := rfl
@[simp] theorem State.setSlot_rsp (s : State) (c : Nat) (v : Option Ctx) :
    (s.setSlot c v).rsp = s.rsp := rfl
@[simp] theorem State.setSlot_inBuf (s : State) (c : Nat) (v : Option Ctx) :
    (s.setSlot c v).inBuf = s.inBuf := rfl
@[simp] theorem State.setSlot_outBuf (s : State) (c : Nat) (v : Option Ctx) :
    (s.setSlot c v).outBuf = s.outBuf := rfl
@[simp] theorem State.setSlot_scr (s : State) (c : Nat) (v : Option Ctx) :
    (s.setSlot c v).scr = s.scr := rfl
@[simp] theorem State.setSlot_queue (s : State) (c : Nat) (v : Option Ctx) :
    (s.setSlot c v).queue = s.queue := rfl
@[simp] theorem State.setSlot_randIn (s : State) (c : Nat) (v : Option Ctx) :
    (s.setSlot c v).randIn = s.randIn := rfl
@[simp] theorem State.setSlot_draws (s : State) (c : Nat) (v : Option Ctx) :
    (s.setSlot c v).draws = s.draws := rfl

/-! ## destroy -/

@[simp] theorem State.destroy_alive (s : State) (c : Nat) : (s.destroy c).alive = s.alive := rfl
@[simp] theorem State.destroy_numPackets (s : State) (c : Nat) :
    (s.destroy c).numPackets = s.numPackets := rfl
@[simp] theorem State.destroy_numContextsUsed (s : State) (c : Nat) :
    (s.destroy c).numContextsUsed = s.numContextsUsed - 1 := rfl
@[simp] theorem State.destroy_cfg (s : State) (c : Nat) : (s.destroy c).cfg = s.cfg := rfl
@[simp] theorem State.destroy_ctx (s : State) (c : Nat) :
    (s.destroy c).ctx = s.ctx.set c none := rfl
@[simp] theorem State.destroy_fb (s : State) (c : Nat) : (s.destroy c).fb = s.fb := rfl
@[simp] theorem State.destroy_rru (s : State) (c : Nat) : (s.destroy c).rru = s.rru := rfl
@[simp] theorem State.destroy_rtpPorts (s : State) (c : Nat) :
    (s.destroy c).rtpPorts = s.rtpPorts := rfl
@[simp] theorem State.destroy_cmd (s : State) (c : Nat) : (s.destroy c).cmd = s.cmd := rfl
@[simp] theorem State.destroy_rsp (s : State) (c : Nat) : (s.destroy c).rsp = s.rsp := rfl
@[simp] theorem State.destroy_inBuf (s : State) (c : Nat) : (s.destroy c).inBuf = s.inBuf := rfl
@[simp] theorem State.destroy_outBuf (s : State) (c : Nat) : (s.destroy c).outBuf = s.outBuf := rfl
@[simp] theorem State.destroy_scr (s : State) (c : Nat) : (s.destroy c).scr = s.scr := rfl
@[simp] theorem State.destroy_queue (s : State) (c : Nat) : (s.destroy c).queue = s.queue := rfl
@[simp] theorem State.destroy_randIn (s : State) (c : Nat) : (s.destroy c).randIn = s.randIn := rfl
@[simp] theorem State.destroy_draws (s : State) (c : Nat) : (s.destroy c).draws = s.draws := rfl

/-! ## setCfg -/

@[simp] theorem State.setCfg_alive (s : State) (c : Cfg) : (s.setCfg c).alive = s.alive := rfl
@[simp] theorem State.setCfg_numPackets (s : State) (c : Cfg) :
    (s.setCfg c).numPackets = s.numPackets := rfl
@[simp] theorem State.setCfg_numContextsUsed (s : State) (c : Cfg) :
    (s.setCfg c).numContextsUsed = s.numContextsUsed := rfl
@[simp] theorem State.setCfg_cfg (s : State) (c : Cfg) : (s.setCfg c).cfg = c := rfl
@[simp] theorem State.setCfg_ctx (s : State) (c : Cfg) : (s.setCfg c).ctx = s.ctx := rfl
@[simp] theorem State.setCfg_fb (s : State) (c : Cfg) : (s.setCfg c).fb = s.fb := rfl
@[simp] theorem State.setCfg_rru (s : State) (c : Cfg) : (s.setCfg c).rru = s.rru := rfl
@[simp] theorem State.setCfg_rtpPorts (s : State) (c : Cfg) :
    (s.setCfg c).rtpPorts = s.rtpPorts := rfl
@[simp] theorem State.setCfg_cmd (s : State) (c : Cfg) : (s.setCfg c).cmd = s.cmd := rfl
@[simp] theorem State.setCfg_rsp (s : State) (c : Cfg) : (s.setCfg c).rsp = s.rsp := rfl
@[simp] theorem State.setCfg_inBuf (s : State) (c : Cfg) : (s.setCfg c).inBuf = s.inBuf := rfl
@[simp] theorem State.setCfg_outBuf (s : State) (c : Cfg) : (s.setCfg c).outBuf = s.outBuf := rfl
@[simp] theorem State.setCfg_scr (s : State) (c : Cfg) : (s.setCfg c).scr = s.scr := rfl
@[simp] theorem State.setCfg_queue (s : State) (c : Cfg) : (s.setCfg c).queue = s.queue := rfl
@[simp] theorem State.setCfg_randIn (s : State) (c : Cfg) : (s.setCfg c).randIn = s.randIn := rfl
@[simp] theorem State.setCfg_draws (s : State) (c : Cfg) : (s.setCfg c).draws = s.draws := rfl

/-! ## setQueue -/

@[simp] theorem State.setQueue_alive (s : State) (q : List Issue) :
    (s.setQueue q).alive = s.alive := rfl
@[simp] theorem State.setQueue_numPackets (s : State) (q : List Issue) :
    (s.setQueue q).numPackets = s.numPackets := rfl
@[simp] theorem State.setQueue_numContextsUsed (s : State) (q : List Issue) :
    (s.setQueue q).numContextsUsed = s.numContextsUsed := rfl
@[simp] theorem State.setQueue_cfg (s : State) (q : List Issue) : (s.setQueue q).cfg = s.cfg := rfl
@[simp] theorem State.setQueue_ctx (s : State) (q : List Issue) : (s.setQueue q).ctx = s.ctx := rfl
@[simp] theorem State.setQueue_fb (s : State) (q : List Issue) : (s.setQueue q).fb = s.fb := rfl
@[simp] theorem State.setQueue_rru (s : State) (q : List Issue) : (s.setQueue q).rru = s.rru := rfl
@[simp] theorem State.setQueue_rtpPorts (s : State) (q : List Issue) :
    (s.setQueue q).rtpPorts = s.rtpPorts := rfl
@[simp] theorem State.setQueue_cmd (s : State) (q : List Issue) : (s.setQueue q).cmd = s.cmd := rfl
@[simp] theorem State.setQueue_rsp (s : State) (q : List Issue) : (s.setQueue q).rsp = s.rsp := rfl
@[simp] theorem State.setQueue_inBuf (s : State) (q : List Issue) :
    (s.setQueue q).inBuf = s.inBuf := rfl
@[simp] theorem State.setQueue_outBuf (s : State) (q : List Issue) :
    (s.setQueue q).outBuf = s.outBuf := rfl
@[simp] theorem State.setQueue_scr (s : State) (q : List Issue) : (s.setQueue q).scr = s.scr := rfl
@[simp] theorem State.setQueue_queue (s : State) (q : List Issue) : (s.setQueue q).queue = q := rfl
@[simp] theorem State.setQueue_randIn (s : State) (q : List Issue) :
    (s.setQueue q).randIn = s.randIn := rfl
@[simp] theorem State.setQueue_draws (s : State) (q : List Issue) :
    (s.setQueue q).draws = s.draws := rfl

/-! ## latch -/

@[simp] theorem State.latch_alive (s : State) (c : Command) (i : List Byte) :
    (s.latch c i).alive = s.alive := rfl
@[simp] theorem State.latch_numPackets (s : State) (c : Command) (i : List Byte) :
    (s.latch c i).numPackets = s.numPackets := rfl
@[simp] theorem State.latch_numContextsUsed (s : State) (c : Command) (i : List Byte) :
    (s.latch c i).numContextsUsed = s.numContextsUsed := rfl
@[simp] theorem State.latch_cfg (s : State) (c : Command) (i : List Byte) :
    (s.latch c i).cfg = s.cfg := rfl
@[simp] theorem State.latch_ctx (s : State) (c : Command) (i : List Byte) :
    (s.latch c i).ctx = s.ctx := rfl
@[simp] theorem State.latch_fb (s : State) (c : Command) (i : List Byte) :
    (s.latch c i).fb = s.fb := rfl
@[simp] theorem State.latch_rru (s : State) (c : Command) (i : List Byte) :
    (s.latch c i).rru = s.rru := rfl
@[simp] theorem State.latch_rtpPorts (s : State) (c : Command) (i : List Byte) :
    (s.latch c i).rtpPorts = s.rtpPorts := rfl
@[simp] theorem State.latch_cmd (s : State) (c : Command) (i : List Byte) :
    (s.latch c i).cmd = c := rfl
@[simp] theorem State.latch_rsp (s : State) (c : Command) (i : List Byte) :
    (s.latch c i).rsp = s.rsp := rfl
@[simp] theorem State.latch_inBuf (s : State) (c : Command) (i : List Byte) :
    (s.latch c i).inBuf = s.inBuf.writeBytes 0 i := rfl
@[simp] theorem State.latch_outBuf (s : State) (c : Command) (i : List Byte) :
    (s.latch c i).outBuf = s.outBuf := rfl
@[simp] theorem State.latch_scr (s : State) (c : Command) (i : List Byte) :
    (s.latch c i).scr = s.scr := rfl
@[simp] theorem State.latch_queue (s : State) (c : Command) (i : List Byte) :
    (s.latch c i).queue = s.queue := rfl
@[simp] theorem State.latch_randIn (s : State) (c : Command) (i : List Byte) :
    (s.latch c i).randIn = s.randIn := rfl
@[simp] theorem State.latch_draws (s : State) (c : Command) (i : List Byte) :
    (s.latch c i).draws = s.draws := rfl

/-! ## onScratch -/

@[simp] theorem State.onScratch_alive (s : State) (f : Scratch → Scratch) :
    (s.onScratch f).alive = s.alive := rfl
@[simp] theorem State.onScratch_numPackets (s : State) (f : Scratch → Scratch) :
    (s.onScratch f).numPackets = s.numPackets := rfl
@[simp] theorem State.onScratch_numContextsUsed (s : State) (f : Scratch → Scratch) :
    (s.onScratch f).numContextsUsed = s.numContextsUsed := rfl
@[simp] theorem State.onScratch_cfg (s : State) (f : Scratch → Scratch) :
    (s.onScratch f).cfg = s.cfg := rfl
@[simp] theorem State.onScratch_ctx (s : State) (f : Scratch → Scratch) :
    (s.onScratch f).ctx = s.ctx := rfl
@[simp] theorem State.onScratch_fb (s : State) (f : Scratch → Scratch) :
    (s.onScratch f).fb = s.fb := rfl
@[simp] theorem State.onScratch_rru (s : State) (f : Scratch → Scratch) :
    (s.onScratch f).rru = s.rru := rfl
@[simp] theorem State.onScratch_rtpPorts (s : State) (f : Scratch → Scratch) :
    (s.onScratch f).rtpPorts = s.rtpPorts := rfl
@[simp] theorem State.onScratch_cmd (s : State) (f : Scratch → Scratch) :
    (s.onScratch f).cmd = s.cmd := rfl
@[simp] theorem State.onScratch_rsp (s : State) (f : Scratch → Scratch) :
    (s.onScratch f).rsp = s.rsp := rfl
@[simp] theorem State.onScratch_inBuf (s : State) (f : Scratch → Scratch) :
    (s.onScratch f).inBuf = s.inBuf := rfl
@[simp] theorem State.onScratch_outBuf (s : State) (f : Scratch → Scratch) :
    (s.onScratch f).outBuf = s.outBuf := rfl
@[simp] theorem State.onScratch_scr (s : State) (f : Scratch → Scratch) :
    (s.onScratch f).scr = f s.scr := rfl
@[simp] theorem State.onScratch_queue (s : State) (f : Scratch → Scratch) :
    (s.onScratch f).queue = s.queue := rfl
@[simp] theorem State.onScratch_randIn (s : State) (f : Scratch → Scratch) :
    (s.onScratch f).randIn = s.randIn := rfl
@[simp] theorem State.onScratch_draws (s : State) (f : Scratch → Scratch) :
    (s.onScratch f).draws = s.draws := rfl

/-! ## drawn -/

@[simp] theorem State.drawn_alive (s : State) : (s.drawn).alive = s.alive := rfl
@[simp] theorem State.drawn_numPackets (s : State) : (s.drawn).numPackets = s.numPackets := rfl
@[simp] theorem State.drawn_numContextsUsed (s : State) :
    (s.drawn).numContextsUsed = s.numContextsUsed := rfl
@[simp] theorem State.drawn_cfg (s : State) : (s.drawn).cfg = s.cfg := rfl
@[simp] theorem State.drawn_ctx (s : State) : (s.drawn).ctx = s.ctx := rfl
@[simp] theorem State.drawn_fb (s : State) : (s.drawn).fb = s.fb := rfl
@[simp] theorem State.drawn_rru (s : State) : (s.drawn).rru = s.rru := rfl
@[simp] theorem State.drawn_rtpPorts (s : State) : (s.drawn).rtpPorts = s.rtpPorts := rfl
@[simp] theorem State.drawn_cmd (s : State) : (s.drawn).cmd = s.cmd := rfl
@[simp] theorem State.drawn_rsp (s : State) : (s.drawn).rsp = s.rsp := rfl
@[simp] theorem State.drawn_inBuf (s : State) : (s.drawn).inBuf = s.inBuf := rfl
@[simp] theorem State.drawn_outBuf (s : State) : (s.drawn).outBuf = s.outBuf := rfl
@[simp] theorem State.drawn_scr (s : State) : (s.drawn).scr = s.scr := rfl
@[simp] theorem State.drawn_queue (s : State) : (s.drawn).queue = s.queue := rfl
@[simp] theorem State.drawn_randIn (s : State) : (s.drawn).randIn = s.randIn.tail := rfl
@[simp] theorem State.drawn_draws (s : State) : (s.drawn).draws = s.draws + 1 := rfl

/-! ## commit -/

@[simp] theorem State.commit_alive (s : State) (c : Nat) (t : U64) :
    (s.commit c t).alive = s.alive := rfl
@[simp] theorem State.commit_numPackets (s : State) (c : Nat) (t : U64) :
    (s.commit c t).numPackets = satInc s.numPackets := rfl
@[simp] theorem State.commit_numContextsUsed (s : State) (c : Nat) (t : U64) :
    (s.commit c t).numContextsUsed = s.numContextsUsed := rfl
@[simp] theorem State.commit_cfg (s : State) (c : Nat) (t : U64) : (s.commit c t).cfg = s.cfg := rfl
@[simp] theorem State.commit_ctx (s : State) (c : Nat) (t : U64) :
    (s.commit c t).ctx = s.ctx.set c
   (some { s.scr.ctx with numSent := satInc s.scr.ctx.numSent, latestUsed := t }) := rfl
@[simp] theorem State.commit_fb (s : State) (c : Nat) (t : U64) : (s.commit c t).fb = s.fb := rfl
@[simp] theorem State.commit_rru (s : State) (c : Nat) (t : U64) : (s.commit c t).rru = s.rru := rfl
@[simp] theorem State.commit_rtpPorts (s : State) (c : Nat) (t : U64) :
    (s.commit c t).rtpPorts = s.rtpPorts := rfl
@[simp] theorem State.commit_cmd (s : State) (c : Nat) (t : U64) : (s.commit c t).cmd = s.cmd := rfl
@[simp] theorem State.commit_rsp (s : State) (c : Nat) (t : U64) : (s.commit c t).rsp = s.rsp := rfl
@[simp] theorem State.commit_inBuf (s : State) (c : Nat) (t : U64) :
    (s.commit c t).inBuf = s.inBuf := rfl
@[simp] theorem State.commit_outBuf (s : State) (c : Nat) (t : U64) :
    (s.commit c t).outBuf = s.outBuf := rfl
@[simp] theorem State.commit_scr (s : State) (c : Nat) (t : U64) : (s.commit c t).scr = s.scr := rfl
@[simp] theorem State.commit_queue (s : State) (c : Nat) (t : U64) :
    (s.commit c t).queue = s.queue := rfl
@[simp] theorem State.commit_randIn (s : State) (c : Nat) (t : U64) :
    (s.commit c t).randIn = s.randIn := rfl
@[simp] theorem State.commit_draws (s : State) (c : Nat) (t : U64) :
    (s.commit c t).draws = s.draws := rfl

/-! ## segmentEnter -/

@[simp] theorem State.segmentEnter_alive (s : State) (h p : List Byte) :
    (s.segmentEnter h p).alive = s.alive := rfl
@[simp] theorem State.segmentEnter_numPackets (s : State) (h p : List Byte) :
    (s.segmentEnter h p).numPackets = s.numPackets := rfl
@[simp] theorem State.segmentEnter_numContextsUsed (s : State) (h p : List Byte) :
    (s.segmentEnter h p).numContextsUsed = s.numContextsUsed := rfl
@[simp] theorem State.segmentEnter_cfg (s : State) (h p : List Byte) :
    (s.segmentEnter h p).cfg = s.cfg := rfl
@[simp] theorem State.segmentEnter_ctx (s : State) (h p : List Byte) :
    (s.segmentEnter h p).ctx = s.ctx := rfl
@[simp] theorem State.segmentEnter_fb (s : State) (h p : List Byte) :
    (s.segmentEnter h p).fb = s.fb := rfl
@[simp] theorem State.segmentEnter_rru (s : State) (h p : List Byte) :
    (s.segmentEnter h p).rru =
      { buf := s.rru.buf.writeBytes 0 (rruUnit h p), off := 0, len := (rruUnit h p).length } := rfl
@[simp] theorem State.segmentEnter_rtpPorts (s : State) (h p : List Byte) :
    (s.segmentEnter h p).rtpPorts = s.rtpPorts := rfl
@[simp] theorem State.segmentEnter_cmd (s : State) (h p : List Byte) :
    (s.segmentEnter h p).cmd = s.cmd := rfl
@[simp] theorem State.segmentEnter_rsp (s : State) (h p : List Byte) :
    (s.segmentEnter h p).rsp = s.rsp := rfl
@[simp] theorem State.segmentEnter_inBuf (s : State) (h p : List Byte) :
    (s.segmentEnter h p).inBuf = s.inBuf := rfl
@[simp] theorem State.segmentEnter_outBuf (s : State) (h p : List Byte) :
    (s.segmentEnter h p).outBuf = s.outBuf := rfl
@[simp] theorem State.segmentEnter_scr (s : State) (h p : List Byte) :
    (s.segmentEnter h p).scr = s.scr := rfl
@[simp] theorem State.segmentEnter_queue (s : State) (h p : List Byte) :
    (s.segmentEnter h p).queue = s.queue := rfl
@[simp] theorem State.segmentEnter_randIn (s : State) (h p : List Byte) :
    (s.segmentEnter h p).randIn = s.randIn := rfl
@[simp] theorem State.segmentEnter_draws (s : State) (h p : List Byte) :
    (s.segmentEnter h p).draws = s.draws := rfl

/-! ## startAssembly -/

@[simp] theorem State.startAssembly_alive (s : State) : (s.startAssembly).alive = s.alive := rfl
@[simp] theorem State.startAssembly_numPackets (s : State) :
    (s.startAssembly).numPackets = s.numPackets := rfl
@[simp] theorem State.startAssembly_numContextsUsed (s : State) :
    (s.startAssembly).numContextsUsed = s.numContextsUsed := rfl
@[simp] theorem State.startAssembly_cfg (s : State) : (s.startAssembly).cfg = s.cfg := rfl
@[simp] theorem State.startAssembly_ctx (s : State) : (s.startAssembly).ctx = s.ctx := rfl
@[simp] theorem State.startAssembly_fb (s : State) : (s.startAssembly).fb = s.fb := rfl
@[simp] theorem State.startAssembly_rru (s : State) : (s.startAssembly).rru = s.rru := rfl
@[simp] theorem State.startAssembly_rtpPorts (s : State) :
    (s.startAssembly).rtpPorts = s.rtpPorts := rfl
@[simp] theorem State.startAssembly_cmd (s : State) : (s.startAssembly).cmd = s.cmd := rfl
@[simp] theorem State.startAssembly_rsp (s : State) : (s.startAssembly).rsp = s.rsp := rfl
@[simp] theorem State.startAssembly_inBuf (s : State) : (s.startAssembly).inBuf = s.inBuf := rfl
@[simp] theorem State.startAssembly_outBuf (s : State) : (s.startAssembly).outBuf = s.outBuf := rfl
@[simp] theorem State.startAssembly_scr (s : State) :
    (s.startAssembly).scr = { s.scr with asm := Assembly.empty } := rfl
@[simp] theorem State.startAssembly_queue (s : State) : (s.startAssembly).queue = s.queue := rfl
@[simp] theorem State.startAssembly_randIn (s : State) : (s.startAssembly).randIn = s.randIn := rfl
@[simp] theorem State.startAssembly_draws (s : State) : (s.startAssembly).draws = s.draws := rfl

/-! ## destroyPort -/

@[simp] theorem State.destroyPort_alive (s : State) (p : U16) :
    (s.destroyPort p).alive = s.alive := rfl
@[simp] theorem State.destroyPort_numPackets (s : State) (p : U16) :
    (s.destroyPort p).numPackets = s.numPackets := rfl
@[simp] theorem State.destroyPort_numContextsUsed (s : State) (p : U16) :
    (s.destroyPort p).numContextsUsed = s.numContextsUsed - s.ctx.countP (slotUsesPort p) := rfl
@[simp] theorem State.destroyPort_cfg (s : State) (p : U16) : (s.destroyPort p).cfg = s.cfg := rfl
@[simp] theorem State.destroyPort_ctx (s : State) (p : U16) :
    (s.destroyPort p).ctx = s.ctx.map fun v => if slotUsesPort p v then none else v := rfl
@[simp] theorem State.destroyPort_fb (s : State) (p : U16) : (s.destroyPort p).fb = s.fb := rfl
@[simp] theorem State.destroyPort_rru (s : State) (p : U16) : (s.destroyPort p).rru = s.rru := rfl
@[simp] theorem State.destroyPort_rtpPorts (s : State) (p : U16) :
    (s.destroyPort p).rtpPorts = s.rtpPorts := rfl
@[simp] theorem State.destroyPort_cmd (s : State) (p : U16) : (s.destroyPort p).cmd = s.cmd := rfl
@[simp] theorem State.destroyPort_rsp (s : State) (p : U16) : (s.destroyPort p).rsp = s.rsp := rfl
@[simp] theorem State.destroyPort_inBuf (s : State) (p : U16) :
    (s.destroyPort p).inBuf = s.inBuf := rfl
@[simp] theorem State.destroyPort_outBuf (s : State) (p : U16) :
    (s.destroyPort p).outBuf = s.outBuf := rfl
@[simp] theorem State.destroyPort_scr (s : State) (p : U16) : (s.destroyPort p).scr = s.scr := rfl
@[simp] theorem State.destroyPort_queue (s : State) (p : U16) :
    (s.destroyPort p).queue = s.queue := rfl
@[simp] theorem State.destroyPort_randIn (s : State) (p : U16) :
    (s.destroyPort p).randIn = s.randIn := rfl
@[simp] theorem State.destroyPort_draws (s : State) (p : U16) :
    (s.destroyPort p).draws = s.draws := rfl

/-! ## The slots after an update of the context array -/

theorem State.slot_eq {s t : State} (h : s.ctx = t.ctx) (d : Nat) : s.slot d = t.slot d := by
  simp only [State.slot, h]

theorem State.slot_set {s t : State} {c : Nat} {v : Option Ctx} (h : t.ctx = s.ctx.set c v) (d : Nat) :
    t.slot d = if c = d ∧ d < s.ctx.length then v else s.slot d := by
  simp only [State.slot, h, List.getElem?_set]
  by_cases h1 : c = d
  · subst h1
    by_cases h2 : c < s.ctx.length
    · simp [h2]
    · simp [h2]
  · simp [h1]

/-- A used slot lies inside the array. -/
theorem State.slot_lt {s : State} {d : Nat} {c : Ctx} (h : s.slot d = some c) : d < s.ctx.length := by
  by_contra hn
  simp [State.slot, List.getElem?_eq_none (Nat.le_of_not_lt hn)] at h

theorem State.slot_getElem {s : State} {d : Nat} {c : Ctx} (h : s.slot d = some c) :
    s.ctx[d]? = some (some c) := by
  have hl := State.slot_lt h
  simp only [State.slot, List.getElem?_eq_getElem hl, Option.join_some] at h
  rw [List.getElem?_eq_getElem hl, h]

end Sys2Proof.Machine
end

