-- ==== Sys2Proof/Laws/Contexts.lean ====
section
/-!
SUPPORT. The context store: what FIND answers, which slot a new context takes, and what a new context holds.
-/
namespace Sys2Proof.Machine
open Sys2Proof

/-! ## FIND -/

theorem slotMatches_iff {prof : Profile} {key : Key} {v : Option Ctx} :
    slotMatches prof key v = true ↔ ∃ c, v = some c ∧ c.profile = prof ∧ c.key = key := by
  cases v with
  | none => simp [slotMatches]
  | some c => simp [slotMatches]

theorem State.find_some {s : State} {prof : Profile} {key : Key} {c : Nat} (h : s.find prof key = some c) :
    ∃ v, s.slot c = some v ∧ v.profile = prof ∧ v.key = key := by
  rw [State.find, List.findIdx?_eq_some_iff_getElem] at h
  obtain ⟨hl, hm, -⟩ := h
  obtain ⟨v, hv, hp⟩ := slotMatches_iff.mp hm
  exact ⟨v, by rw [State.slot, List.getElem?_eq_getElem hl, hv]; rfl, hp⟩

theorem State.find_none {s : State} {prof : Profile} {key : Key} (h : s.find prof key = none) {c : Nat}
    {v : Ctx} (hv : s.slot c = some v) : ¬(v.profile = prof ∧ v.key = key) := by
  rw [State.find, List.findIdx?_eq_none_iff] at h
  intro hp
  have hm := h (some v) (List.mem_of_getElem? (State.slot_getElem hv))
  rw [slotMatches_iff.mpr ⟨v, rfl, hp⟩] at hm
  cases hm

/-! ## The slot of a new context -/

theorem State.allocate_free {s : State} (h : s.allocate.2 = false) :
    s.allocate.1 < s.ctx.length ∧ s.ctx[s.allocate.1]? = some none := by
  unfold State.allocate at *
  split at h
  · rename_i i hi
    rw [List.findIdx?_eq_some_iff_getElem] at hi
    obtain ⟨hl, hn, -⟩ := hi
    exact ⟨hl, by rw [List.getElem?_eq_getElem hl, Option.isNone_iff_eq_none.mp hn]⟩
  · cases h

theorem State.allocate_full {s : State} (h : s.allocate.2 = true) : ∀ v ∈ s.ctx, v.isSome = true := by
  unfold State.allocate at h
  split at h
  · cases h
  · rename_i hn
    rw [List.findIdx?_eq_none_iff] at hn
    intro v hv
    cases v with
    | none => simpa using hn none hv
    | some c => rfl

theorem oldest_lt {slots : List (Option Ctx)} {i : Nat} {t : U64} (h : oldest slots = some (i, t)) :
    i < slots.length := by
  induction slots generalizing i t with
  | nil => cases h
  | cons v r ih =>
    cases v with
    | none =>
      simp only [oldest, Option.map_eq_some_iff] at h
      obtain ⟨⟨j, u⟩, hj, he⟩ := h
      cases he
      simpa using ih hj
    | some c =>
      simp only [oldest] at h
      split at h
      · rename_i j u hj
        have := ih hj
        split at h <;> cases h <;> simp [this]
      · cases h
        simp

theorem State.allocate_lt {s : State} (h : 0 < s.ctx.length) : s.allocate.1 < s.ctx.length := by
  unfold State.allocate
  split
  · rename_i i hi
    rw [List.findIdx?_eq_some_iff_getElem] at hi
    exact hi.1
  · cases ho : oldest s.ctx with
    | none => exact h
    | some p => exact oldest_lt (i := p.1) (t := p.2) ho

/-! ## What a new context holds -/

theorem createHdrs_versions (n h : Nat) (ps : List IpHdr) :
    (createHdrs n h ps).map CtxHdr.version = ps.map IpHdr.version := by
  induction ps generalizing h with
  | nil => rfl
  | cons p r ih =>
    rw [createHdrs, List.map_cons, List.map_cons, ih]
    congr 1
    cases hv : p.version <;> simp [CtxHdr.create, CtxHdr.version, hv]

theorem createHdrs_mem {n h : Nat} {ps : List IpHdr} {x : CtxHdr} (hx : x ∈ createHdrs n h ps) {v : Ip4Rec}
    (hv : x.ip4 = some v) :
    v.rnd = false ∧ v.nbo = true ∧ v.sid = false ∧ v.rndCount = 0 ∧ v.nboCount = 0 ∧ v.sidCount = 0
      ∧ v.winId = Window.empty := by
  induction ps generalizing h with
  | nil => cases hx
  | cons p r ih =>
    rw [createHdrs, List.mem_cons] at hx
    rcases hx with rfl | hx
    · simp only [CtxHdr.create] at hv
      split at hv <;> cases hv
      exact ⟨rfl, rfl, rfl, rfl, rfl, rfl, rfl⟩
    · exact ih hx

/-- The context that CREATE writes (41_frontend.md R158). -/
def State.fresh (s : State) (prof : Profile) (key : Key) (par : Parsed) (pkt : List Byte) (t : U64) : Ctx :=
  { cid := s.allocate.1, profile := prof, key := key, state := .ir, mode := .u, firstUsed := t,
    latestUsed := t, numSent := 0, forceIr := false,
    block := Block.create profileExt prof par pkt s.rand16 s.draws }

/-- All that FIND_OR_CREATE does when FIND finds nothing. -/
theorem State.findOrCreate_none {s : State} {prof : Profile} {key : Key} (h : s.find prof key = none)
    (par : Parsed) (pkt : List Byte) (t : U64) :
    s.findOrCreate profileExt prof key par pkt t = { s with
      ctx := s.ctx.set s.allocate.1 (some (s.fresh prof key par pkt t))
      numContextsUsed := (if s.allocate.2 = true then s.numContextsUsed - 1 else s.numContextsUsed) + 1
      randIn := s.randIn.tail
      draws := s.draws + 1 } := by
  rw [State.findOrCreate, h]
  simp only
  by_cases hf : s.allocate.2 = true
  · rw [if_pos hf, if_pos hf]
    simp only [State.create, State.destroy, State.drawn, State.fresh, State.rand16, List.set_set]
  · rw [if_neg hf, if_neg hf]
    simp only [State.create, State.drawn, State.fresh]

theorem State.findOrCreate_some {s : State} {prof : Profile} {key : Key} {c : Nat}
    (h : s.find prof key = some c) (x : Option ProfileExt) (par : Parsed) (pkt : List Byte) (t : U64) :
    s.findOrCreate x prof key par pkt t = s := by
  rw [State.findOrCreate, h]

theorem Block.create_generic {prof : Profile} (h : prof.admitted = true) (hu : prof ≠ .uncompressed)
    (par : Parsed) (pkt : List Byte) (r : U16) (n : Nat) :
    Block.create profileExt prof par pkt r n = .generic
      { sn := r - 1, hdrs := createHdrs n 0 par.hdrs, winSn := Window.empty, irCount := 0, foCount := 0,
        goBackFo := 0, goBackIr := 0, udpCk := false } := by
  cases prof <;> first | rfl | exact absurd rfl hu | cases h

end Sys2Proof.Machine
end

