-- ==== Sys2Proof/Laws/Engine.lean ====
section
/-!
SUPPORT. The engine: what change detection leaves, what the scratch registers hold once a packet is
prepared, and how the counters move.
-/
namespace Sys2Proof.Machine
open Sys2Proof

/-! ## Change detection -/

/-- The generic block after change detection for the packet in sc. -/
def Scratch.detected (sc : Scratch) (g : Generic) : Generic :=
  { g with
    hdrs := (detectHdrs sc.ctx.isFirst sc.par.hdrs g.hdrs).map fun d => d.hdr
    udpCk := if (sc.ctx.profile == .udp) = true then udpChecksum sc.pkt sc.par != 0 else g.udpCk }

theorem detectHdrs_length (first : Bool) (ns : List IpHdr) (xs : List CtxHdr) :
    (detectHdrs first ns xs).length = min ns.length xs.length := by
  induction ns generalizing xs with
  | nil => simp [detectHdrs]
  | cons n ns ih =>
    cases xs with
    | nil => simp [detectHdrs]
    | cons x xs =>
      simp only [detectHdrs, List.length_cons, ih]
      omega

theorem detectHdr_version (first : Bool) (n : IpHdr) (x : CtxHdr) :
    (detectHdr first n x).hdr.version = x.version := by
  rcases x with ⟨a, b, c, _ | v⟩ <;> rfl

theorem detectHdrs_versions (first : Bool) {ns : List IpHdr} {xs : List CtxHdr} (h : ns.length = xs.length) :
    ((detectHdrs first ns xs).map fun d => d.hdr).map CtxHdr.version = xs.map CtxHdr.version := by
  induction ns generalizing xs with
  | nil => simp [detectHdrs, List.length_eq_zero_iff.mp h.symm]
  | cons n ns ih =>
    cases xs with
    | nil => cases h
    | cons x xs =>
      simp only [detectHdrs, List.map_cons, detectHdr_version, ih (Nat.succ.inj h)]

/-- A header without a counted change counts nothing. -/
theorem HdrChange.any_false {c : HdrChange} (h : c.any = false) : c.statics = 0 ∧ c.dynamics = 0 := by
  simp only [HdrChange.any, Bool.or_eq_false_iff] at h
  simp [HdrChange.statics, HdrChange.dynamics, h]

/-! ## State decision -/

theorem restartCounters_fields (st next : CtxState) (reset : Bool) (g : Generic) :
    (restartCounters st next reset g).winSn = g.winSn ∧ (restartCounters st next reset g).hdrs = g.hdrs
      ∧ (restartCounters st next reset g).sn = g.sn
      ∧ (restartCounters st next reset g).udpCk = g.udpCk := by
  rw [restartCounters]
  split <;> exact ⟨rfl, rfl, rfl, rfl⟩

/-! ## A prepared packet -/

theorem idBits_ch (sn : U16) (n : IpHdr) (x : CtxHdr) (h : HdrScratch) : (idBits sn n x h).ch = h.ch := by
  rw [idBits]
  split <;> rfl

theorem idBitsAll_length {sn : U16} {ns : List IpHdr} {xs : List CtxHdr} {hs : List HdrScratch}
    (h1 : ns.length = xs.length) (h2 : ns.length = hs.length) :
    (idBitsAll sn ns xs hs).length = ns.length := by
  induction ns generalizing xs hs with
  | nil => rfl
  | cons n ns ih =>
    cases xs with
    | nil => cases h1
    | cons x xs =>
      cases hs with
      | nil => cases h2
      | cons h hs =>
        simp only [idBitsAll, List.length_cons, ih (Nat.succ.inj h1) (Nat.succ.inj h2)]

/-- What the scratch registers hold once the packet of sc, for a context with the block g, is prepared:
d is the state decided and whether its arm restarts the counters. -/
structure Prepared (cfg : Cfg) (sc : Scratch) (g : Generic) (d : CtxState × Bool) (p : Scratch) : Prop where
  pkt : p.pkt = sc.pkt
  par : p.par = sc.par
  asm : p.asm = sc.asm
  snNew : p.snNew = g.sn + 1
  sendStatic : p.sendStatic = sumStatic (detectHdrs sc.ctx.isFirst sc.par.hdrs g.hdrs)
  sendDynamic : p.sendDynamic = sumDynamic (detectHdrs sc.ctx.isFirst sc.par.hdrs g.hdrs)
  kSn : p.kSn = g.winSn.kNeeded (g.sn + 1) Config.pSn
  hs : p.hs = idBitsAll (g.sn + 1) sc.par.hdrs (sc.detected g).hdrs
    ((detectHdrs sc.ctx.isFirst sc.par.hdrs g.hdrs).map fun e => { ch := e.ch, off := 0, kId := 0 })
  decision : d = decideArm cfg sc.ctx (sc.detected g) p
  ctx : p.ctx = { sc.ctx with
    state := d.1
    forceIr := false
    block := .generic (restartCounters sc.ctx.state d.1 d.2 (sc.detected g)) }
  ptype : p.ptype = p.decideType (restartCounters sc.ctx.state d.1 d.2 (sc.detected g))
  ext : p.ext = if p.ptype = .uor2 then p.decideExt else .none

theorem Scratch.prepareGeneric_prepared (cfg : Cfg) (sc : Scratch) (g : Generic) :
    ∃ d, Prepared cfg sc g d (sc.prepareGeneric cfg g) := by
  refine ⟨_, rfl, rfl, rfl, rfl, rfl, rfl, ?_, ?_, rfl, rfl, rfl, rfl⟩
  · show Window.kNeeded (restartCounters _ _ _ _).winSn _ _ = _
    rw [(restartCounters_fields _ _ _ _).1]
    rfl
  · show idBitsAll _ _ (restartCounters _ _ _ _).hdrs _ = _
    rw [(restartCounters_fields _ _ _ _).2.1]
    rfl

end Sys2Proof.Machine
end

