-- ==== Sys2Proof/Laws/Ring.lean ====
section
/-!
SUPPORT. What each operation of the feedback ring does to the walk of 10_state.md R37: `Ring.Split r l u`
says that from `first` on there are l locked entries, then u unlocked ones, then free slots.
-/
namespace Sys2Proof.Machine
open Sys2Proof

/-! ## Slots by their distance from `first` -/

theorem ring_index_lt (i : Nat) : i % Config.feedbackRingSize < Config.feedbackRingSize :=
  Nat.mod_lt _ (by decide)

/-- A slot written at distance j is seen at distance j and nowhere else. -/
theorem Ring.getD_set {slots : List FbSlot} (hl : slots.length = Config.feedbackRingSize) (f : Nat)
    {i j : Nat} (hi : i < Config.feedbackRingSize) (hj : j < Config.feedbackRingSize) (v : FbSlot) :
    (slots.set ((f + j) % Config.feedbackRingSize) v).getD ((f + i) % Config.feedbackRingSize)
        FbSlot.free
      = if i = j then v else slots.getD ((f + i) % Config.feedbackRingSize) FbSlot.free := by
  have h1 := ring_index_lt (f + i)
  have h2 := ring_index_lt (f + j)
  by_cases h : i = j
  · subst h
    rw [if_pos rfl, List.getD_eq_getElem?_getD, List.getElem?_set, if_pos rfl, if_pos (by omega)]
    rfl
  · have hne : (f + j) % Config.feedbackRingSize ≠ (f + i) % Config.feedbackRingSize := by
      simp only [Config.feedbackRingSize] at *
      omega
    rw [if_neg h, List.getD_eq_getElem?_getD, List.getElem?_set_ne hne, ← List.getD_eq_getElem?_getD]

theorem Ring.at_mod (r : Ring) (i : Nat) : r.at (i % Config.feedbackRingSize) = r.at i := by
  simp only [Ring.at, Nat.add_mod_mod]

theorem Ring.reset_split : Ring.reset.Split 0 0 where
  size := by decide
  first := by decide
  fits := by decide
  firstUnlocked := by decide
  next := by decide
  locked := by intro i hi; omega
  unlocked := by intro i hi; omega
  free := by
    intro i _ hi
    simp only [Ring.at, Ring.slot, Ring.reset, List.getD_eq_getElem?_getD, List.getElem?_replicate]
    split <;> rfl
  bounded := by
    intro i
    simp only [Ring.at, Ring.slot, Ring.reset, List.getD_eq_getElem?_getD, List.getElem?_replicate]
    split <;> decide

/-! ## The walk as a partition -/

/-- The number of stored entries is at most the size. -/
theorem Ring.Split.at_firstUnlocked {r : Ring} {l u : Nat} (h : r.Split l u) : r.head = r.at l := by
  simp only [Ring.head, Ring.at, h.firstUnlocked]

/-- An unlocked entry waits exactly when there is one. -/
theorem Ring.Split.waiting_iff {r : Ring} {l u : Nat} (h : r.Split l u) :
    r.waiting = true ↔ 0 < u := by
  simp only [Ring.waiting, Bool.and_eq_true, decide_eq_true_eq, Bool.not_eq_true',
    h.at_firstUnlocked]
  constructor
  · rintro ⟨h1, h2⟩
    by_contra hu
    have hu : u = 0 := by omega
    by_cases hl : l < Config.feedbackRingSize
    · have := h.free l (by omega) hl
      rw [this] at h1
      exact absurd h1 (by decide)
    · have hf := h.fits
      have hl : l = Config.feedbackRingSize := by omega
      have := h.locked 0 (by rw [hl]; decide)
      rw [← Ring.at_mod, hl, Nat.mod_self] at h2
      rw [h2] at this
      simp at this
  · intro hu
    have := h.unlocked 0 hu
    rw [Nat.add_zero] at this
    exact ⟨this.2, this.1⟩

/-- FB_FULL (45_feedback.md R260) says that every slot is stored. -/
theorem Ring.Split.isFull_iff {r : Ring} {l u : Nat} (h : r.Split l u) :
    r.isFull = true ↔ l + u = Config.feedbackRingSize := by
  have h0 : r.slot r.first = r.at 0 := by
    simp only [Ring.at, Nat.add_zero, Nat.mod_eq_of_lt h.first]
  simp only [Ring.isFull, Bool.and_eq_true, decide_eq_true_eq, h0]
  have hf := h.fits
  have hn := h.next
  have h1 := h.first
  constructor
  · rintro ⟨he, hp⟩
    by_contra hne
    have hz : l + u = 0 := by
      rw [hn] at he
      simp only [Config.feedbackRingSize] at *
      omega
    have := h.free 0 (by omega) (by decide)
    rw [this] at hp
    exact absurd hp (by decide)
  · intro he
    refine ⟨?_, ?_⟩
    · rw [hn]
      simp only [Config.feedbackRingSize] at *
      omega
    · by_cases hl : 0 < l
      · exact (h.locked 0 hl).2
      · have hu : 0 < u := by
          have : 0 < Config.feedbackRingSize := by decide
          omega
        have := (h.unlocked 0 hu).2
        rwa [show l + 0 = 0 by omega] at this

/-- FB_EMPTY (45_feedback.md R260) says that nothing is stored. -/
theorem Ring.Split.isEmpty_iff {r : Ring} {l u : Nat} (h : r.Split l u) :
    r.isEmpty = true ↔ l + u = 0 := by
  have h0 : r.slot r.first = r.at 0 := by
    simp only [Ring.at, Nat.add_zero, Nat.mod_eq_of_lt h.first]
  simp only [Ring.isEmpty, Bool.and_eq_true, decide_eq_true_eq, h0]
  have hf := h.fits
  have hn := h.next
  have h1 := h.first
  constructor
  · rintro ⟨-, hz⟩
    by_contra hne
    by_cases hl : 0 < l
    · have := (h.locked 0 hl).2
      omega
    · have := (h.unlocked 0 (by omega)).2
      rw [show l + 0 = 0 by omega] at this
      omega
  · intro he
    refine ⟨?_, ?_⟩
    · rw [hn]
      simp only [Config.feedbackRingSize] at *
      omega
    · rw [h.free 0 (by omega) (by decide)]
      rfl

/-! ## The operations -/

/-- FB_GET takes the head entry from the unlocked ones to the locked ones (R263). -/
theorem Ring.Split.lockHead {r : Ring} {l u : Nat} (h : r.Split l u) (hu : 0 < u) :
    r.lockHead.Split (l + 1) (u - 1) := by
  have hf := h.fits
  have hat : ∀ i, i < Config.feedbackRingSize →
      r.lockHead.at i = if i = l then { r.at l with locked := true } else r.at i := by
    intro i hi
    simp only [Ring.at, Ring.slot, Ring.lockHead, Ring.head, h.firstUnlocked]
    exact Ring.getD_set h.size r.first hi (by omega) _
  refine ⟨?_, h.first, by omega, ?_, ?_, ?_, ?_, ?_, ?_⟩
  · simp only [Ring.lockHead, List.length_set, h.size]
  · simp only [Ring.lockHead, ringNext, h.firstUnlocked, Config.feedbackRingSize]
    omega
  · simp only [Ring.lockHead, h.next, Config.feedbackRingSize]
    omega
  · intro i hi
    rw [hat i (by omega)]
    by_cases he : i = l
    · rw [if_pos he]
      have := h.unlocked 0 hu
      exact ⟨rfl, this.2⟩
    · rw [if_neg he]
      exact h.locked i (by omega)
  · intro i hi
    rw [hat _ (by omega), if_neg (by omega), show l + 1 + i = l + (i + 1) by omega]
    exact h.unlocked (i + 1) (by omega)
  · intro i h1 h2
    rw [hat i h2, if_neg (by omega)]
    exact h.free i (by omega) h2
  · intro i
    rw [← Ring.at_mod, hat _ (ring_index_lt i)]
    split
    · exact h.bounded l
    · exact h.bounded _

/-- FB_PIGGYBACK adds one unlocked entry at the tail (R261). -/
theorem Ring.Split.push {r : Ring} {l u : Nat} (h : r.Split l u)
    (hn : l + u < Config.feedbackRingSize) {data : List Byte} (h0 : 0 < data.length)
    (h1 : data.length ≤ Config.fbMaxLen) : (r.push data).Split l (u + 1) := by
  have hat : ∀ i, i < Config.feedbackRingSize →
      (r.push data).at i = if i = l + u then { data := data, locked := false } else r.at i := by
    intro i hi
    simp only [Ring.at, Ring.slot, Ring.push, h.next, Nat.add_assoc]
    exact Ring.getD_set h.size r.first hi (by omega) _
  refine ⟨?_, h.first, by omega, ?_, ?_, ?_, ?_, ?_, ?_⟩
  · simp only [Ring.push, List.length_set, h.size]
  · simp only [Ring.push, h.firstUnlocked]
  · simp only [Ring.push, ringNext, h.next, Config.feedbackRingSize]
    omega
  · intro i hi
    rw [hat i (by omega), if_neg (by omega)]
    exact h.locked i hi
  · intro i hi
    rw [hat _ (by omega)]
    by_cases he : i = u
    · rw [if_pos (by omega)]
      exact ⟨rfl, h0⟩
    · rw [if_neg (by omega)]
      exact h.unlocked i (by omega)
  · intro i h2 h3
    rw [hat i h3, if_neg (by omega)]
    exact h.free i (by omega) h3
  · intro i
    rw [← Ring.at_mod, hat _ (ring_index_lt i)]
    split
    · exact h1
    · exact h.bounded _

/-- A slot after FB_UNLOCK: its bytes stay, its lock is open. -/
theorem Ring.unlock_at (r : Ring) (i : Nat) :
    r.unlock.at i = { r.at i with locked := false } := by
  simp only [Ring.at, Ring.slot, Ring.unlock, List.getD_eq_getElem?_getD, List.getElem?_map]
  cases r.slots[(r.first + i) % Config.feedbackRingSize]? <;> rfl

/-- FB_UNLOCK makes every stored entry unlocked again, in its place (R266). -/
theorem Ring.Split.unlock {r : Ring} {l u : Nat} (h : r.Split l u) : r.unlock.Split 0 (l + u) := by
  have hf := h.fits
  refine ⟨?_, h.first, by omega, ?_, ?_, ?_, ?_, ?_, ?_⟩
  · simp only [Ring.unlock, List.length_map, h.size]
  · simp only [Ring.unlock, Nat.add_zero, Nat.mod_eq_of_lt h.first]
  · simp only [Ring.unlock, h.next, Nat.add_zero, Nat.add_assoc]
  · intro i hi; omega
  · intro i hi
    rw [Nat.zero_add, Ring.unlock_at]
    refine ⟨rfl, ?_⟩
    by_cases hl : i < l
    · exact (h.locked i hl).2
    · have := (h.unlocked (i - l) (by omega)).2
      rwa [show l + (i - l) = i by omega] at this
  · intro i h1 h2
    rw [Ring.unlock_at, h.free i (by omega) h2]
    rfl
  · intro i
    rw [Ring.unlock_at]
    exact h.bounded i

/-- Freeing the locked entries one after the other (R265). -/
theorem freeLocked_getD {slots : List FbSlot} (f : Nat) (n l k : Nat)
    (hs : slots.length = Config.feedbackRingSize) (hl : k + l ≤ Config.feedbackRingSize)
    (hn : l ≤ n) (hlock : ∀ i, i < l →
      (slots.getD ((f + (k + i)) % Config.feedbackRingSize) FbSlot.free).locked = true)
    (hend : l < n → (slots.getD ((f + (k + l)) % Config.feedbackRingSize) FbSlot.free).locked = false) :
    (freeLocked n ((f + k) % Config.feedbackRingSize) slots).length = Config.feedbackRingSize ∧
    ∀ i, i < Config.feedbackRingSize →
      (freeLocked n ((f + k) % Config.feedbackRingSize) slots).getD
          ((f + i) % Config.feedbackRingSize) FbSlot.free
        = if k ≤ i ∧ i < k + l then FbSlot.free
          else slots.getD ((f + i) % Config.feedbackRingSize) FbSlot.free := by
  induction n generalizing slots l k with
  | zero =>
    have hl0 : l = 0 := by omega
    subst hl0
    refine ⟨by simpa [freeLocked] using hs, fun i _ => ?_⟩
    rw [if_neg (by omega)]
    rfl
  | succ n ih =>
    cases l with
    | zero =>
      have := hend (by omega)
      rw [Nat.add_zero] at this
      have hf : ¬ (slots.getD ((f + k) % Config.feedbackRingSize) FbSlot.free).locked = true := by
        rw [this]; decide
      refine ⟨by rw [freeLocked, if_neg hf]; exact hs, fun i _ => ?_⟩
      rw [if_neg (by omega), freeLocked, if_neg hf]
    | succ l =>
      have h0 := hlock 0 (by omega)
      rw [Nat.add_zero] at h0
      have hk : k < Config.feedbackRingSize := by omega
      have hnext : ringNext ((f + k) % Config.feedbackRingSize)
          = (f + (k + 1)) % Config.feedbackRingSize := by
        simp only [ringNext, Config.feedbackRingSize]
        omega
      have hstep : freeLocked (n + 1) ((f + k) % Config.feedbackRingSize) slots
          = freeLocked n ((f + (k + 1)) % Config.feedbackRingSize)
              (slots.set ((f + k) % Config.feedbackRingSize) FbSlot.free) := by
        rw [freeLocked, if_pos h0, hnext]
      have hset := fun {i : Nat} (hi : i < Config.feedbackRingSize) =>
        Ring.getD_set hs f hi hk FbSlot.free
      have hrest := ih (slots := slots.set ((f + k) % Config.feedbackRingSize) FbSlot.free) l (k + 1)
        (by simpa using hs) (by omega) (by omega)
        (fun i hi => by
          rw [hset (by omega), if_neg (by omega), show k + 1 + i = k + (i + 1) by omega]
          exact hlock (i + 1) (by omega))
        (fun hln => by
          have := hend (by omega)
          by_cases hfull : k + (l + 1) < Config.feedbackRingSize
          · rw [hset (by omega), if_neg (by omega), show k + 1 + l = k + (l + 1) by omega]
            exact this
          · -- the walk has come round to slot k, now free
            have : k + 1 + l = Config.feedbackRingSize := by omega
            by_cases hk0 : k = 0
            · subst hk0
              have h64 : (f + (0 + 1 + l)) % Config.feedbackRingSize
                  = (f + 0) % Config.feedbackRingSize := by
                simp only [Config.feedbackRingSize] at *
                omega
              rw [h64, hset hk, if_pos rfl]
              rfl
            · have h64 : (f + (k + (l + 1))) % Config.feedbackRingSize
                  = (f + 0) % Config.feedbackRingSize := by
                simp only [Config.feedbackRingSize] at *
                omega
              have h64' : (f + (k + 1 + l)) % Config.feedbackRingSize
                  = (f + 0) % Config.feedbackRingSize := by
                simp only [Config.feedbackRingSize] at *
                omega
              have h2 := hend (by omega)
              rw [h64] at h2
              rw [h64', hset (by decide), if_neg (by omega)]
              exact h2)
      rw [hstep]
      refine ⟨hrest.1, fun i hi => ?_⟩
      rw [hrest.2 i hi, hset hi]
      by_cases h1 : i = k
      · rw [if_neg (by omega), if_pos h1, if_pos (by omega)]
      · rw [if_neg h1]
        by_cases h2 : k + 1 ≤ i ∧ i < k + 1 + l
        · rw [if_pos h2, if_pos (by omega)]
        · rw [if_neg h2, if_neg (by omega)]

/-- Every slot after FB_REMOVE_LOCKED, by its distance from the old `first`: the locked entries are
free, every other slot is as it was (R265). -/
theorem Ring.Split.removeLocked_slot {r : Ring} {l u : Nat} (h : r.Split l u) {i : Nat}
    (hi : i < Config.feedbackRingSize) :
    r.removeLocked.slot ((r.first + i) % Config.feedbackRingSize)
      = if i < l then FbSlot.free else r.at i := by
  have hf := h.fits
  have := freeLocked_getD r.first Config.feedbackRingSize l 0 h.size (by omega) (by omega)
    (fun i hi => by rw [Nat.zero_add]; exact (h.locked i hi).1)
    (fun hl => by
      rw [Nat.zero_add]
      by_cases hu : 0 < u
      · exact (h.unlocked 0 hu).1
      · have := h.free l (by omega) hl
        simp only [Ring.at, Ring.slot] at this
        rw [this]
        rfl)
  have h2 := this.2 i hi
  rw [Nat.add_zero, Nat.mod_eq_of_lt h.first] at h2
  simp only [Ring.slot, Ring.removeLocked, h2, Ring.at]
  simp

theorem Ring.Split.removeLocked_size {r : Ring} {l u : Nat} (h : r.Split l u) :
    r.removeLocked.slots.length = Config.feedbackRingSize := by
  have hf := h.fits
  have := freeLocked_getD r.first Config.feedbackRingSize l 0 h.size (by omega) (by omega)
    (fun i hi => by rw [Nat.zero_add]; exact (h.locked i hi).1)
    (fun hl => by
      rw [Nat.zero_add]
      by_cases hu : 0 < u
      · exact (h.unlocked 0 hu).1
      · have := h.free l (by omega) hl
        simp only [Ring.at, Ring.slot] at this
        rw [this]
        rfl)
  have h1 := this.1
  rw [Nat.add_zero, Nat.mod_eq_of_lt h.first] at h1
  exact h1

/-- What stands at distance i from the new `first` stood at distance l + i from the old one (R265). -/
theorem Ring.Split.removeLocked_at {r : Ring} {l u : Nat} (h : r.Split l u) {i : Nat}
    (hi : i < Config.feedbackRingSize) :
    r.removeLocked.at i = if l + i < Config.feedbackRingSize then r.at (l + i) else FbSlot.free := by
  have hf := h.fits
  have hfirst : r.removeLocked.first = (r.first + l) % Config.feedbackRingSize := h.firstUnlocked
  simp only [Ring.at] at *
  rw [hfirst]
  by_cases hw : l + i < Config.feedbackRingSize
  · rw [if_pos hw]
    have := h.removeLocked_slot hw
    rw [if_neg (by omega)] at this
    rw [← show (r.first + (l + i)) % Config.feedbackRingSize
        = ((r.first + l) % Config.feedbackRingSize + i) % Config.feedbackRingSize by
      simp only [Config.feedbackRingSize]; omega]
    exact this
  · rw [if_neg hw]
    have h2 : l + i - Config.feedbackRingSize < Config.feedbackRingSize := by omega
    have := h.removeLocked_slot h2
    rw [if_pos (by omega)] at this
    rw [← show (r.first + (l + i - Config.feedbackRingSize)) % Config.feedbackRingSize
        = ((r.first + l) % Config.feedbackRingSize + i) % Config.feedbackRingSize by
      simp only [Config.feedbackRingSize] at *; omega]
    exact this

/-- FB_REMOVE_LOCKED frees the locked entries and moves `first` to the first unlocked one (R265). -/
theorem Ring.Split.removeLocked {r : Ring} {l u : Nat} (h : r.Split l u) :
    r.removeLocked.Split 0 u := by
  have hf := h.fits
  have hat := fun {i : Nat} (hi : i < Config.feedbackRingSize) => h.removeLocked_at hi
  have hfirst : r.removeLocked.first = (r.first + l) % Config.feedbackRingSize := h.firstUnlocked
  refine ⟨h.removeLocked_size, ?_, by omega, ?_, ?_, ?_, ?_, ?_, ?_⟩
  · rw [hfirst]
    exact ring_index_lt _
  · simp only [Ring.removeLocked, h.firstUnlocked, Config.feedbackRingSize]
    omega
  · simp only [Ring.removeLocked, h.firstUnlocked, h.next, Config.feedbackRingSize]
    omega
  · intro i hi; omega
  · intro i hi
    rw [Nat.zero_add, hat (by omega), if_pos (by omega)]
    exact h.unlocked i hi
  · intro i h1 h2
    rw [hat h2]
    split
    · exact h.free _ (by omega) (by assumption)
    · rfl
  · intro i
    rw [← Ring.at_mod, hat (ring_index_lt i)]
    split
    · exact h.bounded _
    · decide

end Sys2Proof.Machine
end

