-- ==== Sys2Proof/Laws/Feedback.lean ====
section
/-!
SUPPORT. What FB_GET and FB_DRAIN do: which entries they take, which bytes they answer, and that they touch
nothing but the ring's locks and the feedback under assembly.
-/
namespace Sys2Proof.Machine
open Sys2Proof

/-! ## Nothing else is touched -/

/-- t is s with another ring and other feedback bytes under assembly. -/
def OnlyFeedback (s t : State) : Prop :=
  ∃ fb bs, t = { s with fb := fb, scr := { s.scr with asm := { s.scr.asm with fb := bs } } }

theorem OnlyFeedback.refl (s : State) : OnlyFeedback s s := ⟨s.fb, s.scr.asm.fb, rfl⟩

theorem OnlyFeedback.trans {s t w : State} (h1 : OnlyFeedback s t) (h2 : OnlyFeedback t w) :
    OnlyFeedback s w := by
  obtain ⟨f1, b1, rfl⟩ := h1
  obtain ⟨f2, b2, rfl⟩ := h2
  exact ⟨f2, b2, rfl⟩

theorem State.emitFeedbackShort_only (len : BitVec 3) (s : State) :
    OnlyFeedback s (s.emitFeedbackShort len) := by
  unfold State.emitFeedbackShort
  split
  · exact ⟨_, _, rfl⟩
  · exact OnlyFeedback.refl s

theorem State.emitFeedbackLong_only (len : BitVec 8) (s : State) :
    OnlyFeedback s (s.emitFeedbackLong len) := by
  unfold State.emitFeedbackLong
  split
  · exact ⟨_, _, rfl⟩
  · exact OnlyFeedback.refl s

theorem State.fbGet_only {s t : State} {max : Nat} (h : s.fbGet max = some t) : OnlyFeedback s t := by
  simp only [State.fbGet] at h
  split at h
  · cases h
  · split at h
    · cases h
    · split at h <;> cases h
      · exact State.emitFeedbackShort_only _ _
      · exact State.emitFeedbackLong_only _ _

theorem State.fbDrainLoop_only (n max : Nat) (s : State) : OnlyFeedback s (State.fbDrainLoop n max s) := by
  induction n generalizing s with
  | zero => exact OnlyFeedback.refl s
  | succ n ih =>
    rw [State.fbDrainLoop]
    split
    · exact OnlyFeedback.refl s
    · rename_i t ht
      exact (State.fbGet_only ht).trans (ih t)

theorem State.fbDrain_only (s : State) (max : Nat) : OnlyFeedback s (s.fbDrain max) :=
  OnlyFeedback.trans ⟨s.fb, [], rfl⟩ (State.fbDrainLoop_only _ _ _)

@[simp] theorem State.fbDrain_alive (s : State) (m : Nat) : (s.fbDrain m).alive = s.alive := by
  obtain ⟨_, _, h⟩ := s.fbDrain_only m; rw [h]
@[simp] theorem State.fbDrain_numPackets (s : State) (m : Nat) :
    (s.fbDrain m).numPackets = s.numPackets := by
  obtain ⟨_, _, h⟩ := s.fbDrain_only m; rw [h]
@[simp] theorem State.fbDrain_numContextsUsed (s : State) (m : Nat) :
    (s.fbDrain m).numContextsUsed = s.numContextsUsed := by
  obtain ⟨_, _, h⟩ := s.fbDrain_only m; rw [h]
@[simp] theorem State.fbDrain_cfg (s : State) (m : Nat) : (s.fbDrain m).cfg = s.cfg := by
  obtain ⟨_, _, h⟩ := s.fbDrain_only m; rw [h]
@[simp] theorem State.fbDrain_ctx (s : State) (m : Nat) : (s.fbDrain m).ctx = s.ctx := by
  obtain ⟨_, _, h⟩ := s.fbDrain_only m; rw [h]
@[simp] theorem State.fbDrain_rru (s : State) (m : Nat) : (s.fbDrain m).rru = s.rru := by
  obtain ⟨_, _, h⟩ := s.fbDrain_only m; rw [h]
@[simp] theorem State.fbDrain_rtpPorts (s : State) (m : Nat) :
    (s.fbDrain m).rtpPorts = s.rtpPorts := by
  obtain ⟨_, _, h⟩ := s.fbDrain_only m; rw [h]
@[simp] theorem State.fbDrain_cmd (s : State) (m : Nat) : (s.fbDrain m).cmd = s.cmd := by
  obtain ⟨_, _, h⟩ := s.fbDrain_only m; rw [h]
@[simp] theorem State.fbDrain_rsp (s : State) (m : Nat) : (s.fbDrain m).rsp = s.rsp := by
  obtain ⟨_, _, h⟩ := s.fbDrain_only m; rw [h]
@[simp] theorem State.fbDrain_inBuf (s : State) (m : Nat) : (s.fbDrain m).inBuf = s.inBuf := by
  obtain ⟨_, _, h⟩ := s.fbDrain_only m; rw [h]
@[simp] theorem State.fbDrain_outBuf (s : State) (m : Nat) : (s.fbDrain m).outBuf = s.outBuf := by
  obtain ⟨_, _, h⟩ := s.fbDrain_only m; rw [h]
@[simp] theorem State.fbDrain_queue (s : State) (m : Nat) : (s.fbDrain m).queue = s.queue := by
  obtain ⟨_, _, h⟩ := s.fbDrain_only m; rw [h]
@[simp] theorem State.fbDrain_randIn (s : State) (m : Nat) : (s.fbDrain m).randIn = s.randIn := by
  obtain ⟨_, _, h⟩ := s.fbDrain_only m; rw [h]
@[simp] theorem State.fbDrain_draws (s : State) (m : Nat) : (s.fbDrain m).draws = s.draws := by
  obtain ⟨_, _, h⟩ := s.fbDrain_only m; rw [h]

/-- The scratch registers after a drain: only the feedback bytes under assembly are new. -/
theorem State.fbDrain_scr (s : State) (m : Nat) :
    (s.fbDrain m).scr
      = { s.scr with asm := { s.scr.asm with fb := (s.fbDrain m).scr.asm.fb } } := by
  obtain ⟨_, _, h⟩ := s.fbDrain_only m; rw [h]

/-! ## A drain is undone by FB_UNLOCK -/

theorem Ring.lockHead_unlock (r : Ring) : r.lockHead.unlock = r.unlock := by
  have h : ∀ (f : FbSlot) (l : List FbSlot) (i : Nat), (l.set i { l.getD i f with locked := true }).map
      (fun f => { f with locked := false }) = l.map (fun f => { f with locked := false }) := by
    intro f l i
    apply List.ext_getElem?
    intro j
    rw [List.map_set, List.getElem?_set]
    split
    · rename_i hj
      subst hj
      split
      · rename_i hl
        have hl' : i < l.length := by simpa using hl
        simp [List.getElem?_eq_getElem hl']
      · rename_i hl
        rw [List.getElem?_eq_none (by simpa using hl)]
    · rfl
  simp only [Ring.unlock, Ring.lockHead, Ring.head, Ring.slot, h]

theorem State.fbGet_unlock {s t : State} {max : Nat} (h : s.fbGet max = some t) :
    t.fb.unlock = s.fb.unlock ∧ t.fb.first = s.fb.first ∧ t.fb.next = s.fb.next := by
  simp only [State.fbGet] at h
  split at h
  · cases h
  · split at h
    · cases h
    · split at h <;> cases h
      · unfold State.emitFeedbackShort
        split
        · exact ⟨Ring.lockHead_unlock _, rfl, rfl⟩
        · exact ⟨rfl, rfl, rfl⟩
      · unfold State.emitFeedbackLong
        split
        · exact ⟨Ring.lockHead_unlock _, rfl, rfl⟩
        · exact ⟨rfl, rfl, rfl⟩

theorem State.fbDrainLoop_unlock (n max : Nat) (s : State) :
    (State.fbDrainLoop n max s).fb.unlock = s.fb.unlock := by
  induction n generalizing s with
  | zero => rfl
  | succ n ih =>
    rw [State.fbDrainLoop]
    split
    · rfl
    · rename_i t ht
      rw [ih, (State.fbGet_unlock ht).1]

/-- After a drain, FB_UNLOCK gives what it would have given before it (R266, R270). -/
theorem State.fbDrain_unlock (s : State) (m : Nat) : (s.fbDrain m).fb.unlock = s.fb.unlock :=
  State.fbDrainLoop_unlock _ _ _

/-! ## The tail, the length, and what the drain reads -/

theorem State.fbGet_next {s t : State} {max : Nat} (h : s.fbGet max = some t) : t.fb.next = s.fb.next := by
  simp only [State.fbGet] at h
  split at h
  · cases h
  · split at h
    · cases h
    · split at h <;> cases h
      · rw [State.emitFeedbackShort]
        split <;> rfl
      · rw [State.emitFeedbackLong]
        split <;> rfl

theorem State.fbDrainLoop_next (n max : Nat) (s : State) :
    (State.fbDrainLoop n max s).fb.next = s.fb.next := by
  induction n generalizing s with
  | zero => rfl
  | succ n ih =>
    rw [State.fbDrainLoop]
    split
    · rfl
    · rename_i t ht
      rw [ih, State.fbGet_next ht]

/-- The drain never moves the tail. -/
theorem State.fbDrain_next (s : State) (m : Nat) : (s.fbDrain m).fb.next = s.fb.next :=
  State.fbDrainLoop_next _ _ _

theorem State.fbGet_length {s t : State} {max : Nat} (h : s.fbGet max = some t) :
    t.scr.asm.fb.length ≤ s.scr.asm.fb.length + max := by
  simp only [State.fbGet] at h
  split at h
  · cases h
  · split at h
    · cases h
    · rename_i hm
      split at h <;> cases h
      · rename_i h8
        rw [State.emitFeedbackShort]
        split
        · simp only [State.takeBlock, List.length_append, List.length_cons, List.length_nil]
          rw [blockLen, if_pos h8] at hm
          simp only [FbSlot.len] at hm
          omega
        · exact Nat.le_add_right _ _
      · rename_i h8
        rw [State.emitFeedbackLong]
        split
        · simp only [State.takeBlock, List.length_append, List.length_cons, List.length_nil]
          rw [blockLen, if_neg h8] at hm
          simp only [FbSlot.len] at hm
          omega
        · exact Nat.le_add_right _ _

theorem State.fbDrainLoop_length (n max : Nat) (s : State) (h : s.scr.asm.fb.length ≤ max) :
    (State.fbDrainLoop n max s).scr.asm.fb.length ≤ max := by
  induction n generalizing s with
  | zero => exact h
  | succ n ih =>
    rw [State.fbDrainLoop]
    split
    · exact h
    · rename_i t ht
      have := State.fbGet_length ht
      exact ih t (by omega)

/-- The drained bytes fit in the room they were given. -/
theorem State.fbDrain_length (s : State) (m : Nat) : (s.fbDrain m).scr.asm.fb.length ≤ m :=
  State.fbDrainLoop_length _ _ _ (Nat.zero_le _)

/-- s with other scratch registers but for the feedback under assembly. -/
def State.withScratch (s : State) (sc : Scratch) : State :=
  { s with scr := { sc with asm := { sc.asm with fb := s.scr.asm.fb } } }

theorem State.fbGet_scratch (s : State) (max : Nat) (sc : Scratch) :
    (s.withScratch sc).fbGet max = (s.fbGet max).map fun t => t.withScratch sc := by
  show (if s.fb.waiting = false then none
    else if max < blockLen s.fb.head.len then none
    else if s.fb.head.len < 8 then
      some ((s.withScratch sc).emitFeedbackShort (BitVec.ofNat 3 s.fb.head.len))
    else some ((s.withScratch sc).emitFeedbackLong (BitVec.ofNat 8 s.fb.head.len))) = _
  rw [State.fbGet]
  by_cases h1 : s.fb.waiting = false
  · rw [if_pos h1, if_pos h1]
    rfl
  · rw [if_neg h1, if_neg h1]
    by_cases h2 : max < blockLen s.fb.head.len
    · rw [if_pos h2, if_pos h2]
      rfl
    · rw [if_neg h2, if_neg h2]
      by_cases h3 : s.fb.head.len < 8
      · rw [if_pos h3, if_pos h3, Option.map_some, State.emitFeedbackShort, State.emitFeedbackShort,
          show (s.withScratch sc).fb = s.fb from rfl]
        split <;> rfl
      · rw [if_neg h3, if_neg h3, Option.map_some, State.emitFeedbackLong, State.emitFeedbackLong,
          show (s.withScratch sc).fb = s.fb from rfl]
        split <;> rfl

theorem State.fbDrainLoop_scratch (n max : Nat) (s : State) (sc : Scratch) :
    State.fbDrainLoop n max (s.withScratch sc) = (State.fbDrainLoop n max s).withScratch sc := by
  induction n generalizing s with
  | zero => rfl
  | succ n ih =>
    rw [State.fbDrainLoop, State.fbDrainLoop, State.fbGet_scratch]
    cases h : s.fbGet (max - s.scr.asm.fb.length) with
    | none =>
      rw [show (s.withScratch sc).scr.asm.fb = s.scr.asm.fb from rfl, h]
      rfl
    | some t =>
      rw [show (s.withScratch sc).scr.asm.fb = s.scr.asm.fb from rfl, h]
      exact ih t

/-- The drain reads nothing of the scratch registers. -/
theorem State.fbDrain_scratch (s : State) (m : Nat) (sc : Scratch) :
    ({ s with scr := sc } : State).fbDrain m = (s.fbDrain m).withScratch sc :=
  State.fbDrainLoop_scratch _ m { s with scr := { s.scr with asm := { s.scr.asm with fb := [] } } } sc

/-! ## Which entries are taken, and the bytes -/

theorem feedbackBlock_length {data : List Byte} : (feedbackBlock data).length = blockLen data.length := by
  unfold feedbackBlock blockLen
  split <;> simp <;> omega

theorem short_lead {n : Nat} (h : n < 8) :
    Wire.feedbackShort (BitVec.ofNat 3 n) = 0xF0#8 ||| BitVec.ofNat 8 n := by
  revert n
  decide +kernel

/-- The state after FB_GET has taken the head entry. -/
theorem State.fbGet_some {s : State} {l u max : Nat} (h : s.fb.Split l u) (hu : 0 < u)
    (hm : blockLen (s.fb.at l).len ≤ max) :
    s.fbGet max = some
      { s with
        fb := s.fb.lockHead
        scr := { s.scr with
          asm := { s.scr.asm with fb := s.scr.asm.fb ++ feedbackBlock (s.fb.at l).data } } } := by
  have hw : s.fb.waiting = true := h.waiting_iff.mpr hu
  have hb : (s.fb.at l).len ≤ 255 := h.bounded l
  have hhead := h.at_firstUnlocked
  simp only [State.fbGet, hhead]
  rw [if_neg (by simp [hw]), if_neg (by omega)]
  by_cases h8 : (s.fb.at l).len < 8
  · rw [if_pos h8]
    have hn : (BitVec.ofNat 3 (s.fb.at l).len).toNat = (s.fb.at l).len := by
      rw [BitVec.toNat_ofNat]
      exact Nat.mod_eq_of_lt h8
    rw [State.emitFeedbackShort, if_pos ⟨hw, by rw [hhead, hn]⟩, State.takeBlock, hhead]
    unfold feedbackBlock
    rw [if_pos (show (s.fb.at l).data.length < 8 from h8), short_lead h8]
    rfl
  · rw [if_neg h8]
    have hn : (BitVec.ofNat 8 (s.fb.at l).len).toNat = (s.fb.at l).len := by
      rw [BitVec.toNat_ofNat]
      exact Nat.mod_eq_of_lt (by omega)
    rw [State.emitFeedbackLong, if_pos ⟨hw, by rw [hhead, hn], by omega⟩, State.takeBlock, hhead]
    unfold feedbackBlock
    rw [if_neg (show ¬ (s.fb.at l).data.length < 8 from h8)]
    rfl

/-- FB_GET answers nothing when no entry waits or the head one does not fit. -/
theorem State.fbGet_none {s : State} {l u max : Nat} (h : s.fb.Split l u)
    (hm : u = 0 ∨ max < blockLen (s.fb.at l).len) : s.fbGet max = none := by
  simp only [State.fbGet, h.at_firstUnlocked]
  rcases hm with hu | hm
  · rw [if_pos]
    by_contra hne
    have := h.waiting_iff.mp (by simpa using hne)
    omega
  · by_cases hw : s.fb.waiting = false
    · rw [if_pos hw]
    · rw [if_neg hw, if_pos hm]

theorem Ring.Split.lockHead_at {r : Ring} {l u : Nat} (h : r.Split l u) (hu : 0 < u) {i : Nat}
    (hi : i < Config.feedbackRingSize) :
    r.lockHead.at i = if i = l then { r.at l with locked := true } else r.at i := by
  have hf := h.fits
  simp only [Ring.at, Ring.slot, Ring.lockHead, Ring.head, h.firstUnlocked]
  exact Ring.getD_set h.size r.first hi (by omega) _

theorem Ring.Split.lockHead_data {r : Ring} {l u : Nat} (h : r.Split l u) (hu : 0 < u) (i : Nat) :
    (r.lockHead.at i).data = (r.at i).data := by
  rw [← Ring.at_mod, h.lockHead_at hu (ring_index_lt i)]
  split
  · rename_i he
    rw [← Ring.at_mod r i, he]
  · rw [Ring.at_mod]

theorem Ring.blocks_zero (r : Ring) (i : Nat) : r.blocks i 0 = [] := rfl

theorem Ring.blocks_succ (r : Ring) (i n : Nat) :
    r.blocks i (n + 1) = feedbackBlock (r.at i).data ++ r.blocks (i + 1) n := by
  simp only [Ring.blocks, List.range_succ_eq_map, List.flatMap_cons, List.flatMap_map, Nat.add_zero,
    Nat.add_assoc, Nat.add_comm 1]

/-- What a drain does, over the walk of the ring: it takes the first k unlocked entries, answers their
blocks in order, and stops because nothing is left or the next block does not fit (R263, R264). -/
structure Drained (s t : State) (max l u k : Nat) : Prop where
  le : k ≤ u
  split : t.fb.Split (l + k) (u - k)
  bytes : t.scr.asm.fb = s.fb.blocks l k
  fits : (s.fb.blocks l k).length ≤ max
  stop : k = u ∨ max < (s.fb.blocks l k).length + blockLen (s.fb.at (l + k)).len
  first : t.fb.first = s.fb.first
  slots : ∀ i, i < Config.feedbackRingSize →
    t.fb.at i = if l ≤ i ∧ i < l + k then { s.fb.at i with locked := true } else s.fb.at i

theorem State.fbDrainLoop_drained {s : State} {l u : Nat} (n max : Nat) (h : s.fb.Split l u)
    (hn : u ≤ n) (hm : s.scr.asm.fb.length ≤ max) :
    ∃ k, k ≤ u ∧ (State.fbDrainLoop n max s).fb.Split (l + k) (u - k)
      ∧ (State.fbDrainLoop n max s).scr.asm.fb = s.scr.asm.fb ++ s.fb.blocks l k
      ∧ (s.scr.asm.fb ++ s.fb.blocks l k).length ≤ max
      ∧ (k = u ∨ max < (s.scr.asm.fb ++ s.fb.blocks l k).length + blockLen (s.fb.at (l + k)).len)
      ∧ (State.fbDrainLoop n max s).fb.first = s.fb.first
      ∧ ∀ i, i < Config.feedbackRingSize → (State.fbDrainLoop n max s).fb.at i
          = if l ≤ i ∧ i < l + k then { s.fb.at i with locked := true } else s.fb.at i := by
  induction n generalizing s l u with
  | zero =>
    have hu : u = 0 := by omega
    subst hu
    refine ⟨0, le_refl _, h, by simp [State.fbDrainLoop, Ring.blocks_zero],
      by simpa [Ring.blocks_zero] using hm, .inl rfl, rfl, fun i _ => ?_⟩
    rw [if_neg (by omega)]
    rfl
  | succ n ih =>
    rw [State.fbDrainLoop]
    by_cases hstop : u = 0 ∨ max - s.scr.asm.fb.length < blockLen (s.fb.at l).len
    · rw [State.fbGet_none h hstop]
      refine ⟨0, Nat.zero_le _, h, by simp [Ring.blocks_zero],
        by simpa [Ring.blocks_zero] using hm, ?_, rfl, fun i _ => ?_⟩
      · rcases hstop with hu | hb
        · exact .inl hu.symm
        · right
          simp only [Ring.blocks_zero, List.append_nil, Nat.add_zero]
          omega
      · rw [if_neg (by omega)]
    · have hu : 0 < u := by omega
      have hb : blockLen (s.fb.at l).len ≤ max - s.scr.asm.fb.length := by omega
      rw [State.fbGet_some h hu hb]
      dsimp only
      have hlen : (feedbackBlock (s.fb.at l).data).length = blockLen (s.fb.at l).len :=
        feedbackBlock_length
      have hdata : ∀ i, (s.fb.lockHead.at i).data = (s.fb.at i).data := h.lockHead_data hu
      have hblocks : ∀ i k, s.fb.lockHead.blocks i k = s.fb.blocks i k := by
        intro i k
        simp only [Ring.blocks, hdata]
      obtain ⟨k, hk, hs, hbytes, hfit, hend, hfirst, hslots⟩ := ih
        (s := { s with
          fb := s.fb.lockHead
          scr := { s.scr with
            asm := { s.scr.asm with fb := s.scr.asm.fb ++ feedbackBlock (s.fb.at l).data } } })
        (l := l + 1) (u := u - 1) (h.lockHead hu) (by omega)
        (by simp only [List.length_append, hlen]; omega)
      have e1 : l + 1 + k = l + (k + 1) := by omega
      have e2 : u - 1 - k = u - (k + 1) := by omega
      rw [e1, e2] at hs
      simp only [hblocks] at hbytes hfit hend
      refine ⟨k + 1, by omega, hs, ?_, ?_, ?_, hfirst, fun i hi => ?_⟩
      · rw [hbytes, Ring.blocks_succ, List.append_assoc]
      · rwa [Ring.blocks_succ, ← List.append_assoc]
      · rw [Ring.blocks_succ, ← List.append_assoc, ← e1]
        rcases hend with he | he
        · left; omega
        · right
          have : (s.fb.lockHead.at (l + 1 + k)).len = (s.fb.at (l + 1 + k)).len := by
            simp only [FbSlot.len, hdata]
          rwa [this] at he
      · rw [hslots i hi]
        dsimp only
        rw [h.lockHead_at hu hi]
        by_cases h1 : i = l
        · subst h1
          rw [if_neg (by omega), if_pos rfl, if_pos (by omega)]
        · rw [if_neg h1]
          by_cases h2 : l + 1 ≤ i ∧ i < l + 1 + k
          · rw [if_pos h2, if_pos (by omega)]
          · rw [if_neg h2, if_neg (by omega)]

theorem State.fbDrain_drained {s : State} {l u : Nat} (max : Nat) (h : s.fb.Split l u) :
    ∃ k, Drained s (s.fbDrain max) max l u k := by
  have hf := h.fits
  obtain ⟨k, hk, hs, hb, hfit, hend, hfirst, hslots⟩ := State.fbDrainLoop_drained
    (s := { s with scr := { s.scr with asm := { s.scr.asm with fb := [] } } })
    Config.feedbackRingSize max h (by omega) (Nat.zero_le _)
  exact ⟨k, ⟨hk, hs, hb, hfit, hend, hfirst, hslots⟩⟩

/-- A drain keeps the order of the ring (I3). -/
theorem State.fbDrain_ringOk {s : State} (max : Nat) (h : s.fb.Ok) : (s.fbDrain max).fb.Ok := by
  obtain ⟨l, u, h⟩ := h
  obtain ⟨k, hk⟩ := s.fbDrain_drained max h
  exact ⟨_, _, hk.split⟩

theorem Ring.Ok.unlock {r : Ring} (h : r.Ok) : r.unlock.Ok := by
  obtain ⟨l, u, h⟩ := h
  exact ⟨_, _, h.unlock⟩

theorem Ring.Ok.removeLocked {r : Ring} (h : r.Ok) : r.removeLocked.Ok := by
  obtain ⟨l, u, h⟩ := h
  exact ⟨_, _, h.removeLocked⟩

/-- FB_PIGGYBACK keeps the order of the ring (I3). -/
theorem Ring.Ok.push {r : Ring} (h : r.Ok) (hf : r.isFull = false) {data : List Byte}
    (h0 : 0 < data.length) (h1 : data.length ≤ Config.fbMaxLen) : (r.push data).Ok := by
  obtain ⟨l, u, h⟩ := h
  have : l + u ≠ Config.feedbackRingSize := fun he => by
    rw [h.isFull_iff.mpr he] at hf
    cases hf
  have hle := h.fits
  exact ⟨_, _, h.push (by omega) h0 h1⟩

theorem Ring.reset_ok : Ring.reset.Ok := ⟨0, 0, Ring.reset_split⟩

end Sys2Proof.Machine
end

