-- ==== Sys2Proof/Laws/Step.lean ====
section
/-!
SUPPORT. What a step can be: waiting, a command that the port latched, an internal operation, a reset; and
what the tests at the start of a command and the internal operations leave.
-/
namespace Sys2Proof.Machine
open Sys2Proof

/-! ## The tests at the start of a command -/

theorem State.raiseError_eq_failed (s : State) (e : ErrClass) : s.raiseError e = s.failed e.code := by
  cases e <;> rfl

/-- An error of GET_SEGMENT is the error of the state with its ring unlocked. -/
theorem State.raiseUnlocked_eq_failed (s : State) (e : ErrClass) :
    s.raiseUnlocked e = ({ s with fb := s.fb.unlock } : State).failed e.code := by
  cases e <;> rfl

theorem State.respondOk_eq_done (s : State) (out : List Byte) (v : U32) : s.respondOk out v = s.done out v := rfl

theorem State.respondNeedSegment_eq (s : State) (out : List Byte) :
    s.respondNeedSegment out = s.needSegment out := rfl

theorem whenAlive_alive {s : State} (h : s.alive = true) (k : Host.Outcome State Fault Refusal) :
    whenAlive s k = k := by
  rw [whenAlive, if_pos h]

theorem whenAlive_dead {s : State} (h : s.alive = false) (k : Host.Outcome State Fault Refusal) :
    whenAlive s k = .next (s.failed 8) := by
  rw [whenAlive, if_neg (by simp [h])]; rfl

theorem whenAlive_next {s t : State} {k : Host.Outcome State Fault Refusal} (h : whenAlive s k = .next t) :
    (s.alive = false ∧ t = s.failed 8) ∨ (s.alive = true ∧ k = .next t) := by
  cases ha : s.alive
  · rw [whenAlive_dead ha] at h
    cases h
    exact .inl ⟨rfl, rfl⟩
  · rw [whenAlive_alive ha] at h
    exact .inr ⟨rfl, h⟩

theorem whenConfigurable_free {s : State} (h : s.alive = true) (hn : s.numPackets = 0)
    (k : Host.Outcome State Fault Refusal) : whenConfigurable s k = k := by
  rw [whenConfigurable, whenAlive_alive h, if_neg (by omega)]

theorem whenConfigurable_locked {s : State} (h : s.alive = true) (hn : 0 < s.numPackets)
    (k : Host.Outcome State Fault Refusal) : whenConfigurable s k = .next (s.failed 5) := by
  rw [whenConfigurable, whenAlive_alive h, if_pos hn]; rfl

theorem whenConfigurable_next {s t : State} {k : Host.Outcome State Fault Refusal}
    (h : whenConfigurable s k = .next t) :
    (s.alive = false ∧ t = s.failed 8) ∨ (s.alive = true ∧ 0 < s.numPackets ∧ t = s.failed 5)
      ∨ (s.alive = true ∧ s.numPackets = 0 ∧ k = .next t) := by
  rcases whenAlive_next h with h | ⟨ha, h⟩
  · exact .inl h
  · split at h
    · cases h
      exact .inr (.inl ⟨ha, by assumption, rfl⟩)
    · exact .inr (.inr ⟨ha, by omega, h⟩)

/-! ## Decoding of a latched command -/

theorem decode_isCommand {c : Command} {i : Instr} {r : List Byte}
    (h : decode (.command c) = .ok (i, r)) : isCommand i = true := by
  have key : decodeCommand c = .ok i := by
    simp only [decode] at h
    cases hd : decodeCommand c with
    | ok j => rw [hd] at h; cases h; rfl
    | error e => rw [hd] at h; cases h
  unfold decodeCommand at key
  split at key <;> first
    | (cases key; rfl)
    | cases key

theorem decode_not_isCommand {slot : Slot} {os : List Byte} {i : Instr} {r : List Byte}
    (h : decode (.wire slot os) = .ok (i, r)) : isCommand i = false := by
  simp only [decode] at h
  unfold decodeWire at h
  split at h
  · cases h
  · split at h
    · unfold decodeUnit at h
      repeat' split at h
      all_goals first
        | (cases h; rfl)
        | cases h
    · unfold decodeExtension at h
      repeat' split at h
      all_goals first
        | (cases h; rfl)
        | cases h
    · unfold decodeValue at h
      repeat' split at h
      all_goals first
        | (cases h; rfl)
        | cases h

/-! ## A dead block -/

theorem exec_dead {s : State} {i : Instr} (ha : s.alive = false) (hc : isCommand i = true) :
    exec i s = .next (s.failed 8) := by
  have hw (k) : whenAlive s k = .next (s.failed 8) := whenAlive_dead ha k
  have hw2 (k) : whenConfigurable s k = .next (s.failed 8) := by rw [whenConfigurable, hw]
  cases i <;> first
    | (simp only [exec, execCompress, compressWith, execGetSegment, execProfEnable, execProfDisable,
        execSetWlsb, execSetRefresh, execSetMrru, execRtpPortAdd, execRtpPortRemove, execRtpPortReset,
        execFbPiggyback, execFbDeliver, execFbFlush, execFbAvail, execFbRemoveLocked, execFbUnlock,
        execReinit, execRdCfg, hw, hw2]; done)
    | cases hc

/-! ## Internal operations -/

/-- An internal operation touches the scratch registers, and the ring (the feedback rows) or the RRU (the
segment row). -/
theorem exec_wire {s t : State} {i : Instr} (hc : isCommand i = false) (h : exec i s = .next t) :
    (∃ sc, t = { s with scr := sc })
    ∨ (s.fb.waiting = true ∧ ∃ sc, t = { s with fb := s.fb.lockHead, scr := sc })
    ∨ (∃ n sc, n ≤ s.rru.len ∧ t = { s with rru := s.rru.advance n, scr := sc }) := by
  cases i
  case feedbackShort len =>
    simp only [exec, execFeedbackShort] at h
    cases h
    unfold State.emitFeedbackShort
    split
    · rename_i hw; exact .inr (.inl ⟨hw.1, _, rfl⟩)
    · exact .inl ⟨_, rfl⟩
  case feedbackLong len =>
    simp only [exec, execFeedbackLong] at h
    cases h
    unfold State.emitFeedbackLong
    split
    · rename_i hw; exact .inr (.inl ⟨hw.1, _, rfl⟩)
    · exact .inl ⟨_, rfl⟩
  case segment final =>
    simp only [exec, execSegment, State.emitSegment] at h
    cases h
    exact .inr (.inr ⟨_, _, Nat.min_le_right _ _, rfl⟩)
  all_goals first
    | (cases hc; done)
    | (cases h; exact .inl ⟨_, rfl⟩)

/-! ## A step -/

/-- The four kinds of step. -/
theorem step_cases {s t : State} (h : step s = .next t) :
    (s.queue = [] ∧ t = s)
    ∨ (∃ c input q, s.queue = .command c input :: q
        ∧ ((∃ i, isCommand i = true ∧ exec i ((s.setQueue q).latch c input) = .next t)
          ∨ (s.alive = false ∧ t = ((s.setQueue q).latch c input).failed 8)
          ∨ (s.alive = true ∧ t = ((s.setQueue q).latch c input).failed 9)))
    ∨ (∃ slot os q i, s.queue = .wire slot os :: q ∧ isCommand i = false
        ∧ exec i (s.setQueue q) = .next t)
    ∨ (∃ ct m q, s.queue = .reset ct m :: q ∧ t = (s.setQueue q).applyReset ct m) := by
  simp only [step, stepWith] at h
  split at h
  · rename_i hq
    cases h
    exact .inl ⟨hq, rfl⟩
  · rename_i c input q hq
    refine .inr (.inl ⟨c, input, q, hq, ?_⟩)
    split at h
    · rename_i i r hd
      exact .inl ⟨i, decode_isCommand hd, h⟩
    · rw [State.badOp] at h
      rcases whenAlive_next h with ⟨ha, rfl⟩ | ⟨ha, h⟩
      · exact .inr (.inl ⟨ha, rfl⟩)
      · cases h
        exact .inr (.inr ⟨ha, rfl⟩)
  · rename_i slot os q hq
    split at h
    · rename_i i r hd
      exact .inr (.inr (.inl ⟨slot, os, q, i, hq, decode_not_isCommand hd, h⟩))
    · cases h
  · rename_i ct m q hq
    cases h
    exact .inr (.inr (.inr ⟨ct, m, q, hq, rfl⟩))

/-- A reset with illegal straps leaves a dead block. -/
theorem State.applyReset_illegal {s : State} {ct : CidType} {m : Nat} (h : Config.cidBound ct < m) :
    (s.applyReset ct m).alive = false := by
  have hl : legalStraps ct m = false := by simp [legalStraps]; omega
  simp [State.applyReset, hl]

/-- A reset with legal straps leaves the state after reset, with what HOST owns kept. -/
theorem State.applyReset_legal {s : State} {ct : CidType} {m : Nat} (h : m ≤ Config.cidBound ct) :
    s.applyReset ct m = { State.afterReset ct m with
      cmd := s.cmd, inBuf := s.inBuf, queue := s.queue, randIn := s.randIn, draws := s.draws + 1 } := by
  have hl : legalStraps ct m = true := by simpa [legalStraps] using h
  simp [State.applyReset, hl]

end Sys2Proof.Machine
end

