-- ==== Sys2Proof/Laws/Compress.lean ====
section
/-!
SUPPORT. COMPRESS: what building a header leaves alone, what the assembled state is, and that COMPRESS is
the end of the command on it.
-/
namespace Sys2Proof.Machine
open Sys2Proof

/-! ## What a builder leaves alone -/

/-- The parts of the scratch registers that no builder writes. -/
structure SameCore (p q : Scratch) : Prop where
  pkt : q.pkt = p.pkt
  par : q.par = p.par
  ctx : q.ctx = p.ctx
  snNew : q.snNew = p.snNew
  hs : q.hs = p.hs
  fb : q.asm.fb = p.asm.fb

theorem Scratch.build_core (p : Scratch) : SameCore p p.build := by
  rw [Scratch.build]
  split
  · exact ⟨rfl, rfl, rfl, rfl, rfl, rfl⟩
  · exact ⟨rfl, rfl, rfl, rfl, rfl, rfl⟩
  · exact ⟨rfl, rfl, rfl, rfl, rfl, rfl⟩
  · exact ⟨rfl, rfl, rfl, rfl, rfl, rfl⟩
  · rw [Scratch.buildUor2]
    split <;> exact ⟨rfl, rfl, rfl, rfl, rfl, rfl⟩
  · exact ⟨rfl, rfl, rfl, rfl, rfl, rfl⟩

theorem Scratch.wrapCid_core (ct : CidType) (p : Scratch) : SameCore p (p.wrapCid ct) := by
  cases ct <;> exact ⟨rfl, rfl, rfl, rfl, rfl, rfl⟩

theorem Scratch.build_wrap_core (ct : CidType) (p : Scratch) : SameCore p (p.build.wrapCid ct) := by
  have a := p.build_core
  have b := p.build.wrapCid_core ct
  exact ⟨b.pkt.trans a.pkt, b.par.trans a.par, b.ctx.trans a.ctx, b.snNew.trans a.snNew, b.hs.trans a.hs,
    b.fb.trans a.fb⟩

theorem Scratch.updateContext_asm (cfg : Cfg) (p : Scratch) : (p.updateContext cfg).asm = p.asm := by
  rw [Scratch.updateContext]
  split <;> rfl

/-- The context after a packet: everything but the state, `force_ir` and the profile-owned block stays. -/
theorem Scratch.buildHeader_core (cfg : Cfg) (sc : Scratch) :
    (sc.buildHeader cfg).pkt = sc.pkt ∧ (sc.buildHeader cfg).par = sc.par
      ∧ (sc.buildHeader cfg).asm.fb = sc.asm.fb
      ∧ ∃ st f b, (sc.buildHeader cfg).ctx = { sc.ctx with state := st, forceIr := f, block := b } := by
  have h1 : ∀ p : Scratch, (p.updateContext cfg).pkt = p.pkt ∧ (p.updateContext cfg).par = p.par
      ∧ (p.updateContext cfg).asm.fb = p.asm.fb
      ∧ ∃ b, (p.updateContext cfg).ctx = { p.ctx with block := b } := by
    intro p
    rw [Scratch.updateContext]
    split
    · exact ⟨rfl, rfl, rfl, _, rfl⟩
    · exact ⟨rfl, rfl, rfl, _, rfl⟩
  have h2 : (sc.prepare cfg).pkt = sc.pkt ∧ (sc.prepare cfg).par = sc.par
      ∧ (sc.prepare cfg).asm.fb = sc.asm.fb
      ∧ ∃ st f b, (sc.prepare cfg).ctx = { sc.ctx with state := st, forceIr := f, block := b } := by
    rw [Scratch.prepare]
    split
    · rename_i g _
      obtain ⟨d, P⟩ := sc.prepareGeneric_prepared cfg g
      exact ⟨P.pkt, P.par, by rw [P.asm], _, _, _, P.ctx⟩
    · exact ⟨rfl, rfl, rfl, _, _, _, rfl⟩
  have h3 := (sc.prepare cfg).build_wrap_core cfg.cidType
  obtain ⟨a1, a2, a3, b, a4⟩ := h1 ((sc.prepare cfg).build.wrapCid cfg.cidType)
  obtain ⟨b1, b2, b3, st, f, b', b4⟩ := h2
  refine ⟨a1.trans (h3.pkt.trans b1), a2.trans (h3.par.trans b2), a3.trans (h3.fb.trans b3), st, f, b, ?_⟩
  rw [Scratch.buildHeader, a4, h3.ctx, b4]

/-- The context after a packet of a context with the generic block g. -/
theorem Scratch.buildHeader_generic (cfg : Cfg) {sc : Scratch} {g : Generic} (hb : sc.ctx.block = .generic g) :
    ∃ d p, Prepared cfg sc g d p ∧ (sc.buildHeader cfg).ctx = { sc.ctx with
      state := d.1
      forceIr := false
      block := .generic (countPacket d.1 { restartCounters sc.ctx.state d.1 d.2 (sc.detected g) with
        sn := g.sn + 1
        winSn := g.winSn.add cfg.wlsbWidth.toNat (g.sn + 1)
        hdrs := updateHdrs cfg.wlsbWidth.toNat sc.par.hdrs p.hs (sc.detected g).hdrs }) } := by
  obtain ⟨d, P⟩ := sc.prepareGeneric_prepared cfg g
  have hp : sc.prepare cfg = sc.prepareGeneric cfg g := by simp only [Scratch.prepare, Ctx.generic?, hb]
  refine ⟨d, _, P, ?_⟩
  have C := (sc.prepareGeneric cfg g).build_wrap_core cfg.cidType
  have hblock : ((sc.prepareGeneric cfg g).build.wrapCid cfg.cidType).ctx.block
      = .generic (restartCounters sc.ctx.state d.1 d.2 (sc.detected g)) := by rw [C.ctx, P.ctx]
  rw [Scratch.buildHeader, hp, Scratch.updateContext, hblock]
  simp only [C.ctx, C.snNew, C.par, C.hs, P.ctx, P.snNew, P.par]
  obtain ⟨r1, r2, r3, r4⟩ := restartCounters_fields sc.ctx.state d.1 d.2 (sc.detected g)
  rw [r1, r2]
  rfl

/-- A packet of a context without a generic block leaves its context alone. -/
theorem Scratch.buildHeader_other (cfg : Cfg) {sc : Scratch} (hb : sc.ctx.generic? = none) :
    (sc.buildHeader cfg).ctx = sc.ctx := by
  have hp : sc.prepare cfg = { sc with ptype := .normal, ext := .none } := by
    simp only [Scratch.prepare, hb]
  have C := (sc.prepare cfg).build_wrap_core cfg.cidType
  have hc : (sc.prepare cfg).ctx = sc.ctx := by rw [hp]
  rw [Scratch.buildHeader, Scratch.updateContext]
  split
  · rename_i g hg
    rw [C.ctx, hc] at hg
    rw [Ctx.generic?, hg] at hb
    cases hb
  · rw [C.ctx, hc]

theorem Scratch.hdrEnd_congr {p q : Scratch} (h1 : q.ctx.profile = p.ctx.profile) (h2 : q.par = p.par) :
    q.hdrEnd = p.hdrEnd := by
  rw [Scratch.hdrEnd, Scratch.hdrEnd, h1, h2]

theorem Scratch.buildHeader_hdrEnd (cfg : Cfg) (sc : Scratch) :
    (sc.buildHeader cfg).hdrEnd = sc.hdrEnd := by
  obtain ⟨-, h2, -, st, f, b, h⟩ := sc.buildHeader_core cfg
  exact Scratch.hdrEnd_congr (by rw [h]) h2

/-! ## The assembled state -/

/-- Everything of the assembled state but its ring and its scratch registers is that of the state after
FIND_OR_CREATE. -/
theorem State.assembled_eq (s : State) (prof : Profile) (par : Parsed) (pkt : List Byte) (max : Nat) (t : U64) :
    ∃ fb sc, s.assembled prof par pkt max t
      = { s.findOrCreate profileExt prof (prof.key profileExt pkt par) par pkt t with fb := fb, scr := sc } := by
  obtain ⟨fb, bs, h⟩ := State.fbDrain_only
    ((s.findOrCreate profileExt prof (prof.key profileExt pkt par) par pkt t).loadScratch
      (s.pick prof (prof.key profileExt pkt par)).1 pkt par) max
  refine ⟨fb, (s.assembled prof par pkt max t).scr, ?_⟩
  simp only [State.assembled, State.onScratch, h]
  rfl

theorem State.findOrCreate_fb (s : State) (prof : Profile) (key : Key) (par : Parsed) (pkt : List Byte)
    (t : U64) : (s.findOrCreate profileExt prof key par pkt t).fb = s.fb := by
  cases h : s.find prof key with
  | some c => rw [State.findOrCreate_some h]
  | none => rw [State.findOrCreate_none h]

/-- The ring of the assembled state, unlocked, is that of s. -/
theorem State.assembled_unlock (s : State) (prof : Profile) (par : Parsed) (pkt : List Byte) (max : Nat)
    (t : U64) : (s.assembled prof par pkt max t).fb.unlock = s.fb.unlock := by
  show (State.fbDrain _ max).fb.unlock = _
  rw [State.fbDrain_unlock]
  show (s.findOrCreate _ _ _ _ _ _).fb.unlock = _
  rw [State.findOrCreate_fb]

/-- The working copy of the context before the packet (log 17). -/
def State.working (s : State) (prof : Profile) (par : Parsed) (pkt : List Byte) (t : U64) : Ctx :=
  ((s.findOrCreate profileExt prof (prof.key profileExt pkt par) par pkt t).slot
    (s.pick prof (prof.key profileExt pkt par)).1).getD Ctx.zero

theorem State.working_find {s : State} {prof : Profile} {par : Parsed} {pkt : List Byte} {c : Nat} {v : Ctx}
    (h : s.find prof (prof.key profileExt pkt par) = some c) (hv : s.slot c = some v) (t : U64) :
    s.working prof par pkt t = v := by
  rw [State.working, State.findOrCreate_some h, State.pick, h, hv]
  rfl

theorem State.working_fresh {s : State} {prof : Profile} {par : Parsed} {pkt : List Byte}
    (h : s.find prof (prof.key profileExt pkt par) = none) (hl : 0 < s.ctx.length) (t : U64) :
    s.working prof par pkt t = s.fresh prof (prof.key profileExt pkt par) par pkt t := by
  have hs := State.slot_set (s := s) (t := s.findOrCreate profileExt prof (prof.key profileExt pkt par) par pkt t)
    (c := s.allocate.1) (v := some (s.fresh prof (prof.key profileExt pkt par) par pkt t))
    (by rw [State.findOrCreate_none h]) s.allocate.1
  rw [State.working, State.pick, h, hs, if_pos ⟨rfl, State.allocate_lt hl⟩]
  rfl

/-- The scratch registers of the assembled state: the header built for the working copy, behind the
feedback that was drained. -/
theorem State.assembled_scr (s : State) (prof : Profile) (par : Parsed) (pkt : List Byte) (max : Nat)
    (t : U64) :
    ∃ bs, (s.assembled prof par pkt max t).scr = Scratch.buildHeader s.cfg { Scratch.zero with
      pkt := pkt, par := par, ctx := s.working prof par pkt t
      asm := { Assembly.empty with fb := bs } } := by
  obtain ⟨fb, bs, h⟩ := State.fbDrain_only
    ((s.findOrCreate profileExt prof (prof.key profileExt pkt par) par pkt t).loadScratch
      (s.pick prof (prof.key profileExt pkt par)).1 pkt par) max
  refine ⟨bs, ?_⟩
  simp only [State.assembled, State.onScratch, h]
  rfl

theorem State.assembled_pkt (s : State) (prof : Profile) (par : Parsed) (pkt : List Byte) (max : Nat)
    (t : U64) : (s.assembled prof par pkt max t).scr.pkt = pkt := by
  obtain ⟨bs, h⟩ := s.assembled_scr prof par pkt max t
  rw [h, (Scratch.buildHeader_core _ _).1]

theorem State.findOrCreate_cfg (s : State) (prof : Profile) (key : Key) (par : Parsed) (pkt : List Byte)
    (t : U64) : (s.findOrCreate profileExt prof key par pkt t).cfg = s.cfg := by
  cases h : s.find prof key with
  | some c => rw [State.findOrCreate_some h]
  | none => rw [State.findOrCreate_none h]

/-! ## COMPRESS -/

/-- With ProfileExt absent, COMPRESS is the end of the command on the assembled state. -/
theorem State.compressAs_eq (s : State) (prof : Profile) (par : Parsed) (pkt : List Byte) (max : Nat)
    (t : U64) :
    s.compressAs profileExt prof par pkt max t
      = (s.assembled prof par pkt max t).finishCompress (s.pick prof (prof.key profileExt pkt par)).1
          (s.pick prof (prof.key profileExt pkt par)).2
          (s.slot (s.pick prof (prof.key profileExt pkt par)).1) max
          (s.assembled prof par pkt max t).scr.hdrEnd t := by
  have henc : ∀ w : State, w.encode profileExt = some (w.onScratch (Scratch.buildHeader w.cfg), w.scr.hdrEnd) := by
    intro w
    simp only [State.encode, profileExt]
    split
    · rename_i h; cases h
    · rfl
  simp only [State.compressAs, henc, State.assembled, State.fbDrain_cfg]
  have hc : ∀ w : State, ∀ c, (w.loadScratch c pkt par).cfg = w.cfg := fun _ _ => rfl
  simp only [hc, State.findOrCreate_cfg]
  congr 1
  exact (Scratch.buildHeader_hdrEnd _ _).symm

/-- A COMPRESS of a packet it accepts. -/
theorem execCompress_accepts {s : State} {t : U64} {inLen outMax : U32} {pkt : List Byte} {par : Parsed}
    {prof : Profile} (h : Accepts s inLen outMax pkt par prof) :
    exec (.compress t inLen outMax) s = s.compressAs profileExt prof par pkt outMax.toNat t := by
  simp only [exec, execCompress, compressWith, whenAlive_alive h.alive, h.input, h.parsed, h.selected]
  rw [if_neg (by rintro (h0 | h0); exacts [h.inPos h0, h.outPos h0]), if_neg]
  rintro ⟨ha, -⟩
  rw [h.admitted] at ha
  cases ha

/-- The ways a COMPRESS answers a next state: an error before it touches anything, or the end of the command
on the assembled state of a packet it accepts. -/
theorem execCompress_next {s u : State} {t : U64} {inLen outMax : U32}
    (h : exec (.compress t inLen outMax) s = .next u) :
    (∃ e, (e = 8 ∨ e = 1 ∨ e = 3) ∧ u = s.failed e)
    ∨ ∃ pkt par prof, Accepts s inLen outMax pkt par prof
        ∧ s.compressAs profileExt prof par pkt outMax.toNat t = .next u := by
  simp only [exec, execCompress, compressWith] at h
  rcases whenAlive_next h with ⟨-, rfl⟩ | ⟨ha, h⟩
  · exact .inl ⟨8, .inl rfl, rfl⟩
  split at h
  · cases h
    exact .inl ⟨1, .inr (.inl rfl), rfl⟩
  · rename_i hz
    split at h
    · cases h
      exact .inl ⟨1, .inr (.inl rfl), rfl⟩
    · rename_i par hp
      split at h
      · cases h
        exact .inl ⟨3, .inr (.inr rfl), rfl⟩
      · rename_i prof hs
        split at h
        · cases h
        · rename_i hadm
          refine .inr ⟨s.input inLen, par, prof, ⟨ha, ?_, ?_, rfl, hp, hs, ?_⟩, h⟩
          · exact fun h0 => hz (.inl h0)
          · exact fun h0 => hz (.inr h0)
          · by_contra hn
            exact hadm ⟨by simpa using hn, rfl⟩

end Sys2Proof.Machine
end

