-- ==== Sys2Proof/Laws/Memory.lean ====
section
/-!
SUPPORT. The laws of the byte spaces: what a write changes and what it leaves, and that every operation
keeps the canonical form.
-/
namespace Sys2Proof.Machine
open Sys2Proof

/-! ## The canonical form -/

theorem Memory.wf_iff (m : Memory) : m.wf = true ↔ m.Pairwise (fun c d => c.1 < d.1) := by
  induction m with
  | nil => simp [Memory.wf]
  | cons c r ih =>
    cases r with
    | nil => simp [Memory.wf]
    | cons d r =>
      rw [Memory.wf, Bool.and_eq_true, decide_eq_true_eq, ih, List.pairwise_cons (a := c)]
      constructor
      · rintro ⟨h, hp⟩
        refine ⟨fun x hx => ?_, hp⟩
        rcases List.mem_cons.mp hx with rfl | hx
        · exact h
        · exact h.trans (List.rel_of_pairwise_cons hp hx)
      · rintro ⟨h, hp⟩
        exact ⟨h d (List.mem_cons_self ..), hp⟩

theorem Memory.mem_cells {a : Nat} {bs : List Byte} {c : Host.Cell} (h : c ∈ Memory.cells a bs) :
    a ≤ c.1 ∧ c.1 < a + bs.length := by
  induction bs generalizing a with
  | nil => simp [Memory.cells] at h
  | cons b r ih =>
    rcases List.mem_cons.mp h with rfl | h
    · simp
    · have := ih h
      simp only [List.length_cons]
      omega

theorem Memory.cells_pairwise (a : Nat) (bs : List Byte) :
    (Memory.cells a bs).Pairwise (fun c d => c.1 < d.1) := by
  induction bs generalizing a with
  | nil => simp [Memory.cells]
  | cons b r ih =>
    refine List.pairwise_cons.mpr ⟨fun c hc => ?_, ih (a + 1)⟩
    have := Memory.mem_cells hc
    simp only
    omega

theorem Memory.ofBytes_wf (bs : List Byte) : (Memory.ofBytes bs).wf = true :=
  (Memory.wf_iff _).mpr (Memory.cells_pairwise 0 bs)

/-- A write keeps the canonical form. -/
theorem Memory.writeBytes_wf {m : Memory} (h : m.wf = true) (a : Nat) (bs : List Byte) :
    (m.writeBytes a bs).wf = true := by
  rw [Memory.wf_iff] at h ⊢
  unfold Memory.writeBytes
  rw [List.pairwise_append, List.pairwise_append]
  refine ⟨⟨h.filter _, Memory.cells_pairwise a bs, ?_⟩, h.filter _, ?_⟩
  · intro c hc d hd
    have h1 := Memory.mem_cells hd
    have h2 : c.1 < a := by simpa using (List.mem_filter.mp hc).2
    omega
  · intro c hc d hd
    have h2 : a + bs.length ≤ d.1 := by simpa using (List.mem_filter.mp hd).2
    rcases List.mem_append.mp hc with hc | hc
    · have h1 : c.1 < a := by simpa using (List.mem_filter.mp hc).2
      omega
    · have h1 := Memory.mem_cells hc
      omega

/-! ## Reading -/

theorem Memory.read_append (m n : Memory) (x : Nat) :
    Memory.read (m ++ n) x = (m.read x).or (n.read x) := by
  induction m with
  | nil => simp [Memory.read]
  | cons c r ih =>
    simp only [List.cons_append, Memory.read]
    split <;> simp_all

theorem Memory.read_filter (m : Memory) (p : Nat → Bool) (x : Nat) :
    Memory.read (m.filter fun c => p c.1) x = if p x then m.read x else none := by
  induction m with
  | nil => simp [Memory.read]
  | cons c r ih =>
    rw [List.filter_cons, Memory.read]
    by_cases hc : c.1 = x
    · subst hc
      by_cases hp : p c.1
      · rw [if_pos hp, if_pos hp, if_pos rfl, Memory.read, if_pos rfl]
      · rw [if_neg hp, if_neg hp, ih, if_neg hp]
    · rw [if_neg hc]
      by_cases hp : p c.1
      · rw [if_pos hp, Memory.read, if_neg hc, ih]
      · rw [if_neg hp, ih]

theorem Memory.read_cells (a : Nat) (bs : List Byte) (x : Nat) :
    (Memory.cells a bs).read x = if a ≤ x then bs[x - a]? else none := by
  induction bs generalizing a with
  | nil => simp [Memory.cells, Memory.read]
  | cons b r ih =>
    rw [Memory.cells, Memory.read, ih]
    dsimp only
    by_cases h : a = x
    · subst h; simp
    · rw [if_neg h]
      by_cases h' : a ≤ x
      · have h1 : x - a = (x - (a + 1)) + 1 := by omega
        rw [if_pos h', if_pos (by omega), h1, List.getElem?_cons_succ]
      · rw [if_neg h', if_neg (by omega)]

/-- A write changes exactly the bytes it writes. -/
theorem Memory.read_writeBytes (m : Memory) (a : Nat) (bs : List Byte) (x : Nat) :
    (m.writeBytes a bs).read x =
      if a ≤ x ∧ x < a + bs.length then bs[x - a]? else m.read x := by
  unfold Memory.writeBytes
  rw [Memory.read_append, Memory.read_append, Memory.read_cells,
    Memory.read_filter m (fun y => decide (y < a)), Memory.read_filter m (fun y => decide (a + bs.length ≤ y))]
  by_cases h1 : x < a
  · have h2 : ¬ a ≤ x := by omega
    have h3 : ¬ a + bs.length ≤ x := by omega
    simp [h1, h2, h3]
  · by_cases h2 : x < a + bs.length
    · have h3 : a ≤ x := by omega
      have h4 : x - a < bs.length := by omega
      simp [h1, h2, h3, h4]
    · have h3 : a ≤ x := by omega
      have h4 : bs[x - a]? = none := by simp; omega
      have h5 : a + bs.length ≤ x := by omega
      simp [h1, h2, h3, h4, h5]

theorem Memory.read_ofBytes (bs : List Byte) (x : Nat) : (Memory.ofBytes bs).read x = bs[x]? := by
  simp [Memory.ofBytes, Memory.read_cells]

/-- Several bytes are read exactly when each of them is. -/
theorem Memory.readBytes_eq_some {m : Memory} {a n : Nat} {bs : List Byte} :
    m.readBytes a n = some bs ↔ bs.length = n ∧ ∀ i, i < n → m.read (a + i) = bs[i]? := by
  induction n generalizing a bs with
  | zero =>
    simp only [Memory.readBytes, Option.some.injEq]
    constructor
    · rintro rfl; simp
    · rintro ⟨h, -⟩; exact (List.length_eq_zero_iff.mp h).symm
  | succ n ih =>
    rw [Memory.readBytes]
    constructor
    · intro h
      split at h
      · cases h
      · rename_i b hb
        split at h
        · cases h
        · rename_i r hr
          cases h
          have := ih.mp hr
          refine ⟨by simp [this.1], fun i hi => ?_⟩
          cases i with
          | zero => simpa using hb
          | succ i =>
            have h2 := this.2 i (by omega)
            rw [show a + (i + 1) = a + 1 + i by omega, h2, List.getElem?_cons_succ]
    · rintro ⟨hl, h⟩
      cases bs with
      | nil => simp at hl
      | cons b r =>
        have h0 : m.read a = some b := by simpa using h 0 (by omega)
        have h1 : m.readBytes (a + 1) n = some r := by
          refine ih.mpr ⟨by simpa using hl, fun i hi => ?_⟩
          have := h (i + 1) (by omega)
          rw [show a + 1 + i = a + (i + 1) by omega, this, List.getElem?_cons_succ]
        rw [h0]
        dsimp only
        rw [h1]

theorem Memory.readBytes_length {m : Memory} {a n : Nat} {bs : List Byte}
    (h : m.readBytes a n = some bs) : bs.length = n :=
  (Memory.readBytes_eq_some.mp h).1

/-- Bytes that all have a value are read. -/
theorem Memory.readBytes_isSome {m : Memory} {a n : Nat}
    (h : ∀ i, i < n → (m.read (a + i)).isSome = true) : ∃ bs, m.readBytes a n = some bs := by
  induction n generalizing a with
  | zero => exact ⟨[], rfl⟩
  | succ n ih =>
    obtain ⟨b, hb⟩ := Option.isSome_iff_exists.mp (h 0 (by omega))
    obtain ⟨r, hr⟩ := ih (a := a + 1) (fun i hi => by
      have := h (i + 1) (by omega)
      rwa [show a + 1 + i = a + (i + 1) by omega])
    refine ⟨b :: r, ?_⟩
    rw [Memory.readBytes, show m.read a = some b from hb]
    dsimp only
    rw [hr]

/-- Bytes that have been written are read as written, whatever an unwritten byte holds. -/
theorem Memory.bytes_of_readBytes {m : Memory} {a n : Nat} {bs : List Byte} (free : Nat → Byte)
    (h : m.readBytes a n = some bs) : m.bytes free a n = bs := by
  obtain ⟨hl, hr⟩ := Memory.readBytes_eq_some.mp h
  refine List.ext_getElem (by simp [Memory.bytes, hl]) fun i h1 h2 => ?_
  simp [Memory.bytes, hr i (hl ▸ h2), List.getElem?_eq_getElem h2]

theorem Memory.bytes_length (free : Nat → Byte) (m : Memory) (a n : Nat) : (m.bytes free a n).length = n := by
  simp [Memory.bytes]

theorem State.input_length (s : State) (inLen : U32) : (s.input inLen).length = inLen.toNat :=
  Memory.bytes_length ..

/-- Two reads of one stretch in a row. -/
theorem Memory.readBytes_add {m : Memory} {a n k : Nat} {bs cs : List Byte}
    (h1 : m.readBytes a n = some bs) (h2 : m.readBytes (a + n) k = some cs) :
    m.readBytes a (n + k) = some (bs ++ cs) := by
  rw [Memory.readBytes_eq_some] at *
  refine ⟨by simp [h1.1, h2.1], fun i hi => ?_⟩
  by_cases h : i < n
  · rw [h1.2 i h, List.getElem?_append_left (by omega)]
  · have := h2.2 (i - n) (by omega)
    rw [List.getElem?_append_right (by omega), h1.1, ← this]
    congr 1
    omega

/-- What has just been written is read back. -/
theorem Memory.readBytes_writeBytes (m : Memory) (a : Nat) (bs : List Byte) :
    (m.writeBytes a bs).readBytes a bs.length = some bs := by
  rw [Memory.readBytes_eq_some]
  refine ⟨rfl, fun i hi => ?_⟩
  rw [Memory.read_writeBytes, if_pos (by omega), Nat.add_sub_cancel_left]

end Sys2Proof.Machine
end

