-- ==== Sys2Proof/Laws/Commands.lean ====
section
/-!
SUPPORT. Everything a command can do, said once: `CommandStep` has one constructor for each way a command
answers a next state, and `exec_command` is the inversion that the later proofs cite.
-/
namespace Sys2Proof.Machine
open Sys2Proof

/-- t is a next state of the command i at s. -/
inductive CommandStep (s : State) : Instr → State → Prop where
  /-- An error that changed nothing. -/
  | failed (i : Instr) (e : BitVec 4) (h4 : e ≠ 4) (h10 : e ≠ 10) : CommandStep s i (s.failed e)
  /-- A configuration command: a legal value, the straps kept. -/
  | config (i : Instr) (cfg : Cfg) (hi : isConfig i = true) (hn : s.numPackets = 0)
      (hct : cfg.cidType = s.cfg.cidType) (hmc : cfg.maxCid = s.cfg.maxCid) (hok : s.cfg.Ok → cfg.Ok) :
      CommandStep s i (({ s with cfg := cfg } : State).done [] 0)
  | portAdd (port : U32) (p : U16) (hp : p ∉ s.rtpPorts) (hz : p ≠ 0)
      (hl : s.rtpPorts.length < Config.maxRtpPorts) :
      CommandStep s (.rtpPortAdd port) (({ s with rtpPorts := s.rtpPorts ++ [p] } : State).done [] 0)
  | portRemove (port : U32) (p : U16) (hp : p ∈ s.rtpPorts) :
      CommandStep s (.rtpPortRemove port)
        ((({ s with rtpPorts := s.rtpPorts.erase p } : State).destroyPort p).done [] 0)
  | portReset : CommandStep s .rtpPortReset (({ s with rtpPorts := [] } : State).done [] 0)
  | piggyback (inLen : U32) (data : List Byte) (h0 : 0 < data.length) (hm : data.length ≤ Config.fbMaxLen)
      (hf : s.fb.isFull = false) :
      CommandStep s (.fbPiggyback inLen) (({ s with fb := s.fb.push data } : State).done [] 0)
  | deliver (inLen : U32) (cid : Nat) (c : Ctx) (hc : s.slot cid = some c) :
      CommandStep s (.fbDeliver inLen)
        (({ s with ctx := s.ctx.set cid (some { c with forceIr := true }) } : State).done [] 0)
  | ignored (inLen : U32) : CommandStep s (.fbDeliver inLen) (s.done [] 0)
  | flush (outMax : U32) :
      CommandStep s (.fbFlush outMax)
        ((s.fbDrain outMax.toNat).done (s.fbDrain outMax.toNat).scr.asm.fb 0)
  | avail : CommandStep s .fbAvail (s.done [] (BitVec.ofNat 32 s.fb.availBytes))
  | removeLocked : CommandStep s .fbRemoveLocked (({ s with fb := s.fb.removeLocked } : State).done [] 0)
  | unlock : CommandStep s .fbUnlock (({ s with fb := s.fb.unlock } : State).done [] 0)
  | reinit : CommandStep s .reinit (({ s with ctx := s.ctx.map reinitSlot } : State).done [] 0)
  | read (sel v : U32) : CommandStep s (.rdCfg sel) (s.done [] v)
  /-- GET_SEGMENT with an error before the drain. -/
  | unlocked (outMax : U32) (e : BitVec 4) (h4 : e ≠ 4) (h10 : e ≠ 10) :
      CommandStep s (.getSegment outMax) (({ s with fb := s.fb.unlock } : State).failed e)
  /-- GET_SEGMENT without room for two octets. -/
  | noRoom (outMax : U32) :
      CommandStep s (.getSegment outMax)
        (({ s.startAssembly.fbDrain outMax.toNat with
            fb := (s.startAssembly.fbDrain outMax.toNat).fb.unlock } : State).failed 4)
  /-- GET_SEGMENT with a chunk of n bytes. -/
  | segment (outMax : U32) (n : Nat) (chunk : List Byte) (scr : Scratch) (h0 : 0 < n) (hn : n ≤ s.rru.len)
      (hm : (s.startAssembly.fbDrain outMax.toNat).scr.asm.fb.length + 1 + n ≤ outMax.toNat)
      (hc : chunk = s.rru.buf.bytes Config.freeRru s.rru.off n) :
      CommandStep s (.getSegment outMax)
        (let w : State := { s.startAssembly.fbDrain outMax.toNat with
          rru := s.rru.advance n
          fb := (s.startAssembly.fbDrain outMax.toNat).fb.removeLocked
          scr := scr }
        let out := (s.startAssembly.fbDrain outMax.toNat).scr.asm.fb
          ++ [Wire.segment (bit (decide (n = s.rru.len)))] ++ chunk
        if n = s.rru.len then w.done out 0 else w.needSegment out)
  /-- COMPRESS of a packet that fits OUT. -/
  | sent (t : U64) (inLen outMax : U32) (pkt : List Byte) (par : Parsed) (prof : Profile)
      (hA : Accepts s inLen outMax pkt par prof) (out : List Byte) (ho : out.length ≤ outMax.toNat) :
      CommandStep s (.compress t inLen outMax)
        (let w := s.assembled prof par pkt outMax.toNat t
        ({ w.commit (s.pick prof (prof.key profileExt pkt par)).1 t with
            fb := w.fb.removeLocked, rru := { s.rru with off := 0, len := 0 } } : State).done out 0)
  /-- COMPRESS of a packet that is segmented. -/
  | segmented (t : U64) (inLen outMax : U32) (pkt : List Byte) (par : Parsed) (prof : Profile)
      (hA : Accepts s inLen outMax pkt par prof) (unit : List Byte) (h4 : 4 ≤ unit.length)
      (hm : unit.length ≤ s.cfg.mrru.toNat) :
      CommandStep s (.compress t inLen outMax)
        (let w := s.assembled prof par pkt outMax.toNat t
        ({ w.commit (s.pick prof (prof.key profileExt pkt par)).1 t with
            fb := w.fb.unlock
            rru := { buf := s.rru.buf.writeBytes 0 unit, off := 0, len := unit.length } }
          : State).needSegment [])
  /-- COMPRESS without room: the recovery of R345. -/
  | recovered (t : U64) (inLen outMax : U32) (pkt : List Byte) (par : Parsed) (prof : Profile)
      (hA : Accepts s inLen outMax pkt par prof) :
      CommandStep s (.compress t inLen outMax)
        (((s.assembled prof par pkt outMax.toNat t).recoverCompress
          (s.pick prof (prof.key profileExt pkt par)).1 (s.pick prof (prof.key profileExt pkt par)).2
          (s.slot (s.pick prof (prof.key profileExt pkt par)).1)).failed 4)

theorem State.failed_of_raiseError (s : State) (i : Instr) (e : ErrClass) (h4 : e ≠ .outputTooSmall)
    (h10 : e ≠ .encode) : CommandStep s i (s.raiseError e) := by
  rw [State.raiseError_eq_failed]
  refine .failed i _ ?_ ?_
  · revert h4
    cases e <;> decide
  · revert h10
    cases e <;> decide

/-! ## Configuration commands -/

theorem whenConfigurable_command {s t : State} {i : Instr} {k : Host.Outcome State Fault Refusal}
    (h : whenConfigurable s k = .next t)
    (hk : s.numPackets = 0 → k = .next t → CommandStep s i t) : CommandStep s i t := by
  rcases whenConfigurable_next h with ⟨-, rfl⟩ | ⟨-, -, rfl⟩ | ⟨-, hn, h⟩
  · exact .failed i 8 (by decide) (by decide)
  · exact .failed i 5 (by decide) (by decide)
  · exact hk hn h

theorem whenAlive_command {s t : State} {i : Instr} {k : Host.Outcome State Fault Refusal}
    (h : whenAlive s k = .next t) (hk : k = .next t → CommandStep s i t) : CommandStep s i t := by
  rcases whenAlive_next h with ⟨-, rfl⟩ | ⟨-, h⟩
  · exact .failed i 8 (by decide) (by decide)
  · exact hk h

/-- A width that SET_WLSB takes (R306). -/
theorem isPowerOfTwo_width {w : U32} (h : isPowerOfTwo w = true) (hm : w.toNat ≤ Config.wlsbWidthMax) :
    (w.setWidth 7).toNat ∈ [1, 2, 4, 8, 16, 32, 64] := by
  have key : ∀ n, n ≤ 64 → isPowerOfTwo (BitVec.ofNat 32 n) = true →
      ((BitVec.ofNat 32 n).setWidth 7).toNat ∈ [1, 2, 4, 8, 16, 32, 64] := by decide +kernel
  have := key w.toNat hm
  rw [BitVec.ofNat_toNat, BitVec.setWidth_eq] at this
  exact this h

theorem exec_config {s t : State} {i : Instr} (hi : isConfig i = true) (h : exec i s = .next t) :
    CommandStep s i t := by
  cases i
  case profEnable a =>
    refine whenConfigurable_command h fun hn h => ?_
    split at h <;> cases h
    · exact State.failed_of_raiseError _ _ _ (by decide) (by decide)
    · exact .config _ _ rfl hn rfl rfl fun hc => ⟨hc.maxCid, hc.width, hc.refresh, hc.refreshPos⟩
  case profDisable a =>
    refine whenConfigurable_command h fun hn h => ?_
    split at h <;> cases h
    · exact State.failed_of_raiseError _ _ _ (by decide) (by decide)
    · exact .config _ _ rfl hn rfl rfl fun hc => ⟨hc.maxCid, hc.width, hc.refresh, hc.refreshPos⟩
  case setWlsb w =>
    refine whenConfigurable_command h fun hn h => ?_
    split at h <;> cases h
    · exact State.failed_of_raiseError _ _ _ (by decide) (by decide)
    · rename_i hw
      refine .config _ _ rfl hn rfl rfl fun hc =>
        ⟨hc.maxCid, isPowerOfTwo_width ?_ ?_, hc.refresh, hc.refreshPos⟩
      · by_contra hf
        exact hw (.inl (by simpa using hf))
      · by_contra hf
        exact hw (.inr (Nat.lt_of_not_le hf))
  case setRefresh ir fo =>
    refine whenConfigurable_command h fun hn h => ?_
    split at h <;> cases h
    · rename_i hr
      exact .config _ _ rfl hn rfl rfl fun hc => ⟨hc.maxCid, hc.width, hr.1, hr.2⟩
    · exact State.failed_of_raiseError _ _ _ (by decide) (by decide)
  case setMrru n =>
    refine whenConfigurable_command h fun hn h => ?_
    split at h <;> cases h
    · exact State.failed_of_raiseError _ _ _ (by decide) (by decide)
    · exact .config _ _ rfl hn rfl rfl fun hc => ⟨hc.maxCid, hc.width, hc.refresh, hc.refreshPos⟩
  all_goals cases hi

/-! ## GET_SEGMENT -/

theorem State.emitSegment_eq {v : State} {n : Nat} {chunk : List Byte} (f : BitVec 1)
    (h1 : v.scr.segN = n) (h2 : n ≤ v.rru.len) (h3 : chunk = v.rru.buf.bytes Config.freeRru v.rru.off n) :
    v.emitSegment f = { v with
      rru := v.rru.advance n
      scr := { v.scr with asm := { v.scr.asm with first := [Wire.segment f], rest := chunk } } } := by
  simp only [State.emitSegment, h1, Nat.min_eq_left h2, h3]

/-- With room, GET_SEGMENT is one chunk of the RRU that fills it (R283). -/
theorem State.sendSegment_room {s t : State} {max : Nat} (hl : s.rru.len ≠ 0)
    (hr : ¬ max - (s.startAssembly.fbDrain max).scr.asm.fb.length < 2) (h : s.sendSegment max = .next t) :
    ∃ n chunk scr, 0 < n ∧ n ≤ s.rru.len
      ∧ (s.startAssembly.fbDrain max).scr.asm.fb.length + 1 + n ≤ max
      ∧ chunk = s.rru.buf.bytes Config.freeRru s.rru.off n
      ∧ t = (let w : State := { s.startAssembly.fbDrain max with
          rru := s.rru.advance n
          fb := (s.startAssembly.fbDrain max).fb.removeLocked
          scr := scr }
        let out := (s.startAssembly.fbDrain max).scr.asm.fb
          ++ [Wire.segment (bit (decide (n = s.rru.len)))] ++ chunk
        if n = s.rru.len then w.done out 0 else w.needSegment out) := by
  obtain ⟨fb, bs, hw⟩ := State.fbDrain_only s.startAssembly max
  have hrru : (s.startAssembly.fbDrain max).rru = s.rru := by rw [State.fbDrain_rru]; rfl
  simp only [State.sendSegment] at h
  rw [if_neg hr] at h
  generalize hg : s.startAssembly.fbDrain max = w at *
  generalize hn : min w.rru.len (max - w.scr.asm.fb.length - 1) = n at *
  have hnl : n ≤ s.rru.len := by rw [← hrru]; omega
  have hn0 : 0 < n := by rw [hrru] at hn; omega
  rw [State.emitSegment_eq (n := n) _ rfl (by rw [hrru]; exact hnl) rfl] at h
  have ha : w.scr.asm.addCid = [] := by rw [hw]; rfl
  have hlc : w.scr.asm.largeCid = [] := by rw [hw]; rfl
  simp only [Assembly.bytes, Assembly.header, ha, hlc, List.nil_append, List.append_nil, hrru] at h
  refine ⟨n, _, t.scr, hn0, hnl, by omega, rfl, ?_⟩
  by_cases he : n = s.rru.len
  · rw [if_pos (by simpa using he)] at h
    cases h
    rw [if_pos he, List.append_assoc]
    rfl
  · rw [if_neg (by simpa using he)] at h
    cases h
    rw [if_neg he, List.append_assoc]
    rfl

theorem exec_getSegment {s t : State} {outMax : U32} (h : exec (.getSegment outMax) s = .next t) :
    CommandStep s (.getSegment outMax) t := by
  refine whenAlive_command h fun h => ?_
  split at h
  · cases h
    exact .unlocked outMax 1 (by decide) (by decide)
  split at h
  · cases h
    exact .unlocked outMax 7 (by decide) (by decide)
  rename_i hl
  by_cases hr : outMax.toNat - (s.startAssembly.fbDrain outMax.toNat).scr.asm.fb.length < 2
  · simp only [State.sendSegment] at h
    rw [if_pos hr] at h
    cases h
    exact .noRoom outMax
  · obtain ⟨n, chunk, scr, h0, hn, hm, hc, rfl⟩ := State.sendSegment_room hl hr h
    exact .segment outMax n chunk scr h0 hn hm hc

/-! ## COMPRESS -/

theorem fcsOctets_length (v : U32) : (fcsOctets v).length = 4 := rfl

/-- The three ends of COMPRESS on a state w (R301, 46_segmenter.md R280 to R282). -/
theorem State.finishCompress_cases (w : State) (c : Nat) (fresh : Bool) (saved : Option Ctx)
    (max hdrEnd : Nat) (t : U64) :
    (∃ out, out.length ≤ max
      ∧ out = w.scr.asm.fb ++ w.scr.asm.header ++ w.scr.pkt.drop hdrEnd
      ∧ w.finishCompress c fresh saved max hdrEnd t = .next
        (({ w.commit c t with fb := w.fb.removeLocked, rru := { w.rru with off := 0, len := 0 } }
          : State).done out 0))
    ∨ (∃ unit, 4 ≤ unit.length ∧ unit.length ≤ w.cfg.mrru.toNat
      ∧ unit = rruUnit w.scr.asm.header (w.scr.pkt.drop hdrEnd)
      ∧ w.finishCompress c fresh saved max hdrEnd t = .next
        (({ w.commit c t with
            fb := w.fb.unlock
            rru := { buf := w.rru.buf.writeBytes 0 unit, off := 0, len := unit.length } }
          : State).needSegment []))
    ∨ w.finishCompress c fresh saved max hdrEnd t = .next ((w.recoverCompress c fresh saved).failed 4) := by
  simp only [State.finishCompress]
  split
  · rename_i hf
    refine .inl ⟨_, ?_, rfl, rfl⟩
    simpa [Nat.add_assoc] using hf
  · split
    · rename_i hm
      refine .inr (.inl ⟨_, ?_, ?_, rfl, rfl⟩)
      · simp only [rruUnit, List.length_append, fcsOctets_length]
        omega
      · simp only [rruUnit, List.length_append, fcsOctets_length]
        omega
    · exact .inr (.inr rfl)

/-- What the assembled state has of s. -/
theorem State.assembled_same (s : State) (prof : Profile) (par : Parsed) (pkt : List Byte) (max : Nat)
    (t : U64) :
    (s.assembled prof par pkt max t).alive = s.alive ∧ (s.assembled prof par pkt max t).cfg = s.cfg
      ∧ (s.assembled prof par pkt max t).numPackets = s.numPackets
      ∧ (s.assembled prof par pkt max t).rru = s.rru
      ∧ (s.assembled prof par pkt max t).rtpPorts = s.rtpPorts
      ∧ (s.assembled prof par pkt max t).cmd = s.cmd
      ∧ (s.assembled prof par pkt max t).inBuf = s.inBuf
      ∧ (s.assembled prof par pkt max t).queue = s.queue
      ∧ (s.assembled prof par pkt max t).ctx.length = s.ctx.length := by
  obtain ⟨fb, sc, h⟩ := s.assembled_eq prof par pkt max t
  rw [h]
  cases hf : s.find prof (prof.key profileExt pkt par) with
  | some c =>
    rw [State.findOrCreate_some hf]
    exact ⟨rfl, rfl, rfl, rfl, rfl, rfl, rfl, rfl, rfl⟩
  | none =>
    rw [State.findOrCreate_none hf]
    exact ⟨rfl, rfl, rfl, rfl, rfl, rfl, rfl, rfl, by simp only [List.length_set]⟩

theorem exec_compress {s u : State} {t : U64} {inLen outMax : U32}
    (h : exec (.compress t inLen outMax) s = .next u) : CommandStep s (.compress t inLen outMax) u := by
  rcases execCompress_next h with ⟨e, he, rfl⟩ | ⟨pkt, par, prof, hA, h⟩
  · refine .failed _ _ ?_ ?_ <;> rcases he with rfl | rfl | rfl <;> decide
  · rw [State.compressAs_eq] at h
    obtain ⟨-, hcfg, -, hrru, -⟩ := s.assembled_same prof par pkt outMax.toNat t
    rcases (s.assembled prof par pkt outMax.toNat t).finishCompress_cases
        (s.pick prof (prof.key profileExt pkt par)).1 (s.pick prof (prof.key profileExt pkt par)).2
        (s.slot (s.pick prof (prof.key profileExt pkt par)).1) outMax.toNat
        (s.assembled prof par pkt outMax.toNat t).scr.hdrEnd t with
      ⟨out, ho, -, e⟩ | ⟨unit, h4, hm, -, e⟩ | e
    · rw [e] at h
      cases h
      rw [hrru]
      exact .sent t inLen outMax pkt par prof hA out ho
    · rw [e] at h
      cases h
      rw [hrru]
      rw [hcfg] at hm
      exact .segmented t inLen outMax pkt par prof hA unit h4 hm
    · rw [e] at h
      cases h
      exact .recovered t inLen outMax pkt par prof hA

/-! ## All commands -/

theorem State.deliver_cases (s : State) (el : List Byte) :
    s.deliver el = s
    ∨ ∃ cid c, s.slot cid = some c
        ∧ s.deliver el = { s with ctx := s.ctx.set cid (some { c with forceIr := true }) } := by
  rw [State.deliver]
  split
  · exact .inl rfl
  · rename_i cid body _
    split
    · exact .inl rfl
    · split
      · exact .inl rfl
      · split
        · exact .inl rfl
        · rename_i c hc
          split
          · exact .inl rfl
          · split
            · exact .inr ⟨cid, c, hc, rfl⟩
            · exact .inl rfl

/-- Every way a command answers a next state. -/
theorem exec_command {s t : State} {i : Instr} (hi : isCommand i = true) (h : exec i s = .next t) :
    CommandStep s i t := by
  cases i
  case compress => exact exec_compress h
  case getSegment => exact exec_getSegment h
  case profEnable => exact exec_config rfl h
  case profDisable => exact exec_config rfl h
  case setWlsb => exact exec_config rfl h
  case setRefresh => exact exec_config rfl h
  case setMrru => exact exec_config rfl h
  case rtpPortAdd port =>
    refine whenAlive_command h fun h => ?_
    split at h
    · cases h
      exact State.failed_of_raiseError _ _ _ (by decide) (by decide)
    · rename_i p hp
      split at h
      · cases h
        exact State.failed_of_raiseError _ _ _ (by decide) (by decide)
      · rename_i hc
        split at h <;> cases h
        · exact State.failed_of_raiseError _ _ _ (by decide) (by decide)
        · rename_i hl
          refine .portAdd port p (by simpa using hc) ?_ (Nat.lt_of_not_le hl)
          rw [portOperand] at hp
          split at hp
          · cases hp
          · rename_i hr
            rintro rfl
            have e := congrArg BitVec.toNat (Option.some.inj hp)
            rw [toNat_extract, show (0 : U16).toNat = 0 from rfl] at e
            omega
  case rtpPortRemove port =>
    refine whenAlive_command h fun h => ?_
    split at h
    · cases h
      exact State.failed_of_raiseError _ _ _ (by decide) (by decide)
    · split at h <;> cases h
      · rename_i hc
        exact .portRemove port _ (by simpa using hc)
      · exact State.failed_of_raiseError _ _ _ (by decide) (by decide)
  case rtpPortReset =>
    refine whenAlive_command h fun h => ?_
    cases h
    exact .portReset
  case fbPiggyback inLen =>
    refine whenAlive_command h fun h => ?_
    split at h
    · cases h
      exact State.failed_of_raiseError _ _ _ (by decide) (by decide)
    · rename_i hl
      split at h
      · cases h
        exact State.failed_of_raiseError _ _ _ (by decide) (by decide)
      · rename_i hf
        cases h
        have := s.input_length inLen
        exact .piggyback inLen _ (by omega) (this ▸ Nat.le_of_not_lt fun hm => hl (.inr hm))
          (by simpa using hf)
  case fbDeliver inLen =>
    refine whenAlive_command h fun h => ?_
    split at h
    · cases h
      exact State.failed_of_raiseError _ _ _ (by decide) (by decide)
    · cases h
      rcases s.deliver_cases (s.input inLen) with e | ⟨cid, c, hc, e⟩
      · rw [e]
        exact .ignored inLen
      · rw [e]
        exact .deliver inLen cid c hc
  case fbFlush outMax =>
    refine whenAlive_command h fun h => ?_
    cases h
    exact .flush outMax
  case fbAvail =>
    refine whenAlive_command h fun h => ?_
    cases h
    exact .avail
  case fbRemoveLocked =>
    refine whenAlive_command h fun h => ?_
    cases h
    exact .removeLocked
  case fbUnlock =>
    refine whenAlive_command h fun h => ?_
    cases h
    exact .unlock
  case reinit =>
    refine whenAlive_command h fun h => ?_
    cases h
    exact .reinit
  case rdCfg sel =>
    refine whenAlive_command h fun h => ?_
    split at h <;> cases h
    · exact State.failed_of_raiseError _ _ _ (by decide) (by decide)
    · exact .read sel _
  all_goals cases hi

end Sys2Proof.Machine
end

