-- ==== Sys2Proof/Laws/Parser.lean ====
section
/-!
SUPPORT. What the parser answers lies inside the packet: the octets of a header, the length of its
addresses, the transport part.
-/
namespace Sys2Proof.Machine
open Sys2Proof

/-- Octets of an address, by the version (41_frontend.md R150). -/
def addressLength (v : IpVersion) : Nat :=
  match v with
  | .v4 => 4
  | .v6 => 16

/-- A header that lies in the n octets from its address on. -/
structure HdrFits (off n : Nat) (h : IpHdr) : Prop where
  off : h.off = off
  hlen : h.hlen ≤ n
  src : h.src.length = addressLength h.version
  dst : h.dst.length = addressLength h.version

theorem parseOne_fits {pkt : List Byte} {off n : Nat} {h : IpHdr} (e : parseOne pkt off n = some h)
    (hn : off + n ≤ pkt.length) : HdrFits off n h := by
  simp only [parseOne] at e
  split at e
  · cases e
  · split at e
    · simp only [parseIpv4] at e
      repeat' split at e
      all_goals first
        | (cases e; done)
        | (cases e
           exact ⟨rfl, by simp only; omega, slice_length (by omega), slice_length (by omega)⟩)
    · simp only [parseIpv6] at e
      repeat' split at e
      all_goals first
        | (cases e; done)
        | (cases e
           exact ⟨rfl, by simp only; omega, slice_length (by omega), slice_length (by omega)⟩)
    · cases e

/-- The two forms of a parsed packet. -/
theorem parse_cases {pkt : List Byte} {p : Parsed} (e : parse pkt = some p) :
    (∃ h, p.hdrs = [h] ∧ HdrFits 0 pkt.length h)
    ∨ (∃ h0 h1, p.hdrs = [h0, h1] ∧ HdrFits 0 pkt.length h0
        ∧ HdrFits h0.hlen (pkt.length - h0.hlen) h1) := by
  simp only [parse] at e
  split at e
  · cases e
  · rename_i h0 e0
    have f0 := parseOne_fits e0 (by omega)
    split at e
    · split at e
      · cases e
      · rename_i h1 e1
        have f1 := parseOne_fits e1 (by have := f0.hlen; omega)
        split at e
        · cases e
        · cases e
          exact .inr ⟨h0, h1, rfl, f0, f1⟩
    · cases e
      exact .inl ⟨h0, rfl, f0⟩

theorem parse_nhdr {pkt : List Byte} {p : Parsed} (e : parse pkt = some p) : p.nhdr = 1 ∨ p.nhdr = 2 := by
  rcases parse_cases e with ⟨h, hh, -⟩ | ⟨h0, h1, hh, -⟩
  · exact .inl (by rw [Parsed.nhdr, hh]; rfl)
  · exact .inr (by rw [Parsed.nhdr, hh]; rfl)

theorem parse_addresses {pkt : List Byte} {p : Parsed} (e : parse pkt = some p) {h : IpHdr} (hm : h ∈ p.hdrs) :
    h.src.length = addressLength h.version ∧ h.dst.length = addressLength h.version := by
  rcases parse_cases e with ⟨h0, hh, f⟩ | ⟨h0, h1, hh, f0, f1⟩
  · rw [hh, List.mem_singleton] at hm
    subst hm
    exact ⟨f.src, f.dst⟩
  · rw [hh, List.mem_cons, List.mem_singleton] at hm
    rcases hm with rfl | rfl
    · exact ⟨f0.src, f0.dst⟩
    · exact ⟨f1.src, f1.dst⟩

theorem parse_tpOff {pkt : List Byte} {p : Parsed} (e : parse pkt = some p) : p.tpOff ≤ pkt.length := by
  rcases parse_cases e with ⟨h0, hh, f⟩ | ⟨h0, h1, hh, f0, f1⟩
  · have := f.hlen
    have := f.off
    simp only [Parsed.tpOff, hh, List.getLast?_singleton]
    omega
  · have := f0.hlen
    have := f1.hlen
    have := f1.off
    simp only [Parsed.tpOff, hh, List.getLast?_cons_cons, List.getLast?_singleton]
    omega

/-- A packet that the UDP check accepts has its eight octets of UDP header. -/
theorem checkUdp_fits {pkt : List Byte} {p : Parsed} (h : checkUdp pkt p = true) : p.tpOff + 8 ≤ pkt.length := by
  simp only [checkUdp, transportLen, Bool.and_eq_true] at h
  have := of_decide_eq_true h.1.2
  omega

end Sys2Proof.Machine
end

