-- ==== Sys2Proof/Laws/Invariant.lean ====
section
/-!
SUPPORT. The pieces of the invariant: the count of used slots under each update of the context array, the
windows and counters of a context after a packet, and the contexts after a commit.
-/
namespace Sys2Proof.Machine
open Sys2Proof

/-! ## The count of used slots (10_state.md R27, R28) -/

theorem State.CountOk.congr {s t : State} (h : s.CountOk) (h1 : t.ctx = s.ctx)
    (h2 : t.numContextsUsed = s.numContextsUsed) (h3 : t.cfg.maxCid = s.cfg.maxCid) : t.CountOk :=
  ⟨by rw [h1, h3]; exact h.size, by rw [h1, h2]; exact h.count⟩

theorem countP_set_some {l : List (Option Ctx)} {c : Nat} {v w : Ctx} (h : l[c]? = some (some v)) :
    (l.set c (some w)).countP Option.isSome = l.countP Option.isSome := by
  have hl : c < l.length := by
    by_contra hn
    rw [List.getElem?_eq_none (by omega)] at h
    cases h
  rw [List.getElem?_eq_getElem hl] at h
  have e : l[c] = some v := by injection h
  have : 0 < l.countP Option.isSome :=
    List.countP_pos_iff.mpr ⟨_, List.getElem_mem hl, by rw [e]; rfl⟩
  rw [List.countP_set hl, e]
  simp
  omega

/-- Writing a used slot of a used slot. -/
theorem State.CountOk.set {s t : State} {c : Nat} {v w : Ctx} (h : s.CountOk) (hv : s.slot c = some v)
    (h1 : t.ctx = s.ctx.set c (some w)) (h2 : t.numContextsUsed = s.numContextsUsed)
    (h3 : t.cfg.maxCid = s.cfg.maxCid) : t.CountOk :=
  ⟨by rw [h1, h3, List.length_set]; exact h.size,
   by rw [h1, h2, countP_set_some (State.slot_getElem hv)]; exact h.count⟩

/-- Destroying a used slot. -/
theorem State.CountOk.free {s t : State} {c : Nat} {v : Ctx} (h : s.CountOk) (hv : s.slot c = some v)
    (h1 : t.ctx = s.ctx.set c none) (h2 : t.numContextsUsed = s.numContextsUsed - 1)
    (h3 : t.cfg.maxCid = s.cfg.maxCid) : t.CountOk := by
  refine ⟨by rw [h1, h3, List.length_set]; exact h.size, ?_⟩
  have hl := State.slot_lt hv
  have hg := State.slot_getElem hv
  rw [List.getElem?_eq_getElem hl] at hg
  have e : s.ctx[c] = some v := by injection hg
  rw [h1, h2, List.countP_set hl, e, h.count]
  simp

/-- FIND_OR_CREATE keeps the count, and the slot it answers is used. -/
theorem State.CountOk.findOrCreate {s : State} (h : s.CountOk) (prof : Profile) (key : Key) (par : Parsed)
    (pkt : List Byte) (t : U64) :
    (s.findOrCreate profileExt prof key par pkt t).CountOk
      ∧ ∃ v, (s.findOrCreate profileExt prof key par pkt t).slot (s.pick prof key).1 = some v := by
  have hl : 0 < s.ctx.length := by rw [h.size]; omega
  cases hf : s.find prof key with
  | some c =>
    rw [State.findOrCreate_some hf, State.pick, hf]
    obtain ⟨v, hv, -⟩ := State.find_some hf
    exact ⟨h, v, hv⟩
  | none =>
    rw [State.findOrCreate_none hf, State.pick, hf]
    have hal := State.allocate_lt hl
    refine ⟨⟨by simp only [List.length_set]; exact h.size, ?_⟩, ?_⟩
    · simp only
      by_cases ha : s.allocate.2 = true
      · rw [if_pos ha]
        have := State.allocate_full ha _ (List.getElem_mem hal)
        have hp : 0 < s.ctx.countP Option.isSome :=
          List.countP_pos_iff.mpr ⟨_, List.getElem_mem hal, this⟩
        rw [List.countP_set hal, this, h.count]
        simp
      · rw [if_neg ha]
        have := (State.allocate_free (by simpa using ha)).2
        rw [List.getElem?_eq_getElem hal] at this
        have e : s.ctx[s.allocate.1] = none := by injection this
        rw [List.countP_set hal, e, h.count]
        simp
    · exact ⟨_, (State.slot_set rfl _).trans (if_pos ⟨rfl, hal⟩)⟩

theorem countP_destroyPort (p : U16) (l : List (Option Ctx)) :
    l.countP Option.isSome = l.countP (slotUsesPort p)
      + (l.map fun v => if slotUsesPort p v = true then none else v).countP Option.isSome := by
  induction l with
  | nil => rfl
  | cons v l ih =>
    simp only [List.countP_cons, List.map_cons, ih]
    cases hv : slotUsesPort p v with
    | true =>
      have : v.isSome = true := by
        cases v with
        | none => simp [slotUsesPort] at hv
        | some _ => rfl
      simp [this]
      omega
    | false =>
      simp
      omega

/-! ## Windows (40_primitives.md R124, 43_packet_type.md R202) -/

theorem satInc_le (n : Nat) : satInc n ≤ Config.cntMax := Nat.min_le_right _ _

theorem satInc_le_succ (n : Nat) : satInc n ≤ n + 1 := Nat.min_le_left _ _

theorem satInc_pos (n : Nat) : 0 < satInc n := by
  simp only [satInc, Config.cntMax]
  omega

theorem min_satInc {n width : Nat} (hm : width ≤ 64) :
    min (satInc n) width = min (min n width + 1) width := by
  simp only [satInc, Config.cntMax]
  omega

theorem Window.add_count {w : Window} {v : U16} {n width : Nat} (hw : 0 < width) (hm : width ≤ 64)
    (h : w.count = min n width) : (w.add width v).count = min (satInc n) width := by
  rw [min_satInc hm]
  simp only [Window.add, Window.count] at *
  by_cases hf : w.refs.length = width
  · simp [hf]
    omega
  · simp [hf]
    omega

theorem snRun_succ (sn : U16) (k : Nat) : snRun (sn + 1) (k + 1) = snRun sn k ++ [sn + 1] := by
  simp only [snRun, List.range_succ, List.map_append, List.map_cons, List.map_nil]
  congr 1
  · apply List.map_congr_left
    intro i hi
    rw [List.mem_range] at hi
    rw [show k + 1 - 1 - i = (k - 1 - i) + 1 by omega]
    generalize k - 1 - i = j
    rw [BitVec.ofNat_add]
    generalize BitVec.ofNat 16 j = x
    bv_omega
  · simp

theorem snRun_drop (sn : U16) (k : Nat) : (snRun sn (k + 1)).drop 1 = snRun sn k := by
  simp only [snRun, List.range_succ_eq_map, List.map_cons, List.drop_succ_cons, List.drop_zero,
    List.map_map]
  apply List.map_congr_left
  intro i hi
  rw [List.mem_range] at hi
  simp only [Function.comp]
  congr 2
  omega

/-- The window of the SN after the next SN. -/
theorem Window.add_snRun {w : Window} {sn : U16} {n width : Nat} (hw : 0 < width) (hm : width ≤ 64)
    (h : w.refs = snRun sn (min n width)) :
    (w.add width (sn + 1)).refs = snRun (sn + 1) (min (satInc n) width) := by
  have hc : w.count = min n width := by
    rw [Window.count, h]
    simp [snRun]
  rw [Window.add, min_satInc hm]
  simp only [hc, h]
  by_cases hf : min n width = width
  · rw [if_pos hf, hf, show min (width + 1) width = (width - 1) + 1 by omega, snRun_succ,
      show width = (width - 1) + 1 by omega, snRun_drop]
    rfl
  · rw [if_neg hf, show min (min n width + 1) width = min n width + 1 by omega, snRun_succ]

/-! ## Header records -/

theorem flagCount_le (a b : Bool) (c : Nat) : flagCount a b c ≤ Config.cntMax := by
  rw [flagCount]
  split
  · exact satInc_le _
  · exact Nat.zero_le _

theorem updateHdrs_ok {width n : Nat} {first : Bool} (hw : 0 < width) (hm : width ≤ 64) (ns : List IpHdr)
    (hs : List HdrScratch) (xs : List CtxHdr) (hx : ∀ x ∈ xs, x.Ok width n) :
    ∀ y ∈ updateHdrs width ns hs ((detectHdrs first ns xs).map fun d => d.hdr), y.Ok width (satInc n) := by
  induction ns generalizing hs xs with
  | nil => intro y hy; simp [updateHdrs] at hy
  | cons a ns ih =>
    cases xs with
    | nil => cases hs <;> (intro y hy; simp [detectHdrs, updateHdrs] at hy)
    | cons x xs =>
      cases hs with
      | nil => intro y hy; simp [updateHdrs] at hy
      | cons h hs =>
        intro y hy
        simp only [detectHdrs, List.map_cons, updateHdrs, List.mem_cons] at hy
        rcases hy with rfl | hy
        · have := hx x (by simp)
          rcases x with ⟨t, l, p, _ | v⟩
          · trivial
          · simp only [CtxHdr.Ok] at this
            simp only [detectHdr, CtxHdr.update, CtxHdr.Ok, Option.map_some, Ip4Rec.observe]
            exact ⟨Window.add_count hw hm this.1, flagCount_le _ _ _, flagCount_le _ _ _,
              flagCount_le _ _ _⟩
        · exact ih hs xs (fun x hx' => hx x (List.mem_cons_of_mem _ hx')) y hy

theorem updateHdrs_versions {width : Nat} (ns : List IpHdr) (hs : List HdrScratch) (xs : List CtxHdr)
    (h1 : ns.length = xs.length) (h2 : hs.length = xs.length) :
    (updateHdrs width ns hs xs).map CtxHdr.version = xs.map CtxHdr.version := by
  induction ns generalizing hs xs with
  | nil =>
    cases xs with
    | nil => rfl
    | cons => cases h1
  | cons a ns ih =>
    cases xs with
    | nil => cases h1
    | cons x xs =>
      cases hs with
      | nil => cases h2
      | cons h hs =>
        simp only [updateHdrs, List.map_cons, ih hs xs (Nat.succ.inj h1) (Nat.succ.inj h2)]
        congr 1
        rcases x with ⟨t, l, p, _ | v⟩ <;> rfl

/-! ## Counters (42_state_machine.md R185, R189) -/

/-- The counters after a decision, before the packet counts: room for one more. -/
structure CountersOk (cfg : Cfg) (st : CtxState) (g : Generic) : Prop where
  fo : g.goBackFo ≤ cfg.foTimeout.toNat - (if st = .so then 1 else 0)
  foSo : st ≠ .so → g.goBackFo = 0
  ir : g.goBackIr ≤ cfg.irTimeout.toNat - (if st = .ir then 0 else 1)
  irIr : st = .ir → g.goBackIr = 0

theorem decideArm_counters {cfg : Cfg} {c : Ctx} {g : Generic} {sc : Scratch} (hc : cfg.Ok)
    (b1 : g.goBackFo ≤ cfg.foTimeout.toNat) (b2 : c.state ≠ .so → g.goBackFo = 0)
    (b3 : g.goBackIr ≤ cfg.irTimeout.toNat) (b4 : c.state = .ir → g.goBackIr = 0) :
    CountersOk cfg (decideArm cfg c g sc).1
      (restartCounters c.state (decideArm cfg c g sc).1 (decideArm cfg c g sc).2 g) := by
  have r1 := hc.refresh
  have r2 := hc.refreshPos
  have toIr : CountersOk cfg .ir (restartCounters c.state .ir true g) := by
    rw [restartCounters, if_pos (.inr rfl)]
    exact ⟨Nat.zero_le _, fun _ => rfl, Nat.zero_le _, fun _ => rfl⟩
  have change : ∀ st d b, c.state = st → st ≠ d → d ≠ .ir → g.goBackIr < cfg.irTimeout.toNat →
      CountersOk cfg d (restartCounters c.state d b g) := by
    intro st d b h1 h2 h3 h4
    subst h1
    rw [restartCounters, if_pos (.inl fun h => h2 h.symm)]
    refine ⟨Nat.zero_le _, fun _ => rfl, ?_, fun h => absurd h h3⟩
    simp only [h3, if_false]
    omega
  have lt : ¬(c.state ≠ .ir ∧ g.goBackIr ≥ cfg.irTimeout.toNat) → g.goBackIr < cfg.irTimeout.toNat := by
    intro h
    by_cases hs : c.state = .ir
    · rw [b4 hs]
      omega
    · by_contra hn
      exact h ⟨hs, by omega⟩
  rw [decideArm]
  split
  · exact toIr
  split
  · exact toIr
  split
  · exact toIr
  rename_i h3
  have h3 := lt h3
  split
  · rename_i h
    exact change _ _ _ h.1 (by decide) (by decide) h3
  rename_i h4
  split
  · rename_i h
    exact change _ _ _ h.1 (by decide) (by decide) h3
  split
  · rename_i h
    exact change _ _ _ h.1 (by decide) (by decide) h3
  split
  · rename_i h
    exact change _ _ _ h.1 (by decide) (by decide) h3
  have : restartCounters c.state c.state false g = g := by
    rw [restartCounters, if_neg (by simp)]
  show CountersOk cfg c.state (restartCounters c.state c.state false g)
  rw [this]
  refine ⟨?_, b2, ?_, b4⟩
  · split
    · rename_i hs
      by_contra hn
      exact h4 ⟨hs, by omega⟩
    · omega
  · split <;> omega

theorem restartCounters_le {st next : CtxState} {reset : Bool} {g : Generic} {n : Nat}
    (h1 : g.irCount ≤ n) (h2 : g.foCount ≤ n) :
    (restartCounters st next reset g).irCount ≤ n ∧ (restartCounters st next reset g).foCount ≤ n := by
  rw [restartCounters]
  split
  · exact ⟨Nat.zero_le _, Nat.zero_le _⟩
  · exact ⟨h1, h2⟩

/-- A packet counted in the state it was built in. -/
theorem countPacket_fields (st : CtxState) (g : Generic) :
    (countPacket st g).sn = g.sn ∧ (countPacket st g).winSn = g.winSn
      ∧ (countPacket st g).hdrs = g.hdrs := by
  cases st <;> exact ⟨rfl, rfl, rfl⟩

/-! ## A block after a packet -/

theorem Cfg.Ok.width_bounds {c : Cfg} (h : c.Ok) : 0 < c.wlsbWidth.toNat ∧ c.wlsbWidth.toNat ≤ 64 := by
  have := h.width
  simp at this
  omega

/-- The header records after the packet, as the engine leaves them. -/
theorem Prepared.hdrs_versions {cfg : Cfg} {sc p : Scratch} {g : Generic} {d : CtxState × Bool}
    (P : Prepared cfg sc g d p) (hv : g.hdrs.map CtxHdr.version = sc.par.hdrs.map IpHdr.version) (width : Nat) :
    (updateHdrs width sc.par.hdrs p.hs (sc.detected g).hdrs).map CtxHdr.version
      = g.hdrs.map CtxHdr.version := by
  have hlen : sc.par.hdrs.length = g.hdrs.length := by
    have := congrArg List.length hv
    simpa using this.symm
  have hdl : ((detectHdrs sc.ctx.isFirst sc.par.hdrs g.hdrs).map fun d => d.hdr).length = g.hdrs.length := by
    rw [List.length_map, detectHdrs_length]
    omega
  have hhs : p.hs.length = g.hdrs.length := by
    rw [P.hs, idBitsAll_length]
    · exact hlen
    · exact hlen.trans hdl.symm
    · rw [List.length_map, detectHdrs_length]
      omega
  rw [updateHdrs_versions]
  · exact detectHdrs_versions _ hlen
  · exact hlen.trans hdl.symm
  · exact hhs.trans hdl.symm

/-- The block after a packet is as good as before it. -/
theorem Prepared.block_ok {cfg : Cfg} {sc p : Scratch} {g : Generic} {d : CtxState × Bool}
    (P : Prepared cfg sc g d p) (hc : cfg.Ok) (G : g.Ok cfg sc.ctx.numSent sc.ctx.state)
    (hv : g.hdrs.map CtxHdr.version = sc.par.hdrs.map IpHdr.version) :
    Generic.Ok cfg (satInc sc.ctx.numSent) d.1
      (countPacket d.1 { restartCounters sc.ctx.state d.1 d.2 (sc.detected g) with
        sn := g.sn + 1
        winSn := g.winSn.add cfg.wlsbWidth.toNat (g.sn + 1)
        hdrs := updateHdrs cfg.wlsbWidth.toNat sc.par.hdrs p.hs (sc.detected g).hdrs }) := by
  obtain ⟨w0, w1⟩ := hc.width_bounds
  have hn : (updateHdrs cfg.wlsbWidth.toNat sc.par.hdrs p.hs (sc.detected g).hdrs).length = 1
      ∨ (updateHdrs cfg.wlsbWidth.toNat sc.par.hdrs p.hs (sc.detected g).hdrs).length = 2 := by
    have := congrArg List.length (P.hdrs_versions hv cfg.wlsbWidth.toNat)
    simp only [List.length_map] at this
    rw [this]
    exact G.nhdr
  have hwin := Window.add_snRun (w := g.winSn) w0 w1 G.window
  have hhd := updateHdrs_ok (first := sc.ctx.isFirst) w0 w1 sc.par.hdrs p.hs g.hdrs G.hdrs
  obtain ⟨c1, c2⟩ := restartCounters_le (st := sc.ctx.state) (next := d.1) (reset := d.2)
    (g := sc.detected g) G.irCount G.foCount
  have K : CountersOk cfg d.1 (restartCounters sc.ctx.state d.1 d.2 (sc.detected g)) := by
    rw [P.decision]
    exact decideArm_counters (g := sc.detected g) hc G.goBackFo G.goBackFoSo G.goBackIr G.goBackIrIr
  have r1 := hc.refresh
  have r2 := hc.refreshPos
  obtain ⟨k1, k2, k3, k4⟩ := K
  generalize restartCounters sc.ctx.state d.1 d.2 (sc.detected g) = r at *
  generalize d.1 = st at *
  cases st with
  | ir =>
    rw [if_neg (by decide)] at k1
    rw [if_pos rfl] at k3
    exact ⟨hn, hwin, hhd, satInc_le _, c2, k1, k2, k3, k4⟩
  | fo =>
    rw [if_neg (by decide)] at k1 k3
    refine ⟨hn, hwin, hhd, c1, satInc_le _, k1, k2, ?_, fun h => by cases h⟩
    refine Nat.le_trans (satInc_le_succ r.goBackIr) ?_
    generalize cfg.irTimeout.toNat = y at *
    omega
  | so =>
    rw [if_pos rfl] at k1
    rw [if_neg (by decide)] at k3
    refine ⟨hn, hwin, hhd, c1, c2, ?_, fun h => absurd rfl h, ?_, fun h => by cases h⟩
    · refine Nat.le_trans (satInc_le_succ r.goBackFo) ?_
      generalize cfg.foTimeout.toNat = y at *
      omega
    · refine Nat.le_trans (satInc_le_succ r.goBackIr) ?_
      generalize cfg.irTimeout.toNat = y at *
      omega

/-! ## The context under work -/

/-- A context under work: a good context, or a new one with no committed packet. -/
structure Ctx.Working (cfg : Cfg) (cid : Nat) (c : Ctx) : Prop where
  cid : c.cid = cid
  mode : c.mode = .u
  shape : c.ShapeOk
  sentMax : c.numSent ≤ Config.cntMax
  generic : ∀ g, c.block = .generic g → g.Ok cfg c.numSent c.state

theorem Profile.key_versions {prof : Profile} {pkt : List Byte} {par : Parsed} {ks : List KeyHdr}
    {src dst : U16}
    (h : prof.key profileExt pkt par = .ip ks ∨ prof.key profileExt pkt par = .udp ks src dst) :
    ks.map KeyHdr.version = par.hdrs.map IpHdr.version := by
  cases prof <;> simp only [Profile.key, profileExt] at h <;> rcases h with h | h <;> cases h <;>
    simp [Parsed.keyHdrs, List.map_map, Function.comp_def]

/-- A context with the key of the packet has the packet's header versions. -/
theorem Ctx.ShapeOk.versions {v : Ctx} {g : Generic} {prof : Profile} {pkt : List Byte} {par : Parsed}
    (h : v.ShapeOk) (hk : v.key = prof.key profileExt pkt par) (hb : v.block = .generic g) :
    g.hdrs.map CtxHdr.version = par.hdrs.map IpHdr.version := by
  simp only [Ctx.ShapeOk] at h
  split at h
  · rename_i _ _ h3
    rw [h3] at hb
    cases hb
  · rename_i ks g' h1 h2 h3
    rw [h3] at hb
    cases hb
    rw [h, Profile.key_versions (src := 0) (dst := 0) (.inl (hk ▸ h2))]
  · rename_i ks a b g' h1 h2 h3
    rw [h3] at hb
    cases hb
    rw [h, Profile.key_versions (.inr (hk ▸ h2))]
  · exact h.elim

theorem Ctx.ShapeOk.generic {v : Ctx} (h : v.ShapeOk) (hp : v.profile ≠ .uncompressed) :
    ∃ g, v.block = .generic g := by
  simp only [Ctx.ShapeOk] at h
  split at h
  · rename_i h1 _ _
    exact absurd h1 hp
  · rename_i g _ _ hg
    exact ⟨_, hg⟩
  · rename_i g _ _ hg
    exact ⟨_, hg⟩
  · exact h.elim

theorem State.fresh_working {s : State} {prof : Profile} {par : Parsed} {pkt : List Byte}
    (ha : prof.admitted = true) (hp : parse pkt = some par) (t : U64) :
    Ctx.Working s.cfg s.allocate.1 (s.fresh prof (prof.key profileExt pkt par) par pkt t) := by
  have hgen : ∀ g, (s.fresh prof (prof.key profileExt pkt par) par pkt t).block = .generic g →
      g = { sn := s.rand16 - 1, hdrs := createHdrs s.draws 0 par.hdrs, winSn := Window.empty,
            irCount := 0, foCount := 0, goBackFo := 0, goBackIr := 0, udpCk := false } := by
    intro g hg
    simp only [State.fresh] at hg
    by_cases hu : prof = .uncompressed
    · subst hu
      cases hg
    · rw [Block.create_generic ha hu] at hg
      injection hg with hg
      exact hg.symm
  refine ⟨rfl, rfl, ?_, Nat.zero_le _, ?_⟩
  · cases prof <;> first
      | (cases ha; done)
      | rfl
      | (simp only [Ctx.ShapeOk, State.fresh, Profile.key, Block.create, createHdrs_versions,
          Parsed.keyHdrs, List.map_map]
         rfl)
  · intro g hg
    rw [hgen g hg]
    refine ⟨?_, ?_, ?_, Nat.zero_le _, Nat.zero_le _, Nat.zero_le _, fun _ => rfl, Nat.zero_le _,
      fun _ => rfl⟩
    · have e := congrArg List.length (createHdrs_versions s.draws 0 par.hdrs)
      rw [List.length_map, List.length_map] at e
      simp only [e]
      exact parse_nhdr hp
    · simp [Window.empty, State.fresh, snRun]
    · intro h hh
      simp only [CtxHdr.Ok]
      split
      · rename_i x hx
        obtain ⟨-, -, -, h1, h2, h3, h4⟩ := createHdrs_mem hh hx
        rw [h1, h2, h3, h4]
        exact ⟨by simp [Window.empty, Window.count, State.fresh], Nat.zero_le _, Nat.zero_le _,
          Nat.zero_le _⟩
      · trivial

/-- The working copy of a living state: a stored context, or a new one. -/
theorem State.working_cases {s : State} (hs : s.Live) (prof : Profile) (par : Parsed) (pkt : List Byte)
    (t : U64) :
    (∃ c v, s.find prof (prof.key profileExt pkt par) = some c ∧ s.slot c = some v ∧ v.Ok s.cfg c
      ∧ v.profile = prof ∧ v.key = prof.key profileExt pkt par ∧ s.working prof par pkt t = v)
    ∨ (s.find prof (prof.key profileExt pkt par) = none
      ∧ s.working prof par pkt t = s.fresh prof (prof.key profileExt pkt par) par pkt t) := by
  have hl : 0 < s.ctx.length := by rw [hs.count.size]; omega
  cases h : s.find prof (prof.key profileExt pkt par) with
  | some c =>
    obtain ⟨v, hv, hp, hk⟩ := State.find_some h
    exact .inl ⟨c, v, rfl, hv, hs.slots _ _ hv, hp, hk, State.working_find h hv t⟩
  | none => exact .inr ⟨rfl, State.working_fresh h hl t⟩

/-- The context that a commit writes: good, with the profile and the key it had. -/
theorem Scratch.sent_ok {cfg : Cfg} {sc : Scratch} {cid : Nat} {prof : Profile} {pkt : List Byte}
    (hc : cfg.Ok) (h : sc.ctx.Working cfg cid) (hk : sc.ctx.key = prof.key profileExt pkt sc.par) (t : U64) :
    Ctx.Ok cfg cid { (sc.buildHeader cfg).ctx with
        numSent := satInc (sc.buildHeader cfg).ctx.numSent, latestUsed := t }
      ∧ (sc.buildHeader cfg).ctx.key = sc.ctx.key
      ∧ (sc.buildHeader cfg).ctx.profile = sc.ctx.profile := by
  cases hb : sc.ctx.block with
  | generic g =>
    have hv := h.shape.versions hk hb
    obtain ⟨d, p, P, e⟩ := Scratch.buildHeader_generic cfg hb
    have k1 := P.block_ok hc (h.generic g hb) hv
    have k2 := P.hdrs_versions hv cfg.wlsbWidth.toNat
    rw [e]
    refine ⟨⟨h.cid, h.mode, ?_, satInc_pos _, satInc_le _, ?_⟩, rfl, rfl⟩
    · have hs := h.shape
      have k3 := (congrArg (List.map CtxHdr.version) (countPacket_fields d.1
        { restartCounters sc.ctx.state d.1 d.2 (sc.detected g) with
          sn := g.sn + 1
          winSn := g.winSn.add cfg.wlsbWidth.toNat (g.sn + 1)
          hdrs := updateHdrs cfg.wlsbWidth.toNat sc.par.hdrs p.hs (sc.detected g).hdrs }).2.2).trans k2
      simp only [Ctx.ShapeOk, hb] at hs ⊢
      generalize countPacket d.1 _ = x at *
      revert hs
      cases sc.ctx.profile <;> cases sc.ctx.key <;> first
        | exact fun h => h
        | exact fun h => k3.trans h
    · intro g' hg'
      injection hg' with hg'
      rw [← hg']
      exact k1
  | empty =>
    have := Scratch.buildHeader_other cfg (sc := sc) (by simp [Ctx.generic?, hb])
    rw [this]
    exact ⟨⟨h.cid, h.mode, h.shape, satInc_pos _, satInc_le _, fun g hg => by rw [hb] at hg; cases hg⟩,
      rfl, rfl⟩
  | ext l =>
    have hs := h.shape
    simp only [Ctx.ShapeOk, hb] at hs
    split at hs <;> first
      | exact hs.elim
      | (rename_i h; cases h)

/-! ## The RRU (46_segmenter.md R285) -/

theorem Rru.Ok.advance {r : Rru} {m n : Nat} (h : r.Ok m) (hn : n ≤ r.len) : (r.advance n).Ok m := by
  have := h.bound
  refine ⟨?_, ?_, ?_⟩
  · simp only [Rru.advance]
    split <;> omega
  · intro h0
    simp only [Rru.advance] at h0 ⊢
    rw [if_pos (by omega)]
  · intro i hi
    simp only [Rru.advance] at hi ⊢
    rw [if_neg (by omega), Nat.add_assoc]
    exact h.written _ (by omega)

end Sys2Proof.Machine
end

