-- ==== Sys2Proof/Laws/PerInstr.lean ====
section
/-!
SUPPORT. The round trip of the encoding, one lemma per instruction: a well-formed instruction's words
decode to it, whole.
-/
namespace Sys2Proof.Laws.RoundTrip
open Sys2Proof

/-- Decoding the words of i gives i back, with nothing left over. -/
def Statement (i : Instr) : Prop := i.wellFormed = true → decode (encode i) = .ok (i, [])

theorem compress (t : U64) (inLen outMax : U32) : Statement (.compress t inLen outMax) := fun _ => rfl
theorem getSegment (outMax : U32) : Statement (.getSegment outMax) := fun _ => rfl
theorem profEnable (a : U32) : Statement (.profEnable a) := fun _ => rfl
theorem profDisable (a : U32) : Statement (.profDisable a) := fun _ => rfl
theorem setWlsb (width : U32) : Statement (.setWlsb width) := fun _ => rfl
theorem setRefresh (ir fo : U32) : Statement (.setRefresh ir fo) := fun _ => rfl
theorem setMrru (bytes : U32) : Statement (.setMrru bytes) := fun _ => rfl
theorem rtpPortAdd (port : U32) : Statement (.rtpPortAdd port) := fun _ => rfl
theorem rtpPortRemove (port : U32) : Statement (.rtpPortRemove port) := fun _ => rfl
theorem rtpPortReset : Statement .rtpPortReset := fun _ => rfl
theorem fbPiggyback (inLen : U32) : Statement (.fbPiggyback inLen) := fun _ => rfl
theorem fbDeliver (inLen : U32) : Statement (.fbDeliver inLen) := fun _ => rfl
theorem fbFlush (outMax : U32) : Statement (.fbFlush outMax) := fun _ => rfl
theorem fbAvail : Statement .fbAvail := fun _ => rfl
theorem fbRemoveLocked : Statement .fbRemoveLocked := fun _ => rfl
theorem fbUnlock : Statement .fbUnlock := fun _ => rfl
theorem reinit : Statement .reinit := fun _ => rfl
theorem rdCfg (sel : U32) : Statement (.rdCfg sel) := fun _ => rfl

theorem uo0 (sn : BitVec 4) (crc : BitVec 3) : Statement (.uo0 sn crc) := by
  revert sn crc; unfold Statement; decide +kernel

theorem uo1 (ipid : BitVec 6) (sn : BitVec 5) (crc : BitVec 3) : Statement (.uo1 ipid sn crc) := by
  have h1 : ∀ i : BitVec 6, ¬ (Wire.uo1First i).toNat < 0x80 ∧ (Wire.uo1First i).toNat < 0xC0
      ∧ (Wire.uo1First i).extractLsb' 0 6 = i := by decide +kernel
  have h2 : ∀ (s : BitVec 5) (c : BitVec 3), (Wire.uo1Second s c).extractLsb' 3 5 = s
      ∧ (Wire.uo1Second s c).extractLsb' 0 3 = c := by decide +kernel
  intro _
  simp [encode, decode, decodeWire, decodeUnit, h1 ipid, h2 sn crc]

theorem uor2 (sn : BitVec 5) (x : BitVec 1) (crc : BitVec 7) : Statement (.uor2 sn x crc) := by
  have h1 : ∀ i : BitVec 5, ¬ (Wire.uor2First i).toNat < 0x80 ∧ ¬ (Wire.uor2First i).toNat < 0xC0
      ∧ (Wire.uor2First i).toNat < 0xE0 ∧ (Wire.uor2First i).extractLsb' 0 5 = i := by decide +kernel
  have h2 : ∀ (s : BitVec 1) (c : BitVec 7), (Wire.uor2Second s c).extractLsb' 7 1 = s
      ∧ (Wire.uor2Second s c).extractLsb' 0 7 = c := by decide +kernel
  intro _
  simp [encode, decode, decodeWire, decodeUnit, h1 sn, h2 x crc]

theorem addCid (cid : BitVec 4) : Statement (.addCid cid) := by
  revert cid; unfold Statement; decide +kernel

theorem feedbackShort (len : BitVec 3) : Statement (.feedbackShort len) := by
  revert len; unfold Statement; decide +kernel

theorem feedbackLong (len : BitVec 8) : Statement (.feedbackLong len) := fun _ => rfl

theorem irDyn : Statement .irDyn := fun _ => rfl
theorem normal : Statement .normal := fun _ => rfl
theorem ir : Statement .ir := fun _ => rfl

theorem segment (final : BitVec 1) : Statement (.segment final) := by
  revert final; unfold Statement; decide +kernel

theorem ext0 (sn ipid : BitVec 3) : Statement (.ext0 sn ipid) := by
  revert sn ipid; unfold Statement; decide +kernel

/-- A field cut in two neighbouring slices and put together again. -/
theorem join11 (v : BitVec 11) : (v.extractLsb' 8 3 ++ v.extractLsb' 0 8 : BitVec 11) = v := by
  rw [BitVec.extractLsb'_append_extractLsb'_eq_extractLsb' (by rfl)]
  exact BitVec.extractLsb'_eq_self

theorem join14 (v : BitVec 14) : (v.extractLsb' 8 6 ++ v.extractLsb' 0 8 : BitVec 14) = v := by
  rw [BitVec.extractLsb'_append_extractLsb'_eq_extractLsb' (by rfl)]
  exact BitVec.extractLsb'_eq_self

theorem join21 (v : BitVec 21) :
    (v.extractLsb' 16 5 ++ v.extractLsb' 8 8 ++ v.extractLsb' 0 8 : BitVec 21) = v := by
  rw [BitVec.extractLsb'_append_extractLsb'_eq_extractLsb' (by rfl),
    BitVec.extractLsb'_append_extractLsb'_eq_extractLsb' (by rfl)]
  exact BitVec.extractLsb'_eq_self

theorem join29 (v : BitVec 29) :
    (v.extractLsb' 24 5 ++ v.extractLsb' 16 8 ++ v.extractLsb' 8 8 ++ v.extractLsb' 0 8 : BitVec 29)
      = v := by
  rw [BitVec.extractLsb'_append_extractLsb'_eq_extractLsb' (by rfl),
    BitVec.extractLsb'_append_extractLsb'_eq_extractLsb' (by rfl),
    BitVec.extractLsb'_append_extractLsb'_eq_extractLsb' (by rfl)]
  exact BitVec.extractLsb'_eq_self

theorem ext1 (sn : BitVec 3) (ipid : BitVec 11) : Statement (.ext1 sn ipid) := by
  have h : ∀ (s i : BitVec 3), ¬ (1#2 ++ s ++ i).toNat < 0x40 ∧ (1#2 ++ s ++ i).toNat < 0x80
      ∧ (1#2 ++ s ++ i).extractLsb' 3 3 = s ∧ (1#2 ++ s ++ i).extractLsb' 0 3 = i := by decide +kernel
  intro _
  obtain ⟨ha, hb, hc, hd⟩ := h sn (ipid.extractLsb' 8 3)
  simp only [encode, decode, decodeWire, Wire.ext1, decodeExtension]
  rw [if_neg ha, if_pos hb, hc, hd, join11]

theorem ext2 (sn : BitVec 3) (ipid2 : BitVec 11) (ipid : BitVec 8) : Statement (.ext2 sn ipid2 ipid) := by
  have h : ∀ (s i : BitVec 3), ¬ (2#2 ++ s ++ i).toNat < 0x40 ∧ ¬ (2#2 ++ s ++ i).toNat < 0x80
      ∧ (2#2 ++ s ++ i).toNat < 0xC0 ∧ (2#2 ++ s ++ i).extractLsb' 3 3 = s
      ∧ (2#2 ++ s ++ i).extractLsb' 0 3 = i := by decide +kernel
  intro _
  obtain ⟨ha, hb, hc, hd, he⟩ := h sn (ipid2.extractLsb' 8 3)
  simp only [encode, decode, decodeWire, Wire.ext2, decodeExtension]
  rw [if_neg ha, if_neg hb, if_pos hc, hd, he, join11]

theorem ext3 (s : BitVec 1) (mode : BitVec 2) (i ip ip2 : BitVec 1) : Statement (.ext3 s mode i ip ip2) := by
  revert s mode i ip ip2; unfold Statement; decide +kernel

theorem sdvl1 (v : BitVec 7) : Statement (.sdvl1 v) := by
  revert v; unfold Statement; decide +kernel

theorem sdvl2 (v : BitVec 14) : Statement (.sdvl2 v) := by
  have h : ∀ i : BitVec 6, ¬ (2#2 ++ i).toNat < 0x80 ∧ (2#2 ++ i).toNat < 0xC0
      ∧ (2#2 ++ i).extractLsb' 0 6 = i := by decide +kernel
  intro _
  obtain ⟨ha, hb, hc⟩ := h (v.extractLsb' 8 6)
  simp only [encode, decode, decodeWire, Wire.sdvl2, decodeValue]
  rw [if_neg ha, if_pos hb, hc, join14]

theorem sdvl3 (v : BitVec 21) : Statement (.sdvl3 v) := by
  have h : ∀ i : BitVec 5, ¬ (6#3 ++ i).toNat < 0x80 ∧ ¬ (6#3 ++ i).toNat < 0xC0
      ∧ (6#3 ++ i).toNat < 0xE0 ∧ (6#3 ++ i).extractLsb' 0 5 = i := by decide +kernel
  intro _
  obtain ⟨ha, hb, hc, hd⟩ := h (v.extractLsb' 16 5)
  simp only [encode, decode, decodeWire, Wire.sdvl3, decodeValue]
  rw [if_neg ha, if_neg hb, if_pos hc, hd, join21]

theorem sdvl4 (v : BitVec 29) : Statement (.sdvl4 v) := by
  have h : ∀ i : BitVec 5, ¬ (7#3 ++ i).toNat < 0x80 ∧ ¬ (7#3 ++ i).toNat < 0xC0
      ∧ ¬ (7#3 ++ i).toNat < 0xE0 ∧ (7#3 ++ i).extractLsb' 0 5 = i := by decide +kernel
  intro _
  obtain ⟨ha, hb, hc, hd⟩ := h (v.extractLsb' 24 5)
  simp only [encode, decode, decodeWire, Wire.sdvl4, decodeValue]
  rw [if_neg ha, if_neg hb, if_neg hc, hd, join29]

end Sys2Proof.Laws.RoundTrip
end

