-- ==== Sys2Proof/Tests/Slice0.lean ====
section
/-!
SUPPORT. Tests of the model, each against the spec's own words or vectors (the comment names them), and a
witness for every statement that has hypotheses.
-/
namespace Sys2Proof.Tests
open Sys2Proof Sys2Proof.Machine

set_option Elab.async false

/-! ## Helpers -/

/-- Status, error class and bytes of OUT after a step. -/
def reply (o : Host.Outcome State Fault Refusal) : Option (Nat × Nat × List Byte) :=
  match o with
  | .next t => some (t.rsp.status.toNat, t.rsp.errc.toNat, t.outBuf.map fun c => c.2)
  | _ => none

/-- A projection of the next state. -/
def look {α : Type} (f : State → α) (o : Host.Outcome State Fault Refusal) : Option α :=
  match o with
  | .next t => some (f t)
  | _ => none

/-- The next state, or reset. -/
def after (o : Host.Outcome State Fault Refusal) : State :=
  match o with
  | .next t => t
  | _ => State.reset

/-- After RESET SMALL 15, with IP-only (and more) enabled, the bytes of IN, and one rand16 answer. -/
def ready (enabled : BitVec 7) (input : List Byte) (rand : U16) : State :=
  let s := State.afterReset .small 15
  { s with cfg := { s.cfg with profilesEn := enabled }, inBuf := Memory.ofBytes input, randIn := [rand] }

/-- 95_test_vectors.md V-S5: the packet P4(10.0.0.1, 10.0.0.2, 1, 1, 64, AA x 4). -/
def packet : List Byte :=
  [0x45, 0x00, 0x00, 0x18, 0x00, 0x01, 0x00, 0x00, 0x40, 0x01, 0x66, 0xE2, 0x0A, 0x00, 0x00, 0x01]
    ++ [0x0A, 0x00, 0x00, 0x02, 0xAA, 0xAA, 0xAA, 0xAA]

/-- 95_test_vectors.md P2: the ROHC packet of `packet` with rand16 = 0x10. -/
def irPacket : List Byte :=
  [0xFD, 0x04, 0xA5, 0x40, 0x01, 0x0A, 0x00, 0x00, 0x01, 0x0A, 0x00, 0x00, 0x02, 0x00, 0x40, 0x00]
    ++ [0x01, 0x20, 0x00, 0x00, 0x10, 0xAA, 0xAA, 0xAA, 0xAA]

def base : State := ready 0x20 packet 0x10

/-- The ring with entries pushed in order. -/
def ringOf (entries : List (List Byte)) : Machine.Ring := entries.foldl Machine.Ring.push Machine.Ring.reset

/-- The scratch registers with a tail of one random IP-ID, for the wire rows. -/
def wired : State := { base with scr := { Scratch.zero with pkt := packet } }

/-! ## WellFormed refuses (30_encoding.md R110, R86, R88, R89, R99) -/

theorem test_wf_add_cid_zero : (Instr.addCid 0).wellFormed = false := by decide
theorem test_wf_feedback_short_zero : (Instr.feedbackShort 0).wellFormed = false := by decide
theorem test_wf_feedback_long_seven : (Instr.feedbackLong 7).wellFormed = false := by decide
theorem test_wf_ext3_mode : (Instr.ext3 0 2 0 1 0).wellFormed = false := by decide
theorem test_wf_sdvl2_short : (Instr.sdvl2 127).wellFormed = false := by decide
theorem test_wf_sdvl3_short : (Instr.sdvl3 16383).wellFormed = false := by decide
theorem test_wf_sdvl4_short : (Instr.sdvl4 2097151).wellFormed = false := by decide
theorem test_wf_admits : (Instr.feedbackLong 8).wellFormed = true ∧ (Instr.sdvl2 128).wellFormed = true
    ∧ (Instr.sdvl3 16384).wellFormed = true ∧ (Instr.sdvl4 2097152).wellFormed = true
    ∧ (Instr.ext3 0 1 0 1 0).wellFormed = true := by decide

/-! ## Decoding of words written out from the encodings -/

/-- R81: a record with every operand set, for each op. -/
def record (op : Byte) : Command := { op := op, a := 5, b := 6, t := 7, inLen := 8 }

theorem test_decode_compress : decodeWhole (.command (record 0x01)) = some (.compress 7 8 5) := by decide
theorem test_decode_get_segment : decodeWhole (.command (record 0x02)) = some (.getSegment 5) := by decide
theorem test_decode_prof_enable : decodeWhole (.command (record 0x10)) = some (.profEnable 5) := by decide
theorem test_decode_prof_disable : decodeWhole (.command (record 0x11)) = some (.profDisable 5) := by decide
theorem test_decode_set_wlsb : decodeWhole (.command (record 0x12)) = some (.setWlsb 5) := by decide
theorem test_decode_set_refresh : decodeWhole (.command (record 0x13)) = some (.setRefresh 5 6) := by decide
theorem test_decode_set_mrru : decodeWhole (.command (record 0x14)) = some (.setMrru 5) := by decide
theorem test_decode_rtp_port_add : decodeWhole (.command (record 0x18)) = some (.rtpPortAdd 5) := by decide
theorem test_decode_rtp_port_remove : decodeWhole (.command (record 0x19)) = some (.rtpPortRemove 5) := by
  decide
theorem test_decode_rtp_port_reset : decodeWhole (.command (record 0x1A)) = some .rtpPortReset := by decide
theorem test_decode_fb_piggyback : decodeWhole (.command (record 0x20)) = some (.fbPiggyback 8) := by decide
theorem test_decode_fb_deliver : decodeWhole (.command (record 0x21)) = some (.fbDeliver 8) := by decide
theorem test_decode_fb_flush : decodeWhole (.command (record 0x22)) = some (.fbFlush 5) := by decide
theorem test_decode_fb_avail : decodeWhole (.command (record 0x23)) = some .fbAvail := by decide
theorem test_decode_fb_remove_locked : decodeWhole (.command (record 0x24)) = some .fbRemoveLocked := by
  decide
theorem test_decode_fb_unlock : decodeWhole (.command (record 0x25)) = some .fbUnlock := by decide
theorem test_decode_reinit : decodeWhole (.command (record 0x30)) = some .reinit := by decide
theorem test_decode_rd_cfg : decodeWhole (.command (record 0x40)) = some (.rdCfg 5) := by decide
theorem test_decode_bad_op : decodeWhole (.command (record 0x7F)) = none := by decide

-- 95_test_vectors.md V-S1 packet 7: 0 1010 110
theorem test_decode_uo0 : decodeWhole (.wire .unit [0b01010110]) = some (.uo0 0b1010 0b110) := by decide
-- V-CHG packet 13: A9 52
theorem test_decode_uo1 :
    decodeWhole (.wire .unit [0b10101001, 0b01010010]) = some (.uo1 0x29 0b01010 0b010) := by decide
-- V-S1 packet 4: D7 31
theorem test_decode_uor2 : decodeWhole (.wire .unit [0b11010111, 0b00110001]) = some (.uor2 0x17 0 0x31) := by
  decide
theorem test_decode_add_cid : decodeWhole (.wire .unit [0b11101111]) = some (.addCid 15) := by decide
theorem test_decode_feedback_short : decodeWhole (.wire .unit [0b11110111]) = some (.feedbackShort 7) := by
  decide
theorem test_decode_feedback_long :
    decodeWhole (.wire .unit [0b11110000, 0b11111111]) = some (.feedbackLong 255) := by decide
theorem test_decode_ir_dyn : decodeWhole (.wire .unit [0b11111000]) = some .irDyn := by decide
theorem test_decode_normal : decodeWhole (.wire .unit [0b11111100]) = some .normal := by decide
theorem test_decode_ir : decodeWhole (.wire .unit [0b11111101]) = some .ir := by decide
theorem test_decode_segment : decodeWhole (.wire .unit [0b11111110]) = some (.segment 0)
    ∧ decodeWhole (.wire .unit [0b11111111]) = some (.segment 1) := by decide
-- V-DUAL packet 9: the octet 05
theorem test_decode_ext0 : decodeWhole (.wire .extension [0b00000101]) = some (.ext0 0 5) := by decide
-- V-SWAP packet 5: 58 F7
theorem test_decode_ext1 : decodeWhole (.wire .extension [0b01011000, 0xF7]) = some (.ext1 3 0xF7) := by decide
-- V-DUAL packet 10: 8F E3 45
theorem test_decode_ext2 :
    decodeWhole (.wire .extension [0b10001111, 0xE3, 0x45]) = some (.ext2 1 0x7E3 0x45) := by decide
-- V-CHG packets 8 and 15: CA, CE
theorem test_decode_ext3 : decodeWhole (.wire .extension [0b11001010]) = some (.ext3 0 1 0 1 0)
    ∧ decodeWhole (.wire .extension [0b11001110]) = some (.ext3 0 1 1 1 0) := by decide
-- V-SDVL
theorem test_decode_sdvl1 : decodeWhole (.wire .value [0x7F]) = some (.sdvl1 127) := by decide
theorem test_decode_sdvl2 : decodeWhole (.wire .value [0x81, 0x2C]) = some (.sdvl2 300) := by decide
theorem test_decode_sdvl3 : decodeWhole (.wire .value [0xDF, 0xFF, 0xFF]) = some (.sdvl3 2097151) := by decide
theorem test_decode_sdvl4 : decodeWhole (.wire .value [0xFF, 0xFF, 0xFF, 0xFF]) = some (.sdvl4 536870911) := by
  decide
-- R110
theorem test_decode_reserved : decodeWhole (.wire .unit [0xF9]) = none ∧ decodeWhole (.wire .unit [0xFA]) = none
    ∧ decodeWhole (.wire .unit [0xFB]) = none := by decide
-- the opcode table's numbering (log 7): rows of one, two, three and four octets
theorem test_decode_table : decodeTableWord 8 0x13 = some (.setRefresh 0 0)
    ∧ decodeTableWord 16 0x8000 = some (.uo1 0 0 0) ∧ decodeTableWord 24 0x800000 = some (.ext2 0 0 0)
    ∧ decodeTableWord 32 0xE0000000 = some (.sdvl4 0) := by decide

/-! ## Primitives (95_test_vectors.md V-CRC, V-WLSB, V-OFF, V-SDVL) -/

theorem test_crc3 : crc3 [0x00] = 5 ∧ crc3 [0xFF] = 3 := by decide +kernel
theorem test_crc7 : crc7 [0x00] = 0x46 ∧ crc7 [0xFF] = 0x79 := by decide +kernel
theorem test_crc8 : crc8 [0x00] = 0xCF ∧ crc8 [0xFF] = 0x00 := by decide +kernel
theorem test_fcs32 : fcs32 [0x00] = 0x2DFD1072 ∧ fcs32 [0xFF] = 0x00FFFFFF := by decide +kernel
theorem test_wlsb_k : ({ refs := [10, 11, 12] } : Window).kNeeded 13 (-1) = 2
    ∧ ({ refs := [10, 11, 12] } : Window).kNeeded 8203 (-1) = 14
    ∧ ({ refs := [65534, 65535, 0] } : Window).kNeeded 16 (-1) = 5 := by decide +kernel
theorem test_offset : offsetIpId 0x0004 true 0x1237 = 0xEDCD ∧ offsetIpId 0x0400 false 0x1237 = 0xEDCD := by
  decide
theorem test_sdvl_dec : sdvlDec [0x81, 0x2C, 0x20] = some (300, 2) ∧ sdvlDec [0x80] = none
    ∧ sdvlDec [0x80, 0x05] = some (5, 2) := by decide

/-! ## Commands, one step each -/

-- P2: the IR packet
theorem test_compress : reply (exec (.compress 0 24 200) base) = some (1, 0, irPacket) := by decide +kernel
-- V-S5: the Normal packet
theorem test_compress_normal :
    reply (exec (.compress 0 24 200) (ready 0x40 packet 0)) = some (1, 0, 0xFC :: packet) := by
  decide +kernel
/-- P2 row 4: COMPRESS of `packet` with out_max 10, MRRU 64 and one feedback entry. -/
def segmented : State :=
  after (exec (.compress 0 24 10)
    { base with cfg := { base.cfg with mrru := 64 }, fb := ringOf [[0x20]] })
-- P2 rows 4 and 5
theorem test_segmented : look (fun t => (t.rru.len, t.rru.buf.map fun c => c.2)) (.next segmented)
    = some (29, irPacket ++ [0xBC, 0xD4, 0x93, 0x53]) := by decide +kernel
theorem test_get_segment : reply (exec (.getSegment 10) segmented)
    = some (2, 0, [0xF1, 0x20, 0xFE, 0xFD, 0x04, 0xA5, 0x40, 0x01, 0x0A, 0x00]) := by decide +kernel
-- P2 row 9
theorem test_get_segment_no_rru : reply (exec (.getSegment 10) base) = some (0, 7, []) := by decide +kernel
-- R304: bit 5 for 0x0004; P1 row 5
theorem test_prof_enable : look (fun t => t.cfg.profilesEn) (exec (.profEnable 0x0004) State.reset)
    = some 0x20 := by decide +kernel
theorem test_prof_enable_bad : reply (exec (.profEnable 0x0005) State.reset) = some (0, 6, []) := by
  decide +kernel
theorem test_prof_disable : look (fun t => t.cfg.profilesEn) (exec (.profDisable 0x0004) (ready 0x21 [] 0))
    = some 0x01 := by decide +kernel
-- R306
theorem test_set_wlsb : look (fun t => t.cfg.wlsbWidth) (exec (.setWlsb 16) State.reset) = some 16 := by
  decide +kernel
theorem test_set_wlsb_bad : reply (exec (.setWlsb 12) State.reset) = some (0, 6, []) := by decide +kernel
-- R307
theorem test_set_refresh : look (fun t => (t.cfg.irTimeout, t.cfg.foTimeout)) (exec (.setRefresh 100 20)
    State.reset) = some (100, 20) := by decide +kernel
theorem test_set_refresh_bad : reply (exec (.setRefresh 20 20) State.reset) = some (0, 6, []) := by
  decide +kernel
-- R308, P1 row 12
theorem test_set_mrru : look (fun t => t.cfg.mrru) (exec (.setMrru 1500) State.reset) = some 1500 := by
  decide +kernel
theorem test_set_mrru_locked : reply (exec (.setMrru 1500) { base with numPackets := 1 }) = some (0, 5, []) := by
  decide +kernel
-- P5 rows 2 and 3
theorem test_rtp_port_add : look (fun t => t.rtpPorts) (exec (.rtpPortAdd 5004) { base with rtpPorts := [1234] })
    = some [1234, 5004] := by decide +kernel
theorem test_rtp_port_add_twice :
    reply (exec (.rtpPortAdd 5004) { base with rtpPorts := [5004] }) = some (0, 6, []) := by decide +kernel
/-- A UDP context on the ports 1234 and 80. -/
def udpCtx : Ctx := { Ctx.zero with
  profile := .udp, key := .udp [] 1234 80, numSent := 1
  block := .generic { sn := 0, hdrs := [], winSn := Window.empty, irCount := 0, foCount := 0, goBackFo := 0,
                      goBackIr := 0, udpCk := false } }
-- P5 row 7: after the first committed COMPRESS
theorem test_rtp_port_add_locked : look (fun t => (t.rsp.status, t.rsp.errc, t.rtpPorts, t.slot 0))
    (exec (.rtpPortAdd 1234) { base with
      rtpPorts := [5004], ctx := base.ctx.set 0 (some udpCtx), numContextsUsed := 1, numPackets := 1 })
    = some (1, 0, [5004, 1234], some udpCtx) := by decide +kernel
-- P5 row 8
theorem test_rtp_port_remove : look (fun t => (t.rtpPorts, t.slot 0, t.numContextsUsed))
    (exec (.rtpPortRemove 1234) { base with
      rtpPorts := [1234, 5004], ctx := base.ctx.set 0 (some udpCtx), numContextsUsed := 1 })
    = some ([5004], none, 0) := by decide +kernel
theorem test_rtp_port_reset :
    look (fun t => t.rtpPorts) (exec .rtpPortReset { base with rtpPorts := [1234] }) = some [] := by
  decide +kernel
-- P2 row 3
theorem test_fb_piggyback : look (fun t => (t.fb.slot 0, t.fb.next)) (exec (.fbPiggyback 1) (ready 0 [0x20] 0))
    = some ({ data := [0x20], locked := false }, 1) := by decide +kernel
/-- A state with one context of the IP-only profile in slot 3. -/
def withCtx3 (input : List Byte) : State :=
  { ready 0x20 input 0 with ctx := base.ctx.set 3 (some { Ctx.zero with cid := 3, profile := .ipOnly }) }
-- R269: FB_DELIVER [E3 40 05]; V-FBD: acktype 3
theorem test_fb_deliver : look (fun t => (t.slot 3).map fun c => c.forceIr)
    (exec (.fbDeliver 3) (withCtx3 [0xE3, 0x40, 0x05])) = some (some true) := by decide +kernel
theorem test_fb_deliver_reserved : look (fun t => (t.slot 3).map fun c => c.forceIr)
    (exec (.fbDeliver 3) (withCtx3 [0xE3, 0xC0, 0x05])) = some (some false) := by decide +kernel
-- V-FB: two entries, 15 octets; the first block alone fits 14
theorem test_fb_flush : reply (exec (.fbFlush 14) { base with
    fb := ringOf [[0xF4, 0x20, 0x01], [1, 2, 3, 4, 5, 6, 7, 8, 9]] })
    = some (1, 0, [0xF3, 0xF4, 0x20, 0x01]) := by decide +kernel
theorem test_fb_avail : look (fun t => t.rsp.val) (exec .fbAvail { base with
    fb := ringOf [[0xF4, 0x20, 0x01], [1, 2, 3, 4, 5, 6, 7, 8, 9]] }) = some 15 := by decide +kernel
/-- One locked entry, then an unlocked one. -/
def flushed : State :=
  after (exec (.fbFlush 4) { base with fb := ringOf [[0xF4, 0x20, 0x01], [1, 2]] })
theorem test_fb_remove_locked : look (fun t => (t.fb.first, t.fb.firstUnlocked, t.fb.next, t.fb.slot 0))
    (exec .fbRemoveLocked flushed) = some (1, 1, 2, FbSlot.free) := by decide +kernel
theorem test_fb_unlock : look (fun t => (t.fb.first, t.fb.firstUnlocked, t.fb.next, (t.fb.slot 0).locked))
    (exec .fbUnlock flushed) = some (0, 0, 2, false) := by decide +kernel
theorem test_reinit : look (fun t => (t.slot 3).map fun c => c.forceIr) (exec .reinit (withCtx3 []))
    = some (some true) := by decide +kernel
-- P1 row 1
theorem test_rd_cfg : look (fun t => t.rsp.val) (exec (.rdCfg 1) State.reset) = some 15 := by decide +kernel
theorem test_rd_cfg_bad : reply (exec (.rdCfg 3) State.reset) = some (0, 6, []) := by decide +kernel

/-! ## The wire rows, one step each -/

/-- The header assembled by a step. -/
def assembly (t : State) : List Byte :=
  t.scr.asm.fb ++ t.scr.asm.addCid ++ t.scr.asm.first ++ t.scr.asm.largeCid ++ t.scr.asm.ext ++ t.scr.asm.rest

theorem test_uo0 : look assembly (exec (.uo0 0xA 6) wired) = some [0x56] := by decide +kernel
theorem test_uo1 : look assembly (exec (.uo1 0x29 0xA 2) wired) = some [0xA9, 0x52] := by decide +kernel
theorem test_uor2 : look assembly (exec (.uor2 0x17 0 0x31) wired) = some [0xD7, 0x31] := by decide +kernel
theorem test_add_cid : look assembly (exec (.addCid 3) wired) = some [0xE3] := by decide +kernel
theorem test_feedback_short : look assembly (exec (.feedbackShort 3) { wired with
    fb := ringOf [[0xF4, 0x20, 0x01]] }) = some [0xF3, 0xF4, 0x20, 0x01] := by decide +kernel
theorem test_feedback_long : look assembly (exec (.feedbackLong 9) { wired with
    fb := ringOf [[1, 2, 3, 4, 5, 6, 7, 8, 9]] }) = some [0xF0, 9, 1, 2, 3, 4, 5, 6, 7, 8, 9] := by decide +kernel
-- CRC-8 over no header octets is FF (V-CRC); the profile octet is that of Uncompressed
theorem test_ir : look assembly (exec .ir { base with scr := { Scratch.zero with snNew := 0x1234 } })
    = some [0xFD, 0x00, 0xFF, 0x12, 0x34] := by decide +kernel
theorem test_ir_dyn : look assembly (exec .irDyn { base with scr := { Scratch.zero with snNew := 0x1234 } })
    = some [0xF8, 0x00, 0xFF, 0x12, 0x34] := by decide +kernel
theorem test_normal : look assembly (exec .normal wired) = some [0xFC] := by decide +kernel
theorem test_segment : look (fun t => (t.scr.asm.first ++ t.scr.asm.rest, t.rru.off, t.rru.len))
    (exec (.segment 0) { segmented with scr := { segmented.scr with segN := 2 } })
    = some ([0xFE, 0xFD, 0x04], 2, 27) := by decide +kernel
theorem test_ext0 : look (fun t => t.scr.asm.ext) (exec (.ext0 0 5) wired) = some [0x05] := by decide +kernel
theorem test_ext1 : look (fun t => t.scr.asm.ext) (exec (.ext1 3 0xF7) wired) = some [0x58, 0xF7] := by
  decide +kernel
theorem test_ext2 : look (fun t => t.scr.asm.ext) (exec (.ext2 1 0x7E3 0x45) wired)
    = some [0x8F, 0xE3, 0x45] := by decide +kernel
-- S = 1: the flags octet, then SN[7:0]
theorem test_ext3 : look (fun t => t.scr.asm.ext) (exec (.ext3 1 1 0 0 0)
    { base with scr := { Scratch.zero with snNew := 0x1234 } }) = some [0xE8, 0x34] := by decide +kernel
theorem test_sdvl1 : look (fun t => t.scr.asm.largeCid) (exec (.sdvl1 127) wired) = some [0x7F] := by
  decide +kernel
theorem test_sdvl2 : look (fun t => t.scr.asm.largeCid) (exec (.sdvl2 300) wired) = some [0x81, 0x2C] := by
  decide +kernel
theorem test_sdvl3 : look (fun t => t.scr.asm.largeCid) (exec (.sdvl3 16384) wired)
    = some [0xC0, 0x40, 0x00] := by decide +kernel
theorem test_sdvl4 : look (fun t => t.scr.asm.largeCid) (exec (.sdvl4 2097152) wired)
    = some [0xE0, 0x20, 0x00, 0x00] := by decide +kernel

/-! ## A step -/

-- R83: an unassigned op through the port
theorem test_step_bad_op :
    reply (step { base with queue := [.command (record 0x7F) []] }) = some (0, 9, []) := by decide +kernel
-- R371: a reset; R372: a dead block
theorem test_step_reset : look (fun t => (t.alive, t.cfg.maxCid, t.ctx.length))
    (step { base with queue := [.reset .large 300] }) = some (true, 300, 301) := by decide +kernel
theorem test_step_dead :
    reply (exec .fbAvail { base with alive := false }) = some (0, 8, []) := by decide +kernel
-- R66, R301: one byte that HOST has not written: a free value (log 10), and no value of it parses
theorem test_input_free :
    exec (.compress 0 1 1) (ready 0x20 [] 0) = .next ((ready 0x20 [] 0).raiseError .input) := by
  have e : ∀ b : Byte, parse [b] = none := by decide +kernel
  show compressWith profileExt 0 1 1 (ready 0x20 [] 0) = _
  have h : parse ((ready 0x20 [] 0).input 1) = none := e (Config.freeIn 0)
  simp only [compressWith, h]
  rfl
-- the free byte goes into the ring (R266)
theorem test_piggyback_free : look (fun t => (t.fb.slot 0).data) (exec (.fbPiggyback 1) (ready 0 [] 0))
    = some [Config.freeIn 0] := rfl
-- withFetchWord: the very next step runs the word
theorem test_fetch_word : look (fun t => (t.rsp.status, t.rsp.val)) (step (State.reset.withFetchWord 8 0x40))
    = some (1, 0) := by decide +kernel

/-! ## Witnesses: states and operands that meet the hypotheses of each statement -/

theorem of_look {α : Type} {f : State → α} {v : α} {o : Host.Outcome State Fault Refusal}
    (h : look f o = some v) : ∃ t, o = .next t ∧ f t = v := by
  cases o with
  | next t => exact ⟨t, rfl, Option.some.inj h⟩
  | fault e => cases h
  | refused e => cases h

/-- base with one act of HOST queued. -/
def queued (i : Issue) : State := { base with queue := [i] }

theorem witness_RoundTrip : (Instr.ext3 1 1 1 1 1).wellFormed = true ∧ (Instr.addCid 1).wellFormed = true
    ∧ (Instr.feedbackLong 255).wellFormed = true ∧ (Instr.sdvl4 0x1FFFFFFF).wellFormed = true := by decide

theorem witness_UnnamedOperandsIgnored :
    let c : Command := { op := 0x13, a := 1, b := 2, t := 3, inLen := 4 }
    let d : Command := { op := 0x13, a := 1, b := 2, t := 9, inLen := 8 }
    c ≠ d ∧ c.op = d.op ∧ c.a = d.a ∧ c.b = d.b := by decide

theorem witness_StepRunsTheDecodedInstruction_command :
    (queued (.command (record 0x13) [1])).queue = [.command (record 0x13) [1]]
    ∧ decode (.command (record 0x13)) = .ok (.setRefresh 5 6, []) := ⟨rfl, rfl⟩
theorem witness_StepRunsTheDecodedInstruction_wire :
    (queued (.wire .extension [0x58, 0xF7])).queue = [.wire .extension [0x58, 0xF7]]
    ∧ decode (.wire .extension [0x58, 0xF7]) = .ok (.ext1 3 0xF7, []) := ⟨rfl, rfl⟩
theorem witness_StepRunsTheDecodedInstruction_idle : base.queue = [] := rfl

theorem witness_ReservedCodes :
    (queued (.command (record 0x00) [])).queue = .command (record 0x00) [] :: [] ∧ base.alive = true
    ∧ base.numPackets = 0
    ∧ (0x00 : Byte) ∉ ([0x01, 0x02, 0x10, 0x11, 0x12, 0x13, 0x14, 0x18, 0x19, 0x1A, 0x20, 0x21, 0x22, 0x23,
        0x24, 0x25, 0x30, 0x40] : List Byte)
    ∧ (0x00010001 : U32).extractLsb' 16 16 ≠ (0 : U16) := by
  refine ⟨rfl, rfl, rfl, by decide, by decide⟩

theorem witness_FirstOctets : encode .normal = .wire .unit (0xFC :: []) ∧ encode .ir = .wire .unit (0xFD :: [])
    ∧ encode .irDyn = .wire .unit (0xF8 :: []) ∧ encode (.segment 0) = .wire .unit (0xFE :: [])
    ∧ encode (.segment 1) = .wire .unit (0xFF :: []) ∧ encode (.uo0 0 0) = .wire .unit (0x00 :: []) := by
  decide

theorem witness_LegalReset : (queued (.reset .small 0)).queue = .reset .small 0 :: []
    ∧ 0 ≤ Config.cidBound .small ∧ 15 ≤ Config.cidBound .small ∧ 16383 ≤ Config.cidBound .large := by
  refine ⟨rfl, by decide, by decide, by decide⟩

/-- A dead block with a command, or a reset, queued. -/
def dead (i : Issue) : State := { queued i with alive := false }
theorem witness_DeadBlock_straps : Config.cidBound .small < 16 ∧ Config.cidBound .large < 16384 := by decide
theorem witness_DeadBlock_command : (dead (.command (record 0x7F) [])).alive = false
    ∧ isCommand (.rdCfg 0) = true
    ∧ (dead (.command (record 0x7F) [])).queue = .command (record 0x7F) [] :: [] := ⟨rfl, rfl, rfl⟩
theorem witness_DeadBlock_revived :
    ∃ t, step (dead (.reset .small 15)) = .next t ∧ t.alive = true :=
  of_look (f := fun t => t.alive) (by decide +kernel)

theorem witness_SdvlForms : (127 < 2 ^ 7) ∧ (2 ^ 7 ≤ 128 ∧ 16383 < 2 ^ 14) ∧ (2 ^ 14 ≤ 16384 ∧ 2097151 < 2 ^ 21)
    ∧ (2 ^ 21 ≤ 2097152 ∧ 536870911 < 2 ^ 29) ∧ 2 ^ 29 ≤ 536870912 := by decide
theorem witness_SdvlDecodes : sdvlEnc 300 = some [0x81, 0x2C] ∧ sdvlDec [0x81, 0x2C, 0x20] = some (300, 2)
    ∧ ([0x81] : List Byte).length < ([0x81, 0x2C] : List Byte).length
    ∧ ([0x81] : List Byte) = ([0x81, 0x2C] : List Byte).take 1 := by decide

theorem witness_WlsbWindow_empty : Window.empty.refs = [] := rfl
theorem witness_WlsbWindow_k : ({ refs := [10, 11, 12] } : Window).refs ≠ []
    ∧ (10 : U16) ∈ ({ refs := [10, 11, 12] } : Window).refs
    ∧ 1 < ({ refs := [10, 11, 12] } : Window).kNeeded 13 (-1) := by decide +kernel
theorem witness_WlsbWindow_add : 0 < 4 ∧ ({ refs := [10, 11, 12] } : Window).count < 4
    ∧ ({ refs := [10, 11, 12, 13] } : Window).count = 4 := by decide
theorem witness_SteadyFlowSnBits : 0 < 1 ∧ 1 ≤ 64 ∧ 0 < 64 ∧ 64 ≤ 64 := by decide
theorem witness_CrcGenerators : (7 : Byte).toNat < 8 ∧ (127 : Byte).toNat < 128 := by decide

/-- 95_test_vectors.md V-DUAL packet 1: IPv4 in IPv4. -/
def dualPacket : List Byte :=
  [0x45, 0x00, 0x00, 0x2C, 0x00, 0x01, 0x00, 0x00, 0x40, 0x04, 0x66, 0xCB, 0x0A, 0x00, 0x00, 0x01]
    ++ [0x0A, 0x00, 0x00, 0x02, 0x45, 0x00, 0x00, 0x18, 0x00, 0x64, 0x00, 0x00, 0x3F, 0x01, 0xFA, 0x2B]
    ++ [0xC0, 0xA8, 0x00, 0x01, 0xC0, 0xA8, 0x00, 0x02, 0x55, 0x55, 0x55, 0x55]
theorem witness_ParserBounds_one : (parse packet).map (fun p => p.nhdr) = some 1 := by decide +kernel
theorem witness_ParserBounds_two : (parse dualPacket).map (fun p => p.nhdr) = some 2 := by decide +kernel
/-- A six-header alone: traffic class 1, flow label 0xABCDE, no next header, hop limit 64. -/
def sixPacket : List Byte :=
  [0x60, 0x1A, 0xBC, 0xDE, 0x00, 0x00, 0x3B, 0x40] ++ List.replicate 16 0x01 ++ List.replicate 16 0x02
theorem witness_ParserBounds_six :
    (parse sixPacket).map (fun p => p.hdrs.map fun h => (h.tos, h.fl, h.ttl, h.proto)) = some [(1, 0xABCDE, 64, 0x3B)] := by decide +kernel

/-- The parser record of `packet`. -/
def par : Parsed := (parse packet).getD default
theorem parse_packet : parse packet = some par := by decide +kernel

theorem witness_SelectPriority : select 0x60 [] packet par = some .ipOnly ∧ select 0x00 [] packet par = none
    ∧ Profile.udp.bit < Profile.ipOnly.bit := by decide +kernel
/-- The parser record of one IPv4 header with the protocol given. -/
def carrying (proto : Byte) : Parsed := { hdrs := (par.hdrs.map fun h => { h with proto := proto }) }
/-- packet with eight octets of transport: the port 0x04D2 twice, length 8. -/
def transport : List Byte := packet.take 20 ++ [0x04, 0xD2, 0x04, 0xD2, 0x00, 0x08, 0x00, 0x00]
theorem witness_SelectPriority_checks : Profile.rtp.check [1234] transport (carrying 17) = true
    ∧ Profile.udp.check [] transport (carrying 17) = true ∧ Profile.udpLite.check [] transport (carrying 136) = true
    ∧ Profile.esp.check [] transport (carrying 50) = true
    ∧ Profile.rtp.check [80] transport (carrying 17) = false
    ∧ Profile.udp.check [] packet (carrying 17) = false := by decide +kernel

/-- Every slot used, with falling `latest_used` but for the last. -/
def full : State := { base with
  ctx := [some { Ctx.zero with latestUsed := 7 }, some { Ctx.zero with latestUsed := 3 },
          some { Ctx.zero with latestUsed := 3 }] }
theorem witness_VictimChoice_free : 0 < base.ctx.length ∧ 15 < base.ctx.length ∧ base.slot 15 = none := by
  decide +kernel
theorem witness_VictimChoice_full : 0 < full.ctx.length ∧ (∀ d, d < full.ctx.length → full.slot d ≠ none) := by
  decide +kernel

theorem witness_CreateValues : 0 < base.ctx.length ∧ Profile.ipOnly.admitted = true
    ∧ base.find .ipOnly (Profile.ipOnly.key profileExt packet par) = none
    ∧ Profile.uncompressed.admitted = true ∧ base.find .uncompressed .uncompressed = none
    ∧ 0 < full.ctx.length ∧ full.find .ipOnly (Profile.ipOnly.key profileExt packet par) = none := by
  decide +kernel

/-- An IPv4 record with the id given. -/
def record4 (id : U16) : Ip4Rec :=
  { df := false, id := id, rnd := false, nbo := true, sid := false, rndCount := 3, nboCount := 3, sidCount := 3,
    winId := Window.empty }
theorem witness_IpIdObservation : (100 : U16) = (record4 100).id
    ∧ (119 : U16) ≠ (record4 100).id ∧ ((119 : U16) - (record4 100).id).toNat < 20
    ∧ 20 ≤ ((0x0101 : U16) - (record4 0x0001).id).toNat
    ∧ (swab16 0x0101 - swab16 (record4 0x0001).id).toNat < 20
    ∧ 20 ≤ ((120 : U16) - (record4 100).id).toNat
    ∧ 20 ≤ (swab16 120 - swab16 (record4 100).id).toNat := by decide

/-- A header record with the IPv4 part given, and the header of a packet. -/
def header4 (id : U16) : CtxHdr := { tos := 0, ttl := 64, proto := 1, ip4 := some (record4 id) }
def packetHdr (id : U16) : IpHdr := { (default : IpHdr) with version := .v4, id := id, ttl := 64, proto := 1 }
theorem witness_ChangeDetection : (header4 100).ip4 = some (record4 100) ∧ Scratch.zero.ctx.numSent = 0 := by
  decide
-- each flag stays in one of these and flips in the other
theorem witness_ChangeDetection_flags :
    ((detectHdr false (packetHdr 101) (header4 100)).hdr.ip4.map fun v => (v.rnd, v.nbo, v.sid))
      = some (false, true, false)
    ∧ ((detectHdr false (packetHdr 120) (header4 100)).hdr.ip4.map fun v => v.rnd) = some true
    ∧ ((detectHdr false (packetHdr 0x0101) (header4 1)).hdr.ip4.map fun v => v.nbo) = some false
    ∧ ((detectHdr false (packetHdr 100) (header4 100)).hdr.ip4.map fun v => v.sid) = some true := by decide

/-- A generic block of one IPv6 header, or of IPv4 headers. -/
def generic (hdrs : List CtxHdr) : Generic :=
  { sn := 4, hdrs := hdrs, winSn := { refs := [1, 2, 3, 4] }, irCount := 3, foCount := 3, goBackFo := 0,
    goBackIr := 0, udpCk := false }
def header6 : CtxHdr := { tos := 0, ttl := 64, proto := 59, ip4 := none }
theorem witness_StateDecision :
    (decideArm base.cfg { Ctx.zero with state := .ir } (generic [header6]) Scratch.zero).1 = .fo
    ∧ (decideArm base.cfg { Ctx.zero with state := .fo } (generic [header6]) Scratch.zero).1 = .so := by
  decide +kernel
-- an arm that stays in IR restarts the counters too
theorem witness_StateDecision_reset :
    decideArm base.cfg { Ctx.zero with forceIr := true } (generic [header6]) Scratch.zero = (.ir, true)
    ∧ decideArm base.cfg { Ctx.zero with state := .so } (generic [header6]) Scratch.zero = (.so, false) := by
  decide +kernel

-- R184: a count below OA_REPETITIONS, and an empty window, fail the predicates
theorem witness_StateDecision_predicates : flagsConverged (generic [header4 1]) = true
    ∧ flagsConverged (generic [{ header4 1 with ip4 := some { record4 1 with nboCount := 2 } }]) = false
    ∧ windowsReady (generic [header6]) = true ∧ windowsReady (generic [header4 1]) = false := by decide +kernel

/-- Scratch registers with the bit counts given, in the state given. -/
def bits (st : CtxState) (kSn : Nat) (ids : List Nat) : Scratch :=
  { Scratch.zero with
    ctx := { Ctx.zero with state := st }
    par := { hdrs := ids.map fun _ => packetHdr 0 }
    hs := ids.map fun k => { ch := default, off := 0, kId := k }
    kSn := kSn }
theorem witness_EnoughBits_type : (bits .so 4 [0]).decideType (generic [header4 0]) = .uo0
    ∧ (bits .so 4 [0, 0]).decideType (generic [header4 0, header4 0]) = .uo0
    ∧ (bits .so 5 [6]).decideType (generic [header4 0]) = .uo1
    ∧ (bits .so 13 [0]).decideType (generic [header4 0]) = .uor2
    ∧ (bits .fo 13 [0]).decideType (generic [header4 0]) = .uor2 := by decide +kernel
-- the arms that end with IR-DYN or IR, and the two-header extension forms
theorem witness_EnoughBits_last : (bits .so 14 [0]).decideType (generic [header4 0]) = .irDyn
    ∧ (bits .fo 14 [0]).decideType (generic [header4 0]) = .irDyn
    ∧ (bits .ir 0 [0]).decideType (generic [header4 0]) = .ir
    ∧ { bits .fo 13 [0] with sendDynamic := 3 }.decideType (generic [header4 0]) = .irDyn
    ∧ (bits .so 9 [0, 0]).decideExt = .ext3 ∧ (bits .so 5 [0, 0]).par.hdrs.length = 2
    ∧ (bits .so 5 [0]).par.hdrs.length = 1 := by decide +kernel
theorem witness_EnoughBits_extension : (bits .so 5 [0]).decideExt = .none ∧ (bits .so 8 [3]).decideExt = .ext0
    ∧ (bits .so 8 [11]).decideExt = .ext1 ∧ (bits .so 8 [11, 8]).decideExt = .ext2
    ∧ (bits .so 5 [0, 0]).ext3S = false ∧ (bits .so 5 [0, 0]).ext3I = false
    ∧ (bits .so 5 [0, 0]).ext3I2 = false ∧ 0 < { bits .so 5 [0] with sendDynamic := 1 }.sendDynamic := by
  decide +kernel

/-- A context in SO whose IPv6 flow lowers its hop limit. -/
def changed : Scratch :=
  { Scratch.zero with
    ctx := { Ctx.zero with profile := .ipOnly, state := .so, numSent := 9, block := .generic (generic [header6]) }
    par := { hdrs := [{ (default : IpHdr) with version := .v6, ttl := 63, proto := 59 }] } }
-- a prepared packet: IPv4 with a sequential IP-ID, whose TTL and IP-ID rise
theorem witness_EnoughBits_prepared :
    let x : CtxHdr := { header4 1 with ip4 := some { record4 1 with winId := { refs := [0xFFFD] } } }
    let sc : Scratch := { Scratch.zero with
      ctx := { Ctx.zero with profile := .ipOnly, state := .so, numSent := 9, block := .generic (generic [x]) }
      par := { hdrs := [packetHdr 2] } }
    let p := sc.prepareGeneric base.cfg (generic [x])
    (p.kSn, p.kId 0, p.off 0, p.ptype) = (2, 0, 0xFFFD, .uo0)
      ∧ (p.ctx.hdrs.map fun h => h.ip4.isSome) = [true] := by decide +kernel

theorem witness_Extension3SaysSomething : changed.par.nhdr = 1 ∧ (generic [header6]).hdrs.length = changed.par.nhdr
    ∧ (changed.prepareGeneric base.cfg (generic [header6])).ext = .ext3 := by decide +kernel

theorem witness_Uor2Packets (e : ExtKind) : ({ Scratch.zero with ext := e, kSn := 6 } : Scratch).ext = e
    ∧ ({ Scratch.zero with ext := e, kSn := 6 } : Scratch).ext3S = true
    ∧ ({ Scratch.zero with ext := e, kSn := 6 } : Scratch).ext3Ip = false
    ∧ ({ Scratch.zero with ext := e, kSn := 6 } : Scratch).ext3Ip2 = false := ⟨rfl, rfl, rfl, rfl⟩

/-- The TTL changed. -/
def ttlChange : HdrChange := { (default : HdrChange) with ttl := true }
/-- A header whose TTL changed; then packets of one such header, and of two, the outer one IPv6. -/
def viewOf (n : IpHdr) (x : CtxHdr) (off : U16) : HdrView := { n := n, x := x, d := ttlChange, off := off }
def oneView : Scratch := { bits .so 6 [12] with
  par := { hdrs := [packetHdr 1] }
  ctx := { Ctx.zero with block := .generic (generic [header4 1]) }
  hs := [{ ch := ttlChange, off := 7, kId := 12 }] }
def twoViews : Scratch := { oneView with
  par := { hdrs := [packetHdr 2, packetHdr 1] }
  ctx := { Ctx.zero with block := .generic (generic [header6, header4 1]) }
  hs := [{ ch := ttlChange, off := 5, kId := 0 },
         { ch := ttlChange, off := 7, kId := 12 }] }
theorem witness_Uor2Packets_views : oneView.Views (viewOf (packetHdr 1) (header4 1) 7) none
    ∧ twoViews.Views (viewOf (packetHdr 1) (header4 1) 7) (some (viewOf (packetHdr 2) header6 5))
    ∧ ({ twoViews with ext := .ext3 } : Scratch).ext = .ext3
    ∧ ({ twoViews with ext := .ext3 } : Scratch).ext3Ip2 = true :=
  ⟨⟨rfl, rfl, 12, rfl⟩, ⟨rfl, rfl, 0, 12, rfl⟩, rfl, by decide +kernel⟩
-- 30_encoding.md R99: the flags octet 40 (TTL changed) with NBO, SN[7:0], the TTL, the offset
theorem witness_ExtensionRows_views : oneView.Views (viewOf (packetHdr 1) (header4 1) 7) none
    ∧ oneView.ext3Body 1 1 1 0 = [0x44, 0x00, 0x40, 0x00, 0x07] := ⟨⟨rfl, rfl, 12, rfl⟩, by decide +kernel⟩

theorem witness_ChainParts : (packetHdr 1).version = .v4 ∧ { packetHdr 1 with version := .v6 }.version = .v6
    ∧ (header4 1).ip4 = some (record4 1) ∧ header6.ip4 = none := by decide

theorem witness_CidRows : 2 ^ 7 ≤ (128 : BitVec 14).toNat ∧ 2 ^ 14 ≤ (16384 : BitVec 21).toNat
    ∧ 2 ^ 21 ≤ (2097152 : BitVec 29).toNat ∧ (127 : BitVec 14).toNat < 2 ^ 7
    ∧ (16383 : BitVec 21).toNat < 2 ^ 14 ∧ (2097151 : BitVec 29).toNat < 2 ^ 21 := by decide

/-- base with a ring of one entry of n bytes. -/
def oneEntry (n : Nat) : State := { base with fb := ringOf [List.replicate n 0x20] }
theorem witness_FeedbackRows_short : ((oneEntry 7).fb.slot (oneEntry 7).fb.firstUnlocked).locked = false
    ∧ ((oneEntry 7).fb.slot (oneEntry 7).fb.firstUnlocked).len = (7 : BitVec 3).toNat
    ∧ 0 < (7 : BitVec 3).toNat := by decide +kernel
theorem witness_FeedbackRows_long : ((oneEntry 8).fb.slot (oneEntry 8).fb.firstUnlocked).locked = false
    ∧ ((oneEntry 8).fb.slot (oneEntry 8).fb.firstUnlocked).len = (8 : BitVec 8).toNat
    ∧ 8 ≤ (8 : BitVec 8).toNat := by decide +kernel
theorem witness_FeedbackRows_none : (base.fb.slot base.fb.firstUnlocked).len ≠ (7 : BitVec 3).toNat
    ∧ ¬8 ≤ (7 : BitVec 8).toNat := by decide +kernel

/-- base with five bytes of an RRU to send. -/
def rru5 : State := { base with rru := { buf := Memory.ofBytes [1, 2, 3, 4, 5], off := 0, len := 5 } }
theorem rru5_ok : rru5.rru.Ok 5 := ⟨by decide, by decide, by decide +kernel⟩
theorem witness_SegmentRow : rru5.rru.Ok 5 ∧ rru5.rru.len = 5 := ⟨rru5_ok, rfl⟩

theorem witness_CidPlacement : Scratch.zero.asm.addCid = [] ∧ Scratch.zero.asm.largeCid = []
    ∧ Scratch.zero.ctx.cid = 0
    ∧ 0 < ({ Ctx.zero with cid := 15 } : Ctx).cid ∧ ({ Ctx.zero with cid := 15 } : Ctx).cid ≤ 15
    ∧ ({ Ctx.zero with cid := 127 } : Ctx).cid < 128 ∧ 128 ≤ ({ Ctx.zero with cid := 128 } : Ctx).cid
    ∧ ({ Ctx.zero with cid := 16383 } : Ctx).cid ≤ 16383 := by decide

/-- 95_test_vectors.md P5 row 6: a UDP packet. -/
def udpPacket : List Byte :=
  [0x45, 0x00, 0x00, 0x20, 0x00, 0x01, 0x00, 0x00, 0x40, 0x11, 0x66, 0xCA, 0x0A, 0x00, 0x00, 0x01]
    ++ [0x0A, 0x00, 0x00, 0x02, 0x04, 0xD2, 0x04, 0xD2, 0x00, 0x0C, 0x00, 0x00, 0x01, 0x02, 0x03, 0x04]
/-- A packet loaded for a context of the profile given. -/
def loaded (pkt : List Byte) (prof : Profile) : Scratch :=
  { Scratch.zero with
    pkt := pkt
    par := (parse pkt).getD default
    ctx := { Ctx.zero with profile := prof, block := .generic (generic [header4 1]) } }
theorem witness_HeaderLengths_ip : parse (loaded packet .ipOnly).pkt = some (loaded packet .ipOnly).par
    ∧ (loaded packet .ipOnly).asm.addCid = [] ∧ (loaded packet .ipOnly).asm.largeCid = []
    ∧ (loaded packet .ipOnly).ctx.block = .generic (generic [header4 1])
    ∧ (generic [header4 1]).hdrs.map CtxHdr.version = (loaded packet .ipOnly).par.hdrs.map IpHdr.version
    ∧ (loaded packet .ipOnly).ctx.profile = .ipOnly
    ∧ (loaded packet .ipOnly).ctx.cid ≤ Config.cidBound .small := by decide +kernel
theorem witness_HeaderLengths_udp : parse (loaded udpPacket .udp).pkt = some (loaded udpPacket .udp).par
    ∧ (generic [header4 1]).hdrs.map CtxHdr.version = (loaded udpPacket .udp).par.hdrs.map IpHdr.version
    ∧ (loaded udpPacket .udp).ctx.profile = .udp
    ∧ checkUdp (loaded udpPacket .udp).pkt (loaded udpPacket .udp).par = true := by decide +kernel

/-! ### COMPRESS -/

/-- base with the MRRU given. -/
def withMrru (mrru : U16) : State := { base with cfg := { base.cfg with mrru := mrru } }
theorem accepts_ip (mrru : U16) (outMax : U32) (h : outMax.toNat ≠ 0) :
    Accepts (withMrru mrru) 24 outMax packet par .ipOnly where
  alive := rfl
  inPos := by decide
  outPos := h
  input := by
    have : base.input 24 = packet := by decide +kernel
    exact this
  parsed := parse_packet
  selected := by
    have : select base.cfg.profilesEn base.rtpPorts packet par = some .ipOnly := by decide +kernel
    exact this
  admitted := rfl

/-- Length of feedback, header and payload of `packet` in the state given. -/
def sizes (s : State) (max : Nat) : Nat × Nat × Nat :=
  let w := s.assembled .ipOnly par packet max 0
  (w.scr.asm.fb.length, w.scr.asm.header.length, (packet.drop w.scr.hdrEnd).length)
theorem witness_CompressResult_fits : Accepts (withMrru 0) 24 25 packet par .ipOnly
    ∧ sizes (withMrru 0) 25 = (0, 21, 4) := ⟨accepts_ip 0 25 (by decide), by decide +kernel⟩
theorem witness_CompressResult_segments : Accepts (withMrru 29) 24 24 packet par .ipOnly
    ∧ sizes (withMrru 29) 24 = (0, 21, 4) ∧ 0 < (withMrru 29).cfg.mrru.toNat
    ∧ 21 + 4 + 4 ≤ (withMrru 29).cfg.mrru.toNat :=
  ⟨accepts_ip 29 24 (by decide), by decide +kernel, by decide, by decide⟩
theorem witness_CompressResult_fails : Accepts (withMrru 28) 24 24 packet par .ipOnly
    ∧ sizes (withMrru 28) 24 = (0, 21, 4) ∧ ¬21 + 4 + 4 ≤ (withMrru 28).cfg.mrru.toNat :=
  ⟨accepts_ip 28 24 (by decide), by decide +kernel, by decide⟩

/-- udpPacket with another protocol number, and the header checksum that goes with it. -/
def carried (proto ck : Byte) : List Byte := (udpPacket.set 9 proto).set 11 ck
/-- A block with one port listed. -/
def listed (enabled : BitVec 7) (input : List Byte) : State := { ready enabled input 0 with rtpPorts := [1234] }
/-- What COMPRESS tests before it accepts IN: the parser's answer and the profile. -/
def tested (s : State) (inLen : U32) : Option (Option Profile) :=
  (parse (s.input inLen)).map fun p => select s.cfg.profilesEn s.rtpPorts (s.input inLen) p
theorem witness_CompressResult_input : base.alive = true ∧ (0 : U32).toNat = 0 ∧ (1 : U32).toNat ≠ 0
    ∧ (ready 0x20 [0x00] 0).alive = true ∧ tested (ready 0x20 [0x00] 0) 1 = none := by decide +kernel
theorem witness_CompressResult_noProfile : (ready 0 packet 0).alive = true ∧ (24 : U32).toNat ≠ 0
    ∧ tested (ready 0 packet 0) 24 = some none := by decide +kernel
-- 95_test_vectors.md P5: to a listed port the packet selects RTP; one protocol number each for the others
theorem witness_CompressResult_refused : (32 : U32).toNat ≠ 0
    ∧ (listed 0x7F udpPacket).alive = true ∧ tested (listed 0x7F udpPacket) 32 = some (some .rtp)
    ∧ tested (listed 0x7F (carried 0x88 0x53)) 32 = some (some .udpLite)
    ∧ tested (listed 0x7F (carried 0x32 0xA9)) 32 = some (some .esp) := by decide +kernel
theorem witness_CompressResult_accepted : (ready 0x7F udpPacket 0).alive = true
    ∧ tested (ready 0x7F udpPacket 0) 32 = some (some .udp)
    ∧ tested (ready 0x7F packet 0) 24 = some (some .ipOnly)
    ∧ tested (ready 0x40 packet 0) 24 = some (some .uncompressed) := by decide +kernel
theorem witness_CompressResult_header : 0 < (withMrru 0).ctx.length
    ∧ (((withMrru 0).assembled .ipOnly par packet 25 0).scr.ptype, ((withMrru 0).assembled .ipOnly par packet 25
        0).scr.hdrEnd) = (.ir, 20) := by decide +kernel

-- 95_test_vectors.md V-ERR: a fresh block whose first COMPRESS has too little room
theorem witness_CompressRecovery : ∃ u, exec (.compress 0 24 24) base = .next u
    ∧ (u.rsp.status, u.rsp.errc) = (0, 4) :=
  of_look (f := fun u => (u.rsp.status, u.rsp.errc)) (by decide +kernel)
-- with every slot used, a victim is evicted
theorem witness_CompressRecovery_evicts : ∃ u, exec (.compress 0 24 24) full = .next u
    ∧ (u.rsp.status, u.rsp.errc, u.slot 1) = (0, 4, none) :=
  of_look (f := fun u => (u.rsp.status, u.rsp.errc, u.slot 1)) (by decide +kernel)

/-- The context of `packet` after its first packet (P2 row 4, with R188's fields). -/
def first : Ctx :=
  { cid := 0, profile := .ipOnly, key := Profile.ipOnly.key profileExt packet par, state := .ir, mode := .u,
    firstUsed := 0, latestUsed := 0, numSent := 1, forceIr := false
    block := .generic
      { sn := 0x10, hdrs := [{ tos := 0, ttl := 64, proto := 1, ip4 := some { record4 1 with
          rndCount := 1, nboCount := 1, sidCount := 1, winId := { refs := [0xFFF1] } } }],
        winSn := { refs := [0x10] }, irCount := 1, foCount := 0, goBackFo := 0, goBackIr := 0, udpCk := false } }

/-- base with that one context in slot 0. -/
def second : State := { base with ctx := base.ctx.set 0 (some first), numPackets := 1, numContextsUsed := 1 }

theorem slot_ready (enabled : BitVec 7) (input : List Byte) (rand : U16) (d : Nat) :
    (ready enabled input rand).slot d = none := by
  have : ∀ v ∈ (ready enabled input rand).ctx, v = none := fun v hv => (List.mem_replicate.mp hv).2
  cases h : (ready enabled input rand).slot d with
  | none => rfl
  | some c => cases this _ (List.mem_of_getElem? (State.slot_getElem h))

theorem cfg_ready (enabled : BitVec 7) (input : List Byte) (rand : U16) : (ready enabled input rand).cfg.Ok where
  maxCid := by
    show (15 : BitVec 14).toNat ≤ 15
    decide
  width := by
    show (4 : BitVec 7).toNat ∈ [1, 2, 4, 8, 16, 32, 64]
    decide
  refresh := by
    show (700 : U32).toNat < (1700 : U32).toNat
    decide
  refreshPos := by
    show 0 < (700 : U32).toNat
    decide

/-- A block after reset, with profiles enabled and bytes in IN, is a good one. -/
theorem live_ready (enabled : BitVec 7) (input : List Byte) (rand : U16) : (ready enabled input rand).Live where
  outBuf := rfl
  rruBuf := rfl
  cfg := cfg_ready enabled input rand
  ports := ⟨Nat.zero_le _, List.nodup_nil, List.not_mem_nil⟩
  packets := Nat.zero_le _
  count := ⟨by show (List.replicate 16 (none : Option Ctx)).length = _; rfl,
    by show 0 = (List.replicate 16 (none : Option Ctx)).countP _; rfl⟩
  phase := ⟨fun _ v hv => (List.mem_replicate.mp hv).2, fun _ => rfl⟩
  keys := fun i _ c _ h => by rw [slot_ready] at h; cases h
  slots := fun i c h => by rw [slot_ready] at h; cases h
  ring := Ring.reset_ok
  rru := ⟨Nat.zero_le _, fun _ => rfl, fun i h => absurd h (Nat.not_lt_zero i)⟩

theorem slot_second {d : Nat} {c : Ctx} (h : second.slot d = some c) : d = 0 ∧ c = first := by
  rw [State.slot_set (s := base) (t := second) rfl] at h
  split at h
  · rename_i hd
    exact ⟨hd.1.symm, (Option.some.inj h).symm⟩
  · have hb : base.slot d = none := slot_ready _ _ _ _
    rw [hb] at h
    cases h

theorem first_ok : first.Ok second.cfg 0 where
  cid := rfl
  mode := rfl
  shape := by
    show List.map CtxHdr.version _ = List.map KeyHdr.version _
    decide +kernel
  sent := by decide
  sentMax := by decide
  generic := by
    intro g hg
    injection hg with hg
    subst hg
    refine ⟨.inl rfl, by decide +kernel, ?_, by decide, by decide, by decide, fun _ => rfl, by decide,
      fun _ => rfl⟩
    intro h hh
    rw [List.mem_singleton] at hh
    subst hh
    show _ ∧ _
    decide +kernel

theorem live_second : second.Live where
  outBuf := rfl
  rruBuf := rfl
  cfg := cfg_ready 0x20 packet 0x10
  ports := ⟨Nat.zero_le _, List.nodup_nil, List.not_mem_nil⟩
  packets := by decide
  count := ⟨by decide +kernel, by decide +kernel⟩
  phase := ⟨fun h => absurd h (by decide), fun h => absurd h (by decide)⟩
  keys := by
    intro i j c d hi hj _ _
    rw [(slot_second hi).1, (slot_second hj).1]
  slots := by
    intro i c h
    obtain ⟨rfl, rfl⟩ := slot_second h
    exact first_ok
  ring := Ring.reset_ok
  rru := ⟨Nat.zero_le _, fun _ => rfl, fun i h => absurd h (Nat.not_lt_zero i)⟩

theorem accepts_second : Accepts second 24 200 packet par .ipOnly where
  alive := rfl
  inPos := by decide
  outPos := by decide
  input := by decide +kernel
  parsed := parse_packet
  selected := by decide +kernel
  admitted := rfl

theorem witness_SnCountsUp_new : base.Live ∧ Accepts base 24 200 packet par .ipOnly
    ∧ (∃ u, exec (.compress 0 24 200) base = .next u ∧ u.rsp.status = 1)
    ∧ base.find .ipOnly (Profile.ipOnly.key profileExt packet par) = none :=
  ⟨live_ready _ _ _, accepts_ip 0 200 (by decide), of_look (f := fun u => u.rsp.status) (by decide +kernel),
    by decide +kernel⟩
theorem witness_SnCountsUp_found : second.Live ∧ Accepts second 24 200 packet par .ipOnly
    ∧ (∃ u, exec (.compress 0 24 200) second = .next u ∧ u.rsp.status = 1)
    ∧ second.slot 0 = some first ∧ (∃ h, first.block = .generic h)
    ∧ second.find .ipOnly (Profile.ipOnly.key profileExt packet par) = some 0 :=
  ⟨live_second, accepts_second, of_look (f := fun u => u.rsp.status) (by decide +kernel), by decide +kernel,
    ⟨_, rfl⟩, by decide +kernel⟩

theorem accepts_normal (s : State) (alive : s.alive = true) (input : s.input 24 = packet)
    (selected : select s.cfg.profilesEn s.rtpPorts packet par = some .uncompressed) :
    Accepts s 24 25 packet par .uncompressed where
  alive := alive
  inPos := by decide
  outPos := by decide
  input := input
  parsed := parse_packet
  selected := selected
  admitted := rfl
theorem witness_NormalPacket : (ready 0x40 packet 0).Live
    ∧ Accepts (ready 0x40 packet 0) 24 25 packet par .uncompressed
    ∧ (ready 0x40 packet 0).fb.waiting = false ∧ (0xFC :: packet).length ≤ (25 : U32).toNat :=
  ⟨live_ready _ _ _, accepts_normal _ rfl (by decide +kernel) (by decide +kernel), by decide +kernel, by decide⟩
theorem witness_NormalPacket_new : (∃ u, exec (.compress 7 24 25) (ready 0x40 packet 0) = .next u ∧ u.rsp.status = 1)
    ∧ (ready 0x40 packet 0).find .uncompressed .uncompressed = none :=
  ⟨of_look (f := fun u => u.rsp.status) (by decide +kernel), by decide +kernel⟩

/-- The context of the Uncompressed profile after one packet at time 7 (R193, R240, R302). -/
def normal : Ctx :=
  { cid := 0, profile := .uncompressed, key := .uncompressed, state := .ir, mode := .u,
    firstUsed := 7, latestUsed := 7, numSent := 1, forceIr := false, block := .empty }
/-- A block with that one context in slot 0. -/
def normalSecond : State := { ready 0x40 packet 0 with
  ctx := (ready 0x40 packet 0).ctx.set 0 (some normal), numPackets := 1, numContextsUsed := 1 }
theorem slot_normalSecond {d : Nat} {c : Ctx} (h : normalSecond.slot d = some c) : d = 0 ∧ c = normal := by
  rw [State.slot_set (s := ready 0x40 packet 0) (t := normalSecond) rfl] at h
  split at h
  · rename_i hd
    exact ⟨hd.1.symm, (Option.some.inj h).symm⟩
  · rw [slot_ready] at h
    cases h
theorem live_normalSecond : normalSecond.Live where
  outBuf := rfl
  rruBuf := rfl
  cfg := cfg_ready 0x40 packet 0
  ports := ⟨Nat.zero_le _, List.nodup_nil, List.not_mem_nil⟩
  packets := by decide
  count := ⟨by decide +kernel, by decide +kernel⟩
  phase := ⟨fun h => absurd h (by decide), fun h => absurd h (by decide)⟩
  keys := by
    intro i j c d hi hj _ _
    rw [(slot_normalSecond hi).1, (slot_normalSecond hj).1]
  slots := by
    intro i c h
    obtain ⟨rfl, rfl⟩ := slot_normalSecond h
    exact { cid := rfl, mode := rfl, shape := rfl, sent := by decide, sentMax := by decide,
            generic := fun g hg => by cases hg }
  ring := Ring.reset_ok
  rru := ⟨Nat.zero_le _, fun _ => rfl, fun i h => absurd h (Nat.not_lt_zero i)⟩
theorem witness_NormalPacket_found : normalSecond.Live
    ∧ Accepts normalSecond 24 25 packet par .uncompressed
    ∧ (∃ u, exec (.compress 9 24 25) normalSecond = .next u ∧ u.rsp.status = 1)
    ∧ normalSecond.find .uncompressed .uncompressed = some 0 ∧ normalSecond.slot 0 = some normal :=
  ⟨live_normalSecond, accepts_normal _ rfl (by decide +kernel) (by decide +kernel),
    of_look (f := fun u => u.rsp.status) (by decide +kernel), by decide +kernel, by decide +kernel⟩

/-! ### Segments -/

theorem witness_GetSegment : rru5.alive = true ∧ rru5.rru.Ok 5 ∧ rru5.rru.len ≠ 0 ∧ base.rru.len = 0
    ∧ (0 : U32).toNat = 0
    ∧ 1 - (rru5.startAssembly.fbDrain 1).scr.asm.fb.length < 2
    ∧ 2 ≤ 2 - (rru5.startAssembly.fbDrain 2).scr.asm.fb.length :=
  ⟨rfl, rru5_ok, by decide, rfl, rfl, by decide +kernel, by decide +kernel⟩
theorem witness_GetSegment_empty : base.rru.Ok 0 :=
  ⟨Nat.zero_le _, fun _ => rfl, fun i h => absurd h (Nat.not_lt_zero i)⟩

theorem witness_SegmentsReassemble : rru5.rru.Ok 5 ∧ rru5.rru.rest = some [1, 2, 3, 4, 5]
    ∧ (fetchSegments [3, 100] rru5).map (fun r => r.1) = some [[0xFE, 1, 2], [0xFF, 3, 4, 5]] :=
  ⟨rru5_ok, by decide +kernel, by decide +kernel⟩

/-! ### Configuration and ports -/

theorem witness_ProfileBits : base.alive = true ∧ base.numPackets = 0
    ∧ (0x0000, 6) ∈ ([(0x0001, 0), (0x0002, 1), (0x0008, 2), (0x0003, 3), (0x0006, 4), (0x0004, 5),
        (0x0000, 6)] : List (U32 × Nat))
    ∧ ∀ e ∈ ([(0x0001, 0), (0x0002, 1), (0x0008, 2), (0x0003, 3), (0x0006, 4), (0x0004, 5),
        (0x0000, 6)] : List (U32 × Nat)), (0x00010001 : U32) ≠ e.1 := by
  refine ⟨rfl, rfl, by decide, by decide⟩
theorem witness_SetWlsb : (64 : U32).toNat = 2 ^ 6 ∧ (1 : U32).toNat = 2 ^ 0
    ∧ (∀ k, k ≤ 6 → (128 : U32).toNat ≠ 2 ^ k) ∧ ∀ k, k ≤ 6 → (0 : U32).toNat ≠ 2 ^ k := by
  refine ⟨rfl, rfl, by decide, by decide⟩
theorem witness_SetRefreshAndMrru : (1 : U32).toNat < (2 : U32).toNat ∧ 0 < (1 : U32).toNat
    ∧ ¬((1 : U32).toNat < (1 : U32).toNat ∧ 0 < (1 : U32).toNat)
    ∧ ¬((0 : U32).toNat < (1 : U32).toNat ∧ 0 < (0 : U32).toNat)
    ∧ (65535 : U32).toNat ≤ 65535 ∧ 65535 < (65536 : U32).toNat := by decide
theorem witness_ConfigLocked : isConfig (.profEnable 1) = true ∧ isConfig (.profDisable 1) = true
    ∧ isConfig (.setWlsb 4) = true ∧ isConfig (.setRefresh 2 1) = true ∧ isConfig (.setMrru 0) = true
    ∧ second.alive = true ∧ 0 < second.numPackets := by
  refine ⟨rfl, rfl, rfl, rfl, rfl, rfl, by decide⟩

/-- base with a full port list. -/
def fullPorts : State := { base with rtpPorts := [1, 2, 3, 4, 5, 6, 7, 8, 9, 10, 11, 12, 13, 14, 65535] }
theorem witness_RtpPortAddReset : fullPorts.alive = true ∧ (0 : U32).toNat < 1 ∧ 65535 < (65536 : U32).toNat
    ∧ (BitVec.ofNat 16 65535 : U16) ∈ fullPorts.rtpPorts ∧ (BitVec.ofNat 16 5004 : U16) ∉ fullPorts.rtpPorts
    ∧ 15 ≤ fullPorts.rtpPorts.length ∧ (BitVec.ofNat 16 1 : U16) ∉ base.rtpPorts
    ∧ base.rtpPorts.length < 15 := by
  refine ⟨rfl, by decide, by decide, by decide, by decide, by decide, by decide, by decide⟩

/-- A state with a UDP context on port 1234, and that port listed. -/
def udpState : State := { base with
  rtpPorts := [1234, 5004], ctx := base.ctx.set 0 (some udpCtx), numContextsUsed := 1 }
theorem witness_RtpPortRemove : udpState.alive = true ∧ (1234 : U16) ∈ udpState.rtpPorts
    ∧ udpState.rtpPorts.Nodup ∧ udpState.CountOk ∧ udpState.slot 0 = some udpCtx ∧ udpCtx.profile = .udp
    ∧ udpCtx.key = .udp [] 1234 80 ∧ (BitVec.ofNat 16 65535 : U16) ∉ udpState.rtpPorts
    ∧ udpState.slot 1 = none ∧ second.slot 0 = some first ∧ first.profile = .ipOnly :=
  ⟨rfl, by decide, by decide, ⟨by decide +kernel, by decide +kernel⟩, by decide +kernel, rfl, rfl, by decide,
    by decide +kernel, by decide +kernel, rfl⟩

theorem witness_ReinitAndRdCfg : second.alive = true ∧ second.slot 0 = some first
    ∧ (3 : U32) ≠ 0 ∧ (3 : U32) ≠ 1 ∧ (3 : U32) ≠ 2 := by
  refine ⟨rfl, by decide +kernel, by decide, by decide, by decide⟩

/-! ### Feedback -/

/-- 256 bytes in IN. -/
def in256 : State := ready 0 (List.replicate 256 0x20) 0
theorem witness_Piggyback : in256.alive = true ∧ in256.input 255 = List.replicate 255 0x20
    ∧ in256.input 256 = List.replicate 256 0x20 ∧ 255 < (256 : U32).toNat ∧ 1 ≤ (255 : U32).toNat
    ∧ (255 : U32).toNat ≤ 255 ∧ in256.input 0 = []
    ∧ ¬(in256.fb.first = in256.fb.next ∧ 0 < (in256.fb.slot in256.fb.first).len) := by
  refine ⟨rfl, by decide +kernel, by decide +kernel, by decide, by decide, by decide, rfl, by decide +kernel⟩
theorem witness_Piggyback_full :
    (ringOf (List.replicate 64 [0x20])).first = (ringOf (List.replicate 64 [0x20])).next
    ∧ 0 < ((ringOf (List.replicate 64 [0x20])).slot (ringOf (List.replicate 64 [0x20])).first).len := by
  decide +kernel

/-- Two entries stored, none locked; then the first one locked. -/
def twoEntries : State := { base with fb := ringOf [[0xF4, 0x20, 0x01], [1, 2, 3, 4, 5, 6, 7, 8, 9]] }
theorem twoEntries_split : twoEntries.fb.Split 0 2 :=
  (Ring.reset_split.push (data := [0xF4, 0x20, 0x01]) (by decide) (by decide) (by decide)).push
    (data := [1, 2, 3, 4, 5, 6, 7, 8, 9]) (by decide) (by decide) (by decide)
def oneLocked : State := { base with fb := twoEntries.fb.lockHead }
theorem witness_FlushAndAvail : twoEntries.alive = true ∧ twoEntries.fb.Ok
    ∧ twoEntries.fb.pending.length ≤ (15 : U32).toNat :=
  ⟨rfl, ⟨0, 2, twoEntries_split⟩, by decide +kernel⟩
theorem witness_FlushTakesWholeBlocks : twoEntries.alive = true ∧ twoEntries.fb.Split 0 2
    ∧ (14 : U32).toNat < (twoEntries.fb.blocks 0 2).length := ⟨rfl, twoEntries_split, by decide +kernel⟩
theorem witness_FlushIsUndone : twoEntries.alive = true ∧ twoEntries.fb.Split 0 2 := ⟨rfl, twoEntries_split⟩
theorem witness_RemoveAndUnlock : oneLocked.alive = true ∧ oneLocked.fb.Split 1 1 :=
  ⟨rfl, twoEntries_split.lockHead (by decide)⟩

/-- second, with an element in IN. -/
def delivered (input : List Byte) : State := { second with inBuf := Memory.ofBytes input }
theorem witness_Deliver_small : (delivered [0x40, 0x05]).alive = true
    ∧ (delivered [0x40, 0x05]).input 2 = [0x40, 0x05] ∧ (delivered [0x40, 0x05]).cfg.cidType = .small
    ∧ ¬(octet [0x40, 0x05] 0).toNat / 16 = 14 ∧ (delivered [0x40, 0x05]).slot 0 = some first
    ∧ first.profile ≠ .uncompressed ∧ 2 ≤ ([0x40, 0x05] : List Byte).length
    ∧ (octet [0x40, 0x05] 0).toNat / 64 = 1 := by
  refine ⟨rfl, by decide +kernel, rfl, by decide, by decide +kernel, by decide, by decide, by decide⟩
theorem witness_Deliver_ignored : (delivered [0xE3, 0x05]).input 2 = [0xE3, 0x05]
    ∧ (octet [0xE3, 0x05] 0).toNat / 16 = 14 ∧ (delivered [0xE3, 0x05]).slot 3 = none
    ∧ (delivered []).input 0 = [] := by
  refine ⟨by decide +kernel, by decide, by decide +kernel, rfl⟩
/-- After RESET LARGE 300, with an element in IN. -/
def large (input : List Byte) : State := { State.afterReset .large 300 with inBuf := Memory.ofBytes input }
theorem witness_Deliver_large : (large [0x81, 0x2C, 0x40, 0x05]).alive = true
    ∧ (large [0x81, 0x2C, 0x40, 0x05]).cfg.cidType = .large
    ∧ (large [0x81, 0x2C, 0x40, 0x05]).input 4 = [0x81, 0x2C, 0x40, 0x05]
    ∧ sdvlDec [0x81, 0x2C, 0x40, 0x05] = some (300, 2) ∧ sdvlDec [0x80] = none
    ∧ sdvlDec [0xC0, 0x40, 0x00] = some (16384, 3) := by
  refine ⟨rfl, rfl, by decide +kernel, by decide, by decide, by decide⟩

/-! ### The whole machine -/

-- R345, R270: what FB_FLUSH locked is unlocked by a GET_SEGMENT that fails (log 21)
theorem witness_ErrorsChangeNothing_unlocks : oneLocked.alive = true
    ∧ look (fun t => (t.rsp.errc, oneLocked.fb.firstUnlocked, t.fb.firstUnlocked)) (exec (.getSegment 10) oneLocked)
      = some (7, 1, 0)
    ∧ look (fun t => (t.rsp.errc, t.fb.firstUnlocked)) (exec (.getSegment 0) oneLocked) = some (1, 0) :=
  ⟨rfl, by decide +kernel, by decide +kernel⟩
theorem witness_ErrorsChangeNothing_segment : base.fb.Split 0 0
    ∧ (∃ t, exec (.getSegment 10) base = .next t ∧ (t.rsp.status, t.rsp.errc) = (0, 7))
    ∧ (dead (.command (record 0x02) [])).alive = false :=
  ⟨Ring.reset_split, of_look (f := fun t => (t.rsp.status, t.rsp.errc)) (by decide +kernel), rfl⟩
theorem witness_ErrorsChangeNothing : isCommand (.rdCfg 3) = true
    ∧ ∃ t, exec (.rdCfg 3) base = .next t ∧ (t.rsp.status, t.rsp.errc) = (0, 6) :=
  ⟨rfl, of_look (f := fun t => (t.rsp.status, t.rsp.errc)) (by decide +kernel)⟩
theorem witness_CommandFrame : isCommand (.compress 0 24 200) = true
    ∧ ∃ t, exec (.compress 0 24 200) base = .next t ∧ t.rsp.status = 1 :=
  ⟨rfl, of_look (f := fun t => t.rsp.status) (by decide +kernel)⟩
theorem witness_ScratchIsNotRead : isCommand (.fbFlush 14) = true := rfl
theorem witness_LockedPhase : 0 < second.numPackets
    ∧ ∃ t, step { second with queue := [.command (record 0x12) []] } = .next t ∧ t.numPackets = 1 :=
  ⟨by decide, of_look (f := fun t => t.numPackets) (by decide +kernel)⟩

/-- base with a COMPRESS of its packet queued. -/
def running : State := queued (.command { op := 0x01, a := 200, b := 0, t := 0, inLen := 24 } packet)
theorem running_step : ∃ t, step running = .next t ∧ t.rsp.status = 1 :=
  of_look (f := fun t => t.rsp.status) (by decide +kernel)
theorem live_running : running.Live :=
  have h : base.Live := live_ready _ _ _
  ⟨h.outBuf, h.rruBuf, h.cfg, h.ports, h.packets, ⟨h.count.size, h.count.count⟩,
    ⟨h.phase.contexts, h.phase.rru⟩, h.keys, h.slots, h.ring, h.rru⟩
theorem witness_MemoryFormKept : running.MemoryOk ∧ ∃ t, step running = .next t ∧ t.rsp.status = 1 :=
  ⟨⟨Memory.ofBytes_wf _, fun _ => ⟨rfl, rfl⟩⟩, running_step⟩
theorem witness_RingOrderKept : (running.alive = true → running.fb.Ok)
    ∧ ∃ t, step running = .next t ∧ (t.rsp.status, t.alive) = (1, true) :=
  ⟨fun _ => Ring.reset_ok, of_look (f := fun t => (t.rsp.status, t.alive)) (by decide +kernel)⟩
theorem witness_ContextCountKept : (running.alive = true → running.CountOk)
    ∧ ∃ t, step running = .next t ∧ (t.rsp.status, t.alive) = (1, true) :=
  ⟨fun _ => live_running.count, of_look (f := fun t => (t.rsp.status, t.alive)) (by decide +kernel)⟩
theorem witness_InvariantKept : running.Inv ∧ ∃ t, step running = .next t ∧ t.rsp.status = 1 :=
  ⟨⟨Memory.ofBytes_wf _, fun _ => live_running⟩, running_step⟩

end Sys2Proof.Tests
end

/-!
PROOFS of the family 10_state.md: what no command reads, and what every step keeps.
-/
namespace Sys2Proof.Machine
open Sys2Proof

/-! ## No command reads the scratch registers (10_state.md R23) -/

theorem SameButScratch.refl (o : Host.Outcome State Fault Refusal) : SameButScratch o o := by
  cases o with
  | next t => exact ⟨t.scr, rfl⟩
  | fault e => rfl
  | refused e => rfl

theorem SameButScratch.next (t : State) (sc : Scratch) :
    SameButScratch (.next t) (.next { t with scr := sc }) := ⟨sc, rfl⟩

theorem SameButScratch.ite {p : Prop} [Decidable p] {a b c d : Host.Outcome State Fault Refusal}
    (h1 : SameButScratch a b) (h2 : SameButScratch c d) :
    SameButScratch (if p then a else c) (if p then b else d) := by
  split
  · exact h1
  · exact h2

theorem SameButScratch.whenAlive {s : State} {sc : Scratch} {k k' : Host.Outcome State Fault Refusal}
    (h : SameButScratch k k') :
    SameButScratch (whenAlive s k) (whenAlive { s with scr := sc } k') :=
  .ite h (.next (s.raiseError .dead) sc)

theorem SameButScratch.whenConfigurable {s : State} {sc : Scratch}
    {k k' : Host.Outcome State Fault Refusal} (h : SameButScratch k k') :
    SameButScratch (whenConfigurable s k) (whenConfigurable { s with scr := sc } k') :=
  .whenAlive (.ite (.next (s.raiseError .configLocked) sc) h)

/-- FIND_OR_CREATE neither reads nor writes the scratch registers. -/
theorem State.findOrCreate_scratch (s : State) (sc : Scratch) (prof : Profile) (key : Key) (par : Parsed)
    (pkt : List Byte) (t : U64) :
    ({ s with scr := sc } : State).findOrCreate profileExt prof key par pkt t
      = { s.findOrCreate profileExt prof key par pkt t with scr := sc } := by
  cases h : s.find prof key with
  | some c => rw [State.findOrCreate_some h, State.findOrCreate_some (s := { s with scr := sc }) h]
  | none => rw [State.findOrCreate_none h, State.findOrCreate_none (s := { s with scr := sc }) h]; rfl

/-- The registers are loaded and the feedback under assembly is emptied before anything is read of them. -/
theorem State.assembled_scratch (s : State) (sc : Scratch) (prof : Profile) (par : Parsed)
    (pkt : List Byte) (max : Nat) (t : U64) :
    ({ s with scr := sc } : State).assembled prof par pkt max t = s.assembled prof par pkt max t := by
  simp only [State.assembled, State.findOrCreate_scratch]
  rfl

theorem State.compressAs_scratch (s : State) (sc : Scratch) (prof : Profile) (par : Parsed)
    (pkt : List Byte) (max : Nat) (t : U64) :
    ({ s with scr := sc } : State).compressAs profileExt prof par pkt max t
      = s.compressAs profileExt prof par pkt max t := by
  rw [State.compressAs_eq, State.compressAs_eq, State.assembled_scratch]
  rfl

theorem execCompress_scratch (s : State) (sc : Scratch) (t : U64) (inLen outMax : U32) :
    SameButScratch (execCompress t inLen outMax s) (execCompress t inLen outMax { s with scr := sc }) := by
  have hin : ({ s with scr := sc } : State).input inLen = s.input inLen := rfl
  refine .whenAlive (.ite (.next _ _) ?_)
  simp only [State.compressAs_scratch, hin]
  cases parse (s.input inLen) with
  | none => exact .next _ _
  | some par =>
    dsimp only
    cases select s.cfg.profilesEn s.rtpPorts (s.input inLen) par with
    | none => exact .next _ _
    | some prof => exact .ite (.refl _) (.refl _)

/-- GET_SEGMENT reads of the registers what it has assembled itself. -/
theorem State.sendSegment_scratch (s : State) (sc : Scratch) (max : Nat) :
    SameButScratch (s.sendSegment max) (({ s with scr := sc } : State).sendSegment max) := by
  have h : ({ s with scr := sc } : State).startAssembly.fbDrain max
      = { s.startAssembly.fbDrain max with
          scr := { sc with asm := (s.startAssembly.fbDrain max).scr.asm } } := by
    rw [show ({ s with scr := sc } : State).startAssembly
      = { s.startAssembly with scr := { sc with asm := Assembly.empty } } from rfl,
      State.fbDrain_scratch, State.withScratch, State.fbDrain_scr]
    rfl
  rw [State.sendSegment, State.sendSegment, h]
  generalize s.startAssembly.fbDrain max = w
  refine .ite (.next _ _) ?_
  dsimp only
  split
  · exact .next _ _
  · exact .next _ _

theorem State.deliver_scratch (s : State) (sc : Scratch) (el : List Byte) :
    ({ s with scr := sc } : State).deliver el = { s.deliver el with scr := sc } := by
  simp only [State.deliver, State.slot]
  repeat' split
  all_goals rfl

/-- A command's outcome on two states that differ in the scratch registers. -/
theorem exec_scratch {i : Instr} (hi : isCommand i = true) (s : State) (sc : Scratch) :
    SameButScratch (exec i s) (exec i { s with scr := sc }) := by
  cases i
  case compress t inLen outMax => exact execCompress_scratch s sc t inLen outMax
  case getSegment outMax =>
    exact .whenAlive (.ite (.next _ _) (.ite (.next _ _) (s.sendSegment_scratch sc _)))
  case profEnable a =>
    refine .whenConfigurable ?_
    cases operandProfile a <;> exact .next _ _
  case profDisable a =>
    refine .whenConfigurable ?_
    cases operandProfile a <;> exact .next _ _
  case setWlsb w => exact .whenConfigurable (.ite (.next _ _) (.next _ _))
  case setRefresh ir fo => exact .whenConfigurable (.ite (.next _ _) (.next _ _))
  case setMrru n => exact .whenConfigurable (.ite (.next _ _) (.next _ _))
  case rtpPortAdd port =>
    refine .whenAlive ?_
    cases portOperand port with
    | none => exact .next _ _
    | some p => exact .ite (.next _ _) (.ite (.next _ _) (.next _ _))
  case rtpPortRemove port =>
    refine .whenAlive ?_
    cases portOperand port with
    | none => exact .next _ _
    | some p => exact .ite (.next _ _) (.next _ _)
  case rtpPortReset => exact .whenAlive (.next _ _)
  case fbPiggyback inLen => exact .whenAlive (.ite (.next _ _) (.ite (.next _ _) (.next _ _)))
  case fbDeliver inLen =>
    refine .whenAlive (.ite (.next _ _) ?_)
    rw [State.deliver_scratch s sc]
    exact .next _ _
  case fbFlush outMax =>
    refine .whenAlive ?_
    rw [State.fbDrain_scratch s _ sc]
    exact .next _ _
  case fbAvail => exact .whenAlive (.next _ _)
  case fbRemoveLocked => exact .whenAlive (.next _ _)
  case fbUnlock => exact .whenAlive (.next _ _)
  case reinit => exact .whenAlive (.next _ _)
  case rdCfg sel =>
    refine .whenAlive ?_
    dsimp only
    cases cfgRead s.cfg sel <;> exact .next _ _
  all_goals cases hi

/-- Settles O54: the one command that works in the registers beside GET_SEGMENT, COMPRESS, loads them first. -/
theorem scratchIsNotRead : Obligations.ScratchIsNotRead :=
  fun _ s sc hi => exec_scratch hi s sc

end Sys2Proof.Machine

/-!
What every step keeps, said once for any predicate of the state: `Kept Q` asks for Q after a reset, after
each way a command answers (`CommandStep`), and after what an internal operation touches; `Kept.step` is then
the step lemma.
-/
namespace Sys2Proof.Machine
open Sys2Proof

/-! ## Steps and resets -/

/-- The machine runs what the decoder reads off a latched command. -/
theorem step_command {s : State} {c : Command} {input : List Byte} {q : List Issue} {i : Instr}
    {r : List Byte} (hq : s.queue = .command c input :: q) (hd : decode (.command c) = .ok (i, r)) :
    step s = exec i ((s.setQueue q).latch c input) := by
  simp only [step, stepWith, hq]
  rw [show ((s.setQueue q).latch c input).cmd = c from rfl, hd]

theorem step_wire {s : State} {slot : Slot} {octets : List Byte} {q : List Issue} {i : Instr}
    {r : List Byte} (hq : s.queue = .wire slot octets :: q) (hd : decode (.wire slot octets) = .ok (i, r)) :
    step s = exec i (s.setQueue q) := by
  simp only [step, stepWith, hq, hd]

theorem step_waiting {s : State} (hq : s.queue = []) : step s = .next s := by
  simp only [step, stepWith, hq]

theorem step_reset {s : State} {ct : CidType} {m : Nat} {q : List Issue}
    (hq : s.queue = .reset ct m :: q) : step s = .next ((s.setQueue q).applyReset ct m) := by
  simp only [step, stepWith, hq]

/-- Settles O4: the act at the head of the queue, decoded, is what `stepWith` runs. -/
theorem stepRunsTheDecodedInstruction : Obligations.StepRunsTheDecodedInstruction :=
  ⟨fun _ _ _ _ _ _ hq hd => step_command hq hd, fun _ _ _ _ _ _ hq hd => step_wire hq hd,
    fun _ hq => step_waiting hq⟩

/-- A legal MAX_CID fits its register. -/
theorem Cfg.reset_maxCid {ct : CidType} {m : Nat} (h : m ≤ Config.cidBound ct) :
    (Cfg.reset ct m).maxCid.toNat = m := by
  have hb : Config.cidBound ct < 2 ^ 14 := by cases ct <;> decide
  rw [Cfg.reset, BitVec.toNat_ofNat, Nat.mod_eq_of_lt (by omega)]

theorem State.afterReset_slot (ct : CidType) (m c : Nat) : (State.afterReset ct m).slot c = none := by
  simp only [State.slot, State.afterReset, List.getElem?_replicate]
  split <;> rfl

/-- A slot of the ring after reset. -/
theorem Ring.reset_slot (i : Nat) : Ring.reset.slot i = FbSlot.free := by
  simp only [Ring.slot, Ring.reset, List.getD_eq_getElem?_getD, List.getElem?_replicate]
  split <;> rfl

/-- Settles O7: the state after reset, with what HOST owns kept. -/
theorem legalReset : Obligations.LegalReset := by
  intro s ct m q hq hm
  refine ⟨_, step_reset hq, ?_⟩
  rw [State.applyReset_legal hm]
  refine ⟨rfl, rfl, rfl, rfl, Cfg.reset_maxCid hm, List.length_replicate, State.afterReset_slot ct m, ?_,
    rfl, rfl, rfl, rfl, rfl, rfl, rfl⟩
  intro i _
  show (Ring.reset.slot i).len = 0 ∧ (Ring.reset.slot i).locked = false
  rw [Ring.reset_slot]
  exact ⟨rfl, rfl⟩

theorem Cfg.reset_ok {ct : CidType} {m : Nat} (h : m ≤ Config.cidBound ct) : (Cfg.reset ct m).Ok :=
  { maxCid := (Cfg.reset_maxCid h).symm ▸ h
    width := by simp [Cfg.reset, Config.wlsbWidthReset]
    refresh := by simp [Cfg.reset, Config.changeToIrCount, Config.changeToFoCount]
    refreshPos := by simp [Cfg.reset, Config.changeToFoCount] }

theorem State.afterReset_count {ct : CidType} {m : Nat} (h : m ≤ Config.cidBound ct) :
    (State.afterReset ct m).CountOk := by
  refine ⟨?_, ?_⟩
  · rw [State.afterReset, List.length_replicate, Cfg.reset_maxCid h]
  · rw [State.afterReset, List.countP_replicate]
    rfl

/-- The state after a reset with legal straps meets the invariant. -/
theorem State.afterReset_live {ct : CidType} {m : Nat} (h : m ≤ Config.cidBound ct) :
    (State.afterReset ct m).Live where
  outBuf := rfl
  rruBuf := rfl
  cfg := Cfg.reset_ok h
  ports := ⟨Nat.zero_le _, List.nodup_nil, List.not_mem_nil⟩
  packets := Nat.zero_le _
  count := State.afterReset_count h
  phase := ⟨fun _ _ hv => (List.mem_replicate.mp hv).2, fun _ => rfl⟩
  keys := fun i _ _ _ hi => by rw [State.afterReset_slot] at hi; cases hi
  slots := fun i _ hi => by rw [State.afterReset_slot] at hi; cases hi
  ring := Ring.reset_ok
  rru := ⟨Nat.zero_le _, fun _ => rfl, fun _ hi => absurd hi (Nat.not_lt_zero _)⟩

/-- Settles O60: the straps of `State.reset` are legal. -/
theorem invariantAtReset : Obligations.InvariantAtReset :=
  ⟨rfl, fun _ => State.afterReset_live (by decide)⟩

/-! ## A step lemma for any predicate of the state -/

/-- The recovery of R345, field by field: the ring unlocked, the slot freed or put back. -/
theorem State.recoverCompress_eq (w : State) (c : Nat) (fresh : Bool) (saved : Option Ctx) :
    w.recoverCompress c fresh saved = { w with
      fb := w.fb.unlock
      ctx := w.ctx.set c (if fresh = true then none else saved)
      numContextsUsed := if fresh = true then w.numContextsUsed - 1 else w.numContextsUsed } := by
  cases fresh <;> rfl

/-- No command ends the life of a block, revives one, or writes IN. -/
theorem CommandStep.alive_inBuf {s t : State} {i : Instr} (h : CommandStep s i t) :
    t.alive = s.alive ∧ t.inBuf = s.inBuf := by
  have drained (w : State) (m : Nat) : (w.fbDrain m).alive = w.alive ∧ (w.fbDrain m).inBuf = w.inBuf :=
    ⟨w.fbDrain_alive m, w.fbDrain_inBuf m⟩
  have assembled (prof : Profile) (par : Parsed) (pkt : List Byte) (m : Nat) (t : U64) :
      (s.assembled prof par pkt m t).alive = s.alive ∧ (s.assembled prof par pkt m t).inBuf = s.inBuf := by
    obtain ⟨ha, -, -, -, -, -, hb, -⟩ := s.assembled_same prof par pkt m t
    exact ⟨ha, hb⟩
  cases h with
  | flush m => exact drained s _
  | noRoom m => exact drained s.startAssembly _
  | segment m n chunk scr =>
    dsimp only
    split <;> exact drained s.startAssembly _
  | sent t _ m pkt par prof => exact assembled prof par pkt m.toNat t
  | segmented t _ m pkt par prof => exact assembled prof par pkt m.toNat t
  | recovered t _ m pkt par prof =>
    rw [State.recoverCompress_eq]
    exact assembled prof par pkt m.toNat t
  | _ => exact ⟨rfl, rfl⟩

/-- Q of a living block outlives whatever a step does. -/
structure Kept (Q : State → Prop) : Prop where
  /-- HOST issues its next act: it writes CMD and IN, and the act leaves the queue. -/
  issue : ∀ {s : State} (c : Command) (m : Memory) (q : List Issue), Q s →
    Q { s with cmd := c, inBuf := m, queue := q }
  command : ∀ {s t : State} {i : Instr}, CommandStep s i t → Q s → Q t
  /-- An internal operation on the scratch registers alone. -/
  scratch : ∀ {s : State} (sc : Scratch), Q s → Q { s with scr := sc }
  /-- A feedback row, with an entry that waits. -/
  lockHead : ∀ {s : State} (sc : Scratch), s.fb.waiting = true → Q s →
    Q { s with fb := s.fb.lockHead, scr := sc }
  /-- The segment row. -/
  advance : ∀ {s : State} (n : Nat) (sc : Scratch), n ≤ s.rru.len → Q s →
    Q { s with rru := s.rru.advance n, scr := sc }
  reset : ∀ {ct : CidType} {m : Nat}, m ≤ Config.cidBound ct → ∀ s : State, Q (s.applyReset ct m)

/-- An internal operation keeps what is kept, the life of the block, and IN. -/
theorem Kept.wire {Q : State → Prop} (K : Kept Q) {s t : State} {i : Instr} (hi : isCommand i = false)
    (h : exec i s = .next t) : t.alive = s.alive ∧ t.inBuf = s.inBuf ∧ (Q s → Q t) := by
  rcases exec_wire hi h with ⟨sc, rfl⟩ | ⟨hw, sc, rfl⟩ | ⟨n, sc, hn, rfl⟩
  · exact ⟨rfl, rfl, K.scratch sc⟩
  · exact ⟨rfl, rfl, K.lockHead sc hw⟩
  · exact ⟨rfl, rfl, K.advance n sc hn⟩

theorem Kept.step {Q : State → Prop} (K : Kept Q) {s t : State} (hs : s.alive = true → Q s)
    (h : step s = .next t) (ht : t.alive = true) : Q t := by
  rcases step_cases h with
    ⟨-, rfl⟩ | ⟨c, input, q, -, h⟩ | ⟨_, _, q, i, -, hi, h⟩ | ⟨ct, m, q, -, rfl⟩
  · exact hs ht
  · have hq : s.alive = true → Q ((s.setQueue q).latch c input) := fun ha =>
      K.issue (s := s) c (s.inBuf.writeBytes 0 input) q (hs ha)
    rcases h with ⟨i, hi, h⟩ | ⟨ha, rfl⟩ | ⟨ha, rfl⟩
    · have C := exec_command hi h
      exact K.command C (hq (C.alive_inBuf.1.symm.trans ht))
    · exact absurd (ha.symm.trans ht) (by decide)
    · exact K.command (.failed .reinit 9 (by decide) (by decide)) (hq ha)
  · obtain ⟨ha, -, hQ⟩ := K.wire hi h
    exact hQ (K.issue s.cmd s.inBuf q (hs (ha.symm.trans ht)))
  · by_cases hm : m ≤ Config.cidBound ct
    · exact K.reset hm (s.setQueue q)
    · rw [State.applyReset_illegal (Nat.lt_of_not_le hm)] at ht
      cases ht

/-! ## The ring (10_state.md R37, 45_feedback.md R260 to R266) -/

theorem Ring.Ok.lockHead {r : Ring} (h : r.Ok) (hw : r.waiting = true) : r.lockHead.Ok := by
  obtain ⟨l, u, h⟩ := h
  exact ⟨_, _, h.lockHead (h.waiting_iff.mp hw)⟩

/-- The ring of the assembled state is that of s, drained. -/
theorem State.assembled_ringOk {s : State} (h : s.fb.Ok) (prof : Profile) (par : Parsed) (pkt : List Byte)
    (max : Nat) (t : U64) : (s.assembled prof par pkt max t).fb.Ok := by
  refine State.fbDrain_ringOk max ?_
  show (s.findOrCreate _ _ _ _ _ _).fb.Ok
  rwa [State.findOrCreate_fb]

theorem CommandStep.ringOk {s t : State} {i : Instr} (h : CommandStep s i t) (hs : s.fb.Ok) : t.fb.Ok := by
  cases h with
  | piggyback _ data h0 hm hf => exact hs.push hf h0 hm
  | flush m => exact State.fbDrain_ringOk _ hs
  | removeLocked => exact hs.removeLocked
  | unlock => exact hs.unlock
  | unlocked => exact hs.unlock
  | noRoom m => exact (State.fbDrain_ringOk (s := s.startAssembly) _ hs).unlock
  | segment m n chunk scr =>
    dsimp only
    split <;> exact (State.fbDrain_ringOk (s := s.startAssembly) _ hs).removeLocked
  | sent t _ m pkt par prof => exact (State.assembled_ringOk hs prof par pkt _ t).removeLocked
  | segmented t _ m pkt par prof => exact (State.assembled_ringOk hs prof par pkt _ t).unlock
  | recovered t _ m pkt par prof =>
    rw [State.recoverCompress_eq]
    exact (State.assembled_ringOk hs prof par pkt _ t).unlock
  | _ => exact hs

theorem ringOk_kept : Kept fun s => s.fb.Ok where
  issue _ _ _ h := h
  command := CommandStep.ringOk
  scratch _ h := h
  lockHead _ hw h := h.lockHead hw
  advance _ _ _ h := h
  reset hm s := by
    rw [State.applyReset_legal hm]
    exact Ring.reset_ok

/-- Settles O57: every operation of the ring keeps the walk of R37. -/
theorem ringOrderKept : Obligations.RingOrderKept := fun _ _ hs h ht => ringOk_kept.step hs h ht

/-! ## The count of used slots (10_state.md R27) -/

/-- The assembled state counts its slots, and the slot of the packet's context is used. -/
theorem State.CountOk.assembled {s : State} (h : s.CountOk) (prof : Profile) (par : Parsed)
    (pkt : List Byte) (max : Nat) (t : U64) :
    (s.assembled prof par pkt max t).CountOk
      ∧ ∃ v, (s.assembled prof par pkt max t).slot (s.pick prof (prof.key profileExt pkt par)).1 = some v := by
  obtain ⟨fb, sc, e⟩ := s.assembled_eq prof par pkt max t
  obtain ⟨hc, v, hv⟩ := h.findOrCreate prof (prof.key profileExt pkt par) par pkt t
  rw [e]
  exact ⟨hc.congr rfl rfl rfl, v, hv⟩

/-- The slot of the packet's context before the command: that of the stored context, or one to fill. -/
theorem State.pick_cases (s : State) (prof : Profile) (key : Key) :
    (∃ c v, s.find prof key = some c ∧ s.pick prof key = (c, false) ∧ s.slot c = some v
      ∧ v.profile = prof ∧ v.key = key)
    ∨ (s.find prof key = none ∧ s.pick prof key = (s.allocate.1, true)) := by
  cases h : s.find prof key with
  | some c =>
    obtain ⟨v, hv, hp, hk⟩ := State.find_some h
    exact .inl ⟨c, v, rfl, by rw [State.pick, h], hv, hp, hk⟩
  | none => exact .inr ⟨rfl, by rw [State.pick, h]⟩

theorem isSome_reinitSlot (v : Option Ctx) : (reinitSlot v).isSome = v.isSome := by
  cases v with
  | none => rfl
  | some c =>
    rw [reinitSlot]
    split <;> rfl

theorem CommandStep.countOk {s t : State} {i : Instr} (h : CommandStep s i t) (hs : s.CountOk) :
    t.CountOk := by
  cases h with
  | config _ cfg _ _ _ hmc => exact hs.congr rfl rfl hmc
  | portRemove _ p _ =>
    refine ⟨List.length_map _ |>.trans hs.size, ?_⟩
    show s.numContextsUsed - s.ctx.countP (slotUsesPort p) = _
    rw [hs.count, countP_destroyPort p, Nat.add_sub_cancel_left]
    rfl
  | deliver _ cid c hc => exact hs.set hc rfl rfl rfl
  | reinit =>
    refine ⟨List.length_map _ |>.trans hs.size, hs.count.trans ?_⟩
    show _ = (s.ctx.map reinitSlot).countP Option.isSome
    rw [List.countP_map]
    congr 1
    exact funext fun v => (isSome_reinitSlot v).symm
  | flush m => exact hs.congr (s.fbDrain_ctx _) (s.fbDrain_numContextsUsed _) (congrArg _ (s.fbDrain_cfg _))
  | noRoom m =>
    obtain ⟨fb, bs, e⟩ := s.startAssembly.fbDrain_only m.toNat
    rw [e]
    exact hs.congr rfl rfl rfl
  | segment m n chunk scr =>
    obtain ⟨fb, bs, e⟩ := s.startAssembly.fbDrain_only m.toNat
    rw [e]
    dsimp only
    split <;> exact hs.congr rfl rfl rfl
  | sent t _ m pkt par prof =>
    obtain ⟨hc, v, hv⟩ := hs.assembled prof par pkt m.toNat t
    exact hc.set hv rfl rfl rfl
  | segmented t _ m pkt par prof =>
    obtain ⟨hc, v, hv⟩ := hs.assembled prof par pkt m.toNat t
    exact hc.set hv rfl rfl rfl
  | recovered t _ m pkt par prof =>
    obtain ⟨hc, v, hv⟩ := hs.assembled prof par pkt m.toNat t
    rw [State.recoverCompress_eq]
    rcases s.pick_cases prof (prof.key profileExt pkt par) with ⟨c, b, -, hp, hb, -⟩ | ⟨-, hp⟩
    · rw [hp] at hv ⊢
      rw [hb]
      exact hc.set hv rfl rfl rfl
    · rw [hp] at hv ⊢
      exact hc.free hv rfl rfl rfl
  | _ => exact hs.congr rfl rfl rfl

theorem countOk_kept : Kept State.CountOk where
  issue _ _ _ h := h.congr rfl rfl rfl
  command := CommandStep.countOk
  scratch _ h := h.congr rfl rfl rfl
  lockHead _ _ h := h.congr rfl rfl rfl
  advance _ _ _ h := h.congr rfl rfl rfl
  reset hm s := by
    rw [State.applyReset_legal hm]
    exact (State.afterReset_count hm).congr rfl rfl rfl

/-- Settles O58: FIND_OR_CREATE keeps the count, and what follows it writes or frees a used slot. -/
theorem contextCountKept : Obligations.ContextCountKept := fun _ _ hs h ht => countOk_kept.step hs h ht

end Sys2Proof.Machine

/-!
The invariant of the machine. Two things can happen to the contexts: they stay, but for `force_ir` and for
slots that are freed (`State.SlotsFrom`), or COMPRESS commits one.
-/
namespace Sys2Proof.Machine
open Sys2Proof

/-! ## Contexts that stay -/

/-- Every used slot of t holds the context that s has there, but for `force_ir`. -/
def State.SlotsFrom (s t : State) : Prop :=
  ∀ d c, t.slot d = some c → ∃ b f, s.slot d = some b ∧ c = { b with forceIr := f }

theorem State.SlotsFrom.of_slot {s t : State} (h : ∀ d c, t.slot d = some c → s.slot d = some c) :
    s.SlotsFrom t :=
  fun d c hd => ⟨c, c.forceIr, h d c hd, rfl⟩

theorem State.SlotsFrom.of_ctx {s t : State} (h : t.ctx = s.ctx) : s.SlotsFrom t :=
  .of_slot fun d _ hd => State.slot_eq h d ▸ hd

/-- A slot written over by one that the old slot covers. -/
theorem State.SlotsFrom.set {s t : State} {c : Nat} {v : Option Ctx} (h : t.ctx = s.ctx.set c v)
    (hv : ∀ x, v = some x → ∃ b f, s.slot c = some b ∧ x = { b with forceIr := f }) : s.SlotsFrom t := by
  intro d x hd
  rw [State.slot_set h] at hd
  split at hd
  · rename_i hc
    exact hc.1 ▸ hv x hd
  · exact ⟨x, x.forceIr, hd, rfl⟩

/-- Every slot mapped to one that it covers. -/
theorem State.SlotsFrom.map {s t : State} {f : Option Ctx → Option Ctx} (h : t.ctx = s.ctx.map f)
    (hf : ∀ v x, f v = some x → ∃ b g, v = some b ∧ x = { b with forceIr := g }) : s.SlotsFrom t := by
  intro d x hd
  have hg := State.slot_getElem hd
  rw [h, List.getElem?_map, Option.map_eq_some_iff] at hg
  obtain ⟨v, hv, hx⟩ := hg
  obtain ⟨b, g, rfl, hb⟩ := hf v x hx
  exact ⟨b, g, by rw [State.slot, hv]; rfl, hb⟩

theorem State.SlotsFrom.keysOk {s t : State} (h : s.SlotsFrom t) (hk : s.KeysOk) : t.KeysOk := by
  intro i j c d hi hj hp he
  obtain ⟨b, f, hb, rfl⟩ := h i c hi
  obtain ⟨b', f', hb', rfl⟩ := h j d hj
  exact hk i j b b' hb hb' hp he

theorem Ctx.Ok.setForceIr {cfg : Cfg} {d : Nat} {b : Ctx} (h : b.Ok cfg d) (f : Bool) :
    Ctx.Ok cfg d { b with forceIr := f } :=
  ⟨h.cid, h.mode, h.shape, h.sent, h.sentMax, h.generic⟩

theorem State.SlotsFrom.slotsOk {s t : State} {cfg : Cfg} (h : s.SlotsFrom t)
    (hs : ∀ i c, s.slot i = some c → c.Ok cfg i) : ∀ i c, t.slot i = some c → c.Ok cfg i := by
  intro i c hi
  obtain ⟨b, f, hb, rfl⟩ := h i c hi
  exact (hs i b hb).setForceIr f

/-- No slot is used exactly when every slot reads as unused. -/
theorem State.unused_iff (s : State) : (∀ v ∈ s.ctx, v = none) ↔ ∀ d, s.slot d = none := by
  constructor
  · intro h d
    cases hd : s.slot d with
    | none => rfl
    | some c => exact h _ (List.mem_of_getElem? (State.slot_getElem hd))
  · intro h v hv
    obtain ⟨d, hd⟩ := List.mem_iff_getElem?.mp hv
    have := h d
    rwa [State.slot, hd, Option.join_some] at this

theorem State.SlotsFrom.unused {s t : State} (h : s.SlotsFrom t) (hs : ∀ v ∈ s.ctx, v = none) :
    ∀ v ∈ t.ctx, v = none := by
  rw [State.unused_iff] at hs ⊢
  intro d
  cases hd : t.slot d with
  | none => rfl
  | some c =>
    obtain ⟨b, _, hb, -⟩ := h d c hd
    rw [hs d] at hb
    cases hb

/-- A state whose contexts stay, with the same registers and number of packets, whose RRU stays or is sent
in part, lives as before. -/
theorem State.Live.of_slots {s t : State} (hs : s.Live) (hcfg : t.cfg = s.cfg)
    (hn : t.numPackets = s.numPackets) (hsl : s.SlotsFrom t)
    (hu : t.rru = s.rru ∨ ∃ n, n ≤ s.rru.len ∧ t.rru = s.rru.advance n) (ho : t.outBuf.wf = true)
    (hp : PortsOk t.rtpPorts) (hc : t.CountOk) (hr : t.fb.Ok) : t.Live where
  outBuf := ho
  rruBuf := by
    rcases hu with e | ⟨n, -, e⟩ <;> rw [e] <;> exact hs.rruBuf
  cfg := hcfg ▸ hs.cfg
  ports := hp
  packets := hn ▸ hs.packets
  count := hc
  phase := by
    refine ⟨fun h => hsl.unused (hs.phase.contexts (hn ▸ h)), fun h => ?_⟩
    have h0 := hs.phase.rru (hn ▸ h)
    rcases hu with e | ⟨n, -, e⟩
    · rw [e, h0]
    · rw [e]
      show s.rru.len - n = 0
      rw [h0, Nat.zero_sub]
  keys := hsl.keysOk hs.keys
  slots := hcfg ▸ hsl.slotsOk hs.slots
  ring := hr
  rru := by
    rw [hcfg]
    rcases hu with e | ⟨n, hle, e⟩
    · exact e ▸ hs.rru
    · exact e ▸ hs.rru.advance hle

/-! ## The commit of a packet (47_commands.md R302) -/

/-- A used slot other than the one FIND_OR_CREATE answers has another profile or key (41_frontend.md R157). -/
theorem State.KeysOk.pick {s : State} (h : s.KeysOk) {prof : Profile} {key : Key} {d : Nat} {v : Ctx}
    (hd : d ≠ (s.pick prof key).1) (hv : s.slot d = some v) : ¬(v.profile = prof ∧ v.key = key) := by
  rcases s.pick_cases prof key with ⟨c, b, -, hc, hb, hp, hk⟩ | ⟨hf, -⟩
  · rintro ⟨rfl, rfl⟩
    exact hd (by rw [hc]; exact h d c v b hv hb hp.symm hk.symm)
  · exact State.find_none hf hv

/-- Every other slot of the assembled state is that of s. -/
theorem State.assembled_slot_ne (s : State) (prof : Profile) (par : Parsed) (pkt : List Byte) (max : Nat)
    (t : U64) {d : Nat} (hd : d ≠ (s.pick prof (prof.key profileExt pkt par)).1) :
    (s.assembled prof par pkt max t).slot d = s.slot d := by
  obtain ⟨fb, sc, e⟩ := s.assembled_eq prof par pkt max t
  rw [e]
  rcases s.pick_cases prof (prof.key profileExt pkt par) with ⟨c, _, hf, -⟩ | ⟨hf, hp⟩
  · exact State.slot_eq (by rw [State.findOrCreate_some hf]) d
  · rw [hp] at hd
    rw [State.slot_set (s := s) (c := s.allocate.1) (by rw [State.findOrCreate_none hf]),
      if_neg fun h => hd h.1.symm]

/-- The context under work before the packet: good, and of the packet's profile and key. -/
theorem State.Live.working {s : State} (hs : s.Live) {prof : Profile} {par : Parsed} {pkt : List Byte}
    (ha : prof.admitted = true) (hp : parse pkt = some par) (t : U64) :
    (s.working prof par pkt t).Working s.cfg (s.pick prof (prof.key profileExt pkt par)).1
      ∧ (s.working prof par pkt t).key = prof.key profileExt pkt par
      ∧ (s.working prof par pkt t).profile = prof := by
  rcases s.working_cases hs prof par pkt t with ⟨c, v, hf, -, hv, hprof, hk, e⟩ | ⟨hf, e⟩
  · rw [State.pick, hf, e]
    exact ⟨⟨hv.cid, hv.mode, hv.shape, hv.sentMax, hv.generic⟩, hk, hprof⟩
  · rw [State.pick, hf, e]
    exact ⟨State.fresh_working ha hp t, rfl, rfl⟩

/-- The context that a commit writes for the packet. -/
def State.committed (s : State) (prof : Profile) (par : Parsed) (pkt : List Byte) (max : Nat) (t : U64) : Ctx :=
  { (s.assembled prof par pkt max t).scr.ctx with
    numSent := satInc (s.assembled prof par pkt max t).scr.ctx.numSent, latestUsed := t }

theorem State.Live.committed {s : State} (hs : s.Live) {prof : Profile} {par : Parsed} {pkt : List Byte}
    (ha : prof.admitted = true) (hp : parse pkt = some par) (max : Nat) (t : U64) :
    (s.committed prof par pkt max t).Ok s.cfg (s.pick prof (prof.key profileExt pkt par)).1
      ∧ (s.committed prof par pkt max t).key = prof.key profileExt pkt par
      ∧ (s.committed prof par pkt max t).profile = prof := by
  obtain ⟨bs, e⟩ := s.assembled_scr prof par pkt max t
  obtain ⟨hw, hk, hprof⟩ := hs.working ha hp t
  obtain ⟨hok, hk', hprof'⟩ := Scratch.sent_ok (sc := { Scratch.zero with
    pkt := pkt, par := par, ctx := s.working prof par pkt t, asm := { Assembly.empty with fb := bs } })
    hs.cfg hw hk t
  rw [State.committed, e]
  exact ⟨hok, hk'.trans hk, hprof'.trans hprof⟩

/-- The slots after a commit: the packet's context in its slot, every other slot that of s. -/
theorem State.committed_slot {s u : State} (hc : s.CountOk) {prof : Profile} {par : Parsed}
    {pkt : List Byte} {max : Nat} {t : U64}
    (hu : u.ctx = ((s.assembled prof par pkt max t).commit
      (s.pick prof (prof.key profileExt pkt par)).1 t).ctx) (d : Nat) :
    u.slot d = if d = (s.pick prof (prof.key profileExt pkt par)).1
      then some (s.committed prof par pkt max t) else s.slot d := by
  obtain ⟨-, v, hv⟩ := hc.assembled prof par pkt max t
  rw [State.slot_set (s := s.assembled prof par pkt max t) hu]
  by_cases h : d = (s.pick prof (prof.key profileExt pkt par)).1
  · rw [if_pos ⟨h.symm, h ▸ State.slot_lt hv⟩, if_pos h]
    rfl
  · rw [if_neg fun e => h e.1.symm, if_neg h, State.assembled_slot_ne _ _ _ _ _ _ h]

/-- A state that has committed the packet of an accepted COMPRESS, whatever RRU within MRRU it leaves. -/
theorem State.Live.commit {s u : State} (hs : s.Live) {prof : Profile} {par : Parsed} {pkt : List Byte}
    {max : Nat} {t : U64} (ha : prof.admitted = true) (hp : parse pkt = some par)
    (hctx : u.ctx = ((s.assembled prof par pkt max t).commit
      (s.pick prof (prof.key profileExt pkt par)).1 t).ctx)
    (hcfg : u.cfg = s.cfg) (hn : u.numPackets = satInc s.numPackets) (hports : u.rtpPorts = s.rtpPorts)
    (ho : u.outBuf.wf = true) (hb : u.rru.buf.wf = true) (hr : u.rru.Ok s.cfg.mrru.toNat) (hc : u.CountOk)
    (hring : u.fb.Ok) : u.Live := by
  have hslot := State.committed_slot hs.count hctx
  obtain ⟨hok, hk, hprof⟩ := hs.committed ha hp max t
  have hpos : u.numPackets ≠ 0 := by
    have := satInc_pos s.numPackets
    omega
  refine ⟨ho, hb, hcfg ▸ hs.cfg, hports ▸ hs.ports, hn ▸ satInc_le _, hc,
    ⟨fun h => absurd h hpos, fun h => absurd h hpos⟩, ?_, ?_, hring, hcfg ▸ hr⟩
  · intro i j c d hi hj hcp hck
    rw [hslot] at hi hj
    split at hi <;> split at hj
    · rename_i h1 h2
      rw [h1, h2]
    · rename_i h1 h2
      cases hi
      exact absurd ⟨hcp.symm.trans hprof, hck.symm.trans hk⟩ (hs.keys.pick h2 hj)
    · rename_i h1 h2
      cases hj
      exact absurd ⟨hcp.trans hprof, hck.trans hk⟩ (hs.keys.pick h1 hi)
    · exact hs.keys i j c d hi hj hcp hck
  · intro i c hi
    rw [hslot] at hi
    rw [hcfg]
    split at hi
    · rename_i h
      cases hi
      exact h ▸ hok
    · exact hs.slots i c hi

/-! ## Every command keeps the invariant -/

/-- In the configuration phase a register may be set, since nothing yet depends on it (R36, R314). -/
theorem State.Live.config {s t : State} (hs : s.Live) (h0 : s.numPackets = 0) (hcfg : t.cfg.Ok)
    (hn : t.numPackets = s.numPackets) (hctx : t.ctx = s.ctx) (hu : t.rru = s.rru)
    (ho : t.outBuf.wf = true) (hp : t.rtpPorts = s.rtpPorts) (hc : t.CountOk) (hr : t.fb.Ok) : t.Live := by
  have hsl : s.SlotsFrom t := .of_ctx hctx
  have hun := hsl.unused (hs.phase.contexts h0)
  have hlen := hs.phase.rru h0
  have hoff := hs.rru.absent hlen
  refine ⟨ho, hu ▸ hs.rruBuf, hcfg, hp ▸ hs.ports, hn ▸ hs.packets, hc, ⟨fun _ => hun, fun _ => hu ▸ hlen⟩,
    hsl.keysOk hs.keys, ?_, hr, ?_⟩
  · intro i c hi
    rw [t.unused_iff.mp hun i] at hi
    cases hi
  · rw [hu]
    refine ⟨by omega, hs.rru.absent, fun i hi => ?_⟩
    rw [hlen] at hi
    exact absurd hi (Nat.not_lt_zero i)

theorem PortsOk.append {ports : List U16} (h : PortsOk ports) {p : U16} (hp : p ∉ ports) (hz : p ≠ 0)
    (hl : ports.length < Config.maxRtpPorts) : PortsOk (ports ++ [p]) := by
  refine ⟨?_, ?_, ?_⟩
  · rw [List.length_append]
    exact hl
  · rw [← List.concat_eq_append]
    exact h.distinct.concat hp
  · rw [List.mem_append, List.mem_singleton]
    rintro (h0 | h0)
    · exact h.range h0
    · exact hz h0.symm

theorem PortsOk.erase {ports : List U16} (h : PortsOk ports) (p : U16) : PortsOk (ports.erase p) :=
  ⟨List.length_erase_le.trans h.size, h.distinct.erase p,
    fun h0 => h.range (List.mem_of_mem_erase h0)⟩

/-- A unit entered into the segmenter lies in RRU.buf as a whole (46_segmenter.md R281). -/
theorem Rru.entered_ok (m : Memory) {unit : List Byte} {mrru : Nat} (h : unit.length ≤ mrru) :
    Rru.Ok mrru { buf := m.writeBytes 0 unit, off := 0, len := unit.length } := by
  refine ⟨by simpa using h, fun _ => rfl, fun i hi => ?_⟩
  have hi : i < unit.length := hi
  simp only [Memory.read_writeBytes, Nat.zero_add, Nat.sub_zero, hi, Nat.zero_le, and_self, if_true,
    List.getElem?_eq_getElem, Option.isSome_some]

theorem Rru.discarded_ok (m : Memory) (mrru : Nat) : Rru.Ok mrru { buf := m, off := 0, len := 0 } :=
  ⟨Nat.zero_le _, fun _ => rfl, fun i hi => absurd hi (Nat.not_lt_zero i)⟩

theorem reinitSlot_some {v : Option Ctx} {x : Ctx} (h : reinitSlot v = some x) :
    ∃ b f, v = some b ∧ x = { b with forceIr := f } := by
  cases v with
  | none => cases h
  | some c =>
    rw [reinitSlot] at h
    split at h <;> cases h
    · exact ⟨x, x.forceIr, rfl, rfl⟩
    · exact ⟨c, true, rfl, rfl⟩

/-- The recovery leaves the contexts of s, less the victim of an eviction (60_exceptions.md R345). -/
theorem State.recovered_slotsFrom (s : State) (prof : Profile) (par : Parsed) (pkt : List Byte) (max : Nat)
    (t : U64) {u : State}
    (hu : u.ctx = ((s.assembled prof par pkt max t).recoverCompress
      (s.pick prof (prof.key profileExt pkt par)).1 (s.pick prof (prof.key profileExt pkt par)).2
      (s.slot (s.pick prof (prof.key profileExt pkt par)).1)).ctx) : s.SlotsFrom u := by
  rw [State.recoverCompress_eq] at hu
  refine .of_slot fun d x hd => ?_
  rw [State.slot_set (s := s.assembled prof par pkt max t) hu] at hd
  split at hd
  · rename_i hc
    rcases s.pick_cases prof (prof.key profileExt pkt par) with ⟨c, b, -, hp, -⟩ | ⟨-, hp⟩
    · rw [hp] at hc hd
      exact hc.1 ▸ hd
    · rw [hp, if_pos rfl] at hd
      cases hd
  · rename_i hc
    rwa [State.assembled_slot_ne _ _ _ _ _ _ fun h => hc ⟨h.symm, State.slot_lt hd⟩] at hd

theorem CommandStep.live {s t : State} {i : Instr} (h : CommandStep s i t) (hs : s.Live) : t.Live := by
  have hc := h.countOk hs.count
  have hr := h.ringOk hs.ring
  cases h with
  | config _ cfg _ hn _ _ hok => exact hs.config hn (hok hs.cfg) rfl rfl rfl rfl rfl hc hr
  | portAdd _ p hp hz hl =>
    exact hs.of_slots rfl rfl (.of_ctx rfl) (.inl rfl) rfl (hs.ports.append hp hz hl) hc hr
  | portRemove _ p _ =>
    refine hs.of_slots rfl rfl (.map rfl fun v x hx => ?_) (.inl rfl) rfl (hs.ports.erase p) hc hr
    split at hx
    · cases hx
    · exact ⟨x, x.forceIr, hx, rfl⟩
  | portReset =>
    exact hs.of_slots rfl rfl (.of_ctx rfl) (.inl rfl) rfl
      ⟨Nat.zero_le _, List.nodup_nil, List.not_mem_nil⟩ hc hr
  | deliver _ cid c hcid =>
    refine hs.of_slots rfl rfl (.set rfl fun x hx => ?_) (.inl rfl) rfl hs.ports hc hr
    cases hx
    exact ⟨c, true, hcid, rfl⟩
  | reinit =>
    exact hs.of_slots rfl rfl (.map rfl fun _ _ => reinitSlot_some) (.inl rfl) rfl hs.ports hc hr
  | flush m =>
    obtain ⟨fb, bs, e⟩ := s.fbDrain_only m.toNat
    rw [e] at hc hr ⊢
    exact hs.of_slots rfl rfl (.of_ctx rfl) (.inl rfl) (Memory.ofBytes_wf _) hs.ports hc hr
  | noRoom m =>
    obtain ⟨fb, bs, e⟩ := s.startAssembly.fbDrain_only m.toNat
    rw [e] at hc hr ⊢
    exact hs.of_slots rfl rfl (.of_ctx rfl) (.inl rfl) rfl hs.ports hc hr
  | segment m n chunk scr _ hn =>
    obtain ⟨fb, bs, e⟩ := s.startAssembly.fbDrain_only m.toNat
    rw [e] at hc hr ⊢
    by_cases hl : n = s.rru.len
    · rw [if_pos hl] at hc hr ⊢
      exact hs.of_slots rfl rfl (.of_ctx rfl) (.inr ⟨n, hn, rfl⟩) (Memory.ofBytes_wf _) hs.ports hc hr
    · rw [if_neg hl] at hc hr ⊢
      exact hs.of_slots rfl rfl (.of_ctx rfl) (.inr ⟨n, hn, rfl⟩) (Memory.ofBytes_wf _) hs.ports hc hr
  | sent t _ m pkt par prof hA out =>
    obtain ⟨-, hcfg, hn, -, hp, -⟩ := s.assembled_same prof par pkt m.toNat t
    exact hs.commit hA.admitted hA.parsed rfl hcfg (congrArg satInc hn) hp (Memory.ofBytes_wf _) hs.rruBuf
      (Rru.discarded_ok _ _) hc hr
  | segmented t _ m pkt par prof hA unit _ hm =>
    obtain ⟨-, hcfg, hn, -, hp, -⟩ := s.assembled_same prof par pkt m.toNat t
    exact hs.commit hA.admitted hA.parsed rfl hcfg (congrArg satInc hn) hp rfl
      (Memory.writeBytes_wf hs.rruBuf _ _) (Rru.entered_ok _ hm) hc hr
  | recovered t _ m pkt par prof hA =>
    obtain ⟨-, hcfg, hn, hu, hp, -⟩ := s.assembled_same prof par pkt m.toNat t
    have hsl := s.recovered_slotsFrom prof par pkt m.toNat t rfl
    rw [State.recoverCompress_eq] at hc hr hsl ⊢
    exact hs.of_slots hcfg hn hsl (.inl hu) rfl (hp ▸ hs.ports) hc hr
  | _ => exact hs.of_slots rfl rfl (.of_ctx rfl) (.inl rfl) rfl hs.ports hc hr

theorem live_kept : Kept State.Live where
  issue _ _ _ h :=
    h.of_slots rfl rfl (.of_ctx rfl) (.inl rfl) h.outBuf h.ports (h.count.congr rfl rfl rfl) h.ring
  command := CommandStep.live
  scratch _ h :=
    h.of_slots rfl rfl (.of_ctx rfl) (.inl rfl) h.outBuf h.ports (h.count.congr rfl rfl rfl) h.ring
  lockHead _ hw h :=
    h.of_slots rfl rfl (.of_ctx rfl) (.inl rfl) h.outBuf h.ports (h.count.congr rfl rfl rfl)
      (h.ring.lockHead hw)
  advance n _ hn h :=
    h.of_slots rfl rfl (.of_ctx rfl) (.inr ⟨n, hn, rfl⟩) h.outBuf h.ports (h.count.congr rfl rfl rfl) h.ring
  reset hm s := by
    rw [State.applyReset_legal hm]
    have h := State.afterReset_live hm
    exact h.of_slots rfl rfl (.of_ctx rfl) (.inl rfl) h.outBuf h.ports (h.count.congr rfl rfl rfl) h.ring

/-- IN, which HOST owns, keeps its canonical form in every step, also of a dead block. -/
theorem step_inBuf_wf {s t : State} (hs : s.inBuf.wf = true) (h : step s = .next t) : t.inBuf.wf = true := by
  rcases step_cases h with
    ⟨-, rfl⟩ | ⟨c, input, q, -, h⟩ | ⟨_, _, q, i, -, hi, h⟩ | ⟨ct, m, q, -, rfl⟩
  · exact hs
  · have hw : ((s.setQueue q).latch c input).inBuf.wf = true := Memory.writeBytes_wf hs 0 input
    rcases h with ⟨i, hi, h⟩ | ⟨-, rfl⟩ | ⟨-, rfl⟩
    · rw [(exec_command hi h).alive_inBuf.2]
      exact hw
    · exact hw
    · exact hw
  · rw [(live_kept.wire hi h).2.1]
    exact hs
  · exact hs

/-- Settles O59: IN in every step, the rest by the step lemma for `State.Live`. -/
theorem invariantKept : Obligations.InvariantKept :=
  fun _ _ ⟨hin, hlive⟩ h => ⟨step_inBuf_wf hin h, live_kept.step hlive h⟩

end Sys2Proof.Machine

/-!
PROOFS of the family 20_memory.md: the bytes of OUT and the RRU after a command, the frame of the eighteen
commands, and the form of the byte spaces.
-/
namespace Sys2Proof.Machine
open Sys2Proof

/-! ## The bytes of OUT (20_memory.md R62) -/

/-- OUT holds one byte string, whose length RSP.out_len gives. -/
def State.OutOk (t : State) : Prop :=
  ∃ out : List Byte, t.outBuf = Memory.ofBytes out ∧ t.rsp.outLen.toNat = out.length

theorem State.OutOk.wf {t : State} (h : t.OutOk) : t.outBuf.wf = true := by
  obtain ⟨out, ho, -⟩ := h
  rw [ho]
  exact Memory.ofBytes_wf out

theorem State.OutOk.isSome_iff {t : State} (h : t.OutOk) (a : Nat) :
    (t.outBuf.read a).isSome = true ↔ a < t.rsp.outLen.toNat := by
  obtain ⟨out, ho, hl⟩ := h
  rw [ho, Memory.read_ofBytes, hl]
  simp

theorem outLen_toNat {out : List Byte} {max : U32} (h : out.length ≤ max.toNat) :
    (BitVec.ofNat 32 out.length).toNat = out.length := by
  rw [BitVec.toNat_ofNat, Nat.mod_eq_of_lt (Nat.lt_of_le_of_lt h max.isLt)]

theorem State.failed_outOk (s : State) (e : BitVec 4) : (s.failed e).OutOk := ⟨[], rfl, rfl⟩

theorem State.done_outOk (s : State) {out : List Byte} {max : U32} (h : out.length ≤ max.toNat) (v : U32) :
    (s.done out v).OutOk := ⟨out, rfl, outLen_toNat h⟩

theorem State.needSegment_outOk (s : State) {out : List Byte} {max : U32} (h : out.length ≤ max.toNat) :
    (s.needSegment out).OutOk := ⟨out, rfl, outLen_toNat h⟩

/-- What a command writes to OUT fits the room that HOST gave it, so RSP.out_len holds its length. -/
theorem CommandStep.outOk {s t : State} {i : Instr} (h : CommandStep s i t) : t.OutOk := by
  cases h with
  | failed | unlocked | noRoom | recovered => exact State.failed_outOk _ _
  | flush m => exact State.done_outOk _ (s.fbDrain_length m.toNat) 0
  | segment m n chunk scr h0 hn hm hc =>
    have hlen : ((s.startAssembly.fbDrain m.toNat).scr.asm.fb
        ++ [Wire.segment (bit (decide (n = s.rru.len)))] ++ chunk).length ≤ m.toNat := by
      rw [List.length_append, List.length_append, hc, Memory.bytes_length]
      exact hm
    dsimp only
    split
    · exact State.done_outOk _ hlen 0
    · exact State.needSegment_outOk _ hlen
  | sent t _ m _ _ _ _ out ho => exact State.done_outOk _ ho 0
  | segmented => exact State.needSegment_outOk _ (max := 0) (Nat.zero_le _)
  | _ => exact State.done_outOk _ (max := 0) (Nat.zero_le _) _

/-! ## The RRU (10_state.md R34, 46_segmenter.md R280 to R283) -/

/-- What a command does to the RRU: nothing, a chunk sent by GET_SEGMENT, or, by COMPRESS, the old unit
discarded or a new one entered. -/
inductive RruStep (i : Instr) (r : Rru) : Rru → Prop where
  | same : RruStep i r r
  | advance (n : Nat) (hi : opOf i = 0x02) : RruStep i r (r.advance n)
  | discard (hi : opOf i = 0x01) : RruStep i r { r with off := 0, len := 0 }
  | enter (unit : List Byte) (hi : opOf i = 0x01) :
      RruStep i r { buf := r.buf.writeBytes 0 unit, off := 0, len := unit.length }

theorem CommandStep.rruStep {s t : State} {i : Instr} (h : CommandStep s i t) : RruStep i s.rru t.rru := by
  cases h with
  | flush m =>
    show RruStep _ s.rru (s.fbDrain m.toNat).rru
    rw [State.fbDrain_rru]
    exact .same
  | noRoom m =>
    show RruStep _ s.rru (s.startAssembly.fbDrain m.toNat).rru
    rw [State.fbDrain_rru]
    exact .same
  | segment m n chunk scr =>
    dsimp only
    split <;> exact .advance n rfl
  | sent => exact .discard rfl
  | segmented t _ m pkt par prof hA unit => exact .enter unit rfl
  | recovered t _ m pkt par prof =>
    obtain ⟨-, -, -, hr, -⟩ := s.assembled_same prof par pkt m.toNat t
    rw [State.recoverCompress_eq]
    show RruStep _ s.rru (s.assembled prof par pkt m.toNat t).rru
    rw [hr]
    exact .same
  | _ => exact .same

theorem RruStep.buf_wf {i : Instr} {r r' : Rru} (h : RruStep i r r') (hr : r.buf.wf = true) :
    r'.buf.wf = true := by
  cases h with
  | enter unit => exact Memory.writeBytes_wf hr 0 unit
  | _ => exact hr

theorem RruStep.eq_of_op {i : Instr} {r r' : Rru} (h : RruStep i r r') (hi : opOf i ∉ [0x01, 0x02]) :
    r' = r := by
  cases h with
  | same => rfl
  | advance n h2 =>
    rw [h2] at hi
    exact absurd (by decide) hi
  | discard h1 | enter _ h1 =>
    rw [h1] at hi
    exact absurd (by decide) hi

/-- A unit entered into the segmenter is the only write to RRU.buf, and it ends below the new RRU.len. -/
theorem RruStep.read_buf {i : Instr} {r r' : Rru} (h : RruStep i r r') {a : Nat}
    (ha : opOf i = 0x02 ∨ r'.len ≤ a) : r'.buf.read a = r.buf.read a := by
  cases h with
  | enter unit h1 =>
    have hle : unit.length ≤ a := ha.resolve_left fun h2 => absurd (h1.symm.trans h2) (by decide)
    rw [Memory.read_writeBytes, if_neg (by omega)]
  | _ => rfl

/-! ## The frame of the commands (47_commands.md R300 to R314) -/

/-- What the command i leaves alone of s, OUT and the RRU aside. A field that is not given is unchanged. -/
structure Frame (i : Instr) (s t : State) : Prop where
  alive : t.alive = s.alive := by rfl
  cmd : t.cmd = s.cmd := by rfl
  queue : t.queue = s.queue := by rfl
  inBuf : t.inBuf = s.inBuf := by rfl
  cidType : t.cfg.cidType = s.cfg.cidType := by rfl
  maxCid : t.cfg.maxCid = s.cfg.maxCid := by rfl
  cfg : isConfig i = false → t.cfg = s.cfg := by exact fun _ => rfl
  rtpPorts : opOf i ∉ [0x18, 0x19, 0x1A] → t.rtpPorts = s.rtpPorts := by exact fun _ => rfl
  ctx : opOf i ∉ [0x01, 0x19, 0x21, 0x30] → t.ctx = s.ctx := by exact fun _ => rfl
  numContextsUsed : opOf i ∉ [0x01, 0x19] → t.numContextsUsed = s.numContextsUsed := by exact fun _ => rfl
  ctxLength : t.ctx.length = s.ctx.length := by rfl
  packets : opOf i ≠ 0x01 → t.numPackets = s.numPackets ∧ t.randIn = s.randIn := by exact fun _ => ⟨rfl, rfl⟩
  fb : opOf i ∉ [0x01, 0x02, 0x20, 0x22, 0x24, 0x25] → t.fb = s.fb := by exact fun _ => rfl

/-- COMPRESS, up to what its end does to the contexts, the packet count and the ring. -/
theorem Frame.compress {s u : State} {t : U64} {inLen outMax : U32} {prof : Profile} {par : Parsed}
    {pkt : List Byte}
    (hu : u = { s.assembled prof par pkt outMax.toNat t with
      ctx := u.ctx, numContextsUsed := u.numContextsUsed, numPackets := u.numPackets, fb := u.fb
      rru := u.rru, rsp := u.rsp, outBuf := u.outBuf })
    (hl : u.ctx.length = (s.assembled prof par pkt outMax.toNat t).ctx.length) :
    Frame (.compress t inLen outMax) s u := by
  obtain ⟨ha, hcfg, -, -, hp, hcmd, hin, hq, hlen⟩ := s.assembled_same prof par pkt outMax.toNat t
  rw [hu]
  exact {
    alive := ha
    cmd := hcmd
    queue := hq
    inBuf := hin
    cidType := congrArg Cfg.cidType hcfg
    maxCid := congrArg Cfg.maxCid hcfg
    cfg := fun _ => hcfg
    rtpPorts := fun _ => hp
    ctx := absurd (show (0x01 : Byte) ∈ _ by decide)
    numContextsUsed := absurd (show (0x01 : Byte) ∈ _ by decide)
    ctxLength := hl.trans hlen
    packets := absurd rfl
    fb := absurd (show (0x01 : Byte) ∈ _ by decide) }

theorem CommandStep.frame {s t : State} {i : Instr} (h : CommandStep s i t) : Frame i s t := by
  cases h with
  | config _ cfg hi _ hct hmc =>
    exact { cidType := hct, maxCid := hmc, cfg := fun h => Bool.noConfusion (hi.symm.trans h) }
  | portAdd => exact { rtpPorts := absurd (show (0x18 : Byte) ∈ _ by decide) }
  | portRemove =>
    exact {
      rtpPorts := absurd (show (0x19 : Byte) ∈ _ by decide)
      ctx := absurd (show (0x19 : Byte) ∈ _ by decide)
      numContextsUsed := absurd (show (0x19 : Byte) ∈ _ by decide)
      ctxLength := List.length_map _ }
  | portReset => exact { rtpPorts := absurd (show (0x1A : Byte) ∈ _ by decide) }
  | piggyback => exact { fb := absurd (show (0x20 : Byte) ∈ _ by decide) }
  | deliver =>
    exact { ctx := absurd (show (0x21 : Byte) ∈ _ by decide), ctxLength := List.length_set }
  | flush m =>
    obtain ⟨fb, bs, e⟩ := s.fbDrain_only m.toNat
    rw [e]
    exact { fb := absurd (show (0x22 : Byte) ∈ _ by decide) }
  | removeLocked => exact { fb := absurd (show (0x24 : Byte) ∈ _ by decide) }
  | unlock => exact { fb := absurd (show (0x25 : Byte) ∈ _ by decide) }
  | reinit =>
    exact { ctx := absurd (show (0x30 : Byte) ∈ _ by decide), ctxLength := List.length_map _ }
  | unlocked => exact { fb := absurd (show (0x02 : Byte) ∈ _ by decide) }
  | noRoom m =>
    obtain ⟨fb, bs, e⟩ := s.startAssembly.fbDrain_only m.toNat
    rw [e]
    exact { fb := absurd (show (0x02 : Byte) ∈ _ by decide) }
  | segment m n chunk scr =>
    obtain ⟨fb, bs, e⟩ := s.startAssembly.fbDrain_only m.toNat
    rw [e]
    dsimp only
    split <;> exact { fb := absurd (show (0x02 : Byte) ∈ _ by decide) }
  | sent => exact .compress rfl List.length_set
  | segmented => exact .compress rfl List.length_set
  | recovered =>
    rw [State.recoverCompress_eq]
    exact .compress rfl List.length_set
  | _ => exact {}

/-- Settles O53: the ways a command answers, one by one; OUT and the RRU by their own lemmas. -/
theorem commandFrame : Obligations.CommandFrame := by
  intro i s t hi h
  have C := exec_command hi h
  obtain ⟨ha, hcmd, hq, hin, hct, hmc, hcfg, hp, hctx, hn, hl, hpk, hfb⟩ := C.frame
  exact ⟨ha, hcmd, hq, fun a => congrArg (Memory.read · a) hin, C.outOk.isSome_iff, hct, hmc, hcfg, hp, hctx, hn,
    hl, hpk, hfb, C.rruStep.eq_of_op, fun h2 _ => C.rruStep.read_buf (.inl h2),
    fun _ _ ha => C.rruStep.read_buf (.inr ha)⟩

/-! ## The form of the byte spaces (20_memory.md R60) -/

theorem memoryForm_kept : Kept fun s => s.outBuf.wf = true ∧ s.rru.buf.wf = true where
  issue _ _ _ h := h
  command C h := ⟨C.outOk.wf, C.rruStep.buf_wf h.2⟩
  scratch _ h := h
  lockHead _ _ h := h
  advance _ _ _ h := h
  reset hm s := by
    rw [State.applyReset_legal hm]
    exact ⟨rfl, rfl⟩

/-- Settles O56: OUT is written whole, RRU.buf by writes that keep the form; IN in every step. -/
theorem memoryFormKept : Obligations.MemoryFormKept :=
  fun _ _ ⟨hin, hs⟩ h => ⟨step_inBuf_wf hin h, memoryForm_kept.step hs h⟩

end Sys2Proof.Machine

/-!
PROOFS of the family 30_encoding.md, decoding: the round trip, the fields that a command does not name, the codes
that are no instruction, and the octets that begin a unit.
-/
namespace Sys2Proof.Machine
open Sys2Proof

/-! ## Every row (30_encoding.md R81, R85 to R100) -/

/-- Settles O2: row by row, by the lemmas of `Laws.RoundTrip`. -/
theorem roundTrip : Obligations.RoundTrip := fun i =>
  match i with
  | .compress _ _ _ => Laws.RoundTrip.compress _ _ _
  | .getSegment _ => Laws.RoundTrip.getSegment _
  | .profEnable _ => Laws.RoundTrip.profEnable _
  | .profDisable _ => Laws.RoundTrip.profDisable _
  | .setWlsb _ => Laws.RoundTrip.setWlsb _
  | .setRefresh _ _ => Laws.RoundTrip.setRefresh _ _
  | .setMrru _ => Laws.RoundTrip.setMrru _
  | .rtpPortAdd _ => Laws.RoundTrip.rtpPortAdd _
  | .rtpPortRemove _ => Laws.RoundTrip.rtpPortRemove _
  | .rtpPortReset => Laws.RoundTrip.rtpPortReset
  | .fbPiggyback _ => Laws.RoundTrip.fbPiggyback _
  | .fbDeliver _ => Laws.RoundTrip.fbDeliver _
  | .fbFlush _ => Laws.RoundTrip.fbFlush _
  | .fbAvail => Laws.RoundTrip.fbAvail
  | .fbRemoveLocked => Laws.RoundTrip.fbRemoveLocked
  | .fbUnlock => Laws.RoundTrip.fbUnlock
  | .reinit => Laws.RoundTrip.reinit
  | .rdCfg _ => Laws.RoundTrip.rdCfg _
  | .uo0 _ _ => Laws.RoundTrip.uo0 _ _
  | .uo1 _ _ _ => Laws.RoundTrip.uo1 _ _ _
  | .uor2 _ _ _ => Laws.RoundTrip.uor2 _ _ _
  | .addCid _ => Laws.RoundTrip.addCid _
  | .feedbackShort _ => Laws.RoundTrip.feedbackShort _
  | .feedbackLong _ => Laws.RoundTrip.feedbackLong _
  | .irDyn => Laws.RoundTrip.irDyn
  | .normal => Laws.RoundTrip.normal
  | .ir => Laws.RoundTrip.ir
  | .segment _ => Laws.RoundTrip.segment _
  | .ext0 _ _ => Laws.RoundTrip.ext0 _ _
  | .ext1 _ _ => Laws.RoundTrip.ext1 _ _
  | .ext2 _ _ _ => Laws.RoundTrip.ext2 _ _ _
  | .ext3 _ _ _ _ _ => Laws.RoundTrip.ext3 _ _ _ _ _
  | .sdvl1 _ => Laws.RoundTrip.sdvl1 _
  | .sdvl2 _ => Laws.RoundTrip.sdvl2 _
  | .sdvl3 _ => Laws.RoundTrip.sdvl3 _
  | .sdvl4 _ => Laws.RoundTrip.sdvl4 _

/-- Settles O1: the words are closed, and the decoder computes. -/
theorem decodedWords : Obligations.DecodedWords :=
  ⟨rfl, rfl, rfl, rfl, rfl, rfl, rfl, rfl, rfl, rfl, rfl, rfl, rfl, rfl, rfl, rfl, rfl, rfl, rfl, rfl, rfl, rfl⟩

/-! ## The command port (30_encoding.md R80, R81, R83) -/

/-- The ops of R81. -/
def assignedOps : List Byte :=
  [0x01, 0x02, 0x10, 0x11, 0x12, 0x13, 0x14, 0x18, 0x19, 0x1A, 0x20, 0x21, 0x22, 0x23, 0x24, 0x25, 0x30, 0x40]

theorem decodeCommand_unassigned {c : Command} (h : c.op ∉ assignedOps) :
    decodeCommand c = .error (.unassignedOp c.op) := by
  rw [decodeCommand]
  split
  case h_19 => rfl
  all_goals
    rename_i hop
    simp [assignedOps, ← BitVec.toNat_inj, hop] at h

/-- Settles O3: an assigned op reads its own fields, an unassigned one none. -/
theorem unnamedOperandsIgnored : Obligations.UnnamedOperandsIgnored := by
  rintro ⟨op, a, b, t, inLen⟩ ⟨_, a', b', t', inLen'⟩ rfl ha hb ht hl
  dsimp only at ha hb ht hl
  have key : decodeCommand ⟨op, a, b, t, inLen⟩ = decodeCommand ⟨op, a', b', t', inLen'⟩ := by
    by_cases h : op ∈ assignedOps
    · simp only [assignedOps, List.mem_cons, List.not_mem_nil, or_false] at h
      rcases h with rfl | rfl | rfl | rfl | rfl | rfl | rfl | rfl | rfl | rfl | rfl | rfl | rfl | rfl | rfl
        | rfl | rfl | rfl
      all_goals simp [decodeCommand, ha, hb, ht, hl]
    · rw [decodeCommand_unassigned h, decodeCommand_unassigned h]
  simp only [decode, key]

theorem step_unassigned {s : State} {c : Command} {input : List Byte} {q : List Issue}
    (hq : s.queue = .command c input :: q) (hop : c.op ∉ assignedOps) :
    step s = ((s.setQueue q).latch c input).badOp := by
  have hd : decode (.command c) = .error (.unassignedOp c.op) := by
    simp only [decode, decodeCommand_unassigned hop]
  simp only [step, stepWith, hq, State.latch_cmd, hd]

theorem State.badOp_alive {s : State} (h : s.alive = true) : s.badOp = .next (s.failed 9) := by
  rw [State.badOp, whenAlive_alive h, State.raiseError_eq_failed, ErrClass.code]

theorem operandProfile_upperHalf {a : U32} (h : a.extractLsb' 16 16 ≠ (0 : U16)) : operandProfile a = none := by
  rw [operandProfile, if_neg h]

/-- Settles O5: the decoder knows no other op, and the profile commands look at the upper half first. -/
theorem reservedCodes : Obligations.ReservedCodes := by
  refine ⟨fun s c input q hq ha hop => ?_, fun s a ha hn hup => ?_⟩
  · exact (step_unassigned hq hop).trans (State.badOp_alive (s := (s.setQueue q).latch c input) ha)
  · simp only [exec, execProfEnable, execProfDisable, whenConfigurable_free ha hn, operandProfile_upperHalf hup,
      State.raiseError_eq_failed, ErrClass.code, and_self]

/-! ## The first octet of a unit (30_encoding.md R85, R110) -/

/-- By the round trip, the first octet and what follows it decode to the unit they are of. -/
theorem decodeUnit_of_encode {i : Instr} {o : Byte} {r : List Byte} (hw : i.wellFormed = true)
    (h : encode i = .wire .unit (o :: r)) : decodeUnit o r = .ok (i, []) := by
  have hrt := roundTrip i hw
  rwa [h] at hrt

/-- A unit whose first octet is o: what the decoder reads there when 8, a length that FEEDBACK_LONG admits, follows. -/
def unitOf (o : Byte) : Option Instr :=
  match decodeUnit o [8] with
  | .ok (i, _) => some i
  | .error _ => none

/-- The first octet of a unit's words. -/
def firstOctet : FetchWord → Option Byte
  | .wire .unit (o :: _) => some o
  | _ => none

theorem firstOctet_eq_some {w : FetchWord} {o : Byte} (h : firstOctet w = some o) :
    ∃ r, w = .wire .unit (o :: r) := by
  unfold firstOctet at h
  split at h
  · cases h
    exact ⟨_, rfl⟩
  · cases h

theorem unitOf_spec : ∀ o : Byte, o ∉ [0xE0, 0xF9, 0xFA, 0xFB] →
    ∃ i, unitOf o = some i ∧ i.wellFormed = true ∧ firstOctet (encode i) = some o := by
  have key : ∀ o : Byte, o ∉ [0xE0, 0xF9, 0xFA, 0xFB] → ((unitOf o).any fun i =>
      i.wellFormed && firstOctet (encode i) == some o) = true := by decide +kernel
  intro o ho
  simpa [Option.any_eq_true] using key o ho

/-- A word of one octet that decodes whatever follows it begins no other unit. -/
theorem firstOctet_iff {i j : Instr} {o k : Byte} {r : List Byte} (hw : i.wellFormed = true)
    (h : encode i = .wire .unit (o :: r)) (hj : encode j = .wire .unit [k])
    (hk : ∀ r, decodeUnit k r = .ok (j, r)) : o = k ↔ i = j := by
  constructor
  · rintro rfl
    have hd := (hk r).symm.trans (decodeUnit_of_encode hw h)
    cases hd
    rfl
  · rintro rfl
    rw [hj] at h
    cases h
    rfl

/-- Settles O6: by the round trip, what an octet begins is what the decoder reads there. -/
theorem firstOctets : Obligations.FirstOctets := by
  refine ⟨fun o => ⟨?_, fun ho => ?_⟩, fun i o r hw h => ?_⟩
  · rintro ⟨i, r, hw, h⟩ ho
    have hd := decodeUnit_of_encode hw h
    simp only [List.mem_cons, List.not_mem_nil, or_false] at ho
    rcases ho with rfl | rfl | rfl | rfl
    · cases hd
      cases hw
    all_goals cases hd
  · obtain ⟨i, -, hw, hi⟩ := unitOf_spec o ho
    obtain ⟨r, h⟩ := firstOctet_eq_some hi
    exact ⟨i, r, hw, h⟩
  · exact ⟨firstOctet_iff hw h rfl fun _ => rfl, firstOctet_iff hw h rfl fun _ => rfl,
      firstOctet_iff hw h rfl fun _ => rfl, firstOctet_iff hw h rfl fun _ => rfl,
      firstOctet_iff hw h rfl fun _ => rfl⟩

end Sys2Proof.Machine

/-!
PROOFS of the family 30_encoding.md, the rows as instructions: header octets, chains, extension 3, CIDs, feedback
blocks and segments.
-/
namespace Sys2Proof.Machine
open Sys2Proof

/-! ## Octets of flags -/

/-- The flags octet of a dynamic part (R102). -/
theorem dynamicFlags_octet : ∀ a b c d : Bool,
    (bit a ++ bit b ++ bit c ++ bit d ++ 0#4 : Byte)
      = BitVec.ofNat 8 (128 * a.toNat + 64 * b.toNat + 32 * c.toNat + 16 * d.toNat) := by decide

/-- A header-flags octet of extension 3 (R99). -/
theorem ext3Flags_octet : ∀ a b c d f g h : Bool,
    (bit a ++ bit b ++ bit c ++ bit d ++ 0#1 ++ bit f ++ bit g ++ bit h : Byte)
      = BitVec.ofNat 8 (128 * a.toNat + 64 * b.toNat + 32 * c.toNat + 16 * d.toNat + 4 * f.toNat + 2 * g.toNat
          + h.toNat) := by decide

theorem bit_eq_one_iff (b : Bool) : bit b = 1 ↔ b = true := by cases b <;> decide

theorem bit_beq_one (v : BitVec 1) : bit (v == 1) = v := by revert v; decide

/-! ## UO-0, UO-1, IR, IR-DYN and Normal (30_encoding.md R91 to R94, R100) -/

/-- Settles O23: the rows and the builders write these octets out. -/
theorem uoPackets : Obligations.UoPackets :=
  ⟨fun _ _ _ => rfl, fun _ _ _ _ => rfl, fun _ => ⟨rfl, rfl, rfl, rfl⟩⟩

/-- Settles O25: the three rows write these octets out. -/
theorem irAndNormalPackets : Obligations.IrAndNormalPackets := fun _ => ⟨rfl, rfl, rfl⟩

/-! ## Chains (30_encoding.md R101, R102, R107) -/

/-- The first three octets of an IPv6 header hold its flow label behind the version. -/
theorem staticPart_v6 {n : IpHdr} (h : n.version = .v6) :
    staticPart n = [BitVec.ofNat 8 (0x60 + n.fl.toNat / 2 ^ 16), BitVec.ofNat 8 (n.fl.toNat / 2 ^ 8),
      BitVec.ofNat 8 n.fl.toNat, n.proto] ++ n.src ++ n.dst := by
  have hlt := n.fl.isLt
  have h1 : (6#4 ++ n.fl.extractLsb' 16 4 : Byte) = BitVec.ofNat 8 (0x60 + n.fl.toNat / 2 ^ 16) := by
    apply BitVec.eq_of_toNat_eq
    rw [toNat_concat, toNat_extract, BitVec.toNat_ofNat, BitVec.toNat_ofNat]
    omega
  have h2 : n.fl.extractLsb' 8 8 = BitVec.ofNat 8 (n.fl.toNat / 2 ^ 8) := by
    apply BitVec.eq_of_toNat_eq
    rw [toNat_extract, BitVec.toNat_ofNat]
  have h3 : n.fl.extractLsb' 0 8 = BitVec.ofNat 8 n.fl.toNat := by
    apply BitVec.eq_of_toNat_eq
    rw [toNat_extract, BitVec.toNat_ofNat, Nat.pow_zero, Nat.div_one]
  simp only [staticPart, h, h1, h2, h3]

theorem dynamicPart_v4 {n : IpHdr} {x : CtxHdr} {v : Ip4Rec} (h : x.ip4 = some v) :
    dynamicPart n x = [n.tos, n.ttl, n.id.extractLsb' 8 8, n.id.extractLsb' 0 8,
      BitVec.ofNat 8 (128 * n.df.toNat + 64 * v.rnd.toNat + 32 * v.nbo.toNat + 16 * v.sid.toNat), 0x00] := by
  simp only [dynamicPart, h, be16, dynamicFlags_octet, List.cons_append, List.nil_append]

theorem dynamicParts_eq_zipWith (ns : List IpHdr) (xs : List CtxHdr) :
    dynamicParts ns xs = (List.zipWith dynamicPart ns xs).flatten := by
  induction ns generalizing xs with
  | nil => rfl
  | cons n ns ih =>
    cases xs with
    | nil => rfl
    | cons x xs => rw [dynamicParts, ih, List.zipWith_cons_cons, List.flatten_cons]

/-- The identification of one header, where it is random (44_packet_build.md R226). -/
def randomId (n : IpHdr) (x : CtxHdr) : List Byte :=
  match x.ip4 with
  | some v => if v.rnd then be16 n.id else []
  | none => []

theorem randomId_eq (n : IpHdr) (x : CtxHdr) : (if x.isRnd then be16 n.id else []) = randomId n x := by
  rw [CtxHdr.isRnd, randomId]
  cases x.ip4 <;> rfl

theorem randomIds_eq_zipWith (ns : List IpHdr) (xs : List CtxHdr) :
    randomIds ns xs = (List.zipWith randomId ns xs).flatten := by
  induction ns generalizing xs with
  | nil => rfl
  | cons n ns ih =>
    cases xs with
    | nil => rfl
    | cons x xs => rw [randomIds, ih, randomId_eq, List.zipWith_cons_cons, List.flatten_cons]

theorem Scratch.isUdp_iff (sc : Scratch) : sc.isUdp = true ↔ sc.ctx.profile = .udp := beq_iff_eq

/-- Settles O26: the parts header by header, the chains by induction on the headers. -/
theorem chainParts : Obligations.ChainParts := by
  refine ⟨fun n x => ⟨fun h => ?_, staticPart_v6, fun v => dynamicPart_v4, fun h => ?_⟩, fun sc => ⟨?_, ?_, ?_⟩⟩
  · simp only [staticPart, h]
  · simp only [dynamicPart, h]
  · simp only [Scratch.staticChain, Scratch.isUdp_iff, slice, Nat.add_zero, List.flatMap_def]
  · simp only [Scratch.dynamicChain, Scratch.isUdp_iff, slice, dynamicParts_eq_zipWith]
  · simp only [Scratch.tail, Bool.and_eq_true, Scratch.isUdp_iff, slice, randomIds_eq_zipWith]
    rfl

/-! ## Extension 3 (30_encoding.md R99, 44_packet_build.md R235, R238) -/

/-- v is what the scratch registers hold of header h. -/
structure Scratch.ViewAt (sc : Scratch) (h : Nat) (v : HdrView) : Prop where
  hdr : sc.par.hdrs[h]? = some v.n
  ctx : sc.ctx.hdrs[h]? = some v.x
  scratch : ∃ k, sc.hs[h]? = some ⟨v.d, v.off, k⟩

theorem Scratch.Views.prim {sc : Scratch} {prim : HdrView} {sec : Option HdrView} (h : sc.Views prim sec) :
    sc.ViewAt sc.prim prim := by
  cases sec with
  | none =>
    obtain ⟨hn, hx, k, hs⟩ := h
    have hp : sc.prim = 0 := by rw [Scratch.prim, Parsed.nhdr, hn]; rfl
    rw [hp]
    exact ⟨by rw [hn]; rfl, by rw [hx]; rfl, k, by rw [hs]; rfl⟩
  | some v =>
    obtain ⟨hn, hx, _, k, hs⟩ := h
    have hp : sc.prim = 1 := by rw [Scratch.prim, Parsed.nhdr, hn]; rfl
    rw [hp]
    exact ⟨by rw [hn]; rfl, by rw [hx]; rfl, k, by rw [hs]; rfl⟩

theorem Scratch.Views.sec {sc : Scratch} {prim v : HdrView} (h : sc.Views prim (some v)) :
    sc.hasSec = true ∧ sc.ViewAt 0 v := by
  obtain ⟨hn, hx, k, _, hs⟩ := h
  exact ⟨by rw [Scratch.hasSec, Parsed.nhdr, hn]; rfl, by rw [hn]; rfl, by rw [hx]; rfl, k, by rw [hs]; rfl⟩

theorem Scratch.Views.noSec {sc : Scratch} {prim : HdrView} (h : sc.Views prim none) : sc.hasSec = false := by
  rw [Scratch.hasSec, Parsed.nhdr, h.1]
  rfl

theorem Scratch.ViewAt.offset {sc : Scratch} {h : Nat} {v : HdrView} (w : sc.ViewAt h v) :
    sc.offsetOf h = v.offset := by
  obtain ⟨-, hx, k, hs⟩ := w
  rw [Scratch.offsetOf, hx, hs]
  rcases v with ⟨n, ⟨tos, ttl, proto, _ | x⟩, d, off⟩
  · rfl
  · simp [HdrView.offset, CtxHdr.seqIpId]

theorem Scratch.ViewAt.changes {sc : Scratch} {h : Nat} {v : HdrView} (w : sc.ViewAt h v) :
    sc.changes h = v.d := by
  obtain ⟨k, hs⟩ := w.scratch
  rw [Scratch.changes, hs]
  rfl

theorem ext3HdrFlags_eq (v : HdrView) (last : Bool) :
    ext3HdrFlags v.n v.x v.d (bit last) = v.flagsOctet last := by
  rcases v with ⟨n, ⟨tos, ttl, proto, _ | x⟩, d, off⟩
  · exact ext3Flags_octet d.tos d.ttl false d.pr false false last
  · exact ext3Flags_octet d.tos d.ttl n.df d.pr x.nbo x.rnd last

theorem Scratch.ViewAt.flags {sc : Scratch} {h : Nat} {v : HdrView} (w : sc.ViewAt h v) (last : Bool) :
    sc.ext3Flags h (bit last) = [v.flagsOctet last] := by
  simp only [Scratch.ext3Flags, w.hdr, w.ctx, w.changes, ext3HdrFlags_eq]

theorem Scratch.ViewAt.fields {sc : Scratch} {h : Nat} {v : HdrView} (w : sc.ViewAt h v) :
    sc.ext3Fields h = v.fields := by
  simp only [Scratch.ext3Fields, w.hdr, w.changes]
  rfl

theorem Scratch.Views.o1 {sc : Scratch} {prim : HdrView} {sec : Option HdrView} (h : sc.Views prim sec) :
    sc.o1 = prim.offset := h.prim.offset

theorem Scratch.Views.o2 {sc : Scratch} {prim v : HdrView} (h : sc.Views prim (some v)) : sc.o2 = v.offset := by
  obtain ⟨h2, w⟩ := h.sec
  rw [Scratch.o2, if_pos h2, w.offset]

theorem Scratch.Views.o2_none {sc : Scratch} {prim : HdrView} (h : sc.Views prim none) : sc.o2 = 0 := by
  rw [Scratch.o2, if_neg (by simp [h.noSec])]

/-- What follows the flags octet of extension 3, for a packet of one header or two. -/
theorem Scratch.Views.ext3Body {sc : Scratch} {prim : HdrView} {sec : Option HdrView} (w : sc.Views prim sec)
    (s i ip ip2 : Bool) : sc.ext3Body (bit s) (bit i) (bit ip) (bit ip2)
      = extension3 sc.snNew prim sec s i ip ip2 sc.ext3I2 := by
  have h0 := w.prim.flags false
  rw [show bit false = 0 from rfl] at h0
  simp only [Scratch.ext3Body, extension3, bit_eq_one_iff, h0, w.prim.fields, w.o1]
  cases sec with
  | none => simp [w.noSec, be16]
  | some v =>
    obtain ⟨h2, wv⟩ := w.sec
    simp only [h2, and_true, wv.flags, wv.fields, w.o2]
    rfl

/-- Settles O27: the rows write their words out; extension 3 by `Scratch.Views.ext3Body`. -/
theorem extensionRows : Obligations.ExtensionRows := by
  refine fun s => ⟨fun _ _ => rfl, fun _ _ => rfl, fun _ _ _ => rfl, fun _ _ _ _ _ => rfl,
    fun prim sec sf i ip ip2 w => ?_⟩
  have h := w.ext3Body (sf == 1) (i == 1) (ip == 1) (ip2 == 1)
  rwa [bit_beq_one, bit_beq_one, bit_beq_one, bit_beq_one] at h

/-! ## UOR-2 (30_encoding.md R95, 44_packet_build.md R234 to R238) -/

/-- Bits of the low k bits. -/
theorem extract_lsb (v : U16) {k lo len : Nat} (h : lo + len ≤ k) :
    (lsb v k).extractLsb' lo len = v.extractLsb' lo len := by
  ext i hi
  simp [lsb]
  omega

theorem ext1_lsb (sn : BitVec 3) (v : U16) :
    Wire.ext1 sn (lsb v 11) = [1#2 ++ sn ++ v.extractLsb' 8 3, v.extractLsb' 0 8] := by
  rw [Wire.ext1, extract_lsb v (by decide), extract_lsb v (by decide)]

theorem ext2_lsb (sn : BitVec 3) (v : U16) (b : Byte) :
    Wire.ext2 sn (lsb v 11) b = [2#2 ++ sn ++ v.extractLsb' 8 3, v.extractLsb' 0 8, b] := by
  rw [Wire.ext2, extract_lsb v (by decide), extract_lsb v (by decide)]

/-- UOR-2 with extension 3, as the builder fills it. -/
theorem Scratch.buildUor2_ext3 {sc : Scratch} (h : sc.ext = .ext3) :
    sc.buildUor2.asm.first
        = [(6#3 ++ (if sc.ext3S then sc.snNew.extractLsb' 8 5 else sc.snNew.extractLsb' 0 5) : Byte)]
      ∧ sc.buildUor2.asm.rest = [(1#1 ++ crc7 (sc.pkt.take sc.hdrEnd) : Byte),
          (3#2 ++ bit sc.ext3S ++ 1#2 ++ bit sc.ext3I ++ bit sc.ext3Ip ++ bit sc.ext3Ip2 : Byte)]
        ++ sc.ext3Body (bit sc.ext3S) (bit sc.ext3I) (bit sc.ext3Ip) (bit sc.ext3Ip2) ++ sc.tail := by
  rw [Scratch.buildUor2, h]
  exact ⟨rfl, rfl⟩

/-- With no header flags, SN[7:0] comes first. -/
theorem Scratch.ext3Body_head (sc : Scratch) (i : BitVec 1) :
    (sc.ext3Body 1 i 0 0).head? = some (sc.snNew.extractLsb' 0 8) := rfl

/-- Settles O24: the builder extension by extension. -/
theorem uor2Packets : Obligations.Uor2Packets := by
  refine ⟨fun _ _ _ _ => rfl, fun sc => ⟨fun h => ?_, fun h => ?_, fun h => ?_, fun h => ?_, fun h => ?_⟩,
    fun sc prim sec w => ⟨w.o1, ?_, fun h => ?_⟩⟩
  · rw [Scratch.buildUor2, h]
    exact ⟨rfl, rfl⟩
  · rw [Scratch.buildUor2, h]
    exact ⟨rfl, rfl⟩
  · rw [Scratch.buildUor2, h]
    refine ⟨rfl, ?_⟩
    show _ :: (Wire.ext1 (lsb sc.snNew 3) (lsb sc.o1 11) ++ sc.tail) = _
    rw [ext1_lsb]
    rfl
  · rw [Scratch.buildUor2, h]
    refine ⟨rfl, ?_⟩
    show _ :: (Wire.ext2 (lsb sc.snNew 3) (lsb sc.o2 11) (lsb sc.o1 8) ++ sc.tail) = _
    rw [ext2_lsb]
    rfl
  · obtain ⟨hfirst, hrest⟩ := Scratch.buildUor2_ext3 h
    refine ⟨hfirst, _, hrest, fun hs hip hip2 => ?_⟩
    rw [hs, hip, hip2]
    exact sc.ext3Body_head _
  · cases sec with
    | none => exact w.o2_none
    | some v => exact w.o2
  · rw [(Scratch.buildUor2_ext3 h).2, w.ext3Body]

/-! ## CIDs (30_encoding.md R86, R88, 40_primitives.md R120) -/

theorem addCid_eq_or : ∀ cid : BitVec 4, Wire.addCid cid = 0xE0#8 ||| cid.setWidth 8 := by decide

theorem sdvlEnc_one (v : BitVec 7) : sdvlEnc v.toNat = some (Wire.sdvl1 v) := by
  rw [sdvlEnc, if_pos v.isLt, BitVec.ofNat_toNat, BitVec.setWidth_eq]

theorem sdvlEnc_two {v : BitVec 14} (h : 2 ^ 7 ≤ v.toNat) : sdvlEnc v.toNat = some (Wire.sdvl2 v) := by
  rw [sdvlEnc, if_neg (by omega), if_pos v.isLt, BitVec.ofNat_toNat, BitVec.setWidth_eq]

theorem sdvlEnc_three {v : BitVec 21} (h : 2 ^ 14 ≤ v.toNat) : sdvlEnc v.toNat = some (Wire.sdvl3 v) := by
  rw [sdvlEnc, if_neg (by omega), if_neg (by omega), if_pos v.isLt, BitVec.ofNat_toNat, BitVec.setWidth_eq]

theorem sdvlEnc_four {v : BitVec 29} (h : 2 ^ 21 ≤ v.toNat) : sdvlEnc v.toNat = some (Wire.sdvl4 v) := by
  rw [sdvlEnc, if_neg (by omega), if_neg (by omega), if_neg (by omega), if_pos v.isLt, BitVec.ofNat_toNat,
    BitVec.setWidth_eq]

/-- A value that a narrower field holds is the same number there. -/
theorem toNat_setWidth_of_lt {m n : Nat} {v : BitVec n} (h : v.toNat < 2 ^ m) : (v.setWidth m).toNat = v.toNat := by
  rw [BitVec.toNat_setWidth, Nat.mod_eq_of_lt h]

/-- Settles O28: an SDVL row goes out in the shortest form that holds its value. -/
theorem cidRows : Obligations.CidRows := by
  refine fun s => ⟨fun cid => ?_, fun v => ?_, fun v h => ?_, fun v h => ?_, fun v h => ?_, fun v h => ?_,
    fun v h => ?_, fun v h => ?_⟩
  · rw [← addCid_eq_or]
    rfl
  · simp only [exec, execSdvl1, State.onScratch, Scratch.emitSdvl, sdvlEnc_one]
    rfl
  · simp only [exec, execSdvl2, State.onScratch, Scratch.emitSdvl, sdvlEnc_two h]
    rfl
  · simp only [exec, execSdvl3, State.onScratch, Scratch.emitSdvl, sdvlEnc_three h]
    rfl
  · simp only [exec, execSdvl4, State.onScratch, Scratch.emitSdvl, sdvlEnc_four h]
    rfl
  · simp only [exec, execSdvl1, execSdvl2, toNat_setWidth_of_lt h]
  · simp only [exec, execSdvl2, execSdvl3, toNat_setWidth_of_lt h]
  · simp only [exec, execSdvl3, execSdvl4, toNat_setWidth_of_lt h]

/-! ## Feedback and segments (30_encoding.md R89, R90) -/

theorem Ring.waiting_iff (r : Ring) :
    r.waiting = true ↔ (r.slot r.firstUnlocked).locked = false ∧ 0 < (r.slot r.firstUnlocked).len := by
  simp only [Ring.waiting, Bool.and_eq_true, decide_eq_true_eq, Bool.not_eq_true']
  exact and_comm

theorem feedbackShort_eq_or : ∀ len : BitVec 3, Wire.feedbackShort len = 0xF0#8 ||| len.setWidth 8 := by decide

/-- What a feedback row does with a waiting entry (45_feedback.md R263). -/
theorem State.takeBlock_eq (s : State) (lead : List Byte) : s.takeBlock lead = { s with
    fb := { s.fb with
      slots := s.fb.slots.set s.fb.firstUnlocked
        { data := (s.fb.slot s.fb.firstUnlocked).data, locked := true }
      firstUnlocked := (s.fb.firstUnlocked + 1) % 64 }
    scr := { s.scr with asm := { s.scr.asm with
      fb := s.scr.asm.fb ++ lead ++ (s.fb.slot s.fb.firstUnlocked).data } } } := by
  rw [List.append_assoc]
  rfl

/-- Settles O29: a row takes the block of a waiting entry of its length, or does nothing. -/
theorem feedbackRows : Obligations.FeedbackRows := by
  refine fun s => ⟨fun len h => ?_, fun len h8 h => ?_, fun len h => ?_, fun len h => ?_⟩
  · obtain ⟨hl, hn, h0⟩ := h
    rw [← feedbackShort_eq_or, exec, execFeedbackShort, State.emitFeedbackShort,
      if_pos ⟨s.fb.waiting_iff.mpr ⟨hl, hn ▸ h0⟩, hn⟩, State.takeBlock_eq]
  · obtain ⟨hl, hn, h0⟩ := h
    rw [exec, execFeedbackLong, State.emitFeedbackLong,
      if_pos ⟨s.fb.waiting_iff.mpr ⟨hl, hn ▸ h0⟩, hn, h8⟩, State.takeBlock_eq]
    rfl
  · rw [exec, execFeedbackShort, State.emitFeedbackShort, if_neg]
    rintro ⟨hw, hn⟩
    obtain ⟨hl, h0⟩ := s.fb.waiting_iff.mp hw
    exact h ⟨hl, hn, hn ▸ h0⟩
  · rw [exec, execFeedbackLong, State.emitFeedbackLong, if_neg]
    rintro ⟨hw, hn, h8⟩
    obtain ⟨hl, h0⟩ := s.fb.waiting_iff.mp hw
    exact h ⟨h8, hl, hn, hn ▸ h0⟩

/-- Every part of an RRU that is still to send is read. -/
theorem Rru.Ok.readBytes {r : Rru} {mrru n : Nat} (h : r.Ok mrru) (hn : n ≤ r.len) :
    ∃ chunk, r.buf.readBytes r.off n = some chunk :=
  Memory.readBytes_isSome fun i hi => h.written i (Nat.lt_of_lt_of_le hi hn)

/-- Settles O30: the chunk is bytes of the RRU that have been written. -/
theorem segmentRow : Obligations.SegmentRow := by
  intro s final mrru hok
  obtain ⟨chunk, hc⟩ := hok.readBytes (Nat.min_le_right s.scr.segN s.rru.len)
  refine ⟨chunk, hc, Memory.readBytes_length hc, ?_⟩
  simp only [exec, execSegment, State.emitSegment, Memory.bytes_of_readBytes _ hc]
  rfl

end Sys2Proof.Machine

/-!
PROOFS of the family 30_encoding.md, the Normal packet: what COMPRESS puts out for the Uncompressed profile, and
the context that it commits.
-/
namespace Sys2Proof.Machine
open Sys2Proof

/-! ## The bytes of a Normal packet (30_encoding.md R86, R87, R100) -/

/-- 0xFC, with the CID in front of it (small) or behind it (large), and all of IN. -/
def Cfg.normalPacket (cfg : Cfg) (cid : Nat) (pkt : List Byte) : List Byte :=
  match cfg.cidType with
  | .small => (if cid = 0 then [] else [BitVec.ofNat 8 (0xE0 + cid)]) ++ [0xFC] ++ pkt
  | .large => [0xFC] ++ (sdvlEnc cid).getD [] ++ pkt

/-- The octet of a small CID (30_encoding.md R86). -/
theorem addCid_small {cid : Nat} (h : cid ≤ 15) :
    (if BitVec.ofNat 4 cid = 0 then [] else [Wire.addCid (BitVec.ofNat 4 cid)])
      = if cid = 0 then [] else [BitVec.ofNat 8 (0xE0 + cid)] := by
  have key : ∀ n < 16, (if BitVec.ofNat 4 n = 0 then [] else [Wire.addCid (BitVec.ofNat 4 n)])
      = if n = 0 then [] else [BitVec.ofNat 8 (0xE0 + n)] := by decide
  exact key cid (Nat.lt_succ_of_le h)

/-- A context without a generic block gets the header of a Normal packet. -/
theorem Scratch.buildHeader_normal {cfg : Cfg} {sc : Scratch} {bs : List Byte} (hb : sc.ctx.generic? = none)
    (ha : sc.asm = { Assembly.empty with fb := bs }) (hc : sc.ctx.cid ≤ Config.cidBound cfg.cidType)
    (pkt : List Byte) : (sc.buildHeader cfg).asm.header ++ pkt = cfg.normalPacket sc.ctx.cid pkt := by
  have hp : sc.prepare cfg = { sc with ptype := .normal, ext := .none } := by
    simp only [Scratch.prepare, hb]
  rw [Scratch.buildHeader, Scratch.updateContext_asm, hp, Cfg.normalPacket]
  simp only [Scratch.build, Scratch.emitNormal, Assembly.header, ha, Assembly.empty]
  cases ht : cfg.cidType with
  | small =>
    simp only [Scratch.wrapCid, Scratch.emitAddCid, List.append_nil, addCid_small (ht ▸ hc)]
    rfl
  | large =>
    simp only [Scratch.wrapCid, Scratch.emitSdvl, List.append_nil, List.nil_append]
    rfl

/-! ## COMPRESS (47_commands.md R301, R302) -/

/-- With nothing waiting, a drain takes nothing. -/
theorem State.fbDrainLoop_idle {s : State} (h : s.fb.waiting = false) (n m : Nat) :
    State.fbDrainLoop n m s = s := by
  cases n with
  | zero => rfl
  | succ n => rw [State.fbDrainLoop, State.fbGet, if_pos h]

theorem State.fbDrain_idle {s : State} (h : s.fb.waiting = false) (m : Nat) : (s.fbDrain m).scr.asm.fb = [] := by
  rw [State.fbDrain, State.fbDrainLoop_idle]
  exact h

theorem State.assembled_idle {s : State} (h : s.fb.waiting = false) (prof : Profile) (par : Parsed)
    (pkt : List Byte) (max : Nat) (t : U64) : (s.assembled prof par pkt max t).scr.asm.fb = [] := by
  obtain ⟨-, -, hfb, -⟩ := Scratch.buildHeader_core s.cfg
    (((s.findOrCreate profileExt prof (prof.key profileExt pkt par) par pkt t).loadScratch
      (s.pick prof (prof.key profileExt pkt par)).1 pkt par).fbDrain max).scr
  refine hfb.trans (State.fbDrain_idle ?_ max)
  show (s.findOrCreate profileExt prof (prof.key profileExt pkt par) par pkt t).fb.waiting = false
  rw [State.findOrCreate_fb, h]

/-- A context of the Uncompressed profile has no block of its own (10_state.md R32). -/
theorem Ctx.ShapeOk.empty {v : Ctx} (h : v.ShapeOk) (hp : v.profile = .uncompressed) : v.block = .empty := by
  rw [Ctx.ShapeOk] at h
  split at h
  · assumption
  · rename_i h1 _ _
    cases hp.symm.trans h1
  · rename_i h1 _ _
    cases hp.symm.trans h1
  · exact h.elim

theorem State.Live.working_normal {s : State} (hs : s.Live) {par : Parsed} {pkt : List Byte}
    (hp : parse pkt = some par) (t : U64) : (s.working .uncompressed par pkt t).generic? = none := by
  obtain ⟨hw, -, hprof⟩ := hs.working (prof := .uncompressed) rfl hp t
  rw [Ctx.generic?, hw.shape.empty hprof]

/-- The slot that FIND_OR_CREATE answers is a CID of the configured type. -/
theorem State.Live.pick_le {s : State} (hs : s.Live) (prof : Profile) (key : Key) :
    (s.pick prof key).1 ≤ Config.cidBound s.cfg.cidType := by
  have hl : s.ctx.length = s.cfg.maxCid.toNat + 1 := hs.count.size
  have hm := hs.cfg.maxCid
  have hlt : (s.pick prof key).1 < s.ctx.length := by
    rcases s.pick_cases prof key with ⟨c, v, -, hp, hv, -⟩ | ⟨-, hp⟩
    · rw [hp]
      exact State.slot_lt hv
    · rw [hp]
      exact State.allocate_lt (by omega)
  omega

/-- What COMPRESS puts out for the Uncompressed profile when no feedback waits. -/
theorem State.assembled_normal {s : State} (hs : s.Live) {par : Parsed} {pkt : List Byte}
    (hp : parse pkt = some par) (hidle : s.fb.waiting = false) (max : Nat) (t : U64) :
    (s.assembled .uncompressed par pkt max t).scr.asm.fb ++ (s.assembled .uncompressed par pkt max t).scr.asm.header
        ++ (s.assembled .uncompressed par pkt max t).scr.pkt.drop
          (s.assembled .uncompressed par pkt max t).scr.hdrEnd
      = s.cfg.normalPacket (s.pick .uncompressed .uncompressed).1 pkt := by
  obtain ⟨hw, -, hprof⟩ := hs.working (prof := .uncompressed) rfl hp t
  have hcid : (s.working .uncompressed par pkt t).cid = (s.pick .uncompressed .uncompressed).1 := hw.cid
  have hle := hs.pick_le .uncompressed .uncompressed
  rw [State.assembled_idle hidle, State.assembled_pkt]
  obtain ⟨bs, e⟩ := s.assembled_scr .uncompressed par pkt max t
  rw [e, Scratch.buildHeader_hdrEnd, Scratch.hdrEnd, hprof, List.nil_append, List.drop_zero,
    Scratch.buildHeader_normal (hs.working_normal hp t) rfl (hcid ▸ hle), hcid]

/-- The context that a Normal packet commits: the one under work, with one more packet. -/
theorem State.committed_normal {s : State} (hs : s.Live) {par : Parsed} {pkt : List Byte}
    (hp : parse pkt = some par) (max : Nat) (t : U64) :
    s.committed .uncompressed par pkt max t = { s.working .uncompressed par pkt t with
      numSent := satInc (s.working .uncompressed par pkt t).numSent, latestUsed := t } := by
  obtain ⟨bs, e⟩ := s.assembled_scr .uncompressed par pkt max t
  rw [State.committed, e, Scratch.buildHeader_other s.cfg (hs.working_normal hp t)]

/-- COMPRESS of a packet whose feedback, header and payload fit OUT. -/
theorem State.finishCompress_fits {w : State} {max hdrEnd : Nat}
    (h : (w.scr.asm.fb ++ w.scr.asm.header ++ w.scr.pkt.drop hdrEnd).length ≤ max) (c : Nat) (fresh : Bool)
    (saved : Option Ctx) (t : U64) :
    w.finishCompress c fresh saved max hdrEnd t = .next
      (({ w.commit c t with fb := w.fb.removeLocked, rru := { w.rru with off := 0, len := 0 } } : State).done
        (w.scr.asm.fb ++ w.scr.asm.header ++ w.scr.pkt.drop hdrEnd) 0) := by
  rw [List.length_append, List.length_append] at h
  exact if_pos h

/-- A COMPRESS that ends with OK or NEED_SEGMENT has committed the packet it accepted. -/
theorem compress_commits {s u : State} {t : U64} {inLen outMax : U32} {pkt : List Byte} {par : Parsed}
    {prof : Profile} (hA : Accepts s inLen outMax pkt par prof)
    (h : exec (.compress t inLen outMax) s = .next u) (hst : u.rsp.status ≠ 0) :
    u.ctx = ((s.assembled prof par pkt outMax.toNat t).commit
      (s.pick prof (prof.key profileExt pkt par)).1 t).ctx := by
  rw [execCompress_accepts hA, State.compressAs_eq] at h
  rcases State.finishCompress_cases _ _ _ _ _ _ _ with ⟨out, -, -, e⟩ | ⟨unit, -, -, -, e⟩ | e
  · cases e.symm.trans h
    rfl
  · cases e.symm.trans h
    rfl
  · cases e.symm.trans h
    exact absurd rfl hst

/-- Settles O36: the bytes by `State.assembled_normal`, the context by `State.committed_normal`. -/
theorem normalPacket : Obligations.NormalPacket := by
  refine ⟨fun s t inLen outMax pkt par hs hA hidle hout => ?_, fun s u t inLen outMax pkt par hs hA h hst => ?_⟩
  · have hbytes := State.assembled_normal hs hA.parsed hidle outMax.toNat t
    refine ⟨_, (execCompress_accepts hA).trans ((State.compressAs_eq ..).trans
      (State.finishCompress_fits ((congrArg List.length hbytes).trans_le hout) ..)), rfl,
      congrArg Memory.ofBytes hbytes, ?_⟩
    exact (congrArg (fun out => (BitVec.ofNat 32 (List.length out)).toNat) hbytes).trans (outLen_toNat hout)
  · have hslot := State.committed_slot hs.count (compress_commits hA h hst)
    have hl : 0 < s.ctx.length := by rw [hs.count.size]; omega
    refine ⟨fun w hf hw => ?_, fun hf => ?_, fun d hd => (hslot d).trans (if_neg hd)⟩
    · rw [hslot, Profile.key, if_pos rfl, State.committed_normal hs hA.parsed,
        State.working_find (prof := .uncompressed) hf hw]
      rfl
    · have hp : s.pick .uncompressed .uncompressed = (s.allocate.1, true) := by rw [State.pick, hf]
      rw [hslot, Profile.key, if_pos rfl, State.committed_normal hs hA.parsed,
        State.working_fresh (prof := .uncompressed) hf hl, hp]
      rfl

end Sys2Proof.Machine

/-!
PROOFS of the family 40_primitives.md, SDVL: the octets of the four forms, and the decoder as a relation with one
constructor per form.
-/
namespace Sys2Proof.Machine
open Sys2Proof

/-! ## The four forms (40_primitives.md R120) -/

/-- A field of a number, as an octet. -/
theorem extract_octet {w : Nat} (v : BitVec w) (lo : Nat) :
    v.extractLsb' lo 8 = BitVec.ofNat 8 (v.toNat / 2 ^ lo) := by
  rw [BitVec.extractLsb', Nat.shiftRight_eq_div_pow]

/-- A tag of `k` bits before the `m` top bits of a number. -/
theorem tag_append_top {k lo m : Nat} (c : BitVec k) (v : BitVec (lo + m)) :
    c ++ v.extractLsb' lo m = BitVec.ofNat (k + m) (c.toNat * 2 ^ m + v.toNat / 2 ^ lo) := by
  have hv : v.toNat / 2 ^ lo < 2 ^ m := Nat.div_lt_of_lt_mul (Nat.pow_add 2 lo m ▸ v.isLt)
  rw [← Nat.mod_eq_of_lt hv, ← toNat_extract, ← toNat_concat, BitVec.ofNat_toNat, BitVec.setWidth_eq]

theorem sdvl1_octets (v : BitVec 7) : Wire.sdvl1 v = [BitVec.ofNat 8 v.toNat] := by
  revert v
  decide

theorem sdvl2_octets (v : BitVec 14) :
    Wire.sdvl2 v = [BitVec.ofNat 8 (0x80 + v.toNat / 2 ^ 8), BitVec.ofNat 8 v.toNat] := by
  rw [Wire.sdvl2, tag_append_top (lo := 8) (m := 6) 2#2 v, extract_octet, Nat.pow_zero, Nat.div_one]
  rfl

theorem sdvl3_octets (v : BitVec 21) :
    Wire.sdvl3 v = [BitVec.ofNat 8 (0xC0 + v.toNat / 2 ^ 16), BitVec.ofNat 8 (v.toNat / 2 ^ 8),
      BitVec.ofNat 8 v.toNat] := by
  rw [Wire.sdvl3, tag_append_top (lo := 16) (m := 5) 6#3 v, extract_octet, extract_octet, Nat.pow_zero, Nat.div_one]
  rfl

theorem sdvl4_octets (v : BitVec 29) :
    Wire.sdvl4 v = [BitVec.ofNat 8 (0xE0 + v.toNat / 2 ^ 24), BitVec.ofNat 8 (v.toNat / 2 ^ 16),
      BitVec.ofNat 8 (v.toNat / 2 ^ 8), BitVec.ofNat 8 v.toNat] := by
  rw [Wire.sdvl4, tag_append_top (lo := 24) (m := 5) 7#3 v, extract_octet, extract_octet, extract_octet,
    Nat.pow_zero, Nat.div_one]
  rfl

/-- A number that fits a word is the number of a word. -/
theorem exists_toNat_eq {w n : Nat} (h : n < 2 ^ w) : ∃ v : BitVec w, v.toNat = n :=
  ⟨BitVec.ofNatLT n h, rfl⟩

theorem sdvlEnc_none {v : Nat} (h : 2 ^ 29 ≤ v) : sdvlEnc v = none := by
  rw [sdvlEnc, if_neg (by omega), if_neg (by omega), if_neg (by omega), if_neg (by omega)]

/-- Settles O9: form by form. -/
theorem sdvlForms : Obligations.SdvlForms := by
  refine fun v => ⟨fun h => ?_, fun hl h => ?_, fun hl h => ?_, fun hl h => ?_, sdvlEnc_none⟩
  · obtain ⟨v, rfl⟩ := exists_toNat_eq h
    rw [sdvlEnc_one, sdvl1_octets]
  · obtain ⟨v, rfl⟩ := exists_toNat_eq h
    rw [sdvlEnc_two hl, sdvl2_octets]
  · obtain ⟨v, rfl⟩ := exists_toNat_eq h
    rw [sdvlEnc_three hl, sdvl3_octets]
  · obtain ⟨v, rfl⟩ := exists_toNat_eq h
    rw [sdvlEnc_four hl, sdvl4_octets]

/-! ## The decoder (40_primitives.md R121) -/

/-- The octets `s` begin with a form of SDVL that holds `v` in `n` octets. -/
inductive SdvlReads : List Byte → Nat → Nat → Prop
  | one {o : Byte} (h : o.toNat < 0x80) (r : List Byte) :
    SdvlReads (o :: r) (o.extractLsb' 0 7).toNat 1
  | two {o : Byte} (hl : 0x80 ≤ o.toNat) (h : o.toNat < 0xC0) (a : Byte) (r : List Byte) :
    SdvlReads (o :: a :: r) (o.extractLsb' 0 6 ++ a).toNat 2
  | three {o : Byte} (hl : 0xC0 ≤ o.toNat) (h : o.toNat < 0xE0) (a b : Byte) (r : List Byte) :
    SdvlReads (o :: a :: b :: r) (o.extractLsb' 0 5 ++ a ++ b).toNat 3
  | four {o : Byte} (hl : 0xE0 ≤ o.toNat) (a b c : Byte) (r : List Byte) :
    SdvlReads (o :: a :: b :: c :: r) (o.extractLsb' 0 5 ++ a ++ b ++ c).toNat 4

theorem SdvlReads.dec {s : List Byte} {v n : Nat} (h : SdvlReads s v n) : sdvlDec s = some (v, n) := by
  cases h with
  | one h r => simp only [sdvlDec, decodeWire, decodeValue, if_pos h]
  | two hl h a r => simp only [sdvlDec, decodeWire, decodeValue, if_neg (Nat.not_lt.mpr hl), if_pos h]
  | three hl h a b r =>
    simp only [sdvlDec, decodeWire, decodeValue]
    rw [if_neg (by omega), if_neg (by omega), if_pos h]
  | four hl a b c r =>
    simp only [sdvlDec, decodeWire, decodeValue]
    rw [if_neg (by omega), if_neg (by omega), if_neg (by omega)]

theorem SdvlReads.of_dec {s : List Byte} {v n : Nat} (h : sdvlDec s = some (v, n)) : SdvlReads s v n := by
  rcases s with _ | ⟨o, r⟩
  · cases h
  simp only [sdvlDec, decodeWire, decodeValue] at h
  by_cases h1 : o.toNat < 0x80
  · rw [if_pos h1] at h
    cases h
    exact .one h1 r
  by_cases h2 : o.toNat < 0xC0
  · rw [if_neg h1, if_pos h2] at h
    match r, h with
    | a :: r, rfl => exact .two (Nat.le_of_not_lt h1) h2 a r
  by_cases h3 : o.toNat < 0xE0
  · rw [if_neg h1, if_neg h2, if_pos h3] at h
    match r, h with
    | a :: b :: r, rfl => exact .three (Nat.le_of_not_lt h2) h3 a b r
  · rw [if_neg h1, if_neg h2, if_neg h3] at h
    match r, h with
    | a :: b :: c :: r, rfl => exact .four (Nat.le_of_not_lt h3) a b c r

theorem SdvlReads.append {s : List Byte} {v n : Nat} (h : SdvlReads s v n) (x : List Byte) :
    SdvlReads (s ++ x) v n := by
  cases h with
  | one h r => exact .one h (r ++ x)
  | two hl h a r => exact .two hl h a (r ++ x)
  | three hl h a b r => exact .three hl h a b (r ++ x)
  | four hl a b c r => exact .four hl a b c (r ++ x)

theorem SdvlReads.bounds {s : List Byte} {v n : Nat} (h : SdvlReads s v n) :
    1 ≤ n ∧ n ≤ 4 ∧ n ≤ s.length ∧ v < 2 ^ 29 := by
  cases h with
  | one h r => exact ⟨by omega, by omega, by simp, (BitVec.isLt _).trans (by decide)⟩
  | two hl h a r => exact ⟨by omega, by omega, by simp, (BitVec.isLt _).trans (by decide)⟩
  | three hl h a b r => exact ⟨by omega, by omega, by simp, (BitVec.isLt _).trans (by decide)⟩
  | four hl a b c r => exact ⟨by omega, by omega, by simp, BitVec.isLt _⟩

/-! The rows read back, by their round trips (30_encoding.md R88). -/

theorem sdvlDec_one (v : BitVec 7) : sdvlDec (Wire.sdvl1 v) = some (v.toNat, 1) := by
  have h : decodeWire .value (Wire.sdvl1 v) = .ok (.sdvl1 v, []) := Laws.RoundTrip.sdvl1 v rfl
  rw [sdvlDec, h]

theorem sdvlDec_two {v : BitVec 14} (hv : 2 ^ 7 ≤ v.toNat) : sdvlDec (Wire.sdvl2 v) = some (v.toNat, 2) := by
  have h : decodeWire .value (Wire.sdvl2 v) = .ok (.sdvl2 v, []) := Laws.RoundTrip.sdvl2 v (decide_eq_true hv)
  rw [sdvlDec, h]

theorem sdvlDec_three {v : BitVec 21} (hv : 2 ^ 14 ≤ v.toNat) : sdvlDec (Wire.sdvl3 v) = some (v.toNat, 3) := by
  have h : decodeWire .value (Wire.sdvl3 v) = .ok (.sdvl3 v, []) := Laws.RoundTrip.sdvl3 v (decide_eq_true hv)
  rw [sdvlDec, h]

theorem sdvlDec_four {v : BitVec 29} (hv : 2 ^ 21 ≤ v.toNat) : sdvlDec (Wire.sdvl4 v) = some (v.toNat, 4) := by
  have h : decodeWire .value (Wire.sdvl4 v) = .ok (.sdvl4 v, []) := Laws.RoundTrip.sdvl4 v (decide_eq_true hv)
  rw [sdvlDec, h]

/-- The decoder reads what SDVL_ENC wrote. -/
theorem sdvlDec_of_sdvlEnc {v : Nat} {bs : List Byte} (h : sdvlEnc v = some bs) :
    sdvlDec bs = some (v, bs.length) := by
  by_cases h1 : v < 2 ^ 7
  · obtain ⟨x, rfl⟩ := exists_toNat_eq h1
    cases (sdvlEnc_one x).symm.trans h
    exact sdvlDec_one x
  by_cases h2 : v < 2 ^ 14
  · obtain ⟨x, rfl⟩ := exists_toNat_eq h2
    cases (sdvlEnc_two (Nat.le_of_not_lt h1)).symm.trans h
    exact sdvlDec_two (Nat.le_of_not_lt h1)
  by_cases h3 : v < 2 ^ 21
  · obtain ⟨x, rfl⟩ := exists_toNat_eq h3
    cases (sdvlEnc_three (Nat.le_of_not_lt h2)).symm.trans h
    exact sdvlDec_three (Nat.le_of_not_lt h2)
  by_cases h4 : v < 2 ^ 29
  · obtain ⟨x, rfl⟩ := exists_toNat_eq h4
    cases (sdvlEnc_four (Nat.le_of_not_lt h3)).symm.trans h
    exact sdvlDec_four (Nat.le_of_not_lt h3)
  · cases (sdvlEnc_none (Nat.le_of_not_lt h4)).symm.trans h

/-- Settles O10: what follows a form does not change what is read, so a proper front of it that read as anything
would hold all its octets. -/
theorem sdvlDecodes : Obligations.SdvlDecodes := by
  refine ⟨fun v bs rest h => ((SdvlReads.of_dec (sdvlDec_of_sdvlEnc h)).append rest).dec,
    fun s v n h => (SdvlReads.of_dec h).bounds, fun s bs v h hlt hs => ?_⟩
  obtain ⟨x, rfl⟩ := List.prefix_iff_eq_take.mpr hs
  rw [Option.eq_none_iff_forall_ne_some]
  rintro ⟨u, n⟩ hd
  have hread := SdvlReads.of_dec hd
  obtain ⟨-, -, hlen, -⟩ := hread.bounds
  cases (hread.append x).dec.symm.trans (sdvlDec_of_sdvlEnc h)
  exact absurd hlt (Nat.not_lt.mpr hlen)

end Sys2Proof.Machine

/-!
PROOFS of the family 40_primitives.md, W-LSB windows: the least bit count, and the window that takes a value.
-/
namespace Sys2Proof.Machine
open Sys2Proof

/-! ## WLSB_K (40_primitives.md R122, R125) -/

theorem inInterval_iff {r v : U16} {k : Nat} {p : Int} :
    inInterval r k p v = true ↔ (v - (r - BitVec.ofInt 16 p)).toNat < 2 ^ k := decide_eq_true_iff

/-- Every reference's interval of k bits holds the value. -/
def Window.Suffices (w : Window) (v : U16) (p : Int) (k : Nat) : Prop :=
  ∀ r ∈ w.refs, (v - (r - BitVec.ofInt 16 p)).toNat < 2 ^ k

theorem Window.suffices_iff {w : Window} {v : U16} {p : Int} {k : Nat} :
    (w.refs.all fun r => inInterval r k p v) = true ↔ w.Suffices v p k := by
  simp only [List.all_eq_true, inInterval_iff, Window.Suffices]

/-- Sixteen bits hold every value. -/
theorem Window.suffices_sixteen (w : Window) (v : U16) (p : Int) : w.Suffices v p 16 := fun _ _ => BitVec.isLt _

/-- The bit count of a non-empty window is the first of the candidates that suffices. -/
theorem Window.kNeeded_spec {w : Window} (h : w.refs ≠ []) (v : U16) (p : Int) :
    w.kNeeded v p ≤ 16 ∧ w.Suffices v p (w.kNeeded v p) ∧ ∀ k < w.kNeeded v p, ¬ w.Suffices v p k := by
  rw [Window.kNeeded, if_neg (by rwa [Window.count, List.length_eq_zero_iff]),
    show wlsbCandidates = List.range 17 from rfl]
  cases hf : (List.range 17).find? fun k => w.refs.all fun r => inInterval r k p v with
  | none => exact absurd (Window.suffices_iff.mpr (w.suffices_sixteen v p)) (List.find?_eq_none.mp hf 16 (by simp))
  | some k =>
    obtain ⟨hk, hmem, hleast⟩ := List.find?_range_eq_some.mp hf
    refine ⟨Nat.le_of_lt_succ (List.mem_range.mp hmem), Window.suffices_iff.mp hk, fun j hj hs => ?_⟩
    rw [← Window.suffices_iff] at hs
    simpa [hs] using hleast j hj

theorem Window.exists_of_not_suffices {w : Window} {v : U16} {p : Int} {k : Nat} (h : ¬ w.Suffices v p k) :
    ∃ r ∈ w.refs, 2 ^ k ≤ (v - (r - BitVec.ofInt 16 p)).toNat := by
  simpa only [Window.Suffices, not_forall, exists_prop, Nat.not_lt] using h

/-! ## WLSB_ADD (40_primitives.md R124) -/

theorem Window.add_of_lt {width : Nat} {w : Window} (h : w.count < width) (v : U16) :
    (w.add width v).refs = w.refs ++ [v] := by
  rw [Window.add, if_neg h.ne]

theorem Window.add_full {width : Nat} {w : Window} {r : U16} {rs : List U16} (hw : w.refs = r :: rs)
    (h : w.count = width) (v : U16) : (w.add width v).refs = rs ++ [v] := by
  rw [Window.add, if_pos h, hw, List.drop_succ_cons, List.drop_zero]

theorem Window.count_add {width : Nat} {w : Window} (hpos : 0 < width) (hle : w.count ≤ width) (v : U16) :
    (w.add width v).count = min (w.count + 1) width := by
  rw [Window.count, Window.add, List.length_append, List.length_singleton]
  split
  · rw [List.length_drop, ← Window.count]
    omega
  · rw [← Window.count]
    omega

/-- Settles O11: `Window.kNeeded_spec` for the bit count; a window is below its capacity or full. -/
theorem wlsbWindow : Obligations.WlsbWindow := by
  refine ⟨fun w v p => ⟨fun h => ?_, fun h => ?_⟩,
    fun width w v hpos hle => ⟨fun h => Window.add_of_lt h v, fun h => ?_, Window.count_add hpos hle v⟩⟩
  · rw [Window.kNeeded, if_pos (by rw [Window.count, h, List.length_nil])]
  · obtain ⟨hle, hsuff, hleast⟩ := Window.kNeeded_spec h v p
    exact ⟨hle, hsuff, fun k hk => Window.exists_of_not_suffices (hleast k hk)⟩
  · obtain ⟨r, rs, hr⟩ := List.exists_cons_of_length_pos (hpos.trans_eq h.symm)
    exact ⟨r, rs, hr, Window.add_full hr h v⟩

end Sys2Proof.Machine

/-!
PROOFS of the family 40_primitives.md, CRCs: a lookup in the table is eight bit-serial steps, for every polynomial.
-/
namespace Sys2Proof.Machine
open Sys2Proof

/-- One bit-serial step: bit i of the octet enters at bit 0 of the register. -/
def serialStep (poly b c : Byte) (i : Nat) : Byte :=
  if c.getLsbD 0 != b.getLsbD i then (c >>> 1) ^^^ poly else c >>> 1

/-- A table step of the register with the rest of the octet mixed in is a serial step with the shorter rest mixed
in. -/
theorem crcStep_xor (poly b c : Byte) (i : Nat) :
    crcStep poly (c ^^^ b >>> i) = serialStep poly b c i ^^^ b >>> (i + 1) := by
  have hbit : (c ^^^ b >>> i).getLsbD 0 = (c.getLsbD 0 != b.getLsbD i) := by
    rw [BitVec.getLsbD_xor, BitVec.getLsbD_ushiftRight, Nat.add_zero]
  rw [crcStep, serialStep, hbit, BitVec.ushiftRight_xor_distrib, ← BitVec.shiftRight_add]
  split
  · rw [BitVec.xor_assoc, BitVec.xor_comm (b >>> (i + 1)), ← BitVec.xor_assoc]
  · rfl

/-- n table steps of the register with the octet mixed in. -/
theorem iterate_crcStep (poly b c : Byte) (n : Nat) :
    (crcStep poly)^[n] (c ^^^ b) = (List.range n).foldl (serialStep poly b) c ^^^ b >>> n := by
  induction n with
  | zero => rw [BitVec.ushiftRight_zero]; rfl
  | succ n ih =>
    rw [Function.iterate_succ_apply', ih, crcStep_xor, List.range_succ, List.foldl_append]
    rfl

/-- After eight steps nothing is left of the octet. -/
theorem crcTable_serial (poly b c : Byte) :
    crcTable poly (b ^^^ c) = (List.range 8).foldl (serialStep poly b) c := by
  have h := iterate_crcStep poly b c 8
  rw [BitVec.ushiftRight_eq_zero (Nat.le_refl 8), BitVec.xor_zero] at h
  rw [← h, crcTable, BitVec.setWidth_eq, BitVec.xor_comm]
  rfl

/-- A register of k bits is its own masked value. -/
theorem and_mask_of_lt {c : Byte} {k : Nat} (hk : k ≤ 8) (h : c.toNat < 2 ^ k) :
    c &&& BitVec.ofNat 8 (2 ^ k - 1) = c := by
  apply BitVec.eq_of_toNat_eq
  have hm : 2 ^ k - 1 < 2 ^ 8 := by
    have := Nat.pow_le_pow_right (n := 2) (by decide) hk
    omega
  rw [BitVec.toNat_and, BitVec.toNat_ofNat, Nat.mod_eq_of_lt hm, Nat.and_two_pow_sub_one_of_lt_two_pow h]

theorem crcUpdate_serial (poly b c : Byte) {k : Nat} (hk : k ≤ 8) (h : c.toNat < 2 ^ k) :
    crcUpdate (crcTable poly) (BitVec.ofNat 8 (2 ^ k - 1)) c b = (List.range 8).foldl (serialStep poly b) c := by
  rw [crcUpdate, and_mask_of_lt hk h, crcTable_serial]

/-- Settles O13: the updates by `crcUpdate_serial`, the check values by computation. -/
theorem crcGenerators : Obligations.CrcGenerators :=
  ⟨fun crc b h => crcUpdate_serial 0x06 b crc (k := 3) (by decide) h,
    fun crc b h => crcUpdate_serial 0x79 b crc (k := 7) (by decide) h,
    fun crc b => crcUpdate_serial 0xE0 b crc (k := 8) (by decide) crc.isLt,
    by decide +kernel⟩

end Sys2Proof.Machine

/-!
PROOFS of the family 41_frontend.md, the parser: what it reads of a header is what stands there, and one or two
headers fill the packet.
-/
namespace Sys2Proof.Machine
open Sys2Proof

/-! ## Fields of octets as numbers -/

/-- A 16-bit field as a number (20_memory.md R63). -/
theorem be16At_toNat (s : List Byte) (i : Nat) :
    (be16At s i).toNat = 256 * (octet s i).toNat + (octet s (i + 1)).toNat := by
  rw [be16At, toNat_concat, Nat.mul_comm]
  rfl

/-- The four low bits of an octet as a number. -/
theorem toNat_lowNibble (b : Byte) : (b.extractLsb' 0 4).toNat = b.toNat % 16 := by
  rw [toNat_extract, Nat.pow_zero, Nat.div_one]
  rfl

/-- The four high bits of an octet as a number. -/
theorem toNat_highNibble (b : Byte) : (b.extractLsb' 4 4).toNat = b.toNat / 16 := by
  have := b.isLt
  rw [toNat_extract]
  omega

theorem getLsbD_eq_true_iff (b : Byte) (i : Nat) : b.getLsbD i = true ↔ b.toNat / 2 ^ i % 2 = 1 := by
  rw [BitVec.getLsbD, Nat.testBit_eq_decide_div_mod_eq, decide_eq_true_eq]

theorem getLsbD_eq_false_iff (b : Byte) (i : Nat) : b.getLsbD i = false ↔ b.toNat / 2 ^ i % 2 = 0 := by
  rw [← Bool.not_eq_true, getLsbD_eq_true_iff, ← Ne, Nat.mod_two_ne_one]

theorem fragmentOffset_eq_zero (a b : Byte) :
    a.extractLsb' 0 5 ++ b = (0 : BitVec 13) ↔ a.toNat % 32 = 0 ∧ b.toNat = 0 := by
  rw [← BitVec.toNat_inj, toNat_concat, toNat_extract, show (0 : BitVec 13).toNat = 0 from rfl]
  omega

/-! ## One header (41_frontend.md R152, R153) -/

theorem IsIpv4.unique {pkt : List Byte} {off n : Nat} {h k : IpHdr} (hh : IsIpv4 pkt off n h)
    (hk : IsIpv4 pkt off n k) : h = k := by
  have hid : h.id = k.id := BitVec.eq_of_toNat_eq (hh.id.trans hk.id.symm)
  have hdf : h.df = k.df := Bool.eq_iff_iff.mpr (hh.df.trans hk.df.symm)
  have hplain : h.plain = k.plain := Bool.eq_iff_iff.mpr (hh.plain.trans hk.plain.symm)
  cases h
  cases k
  simp only [IpHdr.mk.injEq]
  exact ⟨hh.version.trans hk.version.symm, hh.src.trans hk.src.symm, hh.dst.trans hk.dst.symm,
    hh.tos.trans hk.tos.symm, hh.ttl.trans hk.ttl.symm, hid, hh.fl.trans hk.fl.symm, hdf,
    hh.proto.trans hk.proto.symm, hh.hlen.trans hk.hlen.symm, hh.at_.trans hk.at_.symm, hplain⟩

theorem IsIpv6.unique {pkt : List Byte} {off n : Nat} {h k : IpHdr} (hh : IsIpv6 pkt off n h)
    (hk : IsIpv6 pkt off n k) : h = k := by
  have htos : h.tos = k.tos := BitVec.eq_of_toNat_eq (hh.tos.trans hk.tos.symm)
  have hfl : h.fl = k.fl := BitVec.eq_of_toNat_eq (hh.fl.trans hk.fl.symm)
  cases h
  cases k
  simp only [IpHdr.mk.injEq]
  exact ⟨hh.version.trans hk.version.symm, hh.src.trans hk.src.symm, hh.dst.trans hk.dst.symm, htos,
    hh.ttl.trans hk.ttl.symm, hh.id.trans hk.id.symm, hfl, hh.df.trans hk.df.symm, hh.proto.trans hk.proto.symm,
    hh.hlen.trans hk.hlen.symm, hh.at_.trans hk.at_.symm, hh.plain.trans hk.plain.symm⟩

/-- A ones-complement sum of ten words is 0xFFFF exactly when the sum is a positive multiple of 65535. -/
theorem foldCarry_foldCarry_eq {n : Nat} (h : n ≤ 10 * 65535) :
    foldCarry (foldCarry n) = 0xFFFF ↔ 0 < n ∧ n % 65535 = 0 := by
  simp only [foldCarry]
  omega

theorem wordSum_eq (pkt : List Byte) (off : Nat) :
    wordSum pkt off = ((List.range 10).map fun i => (be16At pkt (off + 2 * i)).toNat).sum := by
  simp only [wordSum, be16At_toNat]

theorem headerSum_eq (pkt : List Byte) (off : Nat) :
    headerSum pkt off = foldCarry (foldCarry (wordSum pkt off)) := by
  rw [headerSum, wordSum_eq]
  congr 2
  simp only [List.range_succ, List.range_zero, List.nil_append, List.map_append, List.map_cons, List.map_nil,
    List.sum_append, List.sum_singleton, Nat.mul_zero, Nat.add_zero, Nat.reduceMul]

theorem wordSum_le (pkt : List Byte) (off : Nat) : wordSum pkt off ≤ 10 * 65535 := by
  rw [wordSum_eq]
  refine (List.sum_le_card_nsmul _ 65535 fun x hx => ?_).trans_eq (by simp)
  obtain ⟨i, -, rfl⟩ := List.mem_map.mp hx
  exact Nat.le_of_lt_succ (BitVec.isLt _)

/-- What the parser reads of an IPv4 header. -/
theorem parseIpv4_isIpv4 {pkt : List Byte} {off n : Nat} {h : IpHdr}
    (hv : (octet pkt off).toNat / 16 = 4) (e : parseIpv4 pkt off n = some h) : IsIpv4 pkt off n h := by
  simp only [parseIpv4, toNat_lowNibble, be16At_toNat, Nat.add_assoc, Nat.reduceAdd] at e
  split at e
  · cases e
  split at e
  · cases e
  split at e
  · cases e
  next hlong hihl hdecl =>
  cases e
  refine ⟨by omega, hv, by omega, by omega, by omega, rfl, rfl, rfl, rfl, be16At_toNat _ _, getLsbD_eq_true_iff _ 6,
    rfl, rfl, rfl, rfl, rfl, ?_⟩
  have hflag := (octet pkt (off + 6)).isLt
  simp only [Bool.and_eq_true, decide_eq_true_eq, Bool.not_eq_true', getLsbD_eq_false_iff, fragmentOffset_eq_zero,
    headerSum_eq, foldCarry_foldCarry_eq (wordSum_le pkt off)]
  omega

theorem IsIpv4.parses {pkt : List Byte} {off n : Nat} {h : IpHdr} (hh : IsIpv4 pkt off n h) :
    parseIpv4 pkt off n = some h := by
  suffices hk : ∃ k, parseIpv4 pkt off n = some k by
    obtain ⟨k, hk⟩ := hk
    rw [hk, hh.unique (parseIpv4_isIpv4 hh.nibble hk)]
  have := hh.long
  have := hh.ihl
  have := hh.fits
  have := hh.declared
  simp only [parseIpv4, toNat_lowNibble, be16At_toNat, Nat.add_assoc, Nat.reduceAdd]
  rw [if_neg (by omega), if_neg (by omega), if_neg (by omega)]
  exact ⟨_, rfl⟩

/-- What the parser reads of an IPv6 header. -/
theorem parseIpv6_isIpv6 {pkt : List Byte} {off n : Nat} {h : IpHdr}
    (hv : (octet pkt off).toNat / 16 = 6) (e : parseIpv6 pkt off n = some h) : IsIpv6 pkt off n h := by
  simp only [parseIpv6, be16At_toNat, Nat.add_assoc, Nat.reduceAdd] at e
  split at e
  · cases e
  split at e
  · cases e
  next hlong hdecl =>
  cases e
  refine ⟨by omega, hv, by omega, rfl, rfl, rfl, ?_, ?_, rfl, rfl, rfl, rfl, rfl, rfl, rfl⟩
  · exact (toNat_concat _ _).trans (by rw [toNat_lowNibble, toNat_highNibble]; omega)
  · exact (toNat_concat _ _).trans (by rw [toNat_concat, toNat_lowNibble]; omega)

theorem IsIpv6.parses {pkt : List Byte} {off n : Nat} {h : IpHdr} (hh : IsIpv6 pkt off n h) :
    parseIpv6 pkt off n = some h := by
  suffices hk : ∃ k, parseIpv6 pkt off n = some k by
    obtain ⟨k, hk⟩ := hk
    rw [hk, hh.unique (parseIpv6_isIpv6 hh.nibble hk)]
  have := hh.long
  have := hh.declared
  simp only [parseIpv6, be16At_toNat, Nat.add_assoc, Nat.reduceAdd]
  rw [if_neg (by omega), if_neg (by omega)]
  exact ⟨_, rfl⟩

/-- The version nibble decides which header is read (R151). -/
theorem parseOne_eq_some_iff {pkt : List Byte} {off n : Nat} {h : IpHdr} :
    parseOne pkt off n = some h ↔ IsHeader pkt off n h := by
  constructor
  · intro e
    rw [parseOne] at e
    split at e
    · cases e
    split at e
    next hv => exact .inl (parseIpv4_isIpv4 (by rwa [toNat_highNibble] at hv) e)
    next hv => exact .inr (parseIpv6_isIpv6 (by rwa [toNat_highNibble] at hv) e)
    · cases e
  · rintro (h4 | h6)
    · have := h4.long
      rw [parseOne, if_neg (by omega), toNat_highNibble, h4.nibble]
      exact h4.parses
    · have := h6.long
      rw [parseOne, if_neg (by omega), toNat_highNibble, h6.nibble]
      exact h6.parses

theorem IsHeader.hlen_le {pkt : List Byte} {off n : Nat} {h : IpHdr} (hh : IsHeader pkt off n h) : h.hlen ≤ n := by
  rcases hh with h4 | h6
  · exact h4.hlen.trans_le h4.fits
  · exact h6.hlen.trans_le h6.long

theorem IsHeader.off_eq {pkt : List Byte} {off n : Nat} {h : IpHdr} (hh : IsHeader pkt off n h) : h.off = off := by
  rcases hh with h4 | h6
  · exact h4.at_
  · exact h6.at_

/-! ## One header or two (41_frontend.md R151) -/

theorem announcesIp_iff {proto : Byte} : announcesIp proto = true ↔ proto = 4 ∨ proto = 41 := by
  rw [announcesIp, Bool.or_eq_true, beq_iff_eq, beq_iff_eq]

theorem Parsed.ext_hdrs {p q : Parsed} (h : p.hdrs = q.hdrs) : p = q := by
  cases p
  cases q
  exact congrArg Parsed.mk h

theorem parse_eq_some_iff {pkt : List Byte} {p : Parsed} : parse pkt = some p ↔
    (∃ h, p.hdrs = [h] ∧ parseOne pkt 0 pkt.length = some h ∧ ¬ announcesIp h.proto)
    ∨ ∃ h0 h1, p.hdrs = [h0, h1] ∧ parseOne pkt 0 pkt.length = some h0 ∧ announcesIp h0.proto
      ∧ parseOne pkt h0.hlen (pkt.length - h0.hlen) = some h1 ∧ ¬ announcesIp h1.proto := by
  constructor
  · intro e
    rw [parse] at e
    split at e
    · cases e
    next h0 e0 =>
    split at e
    next ha =>
      split at e
      · cases e
      next h1 e1 =>
      split at e
      · cases e
      next hb =>
      cases e
      exact .inr ⟨h0, h1, rfl, e0, ha, e1, hb⟩
    next ha =>
      cases e
      exact .inl ⟨h0, rfl, e0, ha⟩
  · rintro (⟨h, hp, e, ha⟩ | ⟨h0, h1, hp, e0, ha, e1, hb⟩)
    · rw [parse, e, Parsed.ext_hdrs (q := ⟨[h]⟩) hp]
      exact if_neg ha
    · rw [parse, e0, Parsed.ext_hdrs (q := ⟨[h0, h1]⟩) hp]
      simp only [ha, e1, hb, if_true, Bool.false_eq_true, if_false]

/-- Settles O14: the two forms of a parsed packet, with each header read as `parseOne_eq_some_iff` says. -/
theorem parserBounds : Obligations.ParserBounds := by
  have hparse (pkt : List Byte) (p : Parsed) := parse_eq_some_iff (pkt := pkt) (p := p)
  simp only [parseOne_eq_some_iff, announcesIp_iff, not_or] at hparse
  refine ⟨hparse, fun pkt p e => ?_⟩
  rcases (hparse pkt p).mp e with ⟨h, hp, hh, hlast⟩ | ⟨h0, h1, hp, hh0, hann, hh1, hlast⟩
  · exact .inl ⟨h, hp, hh.off_eq, hh.hlen_le, hlast⟩
  · have hle0 := hh0.hlen_le
    have hle1 := hh1.hlen_le
    exact .inr ⟨h0, h1, hp, hh0.off_eq, hann, hh1.off_eq, by omega, hlast⟩

end Sys2Proof.Machine

/-!
PROOFS of the family 41_frontend.md, the profile selector: the first profile of the registry that is enabled and
accepts, and what each check asks of the packet.
-/
namespace Sys2Proof.Machine
open Sys2Proof

/-! ## The registry (41_frontend.md R160) -/

theorem bit_lt_registry_length (p : Profile) : p.bit < registry.length := by
  cases p <;> decide

theorem registry_getElem_bit (p : Profile) : registry[p.bit]'(bit_lt_registry_length p) = p := by
  cases p <;> rfl

theorem bit_registry_getElem : ∀ (i : Nat) (h : i < registry.length), registry[i].bit = i := by
  decide

theorem mem_registry (p : Profile) : p ∈ registry :=
  List.mem_of_getElem (registry_getElem_bit p)

/-- The registry stands in the order of the bits: a test picks the lowest bit it accepts. -/
theorem registry_find?_eq_some {f : Profile → Bool} {p : Profile} :
    registry.find? f = some p ↔ f p = true ∧ ∀ q : Profile, q.bit < p.bit → ¬ f q = true := by
  simp only [List.find?_eq_some_iff_getElem, Bool.not_eq_true, Bool.not_eq_true']
  refine and_congr_right fun _ => ⟨?_, fun h => ⟨p.bit, bit_lt_registry_length p, registry_getElem_bit p, ?_⟩⟩
  · rintro ⟨i, hi, rfl, hbefore⟩ q hq
    rw [bit_registry_getElem] at hq
    exact registry_getElem_bit q ▸ hbefore q.bit hq
  · intro j hj
    exact h _ (by rwa [bit_registry_getElem])

/-! ## The checks (41_frontend.md R163 to R166) -/

theorem Parsed.plain_iff {par : Parsed} : par.plain = true ↔ ∀ h ∈ par.hdrs, h.plain = true :=
  List.all_eq_true

theorem checkProto_iff {proto : Byte} {pkt : List Byte} {par : Parsed} :
    checkProto proto pkt par = true ↔ CarriesTransport proto pkt par := by
  simp only [checkProto, CarriesTransport, Bool.and_eq_true, Parsed.plain_iff, Parsed.lastProto, beq_iff_eq,
    Option.map_eq_some_iff, decide_eq_true_eq, and_assoc]
  rfl

/-- The UDP check is that of the other transports, with the UDP length. -/
theorem checkUdp_iff {pkt : List Byte} {par : Parsed} :
    checkUdp pkt par = true ↔ CarriesTransport 17 pkt par ∧ UdpLengthRight pkt par := by
  rw [show checkUdp pkt par = (checkProto 17 pkt par && _) from rfl, Bool.and_eq_true, checkProto_iff,
    decide_eq_true_eq, be16At_toNat]
  rfl

theorem checkRtp_iff {ports : List U16} {pkt : List Byte} {par : Parsed} :
    checkRtp ports pkt par = true ↔ CarriesTransport 17 pkt par ∧ UdpLengthRight pkt par
      ∧ be16At pkt (par.tpOff + 2) ∈ ports := by
  rw [checkRtp, Bool.and_eq_true, checkUdp_iff, List.contains_iff_mem, and_assoc]

/-- Settles O15: the selector by the order of the registry, each check by its equivalence; the rest is what the
model writes. -/
theorem selectPriority : Obligations.SelectPriority := by
  intro enabled ports pkt par
  refine ⟨fun p => ?_, ?_, checkRtp_iff, checkUdp_iff, checkProto_iff, checkProto_iff, rfl, Parsed.plain_iff, rfl,
    rfl, rfl, rfl⟩
  · simp only [select, registry_find?_eq_some, Bool.and_eq_true]
  · simp only [select, List.find?_eq_none, Bool.and_eq_true, mem_registry, forall_true_left]

end Sys2Proof.Machine

/-!
PROOFS of the family 41_frontend.md, the context store: which slot a new context takes, and what it holds there.
-/
namespace Sys2Proof.Machine
open Sys2Proof

/-! ## The slot of a new context (41_frontend.md R159) -/

/-- The slot i is in use, last at t; every used slot was used at t or later, and those before i later. -/
structure IsOldest (slots : List (Option Ctx)) (i : Nat) (t : U64) : Prop where
  used : ∃ c : Ctx, slots[i]? = some (some c) ∧ c.latestUsed = t
  least : ∀ (j : Nat) (c : Ctx), slots[j]? = some (some c) →
    t.toNat ≤ c.latestUsed.toNat ∧ (t = c.latestUsed → i ≤ j)

/-- The oldest slot stays the oldest behind a slot that is unused or was used later. -/
theorem IsOldest.cons {slots : List (Option Ctx)} {i : Nat} {t : U64} (h : IsOldest slots i t) {v : Option Ctx}
    (hv : ∀ c : Ctx, v = some c → t.toNat < c.latestUsed.toNat) : IsOldest (v :: slots) (i + 1) t where
  used := h.used
  least j c hc := by
    cases j with
    | zero =>
      have hlt := hv c (Option.some.inj hc)
      exact ⟨hlt.le, fun he => absurd (he ▸ hlt) (Nat.lt_irrefl _)⟩
    | succ j =>
      obtain ⟨hle, hfirst⟩ := h.least j c hc
      exact ⟨hle, fun he => Nat.succ_le_succ (hfirst he)⟩

/-- A used slot is the oldest before slots that are unused or were used no earlier. -/
theorem IsOldest.head {slots : List (Option Ctx)} {c : Ctx}
    (h : ∀ (j : Nat) (d : Ctx), slots[j]? = some (some d) → c.latestUsed.toNat ≤ d.latestUsed.toNat) :
    IsOldest (some c :: slots) 0 c.latestUsed where
  used := ⟨c, rfl, rfl⟩
  least j d hd := by
    refine ⟨?_, fun _ => Nat.zero_le j⟩
    cases j with
    | zero => cases hd; exact Nat.le_refl _
    | succ j => exact h j d hd

theorem oldest_none {slots : List (Option Ctx)} (h : oldest slots = none) (j : Nat) (c : Ctx) :
    slots[j]? ≠ some (some c) := by
  induction slots generalizing j with
  | nil => exact nofun
  | cons v r ih =>
    cases v with
    | none =>
      cases j with
      | zero => exact nofun
      | succ j =>
        rw [oldest, Option.map_eq_none_iff] at h
        exact ih h j
    | some d =>
      rw [oldest] at h
      split at h
      · split at h <;> cases h
      · cases h

theorem oldest_isOldest {slots : List (Option Ctx)} {i : Nat} {t : U64} (h : oldest slots = some (i, t)) :
    IsOldest slots i t := by
  induction slots generalizing i t with
  | nil => cases h
  | cons v r ih =>
    cases v with
    | none =>
      rw [oldest, Option.map_eq_some_iff] at h
      obtain ⟨⟨j, u⟩, hj, he⟩ := h
      cases he
      exact (ih hj).cons fun _ hc => by cases hc
    | some c =>
      rw [oldest] at h
      cases hr : oldest r with
      | none =>
        rw [hr] at h
        cases h
        exact IsOldest.head fun j d hd => absurd hd (oldest_none hr j d)
      | some p =>
        have hp : IsOldest r p.1 p.2 := ih hr
        simp only [hr] at h
        by_cases hlt : p.2.toNat < c.latestUsed.toNat
        · rw [if_pos hlt] at h
          cases h
          exact hp.cons fun d hd => by cases hd; exact hlt
        · rw [if_neg hlt] at h
          cases h
          exact IsOldest.head fun j d hd => (Nat.le_of_not_lt hlt).trans (hp.least j d hd).1

/-- The slot of a new context: the lowest unused one, or the oldest when all are in use. -/
theorem State.allocate_cases (s : State) (hpos : 0 < s.ctx.length) :
    (s.allocate.2 = false ∧ s.slot s.allocate.1 = none ∧ ∀ d < s.allocate.1, s.slot d ≠ none)
    ∨ (s.allocate.2 = true ∧ (∀ d < s.ctx.length, s.slot d ≠ none)
      ∧ ∃ t, IsOldest s.ctx s.allocate.1 t) := by
  have hslot (d : Nat) (hd : d < s.ctx.length) : s.slot d = s.ctx[d] := by
    rw [State.slot, List.getElem?_eq_getElem hd]; rfl
  rw [State.allocate]
  cases hf : s.ctx.findIdx? (fun v => v.isNone) with
  | some i =>
    obtain ⟨hi, hnone, hused⟩ := List.findIdx?_eq_some_iff_getElem.mp hf
    refine .inl ⟨rfl, (hslot i hi).trans (Option.isNone_iff_eq_none.mp hnone), fun d hd => ?_⟩
    rw [hslot d (hd.trans hi)]
    exact mt Option.isNone_iff_eq_none.mpr (hused d hd)
  | none =>
    have hused (d : Nat) (hd : d < s.ctx.length) : s.slot d ≠ none := by
      rw [hslot d hd]
      exact mt Option.isNone_iff_eq_none.mpr
        (Bool.not_eq_true _ ▸ List.findIdx?_eq_none_iff.mp hf _ (List.getElem_mem hd))
    refine .inr ⟨rfl, hused, ?_⟩
    cases ho : oldest s.ctx with
    | some p => exact ⟨p.2, oldest_isOldest ho⟩
    | none =>
      obtain ⟨c, hc⟩ := Option.ne_none_iff_exists'.mp (hused 0 hpos)
      exact absurd (State.slot_getElem hc) (oldest_none ho 0 c)

/-- Settles O16: a free slot rules the second case of `State.allocate_cases` out, and the absence of one the
first. -/
theorem victimChoice : Obligations.VictimChoice := by
  intro s hpos
  have hlt := State.allocate_lt hpos
  rcases s.allocate_cases hpos with ⟨hfree, hnone, hlower⟩ | ⟨hfull, hused, t, hold⟩
  · exact ⟨hlt, fun _ => ⟨hfree, hnone, hlower⟩, fun h => absurd hnone (h _ hlt)⟩
  · refine ⟨hlt, fun ⟨d, hd, hn⟩ => absurd hn (hused d hd), fun _ => ⟨hfull, ?_⟩⟩
    obtain ⟨v, hv, rfl⟩ := hold.used
    exact ⟨v, by rw [State.slot, hv]; rfl, fun d w hw => hold.least d w (State.slot_getElem hw)⟩

/-! ## What it holds (41_frontend.md R158) -/

/-- Settles O17: `State.findOrCreate_none` says all that is written. -/
theorem createValues : Obligations.CreateValues := by
  intro s prof key par pkt t hpos hadm hfind u
  have hlt := State.allocate_lt hpos
  rw [show u = _ from State.findOrCreate_none hfind par pkt t]
  refine ⟨s.fresh prof key par pkt t, by rw [State.slot_set rfl, if_pos ⟨rfl, hlt⟩],
    rfl, rfl, rfl, rfl, rfl, rfl, rfl, rfl, rfl,
    fun hp => ?_, fun hp => ⟨_, Block.create_generic hadm hp par pkt s.rand16 s.draws, rfl,
      createHdrs_versions _ _ _, rfl, rfl, rfl, rfl, rfl, rfl, fun h hm x hx => ?_⟩,
    rfl, rfl, fun d hd => ?_, rfl, rfl, rfl, rfl, rfl⟩
  · subst hp; rfl
  · obtain ⟨hrnd, hnbo, hsid, hrc, hnc, hsc, hwin⟩ := createHdrs_mem hm hx
    exact ⟨hrnd, hnbo, hsid, hrc, hnc, hsc, congrArg Window.refs hwin⟩
  · rw [State.slot_set rfl, if_neg fun h => hd h.1.symm]

end Sys2Proof.Machine

/-!
PROOFS of the family 42_state_machine.md, change detection: what is observed of an IP-ID, and which fields of a
packet count as changed.
-/
namespace Sys2Proof.Machine
open Sys2Proof

/-! ## OBSERVE_IPID (42_state_machine.md R181, 40_primitives.md R127) -/

/-- The arms for a packet that is not the first of its context. -/
theorem observeIpId_later (x : Ip4Rec) (idNew : U16) :
    observeIpId x idNew false =
      if idNew = x.id then { rnd := false, nbo := x.nbo, sid := true }
      else if (idNew - x.id).toNat < 20 then { rnd := false, nbo := true, sid := false }
      else if (swab16 idNew - swab16 x.id).toNat < 20 then { rnd := false, nbo := false, sid := false }
      else { rnd := true, nbo := x.nbo, sid := false } := rfl

theorem ne_of_twenty_le_sub {a b : U16} (h : 20 ≤ (a - b).toNat) : a ≠ b := by
  rintro rfl
  rw [BitVec.sub_self] at h
  exact absurd h (by decide)

/-- Settles O18: arm by arm; the offset moves with the SN, and a swapped identification is swapped back. -/
theorem ipIdObservation : Obligations.IpIdObservation := by
  refine ⟨fun x idNew => ⟨rfl, fun he => ?_, fun hne hr => ?_, fun hr hs => ?_, fun hr hs => ?_⟩,
    fun id sn => ⟨?_, ?_⟩⟩
  · rw [observeIpId_later, if_pos he]
  · rw [observeIpId_later, if_neg hne, if_pos hr]
  · rw [observeIpId_later, if_neg (ne_of_twenty_le_sub hr), if_neg (Nat.not_lt.mpr hr), if_pos hs]
  · rw [observeIpId_later, if_neg (ne_of_twenty_le_sub hr), if_neg (Nat.not_lt.mpr hr),
      if_neg (Nat.not_lt.mpr hs)]
  · show id + 1 - (sn + 1) = id - sn
    bv_omega
  · show swab16 (swab16 id) - sn = id - sn
    rw [swab16_swab16]

/-! ## DETECT_CHANGES header by header (42_state_machine.md R182) -/

theorem flagCount_of_eq {old new : Bool} (h : new = old) (n : Nat) :
    flagCount old new n = min (n + 1) (2 ^ 32 - 1) := if_pos h

theorem flagCount_of_ne {old new : Bool} (h : new ≠ old) (n : Nat) : flagCount old new n = 0 := if_neg h

theorem detectHdr_hdr {x : CtxHdr} {v : Ip4Rec} (h : x.ip4 = some v) (first : Bool) (n : IpHdr) :
    (detectHdr first n x).hdr = { x with ip4 := some (v.observe (observeIpId v n.id first)) } := by
  simp only [detectHdr, h]

/-- Nothing has changed on the first packet of a context. -/
theorem detectHdr_first (n : IpHdr) (x : CtxHdr) :
    (detectHdr true n x).ch.any = false ∧ (detectHdr true n x).sidFlip = false := by
  rcases x with ⟨_, _, _, _ | v⟩ <;> simp [detectHdr, observeIpId, HdrChange.any]

theorem HdrChange.statics_le (c : HdrChange) : c.statics ≤ 1 := Bool.toNat_le c.pr

theorem HdrChange.dynamics_le (c : HdrChange) : c.dynamics ≤ 5 := by
  have h (b : Bool) : b.toNat ≤ 1 := Bool.toNat_le b
  have := h c.tos; have := h c.ttl; have := h c.df; have := h c.rnd; have := h c.nbo
  rw [HdrChange.dynamics]
  omega

/-! ## DETECT_CHANGES over the headers -/

theorem detectHdrs_eq_zipWith (first : Bool) (ns : List IpHdr) (xs : List CtxHdr) :
    detectHdrs first ns xs = List.zipWith (fun n x => detectHdr first n x) ns xs := by
  induction ns generalizing xs with
  | nil => rfl
  | cons n ns ih =>
    cases xs with
    | nil => rfl
    | cons x xs => rw [detectHdrs, ih, List.zipWith_cons_cons]

theorem detectHdrs_first {ns : List IpHdr} {xs : List CtxHdr} {d : HdrDetected}
    (h : d ∈ detectHdrs true ns xs) : d.ch.any = false ∧ d.sidFlip = false := by
  rw [detectHdrs_eq_zipWith, ← List.map_uncurry_zip_eq_zipWith, List.mem_map] at h
  obtain ⟨⟨n, x⟩, -, rfl⟩ := h
  exact detectHdr_first n x

/-- A sum over the detected headers is bounded header by header. -/
theorem sum_detectHdrs_le {first : Bool} {ns : List IpHdr} {xs : List CtxHdr} {f : HdrDetected → Nat} {k : Nat}
    (h : ∀ d, f d ≤ k) : ((detectHdrs first ns xs).map f).sum ≤ k * ns.length := by
  have hsum := List.sum_le_card_nsmul ((detectHdrs first ns xs).map f) k fun a ha => by
    obtain ⟨d, -, rfl⟩ := List.mem_map.mp ha
    exact h d
  rw [List.length_map, detectHdrs_length, smul_eq_mul, Nat.mul_comm] at hsum
  exact hsum.trans (Nat.mul_le_mul_left k (Nat.min_le_left _ _))

theorem Ctx.isFirst_eq (c : Ctx) : c.isFirst = decide (c.numSent = 0) := rfl

/-- On the first packet of a context nothing counts as changed. -/
theorem Scratch.detect_first {sc : Scratch} (h : sc.ctx.numSent = 0) (g : Generic) :
    (sc.detect g).sendStatic = 0 ∧ (sc.detect g).sendDynamic = 0
      ∧ (sc.detect g).sidFlip = false ∧ (sc.detect g).ckFlip = false := by
  have hf : sc.ctx.isFirst = true := by rw [Ctx.isFirst_eq, decide_eq_true h]
  simp only [Scratch.detect, hf]
  have hz (f : HdrChange → Nat) (hfz : ∀ c : HdrChange, c.any = false → f c = 0) :
      ((detectHdrs true sc.par.hdrs g.hdrs).map fun d => f d.ch).sum = 0 := by
    rw [List.sum_eq_zero_iff]
    intro a ha
    obtain ⟨d, hd, rfl⟩ := List.mem_map.mp ha
    exact hfz _ (detectHdrs_first hd).1
  refine ⟨hz _ fun c hc => (HdrChange.any_false hc).1, hz _ fun c hc => (HdrChange.any_false hc).2, ?_, ?_⟩
  · rw [List.any_eq_false]
    intro d hd
    rw [(detectHdrs_first hd).2]
    exact Bool.false_ne_true
  · simp

/-- Settles O19: one header by `detectHdr`, the packet by `detectHdrs_eq_zipWith`. -/
theorem changeDetection : Obligations.ChangeDetection := by
  refine ⟨fun first n x v hv => ?_, fun sc g h => sc.detect_first h g, fun sc g => ⟨?_, ?_⟩, fun n x => ?_,
    fun sc g => ?_⟩
  · exact ⟨_, detectHdr_hdr hv first n, rfl, fun h => flagCount_of_eq h _, fun h => flagCount_of_ne h _,
      fun h => flagCount_of_eq h _, fun h => flagCount_of_ne h _, fun h => flagCount_of_eq h _,
      fun h => flagCount_of_ne h _, rfl, rfl, rfl⟩
  · exact (sum_detectHdrs_le fun d => d.ch.statics_le).trans_eq (Nat.one_mul _)
  · exact sum_detectHdrs_le fun d => d.ch.dynamics_le
  · rcases x with ⟨tos, ttl, proto, _ | v⟩ <;> simp [detectHdr]
  · intro first es ck p
    have hes : detectHdrs sc.ctx.isFirst sc.par.hdrs g.hdrs = es := detectHdrs_eq_zipWith ..
    have hck : (udpChecksum sc.pkt sc.par != 0) = ck := by
      rw [bne, beq_eq_decide, ← decide_not]; rfl
    have hp : p = sc.detect g := rfl
    simp only [Scratch.detect, hes, hck] at hp
    rw [hp]
    refine ⟨rfl, rfl, List.any_eq_true, by rw [List.map_map]; rfl, rfl, fun hu => ?_, fun hu => ?_⟩
    · simp [Ctx.udpCk, hu, first, Ctx.isFirst_eq]
    · simp [Ctx.udpCk, hu]

end Sys2Proof.Machine

/-!
PROOFS of the family 42_state_machine.md, the state decision: its two predicates, the arm that DECIDE_STATE takes,
and the counters that it restarts.
-/
namespace Sys2Proof.Machine
open Sys2Proof

/-! ## The predicates (42_state_machine.md R184) -/

/-- A predicate of the IPv4 records, asked of every header. -/
theorem all_ip4_iff (hdrs : List CtxHdr) (p : Ip4Rec → Bool) :
    (hdrs.all fun h => match h.ip4 with | some x => p x | none => true) = true
      ↔ ∀ h ∈ hdrs, ∀ x, h.ip4 = some x → p x = true := by
  rw [List.all_eq_true]
  refine forall₂_congr fun h _ => ?_
  cases h.ip4 <;> simp

theorem Ip4Rec.converged_iff (x : Ip4Rec) :
    x.converged = true ↔ Config.oaRepetitions ≤ x.rndCount ∧ Config.oaRepetitions ≤ x.nboCount
      ∧ Config.oaRepetitions ≤ x.sidCount := by
  simp only [Ip4Rec.converged, Bool.and_eq_true, decide_eq_true_eq, and_assoc]

theorem flagsConverged_iff (g : Generic) :
    flagsConverged g = true ↔ ∀ h ∈ g.hdrs, ∀ x, h.ip4 = some x →
      Config.oaRepetitions ≤ x.rndCount ∧ Config.oaRepetitions ≤ x.nboCount
        ∧ Config.oaRepetitions ≤ x.sidCount := by
  simp only [← Ip4Rec.converged_iff]
  exact all_ip4_iff g.hdrs _

theorem Window.count_pos_iff (w : Window) : decide (0 < w.count) = true ↔ w.refs ≠ [] := by
  rw [decide_eq_true_eq, Window.count, List.length_pos_iff]

theorem windowsReady_iff (g : Generic) :
    windowsReady g = true ↔ g.winSn.refs ≠ [] ∧ ∀ h ∈ g.hdrs, ∀ x, h.ip4 = some x → x.winId.refs ≠ [] := by
  rw [windowsReady, Bool.and_eq_true, Window.count_pos_iff]
  simp only [← Window.count_pos_iff]
  exact and_congr_right' (all_ip4_iff g.hdrs _)

/-! ## The arms (42_state_machine.md R185) -/

/-- A change that a packet outside IR cannot carry. -/
def Scratch.StaticChange (sc : Scratch) : Prop :=
  0 < sc.sendStatic ∨ sc.sidFlip = true ∨ sc.ckFlip = true

/-- The causes that send any state to IR and restart its counters. -/
def ForcesIr (cfg : Cfg) (c : Ctx) (g : Generic) (sc : Scratch) : Prop :=
  c.forceIr = true ∨ sc.StaticChange ∨ (c.state ≠ .ir ∧ cfg.irTimeout.toNat ≤ g.goBackIr)

section
variable {cfg : Cfg} {c : Ctx} {g : Generic} {sc : Scratch}

theorem decideArm_forced (h : ForcesIr cfg c g sc) : decideArm cfg c g sc = (.ir, true) := by
  rw [decideArm]
  by_cases h1 : c.forceIr = true
  · exact if_pos h1
  by_cases h2 : sc.StaticChange
  · exact (if_neg h1).trans (if_pos h2)
  · exact (if_neg h1).trans ((if_neg h2).trans (if_pos ((h.resolve_left h1).resolve_left h2)))

/-- Without a cause that forces IR the first three arms are false. -/
theorem decideArm_unforced (h : ¬ForcesIr cfg c g sc) :
    decideArm cfg c g sc =
      if c.state = .so ∧ cfg.foTimeout.toNat ≤ g.goBackFo then (.fo, false)
      else if c.state = .so ∧ 0 < sc.sendDynamic then (.fo, false)
      else if c.state = .ir ∧ 3 ≤ g.irCount ∧ flagsConverged g = true then (.fo, false)
      else if c.state = .fo ∧ 3 ≤ g.foCount ∧ flagsConverged g = true ∧ sc.sendStatic = 0
        ∧ sc.sendDynamic = 0 ∧ windowsReady g = true then (.so, false)
      else (c.state, false) := by
  obtain ⟨h1, h2, h3⟩ : ¬c.forceIr = true ∧ ¬sc.StaticChange
      ∧ ¬(c.state ≠ .ir ∧ cfg.irTimeout.toNat ≤ g.goBackIr) := by
    rwa [ForcesIr, not_or, not_or] at h
  exact (if_neg h1).trans ((if_neg h2).trans (if_neg h3))

theorem decideArm_ir (h : ¬ForcesIr cfg c g sc) (hs : c.state = .ir) :
    decideArm cfg c g sc = (if 3 ≤ g.irCount ∧ flagsConverged g = true then .fo else .ir, false) := by
  rw [decideArm_unforced h, hs]
  by_cases hc : 3 ≤ g.irCount ∧ flagsConverged g = true <;> simp [hc]

theorem decideArm_fo (h : ¬ForcesIr cfg c g sc) (hs : c.state = .fo) :
    decideArm cfg c g sc =
      (if 3 ≤ g.foCount ∧ flagsConverged g = true ∧ sc.sendDynamic = 0 ∧ windowsReady g = true then .so
        else .fo, false) := by
  have h0 : sc.sendStatic = 0 := by
    by_contra hn
    exact h (.inr (.inl (.inl (Nat.pos_of_ne_zero hn))))
  rw [decideArm_unforced h, hs]
  by_cases hc : 3 ≤ g.foCount ∧ flagsConverged g = true ∧ sc.sendDynamic = 0 ∧ windowsReady g = true <;>
    simp [hc, h0]

theorem decideArm_so (h : ¬ForcesIr cfg c g sc) (hs : c.state = .so) :
    decideArm cfg c g sc =
      (if g.goBackFo < cfg.foTimeout.toNat ∧ sc.sendDynamic = 0 then .so else .fo, false) := by
  rw [decideArm_unforced h, hs]
  by_cases h1 : cfg.foTimeout.toNat ≤ g.goBackFo
  · simp [h1]
  by_cases h2 : sc.sendDynamic = 0
  · simp [h1, h2]
  · simp [h1, h2, Nat.pos_of_ne_zero h2]

/-- Only a cause that forces IR restarts the counters without a change of the state. -/
theorem decideArm_restarts_iff : (decideArm cfg c g sc).2 = true ↔ ForcesIr cfg c g sc := by
  by_cases h : ForcesIr cfg c g sc
  · simp [decideArm_forced h, h]
  · cases hs : c.state with
    | ir => simp [decideArm_ir h hs, h]
    | fo => simp [decideArm_fo h hs, h]
    | so => simp [decideArm_so h hs, h]

theorem decideArm_eq_ir_iff : (decideArm cfg c g sc).1 = .ir ↔
    ForcesIr cfg c g sc ∨ (c.state = .ir ∧ ¬(3 ≤ g.irCount ∧ flagsConverged g = true)) := by
  by_cases h : ForcesIr cfg c g sc
  · simp only [decideArm_forced h, h, true_or]
  · cases hs : c.state with
    | ir =>
      rw [decideArm_ir h hs]
      by_cases hc : 3 ≤ g.irCount ∧ flagsConverged g = true <;> simp [hc, h]
    | fo =>
      rw [decideArm_fo h hs]
      split <;> simp [h]
    | so =>
      rw [decideArm_so h hs]
      split <;> simp [h]

theorem decideArm_eq_so_iff : (decideArm cfg c g sc).1 = .so ↔ ¬ForcesIr cfg c g sc
    ∧ ((c.state = .so ∧ g.goBackFo < cfg.foTimeout.toNat ∧ sc.sendDynamic = 0)
      ∨ (c.state = .fo ∧ 3 ≤ g.foCount ∧ flagsConverged g = true ∧ sc.sendDynamic = 0
        ∧ windowsReady g = true)) := by
  by_cases h : ForcesIr cfg c g sc
  · simp [decideArm_forced h, h]
  · cases hs : c.state with
    | ir =>
      rw [decideArm_ir h hs]
      split <;> simp
    | fo =>
      rw [decideArm_fo h hs]
      simp [h]
    | so =>
      rw [decideArm_so h hs]
      simp [h]

/-- A packet built outside IR has no static change. -/
theorem sendStatic_of_decideArm_ne_ir (h : (decideArm cfg c g sc).1 ≠ .ir) : sc.sendStatic = 0 := by
  by_contra hn
  exact h (decideArm_eq_ir_iff.mpr (.inl (.inr (.inl (.inl (Nat.pos_of_ne_zero hn))))))

end

/-! ## The counters (42_state_machine.md R185, R187) -/

theorem restartCounters_pos {st next : CtxState} {reset : Bool} (h : next ≠ st ∨ reset = true) (g : Generic) :
    restartCounters st next reset g = { g with
      irCount := 0, foCount := 0, goBackFo := 0, goBackIr := if next = .ir then 0 else g.goBackIr } := if_pos h

theorem restartCounters_neg {st next : CtxState} {reset : Bool} (h : ¬(next ≠ st ∨ reset = true)) (g : Generic) :
    restartCounters st next reset g = g := if_neg h

/-- Settles O20: the arms by `decideArm_restarts_iff`, `decideArm_eq_ir_iff` and `decideArm_eq_so_iff`. -/
theorem stateDecision : Obligations.StateDecision := by
  refine ⟨fun g => ⟨flagsConverged_iff g, windowsReady_iff g⟩, fun cfg c g sc => ⟨?_, decideArm_restarts_iff, ?_,
    sendStatic_of_decideArm_ne_ir⟩, fun cfg sc g => ?_⟩
  · refine decideArm_eq_ir_iff.trans ?_
    rw [ForcesIr, or_assoc, or_assoc]
    rfl
  · refine decideArm_eq_so_iff.trans ?_
    rw [ForcesIr, not_or, not_or, Bool.not_eq_true, and_assoc, and_assoc]
    refine and_congr_right' (and_congr_right' ?_)
    -- an IR refresh is due outside IR alone, and SO is not reached from IR
    cases hs : c.state <;> simp
  · intro next restarts
    by_cases hr : restarts
    · refine ⟨0, 0, 0, if next = .ir then 0 else g.goBackIr, ?_, fun _ => ⟨rfl, rfl, rfl⟩,
        fun h => absurd hr h, fun h => if_pos h.2, fun h => if_neg fun hn => h ⟨hr, hn⟩⟩
      rw [← restartCounters_pos hr]
      rfl
    · refine ⟨g.irCount, g.foCount, g.goBackFo, g.goBackIr, ?_, fun h => absurd h hr,
        fun _ => ⟨rfl, rfl, rfl⟩, fun h => absurd h.1 hr, fun _ => rfl⟩
      rw [Scratch.decideState, restartCounters_neg hr]

end Sys2Proof.Machine

/-!
PROOFS of the family 42_state_machine.md, the packet: its type and extension, that each carries the bits it needs,
and the bit counts of a prepared packet.
-/
namespace Sys2Proof.Machine
open Sys2Proof

/-! ## The packet type (43_packet_type.md R203 to R205) -/

theorem sidUnconverged_iff (g : Generic) :
    sidUnconverged g = true ↔ ∃ h ∈ g.hdrs, ∃ x, h.ip4 = some x ∧ x.sidCount < 3 := by
  rw [sidUnconverged, List.any_eq_true]
  refine exists_congr fun h => and_congr_right' ?_
  cases h.ip4 with
  | none => simp
  | some x => simp only [decide_eq_true_eq, Option.some.injEq, exists_eq_left']; rfl

theorem CtxHdr.seqIpId_iff (h : CtxHdr) :
    h.seqIpId = true ↔ ∃ x, h.ip4 = some x ∧ x.rnd = false ∧ x.sid = false := by
  rw [CtxHdr.seqIpId]
  cases h.ip4 <;> simp

theorem outerSeq_iff (g : Generic) :
    outerSeq g = true ↔ ∃ h x, g.hdrs.head? = some h ∧ h.ip4 = some x ∧ x.rnd = false ∧ x.sid = false := by
  rw [outerSeq]
  cases g.hdrs.head? with
  | none => simp
  | some h => simp [CtxHdr.seqIpId_iff]

theorem Scratch.innerOk_iff (sc : Scratch) :
    sc.innerOk = true ↔ sc.par.hdrs.length = 1 ∨ sc.kId 1 = 0 := by
  rw [Scratch.innerOk, Bool.or_eq_true, decide_eq_true_eq, decide_eq_true_eq]
  rfl

/-- More dynamic changes than one extension 3 is worth (R204). -/
def Scratch.ManyChanges (sc : Scratch) : Prop :=
  (sc.par.hdrs.length = 1 ∧ 2 < sc.sendDynamic) ∨ (sc.par.hdrs.length = 2 ∧ 4 < sc.sendDynamic)

theorem Scratch.decideFo_uor2 {sc : Scratch} {g : Generic} (hu : ¬sidUnconverged g = true) (hk : sc.kSn ≤ 13)
    (hm : 0 < sc.sendStatic ∨ ¬sc.ManyChanges) : sc.decideFo g = .uor2 := by
  rw [Scratch.decideFo, if_neg hu]
  by_cases hs : 0 < sc.sendStatic ∧ sc.kSn ≤ 13
  · exact if_pos hs
  · have hm : ¬sc.ManyChanges := hm.resolve_left fun h => hs ⟨h, hk⟩
    exact (if_neg hs).trans ((if_neg hm).trans (if_pos hk))

theorem Scratch.decideFo_irDyn {sc : Scratch} {g : Generic}
    (h : ¬(¬sidUnconverged g = true ∧ sc.kSn ≤ 13 ∧ (0 < sc.sendStatic ∨ ¬sc.ManyChanges))) :
    sc.decideFo g = .irDyn := by
  by_cases hu : sidUnconverged g = true
  · exact if_pos hu
  rw [Scratch.decideFo, if_neg hu]
  by_cases hk : sc.kSn ≤ 13
  · obtain ⟨hs, hm⟩ : ¬0 < sc.sendStatic ∧ ¬¬sc.ManyChanges := not_or.mp fun hm => h ⟨hu, hk, hm⟩
    exact (if_neg fun hc => hs hc.1).trans (if_pos (not_not.mp hm))
  · rw [if_neg fun hc => hk hc.2, if_neg hk, ite_self]

/-- The fields of a packet type hold the bits of the SN and the IP-IDs (43_packet_type.md R210). -/
def Scratch.TypeFits (sc : Scratch) : PacketType → Prop
  | .uo0 => sc.kSn ≤ 4 ∧ sc.kId 0 = 0 ∧ (sc.par.nhdr ≠ 1 → sc.kId 1 = 0)
  | .uo1 => sc.kSn ≤ 5 ∧ sc.kId 0 ≤ 6 ∧ (sc.par.nhdr ≠ 1 → sc.kId 1 = 0)
  | .uor2 => sc.kSn ≤ 13
  | .ir | .irDyn | .normal => True

theorem Scratch.decideFo_fits (sc : Scratch) (g : Generic) : sc.TypeFits (sc.decideFo g) := by
  rw [Scratch.decideFo]
  split
  · trivial
  split
  · rename_i h
    exact h.2
  split
  · trivial
  split
  · assumption
  · trivial

theorem Scratch.decideSo_fits (sc : Scratch) (g : Generic) : sc.TypeFits (sc.decideSo g) := by
  have inner (h : sc.innerOk = true) : sc.par.nhdr ≠ 1 → sc.kId 1 = 0 := (sc.innerOk_iff.mp h).resolve_left
  rw [Scratch.decideSo]
  split
  · rename_i h
    exact ⟨h.1, h.2.1, inner h.2.2⟩
  split
  · rename_i h
    exact ⟨h.1, h.2.2.1, inner h.2.2.2⟩
  split
  · assumption
  · trivial

theorem Scratch.decideType_fits (sc : Scratch) (g : Generic) : sc.TypeFits (sc.decideType g) := by
  rw [Scratch.decideType]
  split
  · trivial
  · exact sc.decideFo_fits g
  · exact sc.decideSo_fits g

/-! ## The extension (43_packet_type.md R208, R209) -/

/-- The fields of an extension hold the bits of the SN and the IP-IDs (43_packet_type.md R210). -/
def Scratch.ExtFits (sc : Scratch) : ExtKind → Prop
  | .none => sc.kSn ≤ 5 ∧ sc.id1 = 0 ∧ sc.id2 = 0
  | .ext0 => sc.kSn ≤ 8 ∧ sc.id1 ≤ 3 ∧ sc.id2 = 0
  | .ext1 => sc.kSn ≤ 8 ∧ sc.id1 ≤ 11 ∧ sc.id2 = 0
  | .ext2 => sc.par.nhdr = 2 ∧ sc.kSn ≤ 8 ∧ sc.id1 ≤ 8 ∧ sc.id2 ≤ 11
  | .ext3 => True

theorem Scratch.decideExt_fits (sc : Scratch) : sc.ExtFits sc.decideExt := by
  rw [Scratch.decideExt]
  split
  · rename_i h
    exact h.2
  split
  · rename_i h
    exact h.2
  split
  · rename_i h
    exact h.2
  split
  · rename_i h
    exact h.2
  · trivial

/-- A counted change is carried by extension 3 alone. -/
theorem Scratch.decideExt_of_changed {sc : Scratch} (h : 0 < sc.sendStatic ∨ 0 < sc.sendDynamic) :
    sc.decideExt = .ext3 := by
  simp only [Scratch.decideExt, gt_iff_lt, h, not_true_eq_false, false_and, if_false]

/-! The secondary header is header 0 of two, the primary one the last (00_scope.md R17). -/

section
variable {sc : Scratch}

theorem Scratch.hasSec_iff (sc : Scratch) : sc.hasSec = true ↔ sc.par.hdrs.length = 2 := decide_eq_true_iff

theorem Scratch.prim_eq (h : sc.par.hdrs.length = 1 ∨ sc.par.hdrs.length = 2) :
    sc.prim = if sc.par.hdrs.length = 2 then 1 else 0 := by
  rw [Scratch.prim, Parsed.nhdr]
  rcases h with h | h <;> simp [h]

theorem Scratch.id1_eq (h : sc.par.hdrs.length = 1 ∨ sc.par.hdrs.length = 2) :
    sc.id1 = if sc.par.hdrs.length = 2 then sc.kId 1 else sc.kId 0 := by
  rw [Scratch.id1, Scratch.prim_eq h, apply_ite sc.kId]

theorem Scratch.id2_eq (sc : Scratch) : sc.id2 = if sc.par.hdrs.length = 2 then sc.kId 0 else 0 := by
  simp only [Scratch.id2, Scratch.hasSec_iff]

theorem HdrChange.any_iff (c : HdrChange) : c.any = true ↔ c.tos = true ∨ c.ttl = true ∨ c.df = true
    ∨ c.pr = true ∨ c.nbo = true ∨ c.rnd = true := by
  simp only [HdrChange.any, Bool.or_eq_true, or_assoc]

theorem Scratch.ext3Ip_iff (h : sc.par.hdrs.length = 1 ∨ sc.par.hdrs.length = 2) :
    sc.ext3Ip = true ↔ if sc.par.hdrs.length = 2 then (sc.changes 1).any = true
      else (sc.changes 0).any = true := by
  rw [Scratch.ext3Ip, Scratch.prim_eq h]
  split <;> rfl

theorem Scratch.ext3I2_iff (sc : Scratch) : sc.ext3I2 = true ↔ sc.par.hdrs.length = 2 ∧ 0 < sc.id2 := by
  rw [Scratch.ext3I2, Bool.and_eq_true, Scratch.hasSec_iff, decide_eq_true_eq]

theorem Scratch.id2_of_ext3I2_false (h : sc.ext3I2 = false) : sc.id2 = 0 := by
  by_contra hne
  have htwo : sc.par.hdrs.length = 2 := by
    by_contra hn
    exact hne (sc.id2_eq.trans (if_neg hn))
  rw [sc.ext3I2_iff.mpr ⟨htwo, Nat.pos_of_ne_zero hne⟩] at h
  cases h

theorem Scratch.ext3Ip2_iff (sc : Scratch) : sc.ext3Ip2 = true
    ↔ sc.par.hdrs.length = 2 ∧ ((sc.changes 0).any = true ∨ 0 < sc.id2) := by
  rw [Scratch.ext3Ip2, Bool.and_eq_true, Bool.or_eq_true, Scratch.hasSec_iff, Scratch.ext3I2_iff]
  exact and_congr_right fun h => by rw [and_iff_right h]

end

/-! ## The bit counts of a prepared packet (42_state_machine.md R180, 43_packet_type.md R200) -/

theorem idBits_v4 {x : CtxHdr} {v : Ip4Rec} (hx : x.ip4 = some v) (sn : U16) (n : IpHdr) (h : HdrScratch) :
    idBits sn n x h = { h with
      off := offsetIpId n.id v.nbo sn
      kId := if (v.rnd || v.sid) = true then 0 else v.winId.kNeeded (offsetIpId n.id v.nbo sn) 0 } := by
  simp only [idBits, hx]
  rfl

theorem idBits_v6 {x : CtxHdr} (hx : x.ip4 = none) (sn : U16) (n : IpHdr) (h : HdrScratch) :
    idBits sn n x h = { h with off := 0, kId := 0 } := by
  simp only [idBits, hx]

theorem idBitsAll_getElem? (sn : U16) {ns : List IpHdr} {xs : List CtxHdr} {hs : List HdrScratch} {i : Nat}
    {n : IpHdr} {x : CtxHdr} {h : HdrScratch} (hn : ns[i]? = some n) (hx : xs[i]? = some x)
    (hh : hs[i]? = some h) : (idBitsAll sn ns xs hs)[i]? = some (idBits sn n x h) := by
  induction i generalizing ns xs hs with
  | zero =>
    obtain ⟨ns, rfl⟩ := List.head?_eq_some_iff.mp (List.head?_eq_getElem? ▸ hn)
    obtain ⟨xs, rfl⟩ := List.head?_eq_some_iff.mp (List.head?_eq_getElem? ▸ hx)
    obtain ⟨hs, rfl⟩ := List.head?_eq_some_iff.mp (List.head?_eq_getElem? ▸ hh)
    rfl
  | succ i ih =>
    cases ns with
    | nil => cases hn
    | cons _ ns =>
      cases xs with
      | nil => cases hx
      | cons _ xs =>
        cases hs with
        | nil => cases hh
        | cons _ hs => exact ih hn hx hh

theorem idBitsAll_changes (sn : U16) {ns : List IpHdr} {xs : List CtxHdr} {hs : List HdrScratch}
    (hn : hs.length ≤ ns.length) (hx : hs.length ≤ xs.length) :
    (idBitsAll sn ns xs hs).map (fun v => v.ch) = hs.map fun v => v.ch := by
  induction hs generalizing ns xs with
  | nil => cases ns <;> cases xs <;> rfl
  | cons h hs ih =>
    cases ns with
    | nil => cases hn
    | cons n ns =>
      cases xs with
      | nil => cases hx
      | cons x xs =>
        rw [idBitsAll, List.map_cons, List.map_cons, idBits_ch,
          ih (Nat.le_of_succ_le_succ hn) (Nat.le_of_succ_le_succ hx)]

section
variable {cfg : Cfg} {sc p : Scratch} {g : Generic} {d : CtxState × Bool}

/-- The bit counts of a header of the prepared packet are those of its detected record. -/
theorem Prepared.hs_getElem? (P : Prepared cfg sc g d p) {i : Nat} {n : IpHdr} {x : CtxHdr}
    (hn : sc.par.hdrs[i]? = some n) (hx : (sc.detected g).hdrs[i]? = some x) :
    ∃ ch, p.hs[i]? = some (idBits (g.sn + 1) n x ⟨ch, 0, 0⟩) := by
  obtain ⟨e, he, -⟩ := Option.map_eq_some_iff.mp (List.getElem?_map.symm.trans hx)
  refine ⟨e.ch, ?_⟩
  rw [P.hs]
  exact idBitsAll_getElem? _ hn hx (List.getElem?_map.trans (congrArg _ he))

theorem Prepared.changes (P : Prepared cfg sc g d p) :
    p.hs.map (fun v => v.ch) = (sc.detect g).hs.map fun v => v.ch := by
  have hlen := detectHdrs_length sc.ctx.isFirst sc.par.hdrs g.hdrs
  rw [P.hs]
  refine idBitsAll_changes _ ?_ ?_
  · rw [List.length_map, hlen]
    exact Nat.min_le_left _ _
  · rw [Scratch.detected, List.length_map, List.length_map]

end

/-- The offset IP-IDs and their bit counts in a prepared packet. -/
theorem Prepared.offsets {cfg : Cfg} {sc p : Scratch} {g : Generic} {d : CtxState × Bool}
    (P : Prepared cfg sc g d p) {i : Nat} {n : IpHdr} {x : CtxHdr} (hn : sc.par.hdrs[i]? = some n)
    (hx : (sc.detected g).hdrs[i]? = some x) :
    (x.ip4 = none → p.off i = 0 ∧ p.kId i = 0)
    ∧ ∀ v, x.ip4 = some v → p.off i = offsetIpId n.id v.nbo (g.sn + 1)
      ∧ (v.rnd = true ∨ v.sid = true → p.kId i = 0)
      ∧ (v.rnd = false → v.sid = false → p.kId i = v.winId.kNeeded (p.off i) 0) := by
  obtain ⟨ch, hi⟩ := P.hs_getElem? hn hx
  rw [Scratch.off, Scratch.kId, hi]
  refine ⟨fun h6 => ?_, fun v h4 => ?_⟩
  · rw [idBits_v6 h6]
    exact ⟨rfl, rfl⟩
  · rw [idBits_v4 h4]
    refine ⟨rfl, fun h => if_pos ?_, fun hr hs => if_neg ?_⟩
    · rwa [Bool.or_eq_true]
    · rw [hr, hs]
      exact Bool.false_ne_true

/-- Settles O21: the lists arm by arm, the bits by `Scratch.decideType_fits` and `Scratch.decideExt_fits`, the
prepared packet by `Scratch.prepareGeneric_prepared`. -/
theorem enoughBits : Obligations.EnoughBits := by
  refine ⟨fun sc g => ?_, fun sc h => ?_, fun sc g => ?_, fun cfg sc g => ?_⟩
  · simp only [← sidUnconverged_iff, ← outerSeq_iff, ← Scratch.innerOk_iff, Scratch.decideType]
    refine ⟨fun hs => by rw [hs], fun hs => ?_, fun hs => ?_⟩
    · rw [hs]
      exact ⟨fun h => Scratch.decideFo_uor2 h.1 h.2.1 h.2.2, Scratch.decideFo_irDyn⟩
    · rw [hs]
      exact ⟨fun h => if_pos h, fun h => (if_neg h.1).trans (if_pos h.2),
        fun h => (if_neg h.1).trans ((if_neg h.2.1).trans (if_pos h.2.2)),
        fun h => (if_neg h.1).trans ((if_neg h.2.1).trans (if_neg h.2.2))⟩
  · simp only [← Scratch.id1_eq h, ← Scratch.id2_eq, ← HdrChange.any_iff]
    exact ⟨fun h => if_pos h, fun h => (if_neg h.1).trans (if_pos h.2),
      fun h => (if_neg h.1).trans ((if_neg h.2.1).trans (if_pos h.2.2)),
      fun h => (if_neg h.1).trans ((if_neg h.2.1).trans ((if_neg h.2.2.1).trans (if_pos h.2.2.2))),
      fun h => (if_neg h.1).trans ((if_neg h.2.1).trans ((if_neg h.2.2.1).trans (if_neg h.2.2.2))),
      decide_eq_true_iff, decide_eq_true_iff, Scratch.ext3Ip_iff h, sc.ext3I2_iff, sc.ext3Ip2_iff⟩
  · have ht {k : PacketType} (h : sc.decideType g = k) : sc.TypeFits k := h ▸ sc.decideType_fits g
    have he {k : ExtKind} (h : sc.decideExt = k) : sc.ExtFits k := h ▸ sc.decideExt_fits
    exact ⟨fun h => ht h, fun h => ht h, fun h => ht h, fun h => he h, fun h => he h, fun h => he h,
      fun h => he h, fun h => Nat.le_of_not_lt (of_decide_eq_false h),
      fun h => Nat.eq_zero_of_not_pos (of_decide_eq_false h), Scratch.id2_of_ext3I2_false,
      Scratch.decideExt_of_changed⟩
  · obtain ⟨d, P⟩ := sc.prepareGeneric_prepared cfg g
    obtain ⟨-, hhdrs, -, -⟩ := restartCounters_fields sc.ctx.state d.1 d.2 (sc.detected g)
    refine ⟨sc.detected g, restartCounters sc.ctx.state d.1 d.2 (sc.detected g), rfl, rfl, ?_, P.snNew,
      P.sendStatic, P.sendDynamic, P.pkt, P.par, P.asm, P.changes, P.kSn, fun i n x hn hx => ?_, P.ptype,
      fun h => P.ext.trans (if_pos h), fun h => P.ext.trans (if_neg h)⟩
    · rw [P.ctx]
    · exact P.offsets hn (hhdrs ▸ hx)

end Sys2Proof.Machine

/-!
PROOFS of the family 42_state_machine.md, UPDATE_CONTEXT: the block and the header records that a committed
COMPRESS leaves in its context.
-/
namespace Sys2Proof.Machine
open Sys2Proof

/-! ## The counters of the block (42_state_machine.md R185, R188) -/

/-- The block that UPDATE_CONTEXT leaves: of the packet in sc, prepared as p with the decision d. -/
def Scratch.after (cfg : Cfg) (sc p : Scratch) (g : Generic) (d : CtxState × Bool) : Generic :=
  countPacket d.1 { restartCounters sc.ctx.state d.1 d.2 (sc.detected g) with
    sn := g.sn + 1
    winSn := g.winSn.add cfg.wlsbWidth.toNat (g.sn + 1)
    hdrs := updateHdrs cfg.wlsbWidth.toNat sc.par.hdrs p.hs (sc.detected g).hdrs }

section
variable {cfg : Cfg} {sc p : Scratch} {g : Generic} {d : CtxState × Bool}

/-- In IR the counters have restarted, or the context was in IR before and nothing forced it there. -/
theorem Prepared.restarted_ir (P : Prepared cfg sc g d p) (h : d.1 = .ir) :
    (∃ b : Generic, restartCounters sc.ctx.state d.1 d.2 (sc.detected g)
      = { b with irCount := 0, foCount := 0, goBackFo := 0, goBackIr := 0 })
    ∨ (sc.ctx.state = .ir ∧ sc.ctx.forceIr = false
      ∧ restartCounters sc.ctx.state d.1 d.2 (sc.detected g) = sc.detected g) := by
  by_cases hr : d.1 ≠ sc.ctx.state ∨ d.2 = true
  · rw [restartCounters_pos hr, if_pos h]
    exact .inl ⟨_, rfl⟩
  · obtain ⟨hst, hforce⟩ := not_or.mp hr
    rw [P.decision, decideArm_restarts_iff] at hforce
    rw [restartCounters_neg hr]
    exact .inr ⟨(not_not.mp hst).symm.trans h, Bool.eq_false_iff.mpr (mt Or.inl hforce), rfl⟩

/-- Outside IR the counters go on while the state stays. -/
theorem Prepared.restarted_stay (P : Prepared cfg sc g d p) (h : d.1 ≠ .ir) (hs : sc.ctx.state = d.1) :
    restartCounters sc.ctx.state d.1 d.2 (sc.detected g) = sc.detected g := by
  refine restartCounters_neg (not_or.mpr ⟨fun hne => hne hs.symm, fun hr => h ?_⟩) _
  rw [P.decision] at hr ⊢
  exact decideArm_eq_ir_iff.mpr (.inl (decideArm_restarts_iff.mp hr))

/-- Outside IR a change of state restarts every counter but `go_back_ir_count`. -/
theorem restarted_move (h : d.1 ≠ .ir) (hs : sc.ctx.state ≠ d.1) :
    restartCounters sc.ctx.state d.1 d.2 (sc.detected g)
      = { sc.detected g with irCount := 0, foCount := 0, goBackFo := 0 } := by
  rw [restartCounters_pos (.inl hs.symm), if_neg h]

theorem Prepared.after_ir (P : Prepared cfg sc g d p) (h : d.1 = .ir) :
    let b := sc.after cfg p g d
    (b.irCount = 1 ∧ b.foCount = 0 ∧ b.goBackFo = 0 ∧ b.goBackIr = 0)
    ∨ (sc.ctx.state = .ir ∧ sc.ctx.forceIr = false ∧ b.irCount = min (g.irCount + 1) (2 ^ 32 - 1)
      ∧ b.foCount = g.foCount ∧ b.goBackFo = g.goBackFo ∧ b.goBackIr = g.goBackIr) := by
  dsimp only [Scratch.after]
  rcases P.restarted_ir h with ⟨b, e⟩ | ⟨hs, hf, e⟩
  · rw [e, h]
    exact .inl ⟨rfl, rfl, rfl, rfl⟩
  · rw [e, h]
    exact .inr ⟨hs, hf, rfl, rfl, rfl, rfl⟩

theorem Prepared.after_fo (P : Prepared cfg sc g d p) (h : d.1 = .fo) :
    let b := sc.after cfg p g d
    b.goBackIr = min (g.goBackIr + 1) (2 ^ 32 - 1)
    ∧ (sc.ctx.state = .fo → b.foCount = min (g.foCount + 1) (2 ^ 32 - 1) ∧ b.irCount = g.irCount
      ∧ b.goBackFo = g.goBackFo)
    ∧ (sc.ctx.state ≠ .fo → b.foCount = 1 ∧ b.irCount = 0 ∧ b.goBackFo = 0) := by
  have hir : d.1 ≠ .ir := by rw [h]; decide
  dsimp only [Scratch.after]
  by_cases hs : sc.ctx.state = .fo
  · rw [P.restarted_stay hir (hs.trans h.symm), h]
    exact ⟨rfl, fun _ => ⟨rfl, rfl, rfl⟩, absurd hs⟩
  · rw [restarted_move hir (h ▸ hs), h]
    exact ⟨rfl, fun h => absurd h hs, fun _ => ⟨rfl, rfl, rfl⟩⟩

theorem Prepared.after_so (P : Prepared cfg sc g d p) (h : d.1 = .so) :
    let b := sc.after cfg p g d
    b.goBackIr = min (g.goBackIr + 1) (2 ^ 32 - 1)
    ∧ (sc.ctx.state = .so → b.goBackFo = min (g.goBackFo + 1) (2 ^ 32 - 1) ∧ b.irCount = g.irCount
      ∧ b.foCount = g.foCount)
    ∧ (sc.ctx.state ≠ .so → b.goBackFo = 1 ∧ b.irCount = 0 ∧ b.foCount = 0) := by
  have hir : d.1 ≠ .ir := by rw [h]; decide
  dsimp only [Scratch.after]
  by_cases hs : sc.ctx.state = .so
  · rw [P.restarted_stay hir (hs.trans h.symm), h]
    exact ⟨rfl, fun _ => ⟨rfl, rfl, rfl⟩, absurd hs⟩
  · rw [restarted_move hir (h ▸ hs), h]
    exact ⟨rfl, fun h => absurd h hs, fun _ => ⟨rfl, rfl, rfl⟩⟩

theorem Scratch.after_fields (cfg : Cfg) (sc p : Scratch) (g : Generic) (d : CtxState × Bool) :
    (sc.after cfg p g d).sn = g.sn + 1
      ∧ (sc.after cfg p g d).winSn = g.winSn.add cfg.wlsbWidth.toNat (g.sn + 1)
      ∧ (sc.after cfg p g d).hdrs
        = updateHdrs cfg.wlsbWidth.toNat sc.par.hdrs p.hs (sc.detected g).hdrs :=
  countPacket_fields _ _

end

/-! ## The header records (42_state_machine.md R188) -/

theorem updateHdrs_getElem? {width : Nat} {ns : List IpHdr} {hs : List HdrScratch} {xs : List CtxHdr} {i : Nat}
    {n : IpHdr} {y : CtxHdr} (hn : ns[i]? = some n) (hy : (updateHdrs width ns hs xs)[i]? = some y) :
    ∃ h x, hs[i]? = some h ∧ xs[i]? = some x ∧ y = x.update width n h.off := by
  induction ns generalizing hs xs i with
  | nil => cases hn
  | cons a ns ih =>
    cases hs with
    | nil => cases hy
    | cons h hs =>
      cases xs with
      | nil => cases hy
      | cons x xs =>
        cases i with
        | zero =>
          cases hn
          cases hy
          exact ⟨h, x, rfl, rfl, rfl⟩
        | succ i => exact ih (i := i) hn hy

theorem Scratch.detected_getElem? {sc : Scratch} {g : Generic} {i : Nat} {n : IpHdr} {x : CtxHdr}
    (hn : sc.par.hdrs[i]? = some n) (hx : (sc.detected g).hdrs[i]? = some x) :
    ∃ y, g.hdrs[i]? = some y ∧ x = (detectHdr sc.ctx.isFirst n y).hdr := by
  rw [Scratch.detected, detectHdrs_eq_zipWith, List.getElem?_map, List.getElem?_zipWith, hn] at hx
  cases hy : g.hdrs[i]? with
  | none =>
    rw [hy] at hx
    cases hx
  | some y =>
    rw [hy] at hx
    cases hx
    exact ⟨y, rfl, rfl⟩

/-- What UPDATE_CONTEXT writes to the record x of the header n: y. -/
structure CtxHdr.Updated (width : Nat) (sn : U16) (n : IpHdr) (x y : CtxHdr) : Prop where
  tos : y.tos = n.tos
  ttl : y.ttl = n.ttl
  proto : y.proto = n.proto
  ip4 : ∀ a, y.ip4 = some a → a.df = n.df ∧ a.id = n.id
    ∧ ∃ b, x.ip4 = some b ∧ a.winId = b.winId.add width (offsetIpId n.id a.nbo sn)

/-- A detected record, updated with the offset IP-ID that the packet was prepared with. -/
theorem CtxHdr.update_detected (width : Nat) (sn : U16) (first : Bool) (n : IpHdr) (x : CtxHdr)
    (ch : HdrChange) :
    x.Updated width sn n ((detectHdr first n x).hdr.update width n
      (idBits sn n (detectHdr first n x).hdr ⟨ch, 0, 0⟩).off) := by
  refine ⟨rfl, rfl, rfl, fun a ha => ?_⟩
  cases hx : x.ip4 with
  | none =>
    simp only [detectHdr, CtxHdr.update, hx, Option.map_none] at ha
    cases ha
  | some b =>
    rw [detectHdr_hdr hx, idBits_v4 rfl] at ha
    cases ha
    exact ⟨rfl, rfl, b, rfl, rfl⟩

theorem Prepared.hdr_updated {cfg : Cfg} {sc p : Scratch} {g : Generic} {d : CtxState × Bool}
    (P : Prepared cfg sc g d p) {i : Nat} {n : IpHdr} {y : CtxHdr} (hn : sc.par.hdrs[i]? = some n)
    (hy : (sc.after cfg p g d).hdrs[i]? = some y) :
    ∃ x, g.hdrs[i]? = some x ∧ x.Updated cfg.wlsbWidth.toNat (g.sn + 1) n y := by
  rw [(sc.after_fields cfg p g d).2.2] at hy
  obtain ⟨h, x', hh, hx', rfl⟩ := updateHdrs_getElem? hn hy
  obtain ⟨ch, hc⟩ := P.hs_getElem? hn hx'
  cases hh.symm.trans hc
  obtain ⟨x, hx, rfl⟩ := Scratch.detected_getElem? hn hx'
  exact ⟨x, hx, x.update_detected _ _ _ _ _⟩

theorem Prepared.after_versions {cfg : Cfg} {sc p : Scratch} {g : Generic} {d : CtxState × Bool}
    (P : Prepared cfg sc g d p) (hv : g.hdrs.map CtxHdr.version = sc.par.hdrs.map IpHdr.version) :
    (sc.after cfg p g d).hdrs.map CtxHdr.version = sc.par.hdrs.map IpHdr.version := by
  rw [(sc.after_fields cfg p g d).2.2, P.hdrs_versions hv, hv]

/-! ## The context that COMPRESS commits (42_state_machine.md R183, R188, 47_commands.md R302) -/

/-- The context under work, with the block that UPDATE_CONTEXT leaves. -/
theorem State.committed_generic {s : State} {prof : Profile} {par : Parsed} {pkt : List Byte} {t : U64}
    {g : Generic} (hb : (s.working prof par pkt t).block = .generic g) (max : Nat) :
    ∃ sc d p, sc.par = par ∧ sc.ctx = s.working prof par pkt t ∧ Prepared s.cfg sc g d p
      ∧ s.committed prof par pkt max t = { s.working prof par pkt t with
          state := d.1, forceIr := false, numSent := satInc (s.working prof par pkt t).numSent
          latestUsed := t, block := .generic (sc.after s.cfg p g d) } := by
  obtain ⟨bs, e⟩ := s.assembled_scr prof par pkt max t
  obtain ⟨d, p, P, hctx⟩ := Scratch.buildHeader_generic s.cfg (sc := { Scratch.zero with
    pkt := pkt, par := par, ctx := s.working prof par pkt t, asm := { Assembly.empty with fb := bs } }) hb
  refine ⟨_, d, p, rfl, rfl, P, ?_⟩
  rw [State.committed, e, hctx]
  rfl

/-- A context whose counters are all 0 in IR, as a new one's are, sends IR. -/
theorem Prepared.after_new {cfg : Cfg} {sc p : Scratch} {g : Generic} {d : CtxState × Bool}
    (P : Prepared cfg sc g d p) (hs : sc.ctx.state = .ir) (hi : g.irCount = 0) (hf : g.foCount = 0)
    (hgf : g.goBackFo = 0) (hgi : g.goBackIr = 0) :
    let b := sc.after cfg p g d
    d.1 = .ir ∧ b.irCount = 1 ∧ b.foCount = 0 ∧ b.goBackFo = 0 ∧ b.goBackIr = 0 := by
  have hir : d.1 = .ir := by
    rw [P.decision, decideArm_eq_ir_iff]
    refine or_iff_not_imp_left.mpr fun _ => ⟨hs, fun h => ?_⟩
    have h3 : 3 ≤ g.irCount := h.1
    omega
  refine ⟨hir, ?_⟩
  rcases P.after_ir hir with hc | ⟨-, -, hc⟩
  · exact hc
  · rwa [hi, hf, hgf, hgi] at hc

theorem Window.add_empty {width : Nat} (h : 0 < width) (v : U16) : (Window.empty.add width v).refs = [v] := by
  rw [Window.add_of_lt (show Window.empty.count < width from h)]
  rfl

/-- Settles O35: the committed context by `State.committed_generic`, its counters by `Prepared.after_ir`,
`Prepared.after_fo` and `Prepared.after_so`, its header records by `Prepared.hdr_updated`. -/
theorem snCountsUp : Obligations.SnCountsUp := by
  intro s u t inLen outMax pkt par prof hs hA hprof h hst key c
  have hslot := State.committed_slot hs.count (compress_commits hA h hst)
  obtain ⟨-, hk, hp⟩ := hs.committed hA.admitted hA.parsed outMax.toNat t
  obtain ⟨hw, hwk, hwp⟩ := hs.working hA.admitted hA.parsed t
  obtain ⟨g, hb⟩ := hw.shape.generic (hwp.trans_ne hprof)
  obtain ⟨sc, d, p, hpar, hctx, P, e⟩ := State.committed_generic hb outMax.toNat
  obtain ⟨hsn, hwin, -⟩ := sc.after_fields s.cfg p g d
  have hver := P.after_versions (hpar ▸ hw.shape.versions hwk hb)
  refine ⟨_, sc.after s.cfg p g d, (hslot c).trans (if_pos rfl), by rw [e], hp, hk, by rw [e], by rw [e],
    fun w g' hsw hwb hf => ?_, fun hf => ?_, ?_, fun i y n hy hn => ?_,
    fun d hd => (hslot d).trans (if_neg hd)⟩
  · have hwork := State.working_find hf hsw t
    rw [hwork] at hb hctx
    cases hwb.symm.trans hb
    rw [e, hwork, ← hctx, hsn, hwin]
    refine ⟨rfl, rfl, rfl, rfl, fun i y x n a b hy hx hn ha hbx => ?_, P.after_ir, P.after_fo, P.after_so⟩
    obtain ⟨x', hx', U⟩ := P.hdr_updated (hpar ▸ hn) hy
    cases hx.symm.trans hx'
    obtain ⟨-, -, b', hb', hwid⟩ := U.ip4 a ha
    cases hbx.symm.trans hb'
    exact hwid
  · have hwork := State.working_fresh hf (by rw [hs.count.size]; omega) t
    rw [hwork] at hb hctx
    cases (Block.create_generic hA.admitted hprof par pkt s.rand16 s.draws).symm.trans hb
    obtain ⟨hir, hi, hfo, hgf, hgi⟩ := P.after_new (by rw [hctx]; rfl) rfl rfl rfl rfl
    have hone : s.rand16 - 1 + 1 = s.rand16 := BitVec.sub_add_cancel _ _
    obtain ⟨hpos, -⟩ := hs.cfg.width_bounds
    rw [e, hwork, hsn, hwin]
    refine ⟨hone, rfl, hir, rfl, hi, hfo, hgf, hgi, Window.add_empty hpos _, fun i y n a hy hn ha => ?_⟩
    obtain ⟨x, hx, U⟩ := P.hdr_updated (hpar ▸ hn) hy
    obtain ⟨-, -, b, hb, hwid⟩ := U.ip4 a ha
    obtain ⟨-, -, -, -, -, -, hempty⟩ := createHdrs_mem (List.mem_of_getElem? hx) hb
    rw [hwid, hempty, Window.add_empty hpos]
  · have := congrArg List.length hver
    rwa [List.length_map, List.length_map, hpar] at this
  · obtain ⟨x, -, U⟩ := P.hdr_updated (hpar ▸ hn) hy
    have hv := congrArg (fun l : List IpVersion => l[i]?) hver
    rw [hpar, List.getElem?_map, List.getElem?_map, hy, hn] at hv
    exact ⟨Option.some.inj hv, U.tos, U.ttl, U.proto, fun a ha =>
      have ⟨hdf, hid, _⟩ := U.ip4 a ha
      ⟨hdf, hid⟩⟩

end Sys2Proof.Machine

/-!
PROOFS of the family 43_packet_type.md: the bit count of the next SN after a run of consecutive SNs, and what
the flags octet of extension 3 says.
-/
namespace Sys2Proof.Machine
open Sys2Proof

/-! ## The SN of a steady flow (43_packet_type.md R202) -/

/-- With p = -1 the next SN lies j steps into the interval of the SN j places back. -/
theorem next_sn_distance (sn : U16) {j : Nat} (h : j < 2 ^ 16) :
    (sn + 1 - (sn - BitVec.ofNat 16 j - BitVec.ofInt 16 Config.pSn)).toNat = j := by
  have hp : BitVec.ofInt 16 Config.pSn = -1#16 := rfl
  have hd : sn + 1 - (sn - BitVec.ofNat 16 j - BitVec.ofInt 16 Config.pSn) = BitVec.ofNat 16 j := by
    rw [hp]
    bv_omega
  rw [hd, BitVec.toNat_ofNat, Nat.mod_eq_of_lt h]

/-- The references of a run are the SNs 0 to n - 1 places back. -/
theorem mem_snRun {sn r : U16} {n : Nat} : r ∈ snRun sn n ↔ ∃ j < n, r = sn - BitVec.ofNat 16 j := by
  simp only [snRun, List.mem_map, List.mem_range]
  constructor
  · rintro ⟨i, hi, rfl⟩
    exact ⟨n - 1 - i, by omega, rfl⟩
  · rintro ⟨j, hj, rfl⟩
    exact ⟨n - 1 - j, by omega, by rw [Nat.sub_sub_self (by omega)]⟩

/-- The oldest reference, n - 1 places back, decides whether k bits suffice for the SN after a run of n. -/
theorem snRun_suffices_iff {sn : U16} {n k : Nat} (hn : n ≤ 2 ^ 16) :
    ({ refs := snRun sn n } : Window).Suffices (sn + 1) Config.pSn k ↔ n ≤ 2 ^ k := by
  have distance {j : Nat} (hj : j < n) := next_sn_distance sn (hj.trans_le hn)
  constructor
  · intro h
    by_contra hk
    have hlt := h _ (mem_snRun.mpr ⟨2 ^ k, Nat.lt_of_not_le hk, rfl⟩)
    rw [distance (Nat.lt_of_not_le hk)] at hlt
    exact hlt.false
  · intro hk r hr
    obtain ⟨j, hj, rfl⟩ := mem_snRun.mp hr
    exact (distance hj).trans_lt (hj.trans_le hk)

/-- Settles O12: the least k that suffices is the least k with n ≤ 2 ^ k. -/
theorem steadyFlowSnBits : Obligations.SteadyFlowSnBits := by
  intro sn n hpos hle
  have hn : n ≤ 2 ^ 16 := hle.trans (by decide)
  have hne : snRun sn n ≠ [] := List.ne_nil_of_mem (mem_snRun.mpr ⟨0, hpos, rfl⟩)
  obtain ⟨-, hsuff, hleast⟩ := Window.kNeeded_spec (w := { refs := snRun sn n }) hne (sn + 1) Config.pSn
  apply le_antisymm
  · by_contra hlt
    exact hleast _ (Nat.lt_of_not_le hlt) ((snRun_suffices_iff hn).mpr (Nat.le_pow_clog Nat.one_lt_two n))
  · exact Nat.clog_le_of_le_pow ((snRun_suffices_iff hn).mp hsuff)

/-! ## The flags of extension 3 (43_packet_type.md R208, R209) -/

/-- A sum that is not 0, of counts that an unchanged header does not have, comes from a changed header. -/
theorem exists_changed_of_sum_pos {ds : List HdrDetected} {f : HdrChange → Nat}
    (hf : ∀ c : HdrChange, c.any = false → f c = 0) (h : 0 < (ds.map fun d => f d.ch).sum) :
    ∃ d ∈ ds, d.ch.any = true := by
  by_contra hno
  refine h.ne' (List.sum_eq_zero_iff.mpr fun a ha => ?_)
  obtain ⟨d, hd, rfl⟩ := List.mem_map.mp ha
  exact hf _ (Bool.eq_false_of_not_eq_true fun hc => hno ⟨d, hd, hc⟩)

/-- A change that the prepared packet counts is recorded at the index of one of its headers. -/
theorem Prepared.exists_changed {cfg : Cfg} {sc p : Scratch} {g : Generic} {d : CtxState × Bool}
    (P : Prepared cfg sc g d p) (h : 0 < p.sendStatic ∨ 0 < p.sendDynamic) :
    ∃ i < p.par.nhdr, (p.changes i).any = true := by
  rw [P.sendStatic, P.sendDynamic] at h
  obtain ⟨e, he, hany⟩ := h.elim (exists_changed_of_sum_pos fun _ hc => (HdrChange.any_false hc).1)
    (exists_changed_of_sum_pos fun _ hc => (HdrChange.any_false hc).2)
  have hch : p.hs.map (fun v => v.ch)
      = (detectHdrs sc.ctx.isFirst sc.par.hdrs g.hdrs).map fun e => e.ch := by
    rw [P.changes, Scratch.detect, List.map_map]
    rfl
  obtain ⟨i, hi⟩ := List.getElem?_of_mem he
  have hlt : i < p.par.nhdr := by
    obtain ⟨hi, -⟩ := List.getElem?_eq_some_iff.mp hi
    rw [detectHdrs_length] at hi
    rw [P.par]
    exact hi.trans_le (Nat.min_le_left _ _)
  have hv : (p.hs.map fun v => v.ch)[i]? = some e.ch := by rw [hch, List.getElem?_map, hi]; rfl
  obtain ⟨v, hv, hve⟩ := Option.map_eq_some_iff.mp (List.getElem?_map.symm.trans hv)
  refine ⟨i, hlt, ?_⟩
  rwa [Scratch.changes, hv, Option.elim_some, hve]

section
variable {sc : Scratch}

/-- Of one header or two, the changed one is the primary, which ip reports, or the secondary, which ip2 reports. -/
theorem Scratch.ext3_ip_of_changed (h : sc.par.nhdr = 1 ∨ sc.par.nhdr = 2) {i : Nat} (hi : i < sc.par.nhdr)
    (hc : (sc.changes i).any = true) : sc.ext3Ip = true ∨ sc.ext3Ip2 = true := by
  by_cases hp : i = sc.prim
  · exact .inl (by rwa [Scratch.ext3Ip, ← hp])
  · have hsec : sc.par.nhdr = 2 ∧ i = 0 := by
      rw [Scratch.prim] at hp
      omega
    obtain ⟨htwo, rfl⟩ := hsec
    exact .inr (sc.ext3Ip2_iff.mpr ⟨htwo, .inl hc⟩)

/-- Extension 3 is chosen for a counted change, or for bits that UOR-2 alone does not carry (R208). -/
theorem Scratch.needs_of_decideExt_ext3 (h : sc.decideExt = .ext3) :
    (0 < sc.sendStatic ∨ 0 < sc.sendDynamic) ∨ 5 < sc.kSn ∨ 0 < sc.id1 ∨ 0 < sc.id2 := by
  by_contra hno
  have hnone : sc.decideExt = .none := if_pos (by omega)
  rw [hnone] at h
  cases h

theorem Scratch.ext3Ip2_of_id2_pos (h : 0 < sc.id2) : sc.ext3Ip2 = true := by
  have hI2 : sc.ext3I2 = true := by
    by_contra hn
    exact h.ne' (Scratch.id2_of_ext3I2_false (Bool.eq_false_of_not_eq_true hn))
  obtain ⟨htwo, hpos⟩ := sc.ext3I2_iff.mp hI2
  exact sc.ext3Ip2_iff.mpr ⟨htwo, .inr hpos⟩

end

/-- Settles O22: what made DECIDE_EXT choose extension 3 sets one of its flags. -/
theorem extension3SaysSomething : Obligations.Extension3SaysSomething := by
  intro cfg sc g hn _ p hext
  obtain ⟨d, P⟩ := sc.prepareGeneric_prepared cfg g
  have hdec : p.decideExt = .ext3 := by
    rw [P.ext] at hext
    split at hext
    · exact hext
    · cases hext
  obtain hch | hsn | hid1 | hid2 := Scratch.needs_of_decideExt_ext3 hdec
  · obtain ⟨i, hi, hany⟩ := P.exists_changed hch
    exact .inr (.inr (Scratch.ext3_ip_of_changed (P.par ▸ hn) hi hany))
  · exact .inl (decide_eq_true hsn)
  · exact .inr (.inl (decide_eq_true hid1))
  · exact .inr (.inr (.inr (Scratch.ext3Ip2_of_id2_pos hid2)))

end Sys2Proof.Machine

/-!
PROOFS of the family 44_packet_build.md, header lengths: where the CID stands, and the length of each part of a
header, from the chains and the tail to extension 3.
-/
namespace Sys2Proof.Machine
open Sys2Proof

/-! ## The CID (44_packet_build.md R223) -/

/-- A small CID stands before the first octet. -/
theorem Scratch.wrapCid_small_header {sc : Scratch} (hl : sc.asm.largeCid = []) (hc : sc.ctx.cid ≤ 15) :
    (sc.wrapCid .small).asm.header
      = (if sc.ctx.cid = 0 then [] else [BitVec.ofNat 8 (0xE0 + sc.ctx.cid)]) ++ sc.asm.first ++ sc.asm.rest := by
  simp only [Scratch.wrapCid, Scratch.emitAddCid, Assembly.header, addCid_small hc, hl, List.append_nil]

/-- A large CID stands between the first octet and the rest. -/
theorem Scratch.wrapCid_large_header {sc : Scratch} (ha : sc.asm.addCid = []) :
    (sc.wrapCid .large).asm.header = sc.asm.first ++ (sdvlEnc sc.ctx.cid).getD [] ++ sc.asm.rest := by
  simp only [Scratch.wrapCid, Scratch.emitSdvl, Assembly.header, ha, List.nil_append]

/-- Settles O31: the two places, with the octets of the CID by `addCid_small` and `sdvlForms`. -/
theorem cidPlacement : Obligations.CidPlacement := by
  intro sc ha hl
  obtain ⟨hone, htwo, -⟩ := sdvlForms sc.ctx.cid
  refine ⟨fun h0 => ?_, fun hpos h15 => ?_, fun h => ?_, fun hlo hhi => ?_⟩
  · rw [Scratch.wrapCid_small_header hl (by omega), if_pos h0, List.nil_append]
  · rw [Scratch.wrapCid_small_header hl h15, if_neg (by omega)]
  · rw [Scratch.wrapCid_large_header ha, hone h, Option.getD_some]
  · rw [Scratch.wrapCid_large_header ha, htwo hlo (by omega), Option.getD_some]

/-- Octets that the CID takes in a header (44_packet_build.md R250). -/
def cidLength (cidType : CidType) (cid : Nat) : Nat :=
  match cidType with
  | .small => if cid = 0 then 0 else 1
  | .large => if cid < 128 then 1 else 2

theorem Scratch.wrapCid_header_length {sc : Scratch} {cidType : CidType} (ha : sc.asm.addCid = [])
    (hl : sc.asm.largeCid = []) (hc : sc.ctx.cid ≤ Config.cidBound cidType) :
    (sc.wrapCid cidType).asm.header.length
      = cidLength cidType sc.ctx.cid + (sc.asm.first.length + sc.asm.rest.length) := by
  cases cidType with
  | small =>
    have hcid : (if sc.ctx.cid = 0 then [] else [BitVec.ofNat 8 (0xE0 + sc.ctx.cid)]).length
        = cidLength .small sc.ctx.cid := apply_ite List.length ..
    rw [Scratch.wrapCid_small_header hl hc, List.length_append, List.length_append, hcid, Nat.add_assoc]
  | large =>
    have hcid : ((sdvlEnc sc.ctx.cid).getD []).length = cidLength .large sc.ctx.cid := by
      obtain ⟨hone, htwo, -⟩ := sdvlForms sc.ctx.cid
      rw [cidLength]
      split
      · rw [hone (by omega)]
        rfl
      · rw [htwo (by omega) (Nat.lt_succ_of_le hc)]
        rfl
    rw [Scratch.wrapCid_large_header ha, List.length_append, List.length_append, hcid]
    omega

/-! ## The chains and the tail (44_packet_build.md R224 to R226) -/

/-- How many headers have the version. -/
def versionCount (v : IpVersion) (ns : List IpHdr) : Nat := (ns.filter fun h => h.version == v).length

theorem versionCount_cons (v : IpVersion) (n : IpHdr) (ns : List IpHdr) :
    versionCount v (n :: ns) = (if n.version = v then 1 else 0) + versionCount v ns := by
  simp only [versionCount, List.filter_cons, beq_iff_eq]
  split
  · rw [List.length_cons, Nat.add_comm]
  · rw [Nat.zero_add]

theorem staticPart_length {n : IpHdr} (hs : n.src.length = addressLength n.version)
    (hd : n.dst.length = addressLength n.version) :
    (staticPart n).length
      = 10 * (if n.version = .v4 then 1 else 0) + 36 * (if n.version = .v6 then 1 else 0) := by
  cases hv : n.version <;> simp [staticPart, hv, hs, hd, addressLength]

theorem flatMap_staticPart_length {ns : List IpHdr}
    (h : ∀ n ∈ ns, n.src.length = addressLength n.version ∧ n.dst.length = addressLength n.version) :
    (ns.flatMap staticPart).length = 10 * versionCount .v4 ns + 36 * versionCount .v6 ns := by
  induction ns with
  | nil => rfl
  | cons n ns ih =>
    obtain ⟨⟨hs, hd⟩, hns⟩ := List.forall_mem_cons.mp h
    rw [List.flatMap_cons, List.length_append, staticPart_length hs hd, ih hns, versionCount_cons, versionCount_cons]
    omega

theorem dynamicPart_length {n : IpHdr} {x : CtxHdr} (hv : x.version = n.version) :
    (dynamicPart n x).length
      = 6 * (if n.version = .v4 then 1 else 0) + 3 * (if n.version = .v6 then 1 else 0) := by
  rw [← hv, dynamicPart, CtxHdr.version]
  cases x.ip4 <;> rfl

theorem dynamicParts_length {ns : List IpHdr} {xs : List CtxHdr}
    (h : xs.map CtxHdr.version = ns.map IpHdr.version) :
    (dynamicParts ns xs).length = 6 * versionCount .v4 ns + 3 * versionCount .v6 ns := by
  induction ns generalizing xs with
  | nil => rfl
  | cons n ns ih =>
    cases xs with
    | nil => cases h
    | cons x xs =>
      obtain ⟨hv, hvs⟩ := List.cons.inj h
      rw [dynamicParts, List.length_append, dynamicPart_length hv, ih hvs, versionCount_cons, versionCount_cons]
      omega

theorem randomIds_length {ns : List IpHdr} {xs : List CtxHdr} (h : xs.length = ns.length) :
    (randomIds ns xs).length = 2 * (xs.filter fun x => x.isRnd).length := by
  induction xs generalizing ns with
  | nil => cases ns <;> rfl
  | cons x xs ih =>
    cases ns with
    | nil => cases h
    | cons n ns =>
      rw [randomIds, List.length_append, ih (Nat.succ.inj h), List.filter_cons]
      split
      · rw [be16_length, List.length_cons]
        omega
      · rw [List.length_nil, Nat.zero_add]

/-- The packet in the scratch registers has the octets that a header is built from: whole addresses, the
versions of its context, and the UDP header that the UDP profile reads. -/
structure Scratch.Whole (sc : Scratch) : Prop where
  nhdr : sc.par.hdrs.length = 1 ∨ sc.par.hdrs.length = 2
  addresses : ∀ n ∈ sc.par.hdrs, n.src.length = addressLength n.version ∧ n.dst.length = addressLength n.version
  versions : sc.ctx.hdrs.map CtxHdr.version = sc.par.hdrs.map IpHdr.version
  udp : sc.isUdp = true → sc.par.tpOff + 8 ≤ sc.pkt.length

section
variable {sc : Scratch}

theorem Scratch.Whole.ctx_length (w : sc.Whole) : sc.ctx.hdrs.length = sc.par.hdrs.length := by
  have h := congrArg List.length w.versions
  rwa [List.length_map, List.length_map] at h

/-- A part of the UDP header, where the profile reads one. -/
theorem Scratch.Whole.udp_slice_length (w : sc.Whole) {i n : Nat} (h : i + n ≤ 8) :
    (if sc.isUdp then slice sc.pkt (sc.par.tpOff + i) n else []).length = n * sc.isUdp.toNat := by
  split
  · rename_i hu
    have hfit := w.udp hu
    rw [slice_length (by omega), hu, Bool.toNat_true, Nat.mul_one]
  · rename_i hu
    rw [Bool.eq_false_of_not_eq_true hu, List.length_nil, Bool.toNat_false, Nat.mul_zero]

theorem Scratch.Whole.staticChain_length (w : sc.Whole) :
    sc.staticChain.length = 10 * versionCount .v4 sc.par.hdrs + 36 * versionCount .v6 sc.par.hdrs
      + 4 * sc.isUdp.toNat := by
  have hu := w.udp_slice_length (i := 0) (n := 4) (by decide)
  rw [Nat.add_zero] at hu
  rw [Scratch.staticChain, List.length_append, flatMap_staticPart_length w.addresses, hu]

theorem Scratch.Whole.dynamicChain_length (w : sc.Whole) :
    sc.dynamicChain.length = 6 * versionCount .v4 sc.par.hdrs + 3 * versionCount .v6 sc.par.hdrs
      + 2 * sc.isUdp.toNat := by
  rw [Scratch.dynamicChain, List.length_append, dynamicParts_length w.versions, w.udp_slice_length (by decide)]

theorem Scratch.Whole.tail_length (w : sc.Whole) :
    sc.tail.length = 2 * (sc.ctx.hdrs.filter fun x => x.isRnd).length
      + 2 * sc.isUdp.toNat * sc.ctx.udpCk.toNat := by
  rw [Scratch.tail, List.length_append, randomIds_length w.ctx_length]
  cases sc.ctx.udpCk with
  | false => rw [Bool.and_false]; rfl
  | true => rw [Bool.and_true, w.udp_slice_length (by decide), Bool.toNat_true, Nat.mul_one]

/-! ## Extension 3 (44_packet_build.md R238) -/

/-- How many fields of header h extension 3 announces. -/
def Scratch.changedFields (sc : Scratch) (h : Nat) : Nat :=
  (sc.changes h).tos.toNat + (sc.changes h).ttl.toNat + (sc.changes h).pr.toNat

theorem Scratch.ext3Fields_length {h : Nat} (hn : h < sc.par.hdrs.length) :
    (sc.ext3Fields h).length = sc.changedFields h := by
  rw [Scratch.ext3Fields, List.getElem?_eq_getElem hn]
  simp only [ext3HdrFields, List.length_append, apply_ite List.length, List.length_singleton, List.length_nil,
    Scratch.changedFields, Bool.toNat, cond_eq_ite]

theorem Scratch.Whole.ext3Flags_length (w : sc.Whole) {h : Nat} (hn : h < sc.par.hdrs.length) (last : BitVec 1) :
    (sc.ext3Flags h last).length = 1 := by
  rw [Scratch.ext3Flags, List.getElem?_eq_getElem hn, List.getElem?_eq_getElem (w.ctx_length ▸ hn)]
  rfl

theorem Scratch.Whole.prim_lt (w : sc.Whole) : sc.prim < sc.par.hdrs.length := by
  have h := w.nhdr
  rw [Scratch.prim, Parsed.nhdr]
  omega

/-- Octets of extension 3: the flags, and one or two for each field announced (44_packet_build.md R250). -/
def Scratch.ext3Length (sc : Scratch) : Nat :=
  1 + sc.ext3Ip.toNat + sc.ext3Ip2.toNat + sc.ext3S.toNat
    + (if sc.ext3Ip then sc.changedFields sc.prim else 0) + 2 * sc.ext3I.toNat
    + (if sc.ext3Ip2 then sc.changedFields 0 + 2 * sc.ext3I2.toNat else 0)

/-- The secondary header is announced only where there is one. -/
theorem Scratch.ext3Ip2_and_hasSec (sc : Scratch) :
    (sc.ext3Ip2 = true ∧ sc.hasSec = true) ↔ sc.ext3Ip2 = true := by
  rw [sc.hasSec_iff, and_iff_left_iff_imp]
  exact fun h => (sc.ext3Ip2_iff.mp h).1

theorem Scratch.Whole.ext3Body_length (w : sc.Whole) :
    1 + (sc.ext3Body (bit sc.ext3S) (bit sc.ext3I) (bit sc.ext3Ip) (bit sc.ext3Ip2)).length = sc.ext3Length := by
  have h0 : 0 < sc.par.hdrs.length := Nat.zero_lt_of_lt w.prim_lt
  simp only [Scratch.ext3Body, bit_eq_one_iff, sc.ext3Ip2_and_hasSec, List.length_append, apply_ite List.length,
    w.ext3Flags_length w.prim_lt, w.ext3Flags_length h0, Scratch.ext3Fields_length w.prim_lt,
    Scratch.ext3Fields_length h0, be16_length, List.length_singleton, List.length_nil, Scratch.ext3Length,
    Bool.toNat, cond_eq_ite, mul_ite, Nat.mul_one, Nat.mul_zero]
  omega

/-! ## The rows (44_packet_build.md R230 to R240, R250) -/

theorem Scratch.build_ir {p : Scratch} (h : p.ptype = .ir) : p.build = p.emitIr := by rw [Scratch.build, h]

theorem Scratch.build_irDyn {p : Scratch} (h : p.ptype = .irDyn) : p.build = p.emitIrDyn := by rw [Scratch.build, h]

theorem Scratch.build_uo0 {p : Scratch} (h : p.ptype = .uo0) : p.build = p.buildUo0 := by rw [Scratch.build, h]

theorem Scratch.build_uo1 {p : Scratch} (h : p.ptype = .uo1) : p.build = p.buildUo1 := by rw [Scratch.build, h]

theorem Scratch.build_uor2 {p : Scratch} (h : p.ptype = .uor2) : p.build = p.buildUor2 := by rw [Scratch.build, h]

theorem Scratch.build_normal {p : Scratch} (h : p.ptype = .normal) : p.build = p.emitNormal := by rw [Scratch.build, h]

/-- Octets of a header without its CID: first octet and rest. -/
def Assembly.baseLength (a : Assembly) : Nat := a.first.length + a.rest.length

/-- Octets of the extension (44_packet_build.md R234, R250). -/
def Scratch.extLength (sc : Scratch) : Nat :=
  match sc.ext with
  | .none => 0
  | .ext0 => 1
  | .ext1 => 2
  | .ext2 => 3
  | .ext3 => sc.ext3Length

theorem Scratch.Whole.emitIr_length (w : sc.Whole) : sc.emitIr.asm.baseLength
    = 3 + 10 * versionCount .v4 sc.par.hdrs + 36 * versionCount .v6 sc.par.hdrs + 4 * sc.isUdp.toNat
      + 6 * versionCount .v4 sc.par.hdrs + 3 * versionCount .v6 sc.par.hdrs + 2 * sc.isUdp.toNat + 2 := by
  simp only [Scratch.emitIr, Assembly.baseLength, List.length_append, w.staticChain_length, w.dynamicChain_length,
    be16_length, List.length_cons, List.length_nil]
  omega

theorem Scratch.Whole.emitIrDyn_length (w : sc.Whole) : sc.emitIrDyn.asm.baseLength
    = 3 + 6 * versionCount .v4 sc.par.hdrs + 3 * versionCount .v6 sc.par.hdrs + 2 * sc.isUdp.toNat + 2 := by
  simp only [Scratch.emitIrDyn, Assembly.baseLength, List.length_append, w.dynamicChain_length, be16_length,
    List.length_cons, List.length_nil]
  omega

theorem Scratch.buildUo0_length (sc : Scratch) : sc.buildUo0.asm.baseLength = 1 + sc.tail.length := rfl

theorem Scratch.buildUo1_length (sc : Scratch) : sc.buildUo1.asm.baseLength = 2 + sc.tail.length := by
  show 1 + (sc.tail.length + 1) = _
  omega

theorem Scratch.emitUor2_length (sc : Scratch) (sn : BitVec 5) (x : BitVec 1) (crc : BitVec 7) :
    (sc.emitUor2 sn x crc).asm.baseLength = 2 + (if x = 1 then sc.asm.ext else []).length + sc.tail.length := by
  simp only [Scratch.emitUor2, Assembly.baseLength, List.length_append, List.length_cons, List.length_nil]
  omega

theorem Scratch.Whole.buildUor2_length (w : sc.Whole) :
    sc.buildUor2.asm.baseLength = 2 + sc.extLength + sc.tail.length := by
  rw [Scratch.buildUor2, Scratch.extLength]
  cases sc.ext with
  | none => exact sc.emitUor2_length ..
  | ext0 => exact Scratch.emitUor2_length ..
  | ext1 => exact Scratch.emitUor2_length ..
  | ext2 => exact Scratch.emitUor2_length ..
  | ext3 =>
    rw [← w.ext3Body_length, Nat.add_comm 1]
    exact Scratch.emitUor2_length ..

theorem Scratch.prepare_of_generic {g : Generic} (h : sc.ctx.block = .generic g) (cfg : Cfg) :
    sc.prepare cfg = sc.prepareGeneric cfg g := by
  simp only [Scratch.prepare, Ctx.generic?, h]

/-- The packet's octets, once it is prepared for a context with the block g. -/
theorem Prepared.whole {cfg : Cfg} {p : Scratch} {g : Generic} {d : CtxState × Bool} (P : Prepared cfg sc g d p)
    (hp : parse sc.pkt = some sc.par) (hv : g.hdrs.map CtxHdr.version = sc.par.hdrs.map IpHdr.version)
    (hu : sc.ctx.profile = .udp → checkUdp sc.pkt sc.par = true) : p.Whole where
  nhdr := by
    rw [P.par]
    exact parse_nhdr hp
  addresses n hn := parse_addresses hp (P.par ▸ hn)
  versions := by
    have hlen := congrArg List.length hv
    rw [List.length_map, List.length_map] at hlen
    have hd := detectHdrs_versions sc.ctx.isFirst hlen.symm
    obtain ⟨-, hhdrs, -⟩ := restartCounters_fields sc.ctx.state d.1 d.2 (sc.detected g)
    rw [P.par, P.ctx, ← hv, ← hd]
    exact congrArg (List.map _) hhdrs
  udp h := by
    rw [p.isUdp_iff, P.ctx] at h
    rw [P.par, P.pkt]
    exact checkUdp_fits (hu h)

end

/-- No row has a CID of its own. -/
theorem Scratch.build_cid (p : Scratch) :
    p.build.asm.addCid = p.asm.addCid ∧ p.build.asm.largeCid = p.asm.largeCid := by
  cases h : p.ptype with
  | uor2 =>
    rw [Scratch.build_uor2 h, Scratch.buildUor2]
    split <;> exact ⟨rfl, rfl⟩
  | _ =>
    rw [Scratch.build, h]
    exact ⟨rfl, rfl⟩

/-- Octets of a header without its CID, by its row. -/
def Scratch.rowLength (sc : Scratch) : Nat :=
  match sc.ptype with
  | .ir => 3 + 10 * versionCount .v4 sc.par.hdrs + 36 * versionCount .v6 sc.par.hdrs + 4 * sc.isUdp.toNat
      + 6 * versionCount .v4 sc.par.hdrs + 3 * versionCount .v6 sc.par.hdrs + 2 * sc.isUdp.toNat + 2
  | .irDyn => 3 + 6 * versionCount .v4 sc.par.hdrs + 3 * versionCount .v6 sc.par.hdrs + 2 * sc.isUdp.toNat + 2
  | .uo0 => 1 + sc.tail.length
  | .uo1 => 2 + sc.tail.length
  | .uor2 => 2 + sc.extLength + sc.tail.length
  | .normal => 1

theorem Scratch.Whole.build_length {sc : Scratch} (w : sc.Whole) : sc.build.asm.baseLength = sc.rowLength := by
  rw [Scratch.rowLength]
  cases h : sc.ptype with
  | ir => rw [Scratch.build_ir h, w.emitIr_length]
  | irDyn => rw [Scratch.build_irDyn h, w.emitIrDyn_length]
  | uo0 => rw [Scratch.build_uo0 h, Scratch.buildUo0_length]
  | uo1 => rw [Scratch.build_uo1 h, Scratch.buildUo1_length]
  | uor2 => rw [Scratch.build_uor2 h, w.buildUor2_length]
  | normal =>
    rw [Scratch.build_normal h]
    rfl

/-- Settles O32: the CID by `Scratch.wrapCid_header_length`, what it stands in by `Scratch.Whole.build_length`. -/
theorem headerLengths : Obligations.HeaderLengths := by
  intro cfg sc g hparse ha hl hb hv hprof hcid
  rw [Scratch.prepare_of_generic hb]
  obtain ⟨d, P⟩ := sc.prepareGeneric_prepared cfg g
  generalize sc.prepareGeneric cfg g = p at P ⊢
  have w : p.Whole := P.whole hparse hv fun hu => by
    rcases hprof with h | h
    · cases hu.symm.trans h
    · exact h.2
  have hudp : p.isUdp.toNat = if sc.ctx.profile = .udp then 1 else 0 := by
    rw [Scratch.isUdp, P.ctx, Bool.toNat, cond_eq_ite]
    simp only [beq_iff_eq]
  obtain ⟨hadd, hlarge⟩ := p.build_cid
  have hbuild : p.build.ctx.cid = sc.ctx.cid := by rw [p.build_core.ctx, P.ctx]
  have hlen := Scratch.wrapCid_header_length (cidType := cfg.cidType) (hadd.trans (P.asm ▸ ha))
    (hlarge.trans (P.asm ▸ hl)) (hbuild ▸ hcid)
  rw [hbuild, ← Assembly.baseLength, w.build_length, Scratch.rowLength, w.tail_length, P.par, hudp] at hlen
  exact hlen

end Sys2Proof.Machine

/-!
PROOFS of the family 44_packet_build.md, COMPRESS: its tests in order, its three ends, and the header that it sends.
-/
namespace Sys2Proof.Machine
open Sys2Proof

/-! ## The tests (47_commands.md R301, 60_exceptions.md R343) -/

section
variable {s : State} {t : U64} {inLen outMax : U32}

theorem compress_empty (ha : s.alive = true) (h : inLen.toNat = 0 ∨ outMax.toNat = 0) :
    exec (.compress t inLen outMax) s = .next (s.failed 1) := by
  simp only [exec, execCompress, compressWith, whenAlive_alive ha, if_pos h]
  rfl

variable (ha : s.alive = true) (hin : inLen.toNat ≠ 0) (hout : outMax.toNat ≠ 0)
include ha hin hout

theorem compress_unparsed (h : parse (s.input inLen) = none) :
    exec (.compress t inLen outMax) s = .next (s.failed 1) := by
  simp only [exec, execCompress, compressWith, whenAlive_alive ha, if_neg (not_or.mpr ⟨hin, hout⟩), h]
  rfl

variable {par : Parsed} (hp : parse (s.input inLen) = some par)
include hp

theorem compress_unselected (h : select s.cfg.profilesEn s.rtpPorts (s.input inLen) par = none) :
    exec (.compress t inLen outMax) s = .next (s.failed 3) := by
  simp only [exec, execCompress, compressWith, whenAlive_alive ha, if_neg (not_or.mpr ⟨hin, hout⟩), hp, h]
  rfl

theorem compress_notAdmitted {prof : Profile}
    (h : select s.cfg.profilesEn s.rtpPorts (s.input inLen) par = some prof) (hprof : prof.admitted = false) :
    exec (.compress t inLen outMax) s = .refused (.profileNotAdmitted prof) := by
  simp only [exec, execCompress, compressWith, whenAlive_alive ha, if_neg (not_or.mpr ⟨hin, hout⟩), hp, h]
  exact if_pos ⟨hprof, rfl⟩

end

/-! ## The ends (46_segmenter.md R280 to R282, 60_exceptions.md R345) -/

/-- What an accepted COMPRESS does: the end of the command on the assembled state. -/
theorem Accepts.exec_eq {s : State} {inLen outMax : U32} {pkt : List Byte} {par : Parsed} {prof : Profile}
    (h : Accepts s inLen outMax pkt par prof) (t : U64) :
    exec (.compress t inLen outMax) s = (s.assembled prof par pkt outMax.toNat t).finishCompress
      (s.pick prof (prof.key profileExt pkt par)).1 (s.pick prof (prof.key profileExt pkt par)).2
      (s.slot (s.pick prof (prof.key profileExt pkt par)).1) outMax.toNat
      (s.assembled prof par pkt outMax.toNat t).scr.hdrEnd t :=
  (execCompress_accepts h).trans (State.compressAs_eq ..)

section
variable {w : State} {max hdrEnd : Nat}

theorem State.finishCompress_segments
    (hf : ¬w.scr.asm.fb.length + w.scr.asm.header.length + (w.scr.pkt.drop hdrEnd).length ≤ max)
    (hs : 0 < w.cfg.mrru.toNat
      ∧ w.scr.asm.header.length + (w.scr.pkt.drop hdrEnd).length + 4 ≤ w.cfg.mrru.toNat)
    (c : Nat) (fresh : Bool) (saved : Option Ctx) (t : U64) :
    w.finishCompress c fresh saved max hdrEnd t = .next (({ w.commit c t with
      fb := w.fb.unlock
      rru := { buf := w.rru.buf.writeBytes 0 (rruUnit w.scr.asm.header (w.scr.pkt.drop hdrEnd)), off := 0,
               len := (rruUnit w.scr.asm.header (w.scr.pkt.drop hdrEnd)).length } } : State).needSegment []) :=
  (if_neg hf).trans (if_pos hs)

theorem State.finishCompress_fails
    (hf : ¬w.scr.asm.fb.length + w.scr.asm.header.length + (w.scr.pkt.drop hdrEnd).length ≤ max)
    (hs : ¬(0 < w.cfg.mrru.toNat
      ∧ w.scr.asm.header.length + (w.scr.pkt.drop hdrEnd).length + 4 ≤ w.cfg.mrru.toNat))
    (c : Nat) (fresh : Bool) (saved : Option Ctx) (t : U64) :
    w.finishCompress c fresh saved max hdrEnd t = .next ((w.recoverCompress c fresh saved).failed 4) :=
  (if_neg hf).trans ((if_neg hs).trans rfl)

end

theorem rruUnit_length (hdr pay : List Byte) : (rruUnit hdr pay).length = hdr.length + pay.length + 4 := by
  rw [rruUnit, List.length_append, List.length_append, fcsOctets_length]

/-! ## The header (44_packet_build.md R220, R221) -/

/-- The first byte after the last IP header lies behind all the headers (41_frontend.md R150). -/
theorem parse_tpOff_eq_sum {pkt : List Byte} {par : Parsed} (h : parse pkt = some par) :
    par.tpOff = (par.hdrs.map fun h => h.hlen).sum := by
  rcases parse_cases h with ⟨h0, hh, f⟩ | ⟨h0, h1, hh, -, f⟩
  · simp [Parsed.tpOff, hh, f.off]
  · simp [Parsed.tpOff, hh, f.off]

/-- The slot of the packet's context holds the working copy, of the packet's profile. -/
theorem State.working_slot {s : State} (hl : 0 < s.ctx.length) (prof : Profile) (par : Parsed) (pkt : List Byte)
    (t : U64) :
    (s.findOrCreate profileExt prof (prof.key profileExt pkt par) par pkt t).slot
        (s.pick prof (prof.key profileExt pkt par)).1 = some (s.working prof par pkt t)
      ∧ (s.working prof par pkt t).profile = prof := by
  rcases s.pick_cases prof (prof.key profileExt pkt par) with ⟨c, v, hf, hp, hv, hprof, -⟩ | ⟨hf, hp⟩
  · rw [State.working_find hf hv, State.findOrCreate_some hf, hp]
    exact ⟨hv, hprof⟩
  · rw [State.working_fresh hf hl, hp, State.slot_set (s := s) (c := s.allocate.1)
      (by rw [State.findOrCreate_none hf]), if_pos ⟨rfl, State.allocate_lt hl⟩]
    exact ⟨rfl, rfl⟩

/-- The scratch registers that a packet's header is built from: the packet, its context, and the feedback drained. -/
def State.loaded (s : State) (prof : Profile) (par : Parsed) (pkt : List Byte) (max : Nat) (t : U64) : Scratch :=
  { Scratch.zero with
    pkt := pkt
    par := par
    ctx := s.working prof par pkt t
    asm := { Assembly.empty with fb := (s.assembled prof par pkt max t).scr.asm.fb } }

theorem State.assembled_loaded (s : State) (prof : Profile) (par : Parsed) (pkt : List Byte) (max : Nat) (t : U64) :
    (s.assembled prof par pkt max t).scr = (s.loaded prof par pkt max t).buildHeader s.cfg := by
  obtain ⟨bs, h⟩ := s.assembled_scr prof par pkt max t
  obtain ⟨-, -, hfb, -⟩ := Scratch.buildHeader_core s.cfg { Scratch.zero with
    pkt := pkt, par := par, ctx := s.working prof par pkt t, asm := { Assembly.empty with fb := bs } }
  rw [State.loaded, h, hfb]

/-- The header that goes out is that of the packet prepared, built and wrapped. -/
theorem State.assembled_header (s : State) (prof : Profile) (par : Parsed) (pkt : List Byte) (max : Nat) (t : U64) :
    (s.assembled prof par pkt max t).scr.asm.header
      = (((s.loaded prof par pkt max t).prepare s.cfg).build.wrapCid s.cfg.cidType).asm.header := by
  rw [State.assembled_loaded, Scratch.buildHeader, Scratch.updateContext_asm]

theorem State.assembled_hdrEnd (s : State) (prof : Profile) (par : Parsed) (pkt : List Byte) (max : Nat) (t : U64) :
    (s.assembled prof par pkt max t).scr.hdrEnd = (s.loaded prof par pkt max t).hdrEnd := by
  rw [State.assembled_loaded, Scratch.buildHeader_hdrEnd]

theorem Scratch.hdrEnd_ipOnly {sc : Scratch} (h : sc.ctx.profile = .ipOnly) : sc.hdrEnd = sc.par.tpOff := by
  rw [Scratch.hdrEnd, h]

theorem Scratch.hdrEnd_udp {sc : Scratch} (h : sc.ctx.profile = .udp) : sc.hdrEnd = sc.par.tpOff + 8 := by
  rw [Scratch.hdrEnd, h]

theorem Scratch.hdrEnd_uncompressed {sc : Scratch} (h : sc.ctx.profile = .uncompressed) : sc.hdrEnd = 0 := by
  rw [Scratch.hdrEnd, h]

theorem Scratch.prepare_of_empty {sc : Scratch} (h : sc.ctx.block = .empty) (cfg : Cfg) :
    (sc.prepare cfg).ptype = .normal := by
  simp only [Scratch.prepare, Ctx.generic?, h]

/-- Settles O33: the tests one by one, the three ends of `State.finishCompress` on the assembled state, and the
header by `State.assembled_header`. -/
theorem compressResult : Obligations.CompressResult := by
  refine ⟨fun s t inLen outMax ha => ⟨compress_empty ha, fun hin hout => ⟨compress_unparsed ha hin hout,
    fun par hp => ⟨compress_unselected ha hin hout hp, fun prof hsel => ⟨fun hprof => ?_, fun hprof => ?_⟩⟩⟩⟩,
    fun s t inLen outMax pkt par prof hA => ?_⟩
  · refine compress_notAdmitted ha hin hout hp hsel ?_
    rcases hprof with rfl | rfl | rfl <;> rfl
  · refine ⟨ha, hin, hout, rfl, hp, hsel, ?_⟩
    rcases hprof with rfl | rfl | rfl <;> rfl
  · obtain ⟨-, hcfg, hnum, hrru, -⟩ := s.assembled_same prof par pkt outMax.toNat t
    have hpkt := s.assembled_pkt prof par pkt outMax.toNat t
    rw [hA.exec_eq]
    refine ⟨fun hf => ?_, fun hf hs => ?_, fun hf hs => ?_, fun hl => ?_⟩
    · rw [State.finishCompress_fits (by simpa only [List.length_append, hpkt] using hf), State.commit, hnum, hrru, hpkt]
      rfl
    · rw [State.finishCompress_segments (by rwa [hpkt]) (by rwa [hpkt, hcfg]), State.commit, hnum, hrru, hpkt,
        rruUnit_length]
      rfl
    · rw [State.finishCompress_fails (by rwa [hpkt]) (by rwa [hpkt, hcfg]), State.recoverCompress_eq]
    · obtain ⟨hslot, hprof⟩ := State.working_slot hl prof par pkt t
      have built {b : Scratch} (hb : ((s.loaded prof par pkt outMax.toNat t).prepare s.cfg).build = b) :
          (s.assembled prof par pkt outMax.toNat t).scr.asm.header = (b.wrapCid s.cfg.cidType).asm.header :=
        hb ▸ s.assembled_header prof par pkt outMax.toNat t
      have hend := s.assembled_hdrEnd prof par pkt outMax.toNat t
      have htp := parse_tpOff_eq_sum hA.parsed
      exact ⟨s.loaded prof par pkt outMax.toNat t, rfl, rfl, rfl, hslot,
        fun _ hg => Scratch.prepare_of_generic hg _, fun he => Scratch.prepare_of_empty he _,
        fun h => built (Scratch.build_ir h), fun h => built (Scratch.build_irDyn h),
        fun h => built (Scratch.build_uo0 h), fun h => built (Scratch.build_uo1 h),
        fun h => built (Scratch.build_uor2 h), fun h => built (Scratch.build_normal h),
        fun h => hend.trans ((Scratch.hdrEnd_ipOnly (hprof.trans h)).trans htp),
        fun h => hend.trans ((Scratch.hdrEnd_udp (hprof.trans h)).trans (congrArg (· + 8) htp)),
        fun h => hend.trans (Scratch.hdrEnd_uncompressed (hprof.trans h))⟩

end Sys2Proof.Machine

/-!
PROOFS of the family 45_feedback.md: FB_PIGGYBACK, FB_FLUSH and FB_AVAIL, FB_REMOVE_LOCKED and FB_UNLOCK,
FB_DELIVER.
-/
namespace Sys2Proof.Machine
open Sys2Proof

/-! ## The commands of a living block (45_feedback.md R261, R265 to R269) -/

section
variable {s : State} (ha : s.alive = true)
include ha

theorem exec_fbPiggyback (inLen : U32) : exec (.fbPiggyback inLen) s =
    if inLen.toNat = 0 ∨ 255 < inLen.toNat then .next (s.failed 1)
    else if s.fb.isFull = true then .next (s.failed 2)
    else .next (({ s with fb := s.fb.push (s.input inLen) } : State).done [] 0) :=
  whenAlive_alive ha _

theorem exec_fbFlush (outMax : U32) : exec (.fbFlush outMax) s
    = .next ((s.fbDrain outMax.toNat).done (s.fbDrain outMax.toNat).scr.asm.fb 0) :=
  whenAlive_alive ha _

theorem exec_fbAvail : exec .fbAvail s = .next (s.done [] (BitVec.ofNat 32 s.fb.availBytes)) :=
  whenAlive_alive ha _

theorem exec_fbRemoveLocked : exec .fbRemoveLocked s = .next (({ s with fb := s.fb.removeLocked } : State).done [] 0) :=
  whenAlive_alive ha _

theorem exec_fbUnlock : exec .fbUnlock s = .next (({ s with fb := s.fb.unlock } : State).done [] 0) :=
  whenAlive_alive ha _

theorem exec_fbDeliver (inLen : U32) : exec (.fbDeliver inLen) s =
    if inLen.toNat = 0 then .next (s.failed 1) else .next ((s.deliver (s.input inLen)).done [] 0) :=
  whenAlive_alive ha _

end

/-! ## FB_PIGGYBACK (45_feedback.md R260, R261) -/

theorem Ring.isFull_iff (r : Ring) : r.isFull = true ↔ r.first = r.next ∧ 0 < (r.slot r.first).len := by
  rw [Ring.isFull, Bool.and_eq_true, decide_eq_true_iff, decide_eq_true_iff]

/-- Settles O46: the length, then the room, then the slot at `next`. -/
theorem piggyback : Obligations.Piggyback := by
  rintro s inLen _ ha rfl
  simp only [← Ring.isFull_iff, exec_fbPiggyback ha]
  refine ⟨fun hl => if_pos hl, fun h0 hm hf => ?_, fun h0 hm hf => ?_⟩
  · rw [if_neg (by omega), if_pos hf]
  · rw [if_neg (by omega), if_neg hf]
    rfl

/-! ## The slots counted from `first` (10_state.md R37) -/

theorem Ring.rotate_slots {r : Ring} (h : r.slots.length = Config.feedbackRingSize) :
    r.slots.rotate r.first = (List.range Config.feedbackRingSize).map r.at := by
  refine List.ext_getElem (by simp [h]) fun i h1 h2 => ?_
  have hi := ring_index_lt (r.first + i)
  rw [List.getElem_rotate, List.getElem_map, List.getElem_range, Ring.at, Ring.slot,
    List.getD_eq_getElem _ _ (h ▸ hi)]
  simp only [h, Nat.add_comm i]

/-- Every slot lies at some distance from `first`. -/
theorem Ring.exists_at_of_mem {r : Ring} (h : r.slots.length = Config.feedbackRingSize) {f : FbSlot}
    (hf : f ∈ r.slots) : ∃ i < Config.feedbackRingSize, r.at i = f := by
  rw [← List.mem_rotate (n := r.first), Ring.rotate_slots h] at hf
  simpa using hf

/-- Where nothing is locked, FB_UNLOCK finds nothing to do (R266). -/
theorem Ring.Split.unlock_eq_self {r : Ring} {u : Nat} (h : r.Split 0 u) : r.unlock = r := by
  have hopen : ∀ f ∈ r.slots, f.locked = false := by
    intro f hf
    obtain ⟨i, hi, rfl⟩ := Ring.exists_at_of_mem h.size hf
    by_cases hu : i < u
    · simpa using (h.unlocked i hu).1
    · rw [h.free i (by omega) hi, FbSlot.free]
  have hslots : r.slots.map (fun f => { f with locked := false }) = r.slots :=
    (List.map_congr_left fun f hf => by rw [← hopen f hf]; rfl).trans (List.map_id _)
  have hfirst : r.firstUnlocked = r.first := h.firstUnlocked.trans (Nat.mod_eq_of_lt h.first)
  exact congrArg₂ (fun slots b => { r with slots := slots, firstUnlocked := b }) hslots hfirst.symm

/-! ## Blocks in ring order (45_feedback.md R263, R268) -/

theorem Ring.blocks_add (r : Ring) (i m n : Nat) : r.blocks i (m + n) = r.blocks i m ++ r.blocks (i + m) n := by
  simp only [Ring.blocks, List.range_add, List.flatMap_append, List.flatMap_map, Nat.add_assoc]

theorem Ring.blocks_succ_length (r : Ring) (i n : Nat) :
    (r.blocks i (n + 1)).length = (r.blocks i n).length + blockLen (r.at (i + n)).len := by
  rw [Ring.blocks_add, List.length_append, Ring.blocks_succ, Ring.blocks_zero, List.append_nil, feedbackBlock_length]
  rfl

theorem Ring.blocks_length_mono (r : Ring) (i : Nat) {m n : Nat} (h : m ≤ n) :
    (r.blocks i m).length ≤ (r.blocks i n).length := by
  obtain ⟨d, rfl⟩ := Nat.exists_eq_add_of_le h
  rw [Ring.blocks_add, List.length_append]
  exact Nat.le_add_right _ _

/-- What one slot adds to `Ring.pending`: its block while it waits, else nothing. -/
def FbSlot.pending (f : FbSlot) : List Byte := if f.locked = false ∧ 0 < f.len then feedbackBlock f.data else []

theorem FbSlot.availBytes_eq (f : FbSlot) : f.availBytes = f.pending.length := by
  rw [FbSlot.availBytes, FbSlot.pending, apply_ite List.length, feedbackBlock_length]
  rfl

theorem FbSlot.pending_locked {f : FbSlot} (h : f.locked = true) : f.pending = [] := if_neg (by simp [h])

theorem Ring.pending_eq_flatMap (r : Ring) :
    r.pending = (List.range Config.feedbackRingSize).flatMap fun i => (r.at i).pending := rfl

/-- FB_AVAIL sums over the slots as they lie; in ring order they are the same slots, rotated. -/
theorem Ring.availBytes_eq_pending_length {r : Ring} (h : r.slots.length = Config.feedbackRingSize) :
    r.availBytes = r.pending.length := by
  have hsum : (r.slots.map FbSlot.availBytes).sum = ((r.slots.rotate r.first).map FbSlot.availBytes).sum :=
    ((r.slots.rotate_perm r.first).map _).sum_eq.symm
  rw [Ring.availBytes, hsum, Ring.rotate_slots h, Ring.pending_eq_flatMap, List.length_flatMap, List.map_map]
  simp only [Function.comp_def, FbSlot.availBytes_eq]

/-- The entries that wait are the u unlocked ones behind the l locked ones. -/
theorem Ring.Split.pending_eq {r : Ring} {l u : Nat} (h : r.Split l u) : r.pending = r.blocks l u := by
  obtain ⟨f, hf⟩ := Nat.exists_eq_add_of_le h.fits
  have hlocked : (List.range l).flatMap (fun i => (r.at i).pending) = [] :=
    List.flatMap_eq_nil_iff.mpr fun i hi => FbSlot.pending_locked (h.locked i (List.mem_range.mp hi)).1
  have hunlocked : (List.range u).flatMap (fun i => (r.at (l + i)).pending) = r.blocks l u :=
    List.flatMap_congr fun i hi => if_pos (h.unlocked i (List.mem_range.mp hi))
  have hfree : (List.range f).flatMap (fun i => (r.at (l + u + i)).pending) = [] :=
    List.flatMap_eq_nil_iff.mpr fun i hi => by
      rw [h.free _ (Nat.le_add_right _ _) (by have := List.mem_range.mp hi; omega)]
      rfl
  rw [Ring.pending_eq_flatMap, hf, List.range_add, List.range_add, List.flatMap_append, List.flatMap_append,
    List.flatMap_map, List.flatMap_map, hlocked, hunlocked, hfree, List.nil_append, List.append_nil]

/-! ## FB_FLUSH and FB_AVAIL (45_feedback.md R264, R267, R268) -/

/-- A drain stops at the first block that does not fit (R264). -/
theorem Drained.next_block {s t : State} {max l u k : Nat} (d : Drained s t max l u k) (hk : k < u) :
    max < (s.fb.blocks l (k + 1)).length := by
  rw [Ring.blocks_succ_length]
  exact d.stop.resolve_left (Nat.ne_of_lt hk)

/-- A drain with room for every block takes every entry (R268). -/
theorem Drained.all {s t : State} {max l u k : Nat} (d : Drained s t max l u k)
    (hm : (s.fb.blocks l u).length ≤ max) : k = u := by
  refine Nat.le_antisymm d.le (Nat.le_of_not_lt fun hk => ?_)
  exact absurd (d.next_block hk) (Nat.not_lt.mpr ((s.fb.blocks_length_mono l hk).trans hm))

/-- Settles O47: FB_AVAIL sums what `Ring.pending` lists, and a drain with that room takes every entry. -/
theorem flushAndAvail : Obligations.FlushAndAvail := by
  rintro s ha ⟨l, u, hs⟩
  refine ⟨?_, fun outMax hm => ⟨_, exec_fbFlush ha outMax, ?_⟩⟩
  · rw [exec_fbAvail ha, Ring.availBytes_eq_pending_length hs.size]
  · obtain ⟨k, d⟩ := s.fbDrain_drained outMax.toNat hs
    rw [hs.pending_eq] at hm ⊢
    obtain rfl := d.all hm
    have hnone := d.split.pending_eq
    rw [Nat.sub_self, Ring.blocks_zero] at hnone
    refine ⟨?_, hnone, s.fbDrain_unlock _, d.first, s.fbDrain_next _⟩
    rw [d.bytes]
    obtain ⟨fb, bs, e⟩ := s.fbDrain_only outMax.toNat
    rw [e]
    rfl

/-- Settles O48: the number of entries that the drain takes. -/
theorem flushTakesWholeBlocks : Obligations.FlushTakesWholeBlocks := by
  intro s outMax l u ha hs
  obtain ⟨k, d⟩ := s.fbDrain_drained outMax.toNat hs
  exact ⟨_, k, exec_fbFlush ha outMax, d.le, congrArg Memory.ofBytes d.bytes, rfl,
    d.bytes ▸ outLen_toNat (s.fbDrain_length outMax.toNat), d.fits, d.next_block, d.split⟩

/-! ## FB_UNLOCK and FB_REMOVE_LOCKED (45_feedback.md R265, R266, R270) -/

/-- Settles O49: FB_UNLOCK gives the same ring after a drain as before it, and before it does nothing. -/
theorem flushIsUndone : Obligations.FlushIsUndone := by
  intro s outMax u ha hs
  have ht : ((s.fbDrain outMax.toNat).done (s.fbDrain outMax.toNat).scr.asm.fb 0).alive = true :=
    (s.fbDrain_alive _).trans ha
  exact ⟨_, _, exec_fbFlush ha outMax, exec_fbUnlock ht, (s.fbDrain_unlock _).trans hs.unlock_eq_self⟩

/-- Settles O50: slot by slot, by `Ring.Split.removeLocked_at` and `Ring.unlock_at`. -/
theorem removeAndUnlock : Obligations.RemoveAndUnlock := by
  intro s l u ha hs
  have hfits := hs.fits
  exact ⟨⟨_, exec_fbRemoveLocked ha, rfl, hs.removeLocked, rfl, rfl, fun i _ =>
      (hs.removeLocked_at (by omega)).trans (if_pos (by omega))⟩,
    ⟨_, exec_fbUnlock ha, rfl, hs.unlock, rfl, rfl, fun i _ => s.fb.unlock_at i⟩⟩

/-! ## FB_DELIVER (45_feedback.md R269) -/

/-- The top bits of an octet, as a number. -/
theorem extract_top_iff {lo len : Nat} (h : lo + len = 8) (o : Byte) (v : BitVec len) :
    o.extractLsb' lo len = v ↔ o.toNat / 2 ^ lo = v.toNat := by
  have hlt : o.toNat / 2 ^ lo < 2 ^ len :=
    Nat.div_lt_of_lt_mul (o.isLt.trans_eq (by rw [← Nat.pow_add, h]))
  rw [← BitVec.toNat_inj, toNat_extract, Nat.mod_eq_of_lt hlt]

theorem isNack_iff (body : List Byte) : isNack body = true
    ↔ 2 ≤ body.length ∧ ((octet body 0).toNat / 64 = 1 ∨ (octet body 0).toNat / 64 = 2) := by
  simp only [isNack, Bool.and_eq_true, Bool.or_eq_true, decide_eq_true_iff, extract_top_iff]
  rfl

theorem splitElement_addCid {el : List Byte} (h : (octet el 0).toNat / 16 = 14) :
    splitElement .small el = some ((octet el 0).toNat % 16, el.drop 1) := by
  rw [splitElement, if_pos ((extract_top_iff rfl _ _).mpr h), toNat_extract, Nat.pow_zero, Nat.div_one]
  rfl

theorem splitElement_bare {el : List Byte} (h : ¬(octet el 0).toNat / 16 = 14) :
    splitElement .small el = some (0, el) := by
  rw [splitElement, if_neg (mt (extract_top_iff rfl _ _).mp h)]

theorem splitElement_sdvl {el : List Byte} {v n : Nat} (h : sdvlDec el = some (v, n)) (hn : n ≤ 2) :
    splitElement .large el = some (v, el.drop n) := by
  simp only [splitElement, h, if_neg (Nat.not_lt.mpr hn)]

theorem splitElement_malformed {el : List Byte} (h : ∀ v n, sdvlDec el = some (v, n) → 2 < n) :
    splitElement .large el = none := by
  rw [splitElement]
  split
  · rfl
  · rename_i v n hd
    exact if_pos (h v n hd)

/-- A feedback body for CID `cid` sets `force_ir` of its context, which is c (R269). -/
structure State.Nacked (s : State) (cid : Nat) (body : List Byte) (c : Ctx) : Prop where
  inRange : cid ≤ s.cfg.maxCid.toNat
  used : s.slot cid = some c
  profile : c.profile ≠ .uncompressed
  nack : isNack body = true

section
variable {s : State} {el body : List Byte} {cid : Nat} (hsplit : splitElement s.cfg.cidType el = some (cid, body))
include hsplit

theorem State.deliver_nacked {c : Ctx} (h : s.Nacked cid body c) :
    s.deliver el = { s with ctx := s.ctx.set cid (some { c with forceIr := true }) } := by
  obtain ⟨hcid, hslot, hprof, hnack⟩ := h
  have hlen := ((isNack_iff body).mp hnack).1
  simp only [State.deliver, hsplit, hslot]
  rw [if_neg (by omega), if_neg (Nat.not_lt.mpr hcid), if_neg hprof, if_pos hnack, State.forceIr, State.setSlot]

theorem State.deliver_ignored (h : ∀ c, ¬s.Nacked cid body c) : s.deliver el = s := by
  simp only [State.deliver, hsplit]
  split
  · rfl
  split
  · rfl
  rename_i hcid
  split
  · rfl
  rename_i c hslot
  split
  · rfl
  rename_i hprof
  exact if_neg fun hnack => h c ⟨Nat.le_of_not_lt hcid, hslot, hprof, hnack⟩

end

/-- Settles O51: the element is split by the CID type; then its body is a NACK for a context or is ignored. -/
theorem deliver : Obligations.Deliver := by
  rintro s inLen _ ha rfl small sets answers
  have hsets : ∀ cid body c, sets cid body c ↔ s.Nacked cid body c := fun cid body c =>
    ⟨fun ⟨hcid, hslot, hprof, hnack⟩ => ⟨hcid, hslot, hprof, (isNack_iff body).mpr hnack⟩,
      fun h => ⟨h.inRange, h.used, h.profile, (isNack_iff body).mp h.nack⟩⟩
  have hanswers (h0 : inLen.toNat ≠ 0) {cid body}
      (hsplit : splitElement s.cfg.cidType (s.input inLen) = some (cid, body)) : answers cid body := by
    refine ⟨fun c hc => ?_, fun hc => ?_⟩
    · rw [exec_fbDeliver ha, if_neg h0, State.deliver_nacked hsplit ((hsets cid body c).mp hc)]
    · rw [exec_fbDeliver ha, if_neg h0, State.deliver_ignored hsplit fun c h => hc c ((hsets cid body c).mpr h)]
  refine ⟨fun h0 => (exec_fbDeliver ha inLen).trans (if_pos h0),
    fun h0 ht hs => hanswers h0 (ht ▸ splitElement_addCid hs),
    fun h0 ht hs => hanswers h0 (ht ▸ splitElement_bare hs),
    fun h0 ht => ⟨fun v n hd hn => hanswers h0 (ht ▸ splitElement_sdvl hd hn), fun hd => ?_⟩⟩
  rw [exec_fbDeliver ha, if_neg h0, State.deliver, ht, splitElement_malformed hd]

end Sys2Proof.Machine

/-!
PROOFS of the family 46_segmenter.md: GET_SEGMENT, and the unit that its segments reassemble to.
-/
namespace Sys2Proof.Machine
open Sys2Proof

/-! ## The end of GET_SEGMENT (46_segmenter.md R283) -/

theorem exec_getSegment_of_alive {s : State} (ha : s.alive = true) (outMax : U32) :
    exec (.getSegment outMax) s =
      if outMax.toNat = 0 then .next (({ s with fb := s.fb.unlock } : State).failed 1)
      else if s.rru.len = 0 then .next (({ s with fb := s.fb.unlock } : State).failed 7)
      else s.sendSegment outMax.toNat :=
  whenAlive_alive ha _

theorem State.sendSegment_noRoom {s : State} {max : Nat}
    (hr : max - (s.startAssembly.fbDrain max).scr.asm.fb.length < 2) :
    s.sendSegment max = .next (({ s.startAssembly.fbDrain max with
      fb := (s.startAssembly.fbDrain max).fb.unlock } : State).failed 4) := by
  rw [State.sendSegment]
  exact (if_pos hr).trans (congrArg _ (State.raiseUnlocked_eq_failed _ _))

/-- With room for two octets GET_SEGMENT answers, and the RRU moves on by what fills OUT. -/
theorem State.sendSegment_next {s : State} {max : Nat}
    (hr : ¬max - (s.startAssembly.fbDrain max).scr.asm.fb.length < 2) :
    ∃ u, s.sendSegment max = .next u
      ∧ u.rru = s.rru.advance (min s.rru.len (max - (s.startAssembly.fbDrain max).scr.asm.fb.length - 1)) := by
  refine ⟨_, by rw [State.sendSegment]; exact if_neg hr, ?_⟩
  rw [apply_ite State.rru, State.respondOk_rru, State.respondNeedSegment_rru, ite_self]
  simp only [State.emitSegment, State.fbDrain_rru]
  rw [Nat.min_eq_left (Nat.min_le_left ..)]
  rfl

theorem Rru.eq_of_advance_eq {r : Rru} {n k : Nat} (hn : n ≤ r.len) (hk : k ≤ r.len)
    (h : r.advance n = r.advance k) : n = k := by
  have hlen : r.len - n = r.len - k := congrArg Rru.len h
  omega

/-- The type octet of a segment (30_encoding.md R90). -/
theorem segment_octet (p : Prop) [Decidable p] : Wire.segment (bit (decide p)) = if p then 0xFF else 0xFE := by
  by_cases hp : p
  · rw [decide_eq_true hp, if_pos hp]; rfl
  · rw [decide_eq_false hp, if_neg hp]; rfl

/-- The two ends of GET_SEGMENT differ in status and return code only. -/
theorem State.done_or_needSegment (w : State) (out : List Byte) (p : Prop) [Decidable p] :
    (if p then w.done out 0 else w.needSegment out) = { w with
      rsp := { status := if p then 1 else 2, rc := if p then 1 else 2, errc := 0,
               outLen := BitVec.ofNat 32 out.length, val := 0 }
      outBuf := Memory.ofBytes out } := by
  by_cases hp : p
  · simp only [if_pos hp]; rfl
  · simp only [if_neg hp]; rfl

/-- Settles O37: the tests in their order; with room, the chunk of `State.sendSegment_room` is as long as
`State.sendSegment_next` says and has been written. -/
theorem getSegment : Obligations.GetSegment := by
  intro s outMax mrru ha hok w fb room n
  rw [exec_getSegment_of_alive ha]
  refine ⟨fun h0 => if_pos h0, fun h0 hl => by rw [if_neg h0, if_pos hl],
    fun h0 hl hr => by rw [if_neg h0, if_neg hl, State.sendSegment_noRoom hr], fun h0 hl hr => ?_⟩
  rw [if_neg h0, if_neg hl]
  obtain ⟨u, hu, hrru⟩ := State.sendSegment_next (Nat.not_lt.mpr hr)
  obtain ⟨k, bytes, scr, hk0, hk, -, hbytes, he⟩ := State.sendSegment_room hl (Nat.not_lt.mpr hr) hu
  dsimp only at he
  rw [State.done_or_needSegment, segment_octet] at he
  have hkn : k = n := by
    rw [he] at hrru
    exact Rru.eq_of_advance_eq hk (Nat.min_le_left ..) hrru
  subst hkn
  obtain ⟨chunk, hchunk⟩ := hok.readBytes hk
  rw [Memory.bytes_of_readBytes _ hchunk] at hbytes
  subst hbytes
  have hlen := Memory.readBytes_length hchunk
  obtain ⟨ring, blocks, hw⟩ := s.startAssembly.fbDrain_only outMax.toNat
  refine ⟨u, bytes, hu, hchunk, hlen, hk0, ?_⟩
  rw [he]
  refine ⟨rfl, ?_, rfl, rfl, ?_⟩
  · rw [List.length_append, List.length_append, hlen]
    rfl
  · rw [hw]
    rfl

/-! ## Reassembly (46_segmenter.md R284) -/

/-- The segments carry `unit` up to `left`, which is still to send; the type octet of each tells whether it
empties the unit. -/
structure Reassembles (segs : List (List Byte)) (unit left : List Byte) : Prop where
  bytes : (segs.map fun g => g.drop 1).flatten ++ left = unit
  chunks : ∀ g ∈ segs, 2 ≤ g.length
  types : ∀ i g, segs[i]? = some g → g.head? = some (if i + 1 = segs.length ∧ left = [] then 0xFF else 0xFE)

theorem Reassembles.nil (unit : List Byte) : Reassembles [] unit unit :=
  ⟨rfl, by simp, by simp⟩

/-- Every segment carries a byte, so an empty unit has none. -/
theorem Reassembles.unit_eq_nil_iff {segs : List (List Byte)} {unit left : List Byte}
    (h : Reassembles segs unit left) : unit = [] ↔ segs = [] ∧ left = [] := by
  constructor
  · rintro rfl
    obtain ⟨hflat, hleft⟩ := List.append_eq_nil_iff.mp h.bytes
    refine ⟨List.eq_nil_iff_forall_not_mem.mpr fun g hg => ?_, hleft⟩
    have hdrop : g.drop 1 = [] := List.flatten_eq_nil_iff.mp hflat _ (List.mem_map_of_mem hg)
    have hle : g.length ≤ 1 := List.drop_eq_nil_iff.mp hdrop
    exact absurd (h.chunks g hg) (by omega)
  · rintro ⟨rfl, rfl⟩
    exact h.bytes.symm

theorem Reassembles.cons {segs : List (List Byte)} {chunk rest left : List Byte} (h : Reassembles segs rest left)
    (hc : 0 < chunk.length) :
    Reassembles (((if rest = [] then 0xFF else 0xFE) :: chunk) :: segs) (chunk ++ rest) left where
  bytes := by
    rw [List.map_cons, List.flatten_cons, List.append_assoc, h.bytes]
    rfl
  chunks := List.forall_mem_cons.mpr ⟨Nat.succ_le_succ hc, h.chunks⟩
  types := by
    rintro (_ | i) g hg
    · cases hg
      simp [h.unit_eq_nil_iff]
    · simpa using h.types i g hg

theorem Memory.readBytes_ofBytes (bs : List Byte) : (Memory.ofBytes bs).readBytes 0 bs.length = some bs :=
  Memory.readBytes_eq_some.mpr ⟨rfl, fun i _ => by rw [Memory.read_ofBytes, Nat.zero_add]⟩

theorem Rru.rest_eq_nil_iff {r : Rru} {rest : List Byte} (h : r.rest = some rest) : rest = [] ↔ r.len = 0 := by
  rw [← Memory.readBytes_length h, List.length_eq_zero_iff]

/-- A chunk sent is the front of what the RRU held. -/
theorem Rru.rest_of_advance {r : Rru} {n : Nat} {chunk rest : List Byte} (hn : n ≤ r.len)
    (hc : r.buf.readBytes r.off n = some chunk) (hr : (r.advance n).rest = some rest) :
    r.rest = some (chunk ++ rest) := by
  by_cases he : n = r.len
  · have hnil : rest = [] := (Rru.rest_eq_nil_iff hr).mpr (by rw [Rru.advance, he, Nat.sub_self])
    rw [hnil, List.append_nil, Rru.rest, ← he, hc]
  · rw [Rru.rest, Rru.advance] at hr
    dsimp only at hr
    rw [if_neg he] at hr
    have := Memory.readBytes_add hc hr
    rwa [Nat.add_sub_cancel' hn] at this

/-- What OUT holds behind the drained feedback is the segment. -/
theorem segmentOf_of_out {s u : State} {outMax : U32} {seg : List Byte}
    (hout : u.outBuf = Memory.ofBytes ((s.startAssembly.fbDrain outMax.toNat).scr.asm.fb ++ seg))
    (hlen : u.rsp.outLen
      = BitVec.ofNat 32 ((s.startAssembly.fbDrain outMax.toNat).scr.asm.fb ++ seg).length)
    (hmax : ((s.startAssembly.fbDrain outMax.toNat).scr.asm.fb ++ seg).length ≤ outMax.toNat) :
    segmentOf s u outMax = seg := by
  rw [segmentOf, hout, hlen, outLen_toNat hmax, Memory.readBytes_ofBytes, Option.getD_some, List.drop_left]

/-- One GET_SEGMENT that succeeds: its segment is a chunk in front of what is left, after the type octet. -/
theorem segmentOf_spec {s u : State} {outMax : U32} {mrru : Nat} (hok : s.rru.Ok mrru)
    (h : exec (.getSegment outMax) s = .next u) (hs : u.rsp.status ≠ 0) :
    ∃ chunk rest, 0 < chunk.length ∧ s.rru.rest = some (chunk ++ rest) ∧ u.rru.rest = some rest ∧ u.rru.Ok mrru
      ∧ segmentOf s u outMax = (if rest = [] then 0xFF else 0xFE) :: chunk := by
  cases exec_getSegment h with
  | failed | unlocked | noRoom => exact absurd rfl hs
  | config _ _ hi => cases hi
  | segment _ n bytes scr hn0 hn hm hbytes =>
    obtain ⟨chunk, hchunk⟩ := hok.readBytes hn
    rw [Memory.bytes_of_readBytes _ hchunk] at hbytes
    subst hbytes
    have hok' := hok.advance hn
    obtain ⟨rest, hrest⟩ := hok'.readBytes le_rfl
    have hlast : rest = [] ↔ n = s.rru.len := (Rru.rest_eq_nil_iff hrest).trans (by
      rw [Rru.advance]
      dsimp only
      omega)
    have hlen := Memory.readBytes_length hchunk
    refine ⟨bytes, rest, by omega, Rru.rest_of_advance hn hchunk hrest, ?_⟩
    dsimp only
    rw [State.done_or_needSegment, segment_octet]
    refine ⟨hrest, hok', ?_⟩
    simp only [hlast]
    refine segmentOf_of_out (congrArg _ (List.append_assoc ..)) (by rw [List.append_assoc]; rfl) ?_
    rw [List.length_append, List.length_cons]
    omega

theorem fetchSegments_cons {m : U32} {ms : List U32} {s t : State} {segs : List (List Byte)}
    (h : fetchSegments (m :: ms) s = some (segs, t)) :
    ∃ u gs, exec (.getSegment m) s = .next u ∧ u.rsp.status ≠ 0 ∧ fetchSegments ms u = some (gs, t)
      ∧ segs = segmentOf s u m :: gs := by
  rw [fetchSegments] at h
  split at h
  · rename_i u hu
    split at h
    · cases h
    · rename_i hs
      obtain ⟨⟨gs, t'⟩, hr, he⟩ := Option.map_eq_some_iff.mp h
      cases he
      exact ⟨u, gs, hu, hs, hr, rfl⟩
  · cases h

theorem fetchSegments_reassembles {outMaxes : List U32} {s t : State} {segs : List (List Byte)} {mrru : Nat}
    {unit : List Byte} (hok : s.rru.Ok mrru) (hunit : s.rru.rest = some unit)
    (h : fetchSegments outMaxes s = some (segs, t)) : ∃ left, t.rru.rest = some left ∧ Reassembles segs unit left := by
  induction outMaxes generalizing s segs unit with
  | nil =>
    cases h
    exact ⟨unit, hunit, .nil unit⟩
  | cons m ms ih =>
    obtain ⟨u, gs, hu, hs, hgs, rfl⟩ := fetchSegments_cons h
    obtain ⟨chunk, rest, hc, hsplit, hrest, hok', hseg⟩ := segmentOf_spec hok hu hs
    obtain ⟨left, hleft, hre⟩ := ih hok' hrest hgs
    cases hunit.symm.trans hsplit
    exact ⟨left, hleft, hseg ▸ hre.cons hc⟩

/-- Settles O38, by induction on the list of buffer sizes. -/
theorem segmentsReassemble : Obligations.SegmentsReassemble := by
  intro outMaxes s t segs mrru unit hok hunit h
  obtain ⟨left, hleft, hre⟩ := fetchSegments_reassembles hok hunit h
  exact ⟨left, hleft, hre.bytes, hre.chunks, hre.types⟩

end Sys2Proof.Machine

/-!
PROOFS of the family 47_commands.md: the five configuration commands, the RTP port list, REINIT and RD_CFG.
-/
namespace Sys2Proof.Machine
open Sys2Proof

/-! ## The configuration commands of a living block (47_commands.md R300, R304 to R308, R314) -/

section
variable {s : State} (ha : s.alive = true) (hn : s.numPackets = 0)
include ha hn

theorem exec_profEnable_none {a : U32} (h : operandProfile a = none) :
    exec (.profEnable a) s = .next (s.failed 6) := by
  rw [exec, execProfEnable, whenConfigurable_free ha hn, h]
  rfl

theorem exec_profDisable_none {a : U32} (h : operandProfile a = none) :
    exec (.profDisable a) s = .next (s.failed 6) := by
  rw [exec, execProfDisable, whenConfigurable_free ha hn, h]
  rfl

theorem exec_profEnable_some {a : U32} {p : Profile} (h : operandProfile a = some p) :
    exec (.profEnable a) s = .next (({ s with cfg := { s.cfg with
      profilesEn := s.cfg.profilesEn ||| p.mask } } : State).done [] 0) := by
  rw [exec, execProfEnable, whenConfigurable_free ha hn, h]
  rfl

theorem exec_profDisable_some {a : U32} {p : Profile} (h : operandProfile a = some p) :
    exec (.profDisable a) s = .next (({ s with cfg := { s.cfg with
      profilesEn := s.cfg.profilesEn &&& ~~~p.mask } } : State).done [] 0) := by
  rw [exec, execProfDisable, whenConfigurable_free ha hn, h]
  rfl

theorem exec_setWlsb (w : U32) : exec (.setWlsb w) s =
    if isPowerOfTwo w = false ∨ 64 < w.toNat then .next (s.failed 6)
    else .next (({ s with cfg := { s.cfg with wlsbWidth := w.setWidth 7 } } : State).done [] 0) :=
  whenConfigurable_free ha hn _

theorem exec_setRefresh (ir fo : U32) : exec (.setRefresh ir fo) s =
    if fo.toNat < ir.toNat ∧ 0 < fo.toNat then
      .next (({ s with cfg := { s.cfg with irTimeout := ir, foTimeout := fo } } : State).done [] 0)
    else .next (s.failed 6) :=
  whenConfigurable_free ha hn _

theorem exec_setMrru (n : U32) : exec (.setMrru n) s =
    if 65535 < n.toNat then .next (s.failed 6)
    else .next (({ s with cfg := { s.cfg with mrru := n.setWidth 16 } } : State).done [] 0) :=
  whenConfigurable_free ha hn _

end

/-- Settles O42: each of the five begins with the test of the phase. -/
theorem configLocked : Obligations.ConfigLocked := by
  intro i s hi ha hn
  cases i
  case profEnable | profDisable | setWlsb | setRefresh | setMrru => exact whenConfigurable_locked ha hn _
  all_goals cases hi

/-! ## PROF_ENABLE and PROF_DISABLE (47_commands.md R304, R305) -/

/-- The operand that names a profile: its id, the upper half 0 (30_encoding.md R83). -/
def Profile.operand (p : Profile) : U32 := p.id.setWidth 32

theorem operandProfile_operand (p : Profile) : operandProfile p.operand = some p := by
  cases p <;> rfl

/-- A word whose upper half is 0 is its lower half. -/
theorem eq_setWidth_of_halves {a : U32} {v : U16} (hi : a.extractLsb' 16 16 = (0 : U16))
    (lo : a.extractLsb' 0 16 = v) : a = v.setWidth 32 := by
  have h1 := congrArg BitVec.toNat hi
  have h0 := congrArg BitVec.toNat lo
  rw [toNat_extract, show (0 : U16).toNat = 0 from rfl] at h1
  rw [toNat_extract] at h0
  have := a.isLt
  apply BitVec.eq_of_toNat_eq
  rw [BitVec.toNat_setWidth]
  omega

theorem operandProfile_eq_none {a : U32} (h : ∀ p ∈ registry, a ≠ p.operand) : operandProfile a = none := by
  rw [operandProfile]
  split
  · rename_i hi
    refine List.find?_eq_none.mpr fun p hp hid => h p hp ?_
    exact eq_setWidth_of_halves hi (eq_of_beq hid).symm
  · rfl

/-- The operands and the bits of the registry (30_encoding.md R108). -/
theorem registry_operands : registry.map (fun p => (p.operand, p.bit)) =
    [(0x0001, 0), (0x0002, 1), (0x0008, 2), (0x0003, 3), (0x0006, 4), (0x0004, 5), (0x0000, 6)] := by
  decide

/-- Settles O39: the table of the statement is the registry's, and an operand outside it names no profile. -/
theorem profileBits : Obligations.ProfileBits := by
  intro s a ha hn
  rw [← registry_operands]
  refine ⟨List.forall_mem_map.mpr fun p _ hp => ?_, fun h => ?_⟩
  · have hp : operandProfile a = some p := hp ▸ operandProfile_operand p
    exact ⟨exec_profEnable_some ha hn hp, exec_profDisable_some ha hn hp⟩
  · have hnone := operandProfile_eq_none fun p hp => h _ (List.mem_map_of_mem hp)
    exact ⟨exec_profEnable_none ha hn hnone, exec_profDisable_none ha hn hnone⟩

/-! ## SET_WLSB, SET_REFRESH, SET_MRRU (47_commands.md R306 to R308) -/

/-- The test of R306 finds the powers of two. -/
theorem isPowerOfTwo_iff (w : U32) : isPowerOfTwo w = true ↔ w.toNat.isPowerOfTwo := by
  by_cases h0 : w = 0
  · subst h0
    exact iff_of_false (by decide) fun ⟨k, hk⟩ => (Nat.two_pow_pos k).ne hk
  · have hpos : w.toNat ≠ 0 := fun h => h0 (BitVec.eq_of_toNat_eq h)
    have hpred : (w - 1).toNat = w.toNat - 1 :=
      BitVec.toNat_sub_of_le (BitVec.le_def.mpr (Nat.one_le_iff_ne_zero.mpr hpos))
    rw [← Nat.and_sub_one_eq_zero_iff_isPowerOfTwo hpos, ← hpred, ← BitVec.toNat_and,
      isPowerOfTwo, Bool.and_eq_true, beq_iff_eq, bne_iff_ne, and_iff_right h0, ← BitVec.toNat_inj]
    rfl

/-- The widths that pass both tests of R306. -/
theorem wlsbWidth_legal_iff (w : U32) :
    ¬(isPowerOfTwo w = false ∨ 64 < w.toNat) ↔ ∃ k, k ≤ 6 ∧ w.toNat = 2 ^ k := by
  rw [not_or, Bool.not_eq_false, Nat.not_lt, isPowerOfTwo_iff]
  have hk (k : Nat) : 2 ^ k ≤ 64 ↔ k ≤ 6 := Nat.pow_le_pow_iff_right (by decide : 1 < 2) (m := 6)
  constructor
  · rintro ⟨⟨k, hw⟩, hm⟩
    exact ⟨k, (hk k).mp (hw ▸ hm), hw⟩
  · rintro ⟨k, hm, hw⟩
    exact ⟨⟨k, hw⟩, hw ▸ (hk k).mpr hm⟩

/-- Settles O40: a width is taken iff it is a power of two up to 64. -/
theorem setWlsb : Obligations.SetWlsb := by
  intro s w ha hn
  rw [exec_setWlsb ha hn, BitVec.ofNat_toNat]
  refine ⟨fun h => if_neg ((wlsbWidth_legal_iff w).mpr h), fun h => if_pos ?_⟩
  by_contra hw
  obtain ⟨k, hk, e⟩ := (wlsbWidth_legal_iff w).mp hw
  exact h k hk e

/-- Settles O41: each command is one test. -/
theorem setRefreshAndMrru : Obligations.SetRefreshAndMrru := by
  refine ⟨fun s ir fo ha hn => ?_, fun s n ha hn => ?_⟩
  · rw [exec_setRefresh ha hn]
    exact ⟨fun h => if_pos h, fun h => if_neg h⟩
  · rw [exec_setMrru ha hn, BitVec.ofNat_toNat]
    exact ⟨fun h => if_neg (Nat.not_lt.mpr h), fun h => if_pos h⟩

/-! ## The RTP port list (47_commands.md R309 to R311) -/

theorem portOperand_eq_none {port : U32} (h : port.toNat < 1 ∨ 65535 < port.toNat) : portOperand port = none :=
  if_pos h

theorem portOperand_eq_some {port : U32} (h1 : 1 ≤ port.toNat) (h2 : port.toNat ≤ 65535) :
    portOperand port = some (BitVec.ofNat 16 port.toNat) :=
  if_neg (by omega)

section
variable {s : State} (ha : s.alive = true) {port : U32}
include ha

theorem exec_rtpPortAdd_none (h : portOperand port = none) : exec (.rtpPortAdd port) s = .next (s.failed 6) := by
  rw [exec, execRtpPortAdd, whenAlive_alive ha, h]
  rfl

theorem exec_rtpPortAdd_some {p : U16} (h : portOperand port = some p) : exec (.rtpPortAdd port) s =
    if p ∈ s.rtpPorts then .next (s.failed 6)
    else if 15 ≤ s.rtpPorts.length then .next (s.failed 2)
    else .next (({ s with rtpPorts := s.rtpPorts ++ [p] } : State).done [] 0) := by
  rw [exec, execRtpPortAdd, whenAlive_alive ha, h]
  simp only [List.contains_iff_mem]
  rfl

theorem exec_rtpPortRemove_none (h : portOperand port = none) :
    exec (.rtpPortRemove port) s = .next (s.failed 6) := by
  rw [exec, execRtpPortRemove, whenAlive_alive ha, h]
  rfl

theorem exec_rtpPortRemove_some {p : U16} (h : portOperand port = some p) : exec (.rtpPortRemove port) s =
    if p ∈ s.rtpPorts then
      .next ((({ s with rtpPorts := s.rtpPorts.erase p } : State).destroyPort p).done [] 0)
    else .next (s.failed 6) := by
  rw [exec, execRtpPortRemove, whenAlive_alive ha, h]
  simp only [List.contains_iff_mem]
  rfl

theorem exec_rtpPortReset : exec .rtpPortReset s = .next (({ s with rtpPorts := [] } : State).done [] 0) :=
  whenAlive_alive ha _

end

/-- Settles O43: range, duplicate, capacity, in this order. -/
theorem rtpPortAddReset : Obligations.RtpPortAddReset := by
  refine ⟨fun s port ha => ⟨fun h => exec_rtpPortAdd_none ha (portOperand_eq_none h), fun h1 h2 => ?_⟩,
    fun s ha => exec_rtpPortReset ha⟩
  rw [exec_rtpPortAdd_some ha (portOperand_eq_some h1 h2)]
  refine ⟨fun hp => if_pos hp, fun hp hl => ?_, fun hp hl => ?_⟩
  · rw [if_neg hp, if_pos hl]
  · rw [if_neg hp, if_neg (Nat.not_le.mpr hl)]

/-- A slot after one operation on every slot that leaves the unused ones unused. -/
theorem State.slot_map {s t : State} {f : Option Ctx → Option Ctx} (h : t.ctx = s.ctx.map f)
    (h0 : f none = none) (c : Nat) : t.slot c = f (s.slot c) := by
  rw [State.slot, State.slot, h, List.getElem?_map]
  cases s.ctx[c]? with
  | none => exact h0.symm
  | some v => rfl

theorem State.slot_destroyPort (s : State) (p : U16) (c : Nat) :
    (s.destroyPort p).slot c = if slotUsesPort p (s.slot c) = true then none else s.slot c :=
  State.slot_map (s.destroyPort_ctx p) (ite_self _) c

/-- A UDP context uses its source and its destination port (41_frontend.md R168). -/
theorem slotUsesPort_udp {v : Ctx} {ks : List KeyHdr} {src dst : U16} (hp : v.profile = .udp)
    (hk : v.key = .udp ks src dst) (p : U16) : slotUsesPort p (some v) = true ↔ src = p ∨ dst = p := by
  simp [slotUsesPort, Ctx.usesUdpPort, hp, hk]

/-- A context of a profile without ports uses none (41_frontend.md R168). -/
theorem slotUsesPort_portless {v : Ctx} (hp : v.profile = .ipOnly ∨ v.profile = .uncompressed) (p : U16) :
    slotUsesPort p (some v) = false := by
  rcases hp with hp | hp <;> simp [slotUsesPort, Ctx.usesUdpPort, hp]

/-- Settles O44: the slots that use the port are emptied, and only these; every command keeps the count. -/
theorem rtpPortRemove : Obligations.RtpPortRemove := by
  intro s port ha p
  refine ⟨fun h => exec_rtpPortRemove_none ha (portOperand_eq_none h), fun h1 h2 hp => ?_,
    fun h1 h2 hp hnd hcount => ?_⟩
  · rw [exec_rtpPortRemove_some ha (portOperand_eq_some h1 h2), if_neg hp]
  · have hslot (c) : ((({ s with rtpPorts := s.rtpPorts.erase p } : State).destroyPort p).done [] 0).slot c
        = if slotUsesPort p (s.slot c) = true then none else s.slot c :=
      State.slot_destroyPort _ p c
    refine ⟨_, (exec_rtpPortRemove_some ha (portOperand_eq_some h1 h2)).trans (if_pos hp), rfl,
      fun q => hnd.mem_erase_iff.trans and_comm, (CommandStep.portRemove port p hp).countOk hcount,
      fun c hc => ?_, fun c v hv => ⟨fun ks src dst hprof hkey => ?_, fun hprof => ?_⟩⟩
    · rw [hslot, hc, ite_self]
    · rw [hslot, hv]
      exact if_congr (slotUsesPort_udp hprof hkey p) rfl rfl
    · rw [hslot, hv, if_neg (by simp [slotUsesPort_portless hprof])]

/-! ## REINIT and RD_CFG (47_commands.md R312, R313) -/

section
variable {s : State} (ha : s.alive = true)
include ha

theorem exec_reinit : exec .reinit s = .next (({ s with ctx := s.ctx.map reinitSlot } : State).done [] 0) :=
  whenAlive_alive ha _

theorem exec_rdCfg_none {sel : U32} (h : cfgRead s.cfg sel = none) :
    exec (.rdCfg sel) s = .next (s.failed 6) := by
  rw [exec, execRdCfg, whenAlive_alive ha, h]
  rfl

theorem exec_rdCfg_some {sel v : U32} (h : cfgRead s.cfg sel = some v) :
    exec (.rdCfg sel) s = .next (s.done [] v) := by
  rw [exec, execRdCfg, whenAlive_alive ha, h]
  rfl

end

/-- R313 names three registers. -/
theorem cfgRead_eq_none (cfg : Cfg) {sel : U32} (h0 : sel ≠ 0) (h1 : sel ≠ 1) (h2 : sel ≠ 2) :
    cfgRead cfg sel = none := by
  rw [cfgRead]
  split
  · next h => exact absurd (BitVec.eq_of_toNat_eq h) h0
  · next h => exact absurd (BitVec.eq_of_toNat_eq h) h1
  · next h => exact absurd (BitVec.eq_of_toNat_eq h) h2
  · rfl

/-- Settles O45: REINIT is one operation on every slot, RD_CFG one case per selector. -/
theorem reinitAndRdCfg : Obligations.ReinitAndRdCfg := by
  refine ⟨fun s ha => ⟨_, exec_reinit ha, rfl, List.length_map _, fun c => ?_⟩, fun s sel ha => ⟨?_, ?_, ?_, ?_⟩⟩
  · refine (State.slot_map (s := s) (f := reinitSlot) rfl rfl c).trans ?_
    cases s.slot c <;> rfl
  · rintro rfl
    rw [BitVec.ofNat_toNat]
    exact exec_rdCfg_some ha rfl
  · rintro rfl
    rw [BitVec.ofNat_toNat]
    exact exec_rdCfg_some ha rfl
  · rintro rfl
    refine exec_rdCfg_some ha ?_
    rw [cfgRead]
    cases s.cfg.cidType <;> rfl
  · exact fun h0 h1 h2 => exec_rdCfg_none ha (cfgRead_eq_none s.cfg h0 h1 h2)

end Sys2Proof.Machine

/-!
PROOFS of the families 60_exceptions.md and 70_reset_and_hazards.md: the locked phase, what an error leaves, and a
dead block.
-/
namespace Sys2Proof.Machine
open Sys2Proof

/-! ## A step that is no reset -/

/-- What a step is that is no reset: the block waits, a command answers on the port that HOST has written, with
an error where the op is unassigned, or an internal operation runs. -/
theorem step_of_not_reset {s t : State} (h : step s = .next t)
    (hr : ∀ ct m q, s.queue ≠ .reset ct m :: q) :
    t = s
    ∨ (∃ c input q i, CommandStep ((s.setQueue q).latch c input) i t)
    ∨ ∃ q i, isCommand i = false ∧ exec i (s.setQueue q) = .next t := by
  rcases step_cases h with
    ⟨-, rfl⟩ | ⟨c, input, q, -, ⟨i, hi, h⟩ | ⟨-, rfl⟩ | ⟨-, rfl⟩⟩ | ⟨_, _, q, i, -, hi, h⟩ | ⟨ct, m, q, hq, -⟩
  · exact .inl rfl
  · exact .inr (.inl ⟨c, input, q, i, exec_command hi h⟩)
  · exact .inr (.inl ⟨c, input, q, .reinit, .failed _ 8 (by decide) (by decide)⟩)
  · exact .inr (.inl ⟨c, input, q, .reinit, .failed _ 9 (by decide) (by decide)⟩)
  · exact .inr (.inr ⟨q, i, hi, h⟩)
  · exact absurd hq (hr ct m q)

/-- An internal operation neither ends nor begins a life of the block, configures nothing and counts no packet. -/
theorem exec_wire_frame {s t : State} {i : Instr} (hi : isCommand i = false) (h : exec i s = .next t) :
    t.alive = s.alive ∧ t.cfg = s.cfg ∧ t.numPackets = s.numPackets := by
  rcases exec_wire hi h with ⟨sc, rfl⟩ | ⟨-, sc, rfl⟩ | ⟨n, sc, -, rfl⟩ <;> exact ⟨rfl, rfl, rfl⟩

/-- Only a reset revives or ends a block. -/
theorem step_alive {s t : State} (h : step s = .next t) (hr : ∀ ct m q, s.queue ≠ .reset ct m :: q) :
    t.alive = s.alive := by
  rcases step_of_not_reset h hr with rfl | ⟨c, input, q, i, C⟩ | ⟨q, i, hi, h⟩
  · rfl
  · exact C.alive_inBuf.1
  · exact (exec_wire_frame hi h).1

/-! ## The locked phase (60_exceptions.md R350, 47_commands.md R314) -/

/-- In the locked phase a configuration command can only fail, and only COMPRESS writes the packet count, which
it counts up. -/
theorem CommandStep.locked {s t : State} {i : Instr} (h : CommandStep s i t) (hs : 0 < s.numPackets) :
    t.cfg = s.cfg ∧ 0 < t.numPackets := by
  have F := h.frame
  cases h with
  | failed => exact ⟨rfl, hs⟩
  | config _ cfg _ hn => exact absurd hn hs.ne'
  | sent | segmented => exact ⟨F.cfg rfl, satInc_pos _⟩
  | recovered t _ m pkt par prof =>
    obtain ⟨-, -, hn, -⟩ := s.assembled_same prof par pkt m.toNat t
    refine ⟨F.cfg rfl, ?_⟩
    rw [State.recoverCompress_eq]
    exact hs.trans_eq hn.symm
  | _ => exact ⟨F.cfg rfl, hs.trans_eq (F.packets (by simp [opOf, encode, commandOf])).1.symm⟩

/-- Settles O55: the step of a command by `CommandStep.locked`; an internal operation touches neither. -/
theorem lockedPhase : Obligations.LockedPhase := by
  intro s t hs h
  by_cases hr : ∃ ct m q, s.queue = .reset ct m :: q
  · exact .inl hr
  · refine .inr ?_
    rcases step_of_not_reset h fun ct m q hq => hr ⟨ct, m, q, hq⟩ with rfl | ⟨c, input, q, i, C⟩ | ⟨q, i, hi, h⟩
    · exact ⟨rfl, hs⟩
    · exact C.locked (s := (s.setQueue q).latch c input) hs
    · obtain ⟨-, hcfg, hn⟩ := exec_wire_frame hi h
      exact ⟨hcfg, hs.trans_eq hn.symm⟩

/-! ## What a COMPRESS without room leaves (60_exceptions.md R345, R346) -/

/-- A slot written with what it holds. -/
theorem State.ctx_set_same {s : State} {c : Nat} {v : Option Ctx} (h : s.ctx[c]? = some v) :
    s.ctx.set c v = s.ctx := by
  obtain ⟨hl, rfl⟩ := List.getElem?_eq_some_iff.mp h
  exact List.set_getElem_self hl

/-- The recovery of a packet whose context was found leaves the ring unlocked, and nothing more but SCR. -/
theorem State.recovered_found {s : State} {prof : Profile} {par : Parsed} {pkt : List Byte} {c : Nat} {v : Ctx}
    (h : s.find prof (prof.key profileExt pkt par) = some c) (hv : s.slot c = some v) (max : Nat) (t : U64) :
    ∃ sc, (s.assembled prof par pkt max t).recoverCompress c false (s.slot c)
      = { s with fb := s.fb.unlock, scr := sc } := by
  have hunlock := s.assembled_unlock prof par pkt max t
  obtain ⟨fb, sc, e⟩ := s.assembled_eq prof par pkt max t
  rw [State.findOrCreate_some h] at e
  rw [State.recoverCompress_eq, hunlock, e, hv]
  exact ⟨sc, by simp [State.ctx_set_same (State.slot_getElem hv)]⟩

/-- The recovery of a packet whose context was new leaves the ring unlocked, the slot free, and one draw
consumed. -/
theorem State.recovered_fresh {s : State} {prof : Profile} {par : Parsed} {pkt : List Byte}
    (h : s.find prof (prof.key profileExt pkt par) = none) (saved : Option Ctx) (max : Nat) (t : U64) :
    ∃ sc, (s.assembled prof par pkt max t).recoverCompress s.allocate.1 true saved = { s with
      fb := s.fb.unlock
      ctx := s.ctx.set s.allocate.1 none
      numContextsUsed := if s.allocate.2 = true then s.numContextsUsed - 1 else s.numContextsUsed
      randIn := s.randIn.tail
      draws := s.draws + 1
      scr := sc } := by
  have hunlock := s.assembled_unlock prof par pkt max t
  obtain ⟨fb, sc, e⟩ := s.assembled_eq prof par pkt max t
  rw [State.findOrCreate_none h] at e
  rw [State.recoverCompress_eq, hunlock, e]
  exact ⟨sc, by simp [List.set_set]⟩

theorem State.slot_ne_none_of_evicts {s : State} (h : s.allocate.2 = true) {d : Nat} (hd : d < s.ctx.length) :
    s.slot d ≠ none := by
  rcases s.allocate_cases (Nat.zero_lt_of_lt hd) with ⟨hfree, -⟩ | ⟨-, hused, -⟩
  · exact absurd h (Bool.eq_false_iff.mp hfree)
  · exact hused d hd

/-- A COMPRESS that ends with OUTPUT_TOO_SMALL is the recovery of the packet under way. -/
theorem exec_compress_outputTooSmall {s u : State} {t : U64} {inLen outMax : U32}
    (h : exec (.compress t inLen outMax) s = .next u) (hs : u.rsp.status = 0) (he : u.rsp.errc = 4) :
    ∃ prof par pkt, u = ((s.assembled prof par pkt outMax.toNat t).recoverCompress
      (s.pick prof (prof.key profileExt pkt par)).1 (s.pick prof (prof.key profileExt pkt par)).2
      (s.slot (s.pick prof (prof.key profileExt pkt par)).1)).failed 4 := by
  cases exec_compress h with
  | failed _ e h4 => exact absurd he h4
  | config _ _ hi => cases hi
  | sent | segmented => cases hs
  | recovered _ _ _ pkt par prof => exact ⟨prof, par, pkt, rfl⟩

/-- Settles O34: a context that was found by `State.recovered_found`, a new one by `State.recovered_fresh`. -/
theorem compressRecovery : Obligations.CompressRecovery := by
  intro s u t inLen outMax h hs he
  obtain ⟨prof, par, pkt, rfl⟩ := exec_compress_outputTooSmall h hs he
  rcases s.pick_cases prof (prof.key profileExt pkt par) with ⟨c, v, hf, hp, hv, -⟩ | ⟨hf, hp⟩
  · obtain ⟨sc, e⟩ := State.recovered_found hf hv outMax.toNat t
    rw [hp, e]
    exact ⟨rfl, rfl, rfl, rfl, rfl, rfl, rfl, rfl, .inl ⟨rfl, rfl⟩, .inl rfl⟩
  · obtain ⟨sc, e⟩ := State.recovered_fresh hf (s.slot s.allocate.1) outMax.toNat t
    rw [hp, e]
    refine ⟨rfl, rfl, rfl, rfl, rfl, rfl, rfl, rfl, ?_, .inr rfl⟩
    cases ha : s.allocate.2 with
    | false => exact .inl ⟨State.ctx_set_same (State.allocate_free ha).2, rfl⟩
    | true => exact .inr ⟨fun _ => State.slot_ne_none_of_evicts ha, rfl, rfl, rfl⟩

/-! ## What the other errors leave (60_exceptions.md R342, 45_feedback.md R270) -/

/-- An error of a command other than GET_SEGMENT, and other than OUTPUT_TOO_SMALL, leaves the state as it was. -/
theorem CommandStep.error {s t : State} {i : Instr} (h : CommandStep s i t) (hi : ∀ outMax, i ≠ .getSegment outMax)
    (hs : t.rsp.status = 0) (h4 : t.rsp.errc ≠ 4) : t = s.failed t.rsp.errc := by
  cases h with
  | failed => rfl
  | unlocked | noRoom | segment => exact absurd rfl (hi _)
  | recovered => exact absurd rfl h4
  | _ => cases hs

/-- An error of GET_SEGMENT in a living block unlocks the ring, and nothing more (log 21). -/
theorem exec_getSegment_error {s t : State} {outMax : U32} (ha : s.alive = true)
    (h : exec (.getSegment outMax) s = .next t) (hs : t.rsp.status = 0) (h4 : t.rsp.errc ≠ 4) :
    t = ({ s with fb := s.fb.unlock } : State).failed t.rsp.errc := by
  rw [exec_getSegment_of_alive ha] at h
  split at h
  · cases h
    rfl
  split at h
  · cases h
    rfl
  rename_i hl
  by_cases hr : outMax.toNat - (s.startAssembly.fbDrain outMax.toNat).scr.asm.fb.length < 2
  · rw [State.sendSegment_noRoom hr] at h
    cases h
    exact absurd rfl h4
  · obtain ⟨n, chunk, scr, -, -, -, -, rfl⟩ := State.sendSegment_room hl hr h
    dsimp only at hs
    split at hs <;> cases hs

/-- Settles O52: GET_SEGMENT by `exec_getSegment_error`, where an ordered ring with no locked entry has nothing to
unlock; every other command by `CommandStep.error`. -/
theorem errorsChangeNothing : Obligations.ErrorsChangeNothing := by
  intro i s t hi h hs h4 _
  by_cases hget : ∃ outMax, i = .getSegment outMax
  · obtain ⟨outMax, rfl⟩ := hget
    rcases Bool.eq_false_or_eq_true s.alive with ha | hdead
    · have e := exec_getSegment_error ha h hs h4
      refine ⟨fun hquiet => ?_, fun _ _ _ => e⟩
      rcases hquiet with hne | hdead | ⟨u, hsplit⟩
      · exact absurd rfl (hne outMax)
      · exact absurd ha (Bool.eq_false_iff.mp hdead)
      · rwa [hsplit.unlock_eq_self] at e
    · rw [exec_dead hdead hi] at h
      cases h
      exact ⟨fun _ => rfl, fun _ _ ha => absurd ha (Bool.eq_false_iff.mp hdead)⟩
  · exact ⟨fun _ => (exec_command hi h).error (fun m e => hget ⟨m, e⟩) hs h4, fun m e => absurd ⟨m, e⟩ hget⟩

/-! ## A dead block (70_reset_and_hazards.md R372) -/

theorem step_undecoded {s : State} {c : Command} {input : List Byte} {q : List Issue} {e : DecodeError}
    (hq : s.queue = .command c input :: q) (hd : decode (.command c) = .error e) :
    step s = ((s.setQueue q).latch c input).badOp := by
  simp only [step, stepWith, hq, State.latch_cmd, hd]

/-- A dead block ends every command with DEAD, also one whose op is unassigned. -/
theorem step_dead {s : State} {c : Command} {input : List Byte} {q : List Issue} (ha : s.alive = false)
    (hq : s.queue = .command c input :: q) : step s = .next (((s.setQueue q).latch c input).failed 8) := by
  have ha' : ((s.setQueue q).latch c input).alive = false := ha
  cases hd : decode (.command c) with
  | ok r => rw [step_command hq hd, exec_dead ha' (decode_isCommand hd)]
  | error e => rw [step_undecoded hq hd, State.badOp, whenAlive_dead ha']

/-- Settles O8: illegal straps by `State.applyReset_illegal`, the commands by `step_dead`, the revival by
`step_alive`. -/
theorem deadBlock : Obligations.DeadBlock := by
  refine ⟨fun s ct m q hq hm => ⟨_, step_reset hq, State.applyReset_illegal hm⟩, fun s i ha hi => exec_dead ha hi,
    fun s c input q ha hq => step_dead ha hq, fun s t ha h ht => ?_⟩
  by_cases hr : ∃ ct m q, s.queue = .reset ct m :: q
  · obtain ⟨ct, m, q, hq⟩ := hr
    refine ⟨ct, m, q, hq, Nat.le_of_not_lt fun hm => ?_⟩
    rw [step_reset hq] at h
    cases h
    rw [State.applyReset_illegal hm] at ht
    cases ht
  · have hdead := step_alive h fun ct m q hq => hr ⟨ct, m, q, hq⟩
    rw [hdead, ha] at ht
    cases ht

end Sys2Proof.Machine
